-- ==== Sys2Proof/Word.lean ====
section
/-! DEFINITION. The words of the part and the tables that hold a fixed number of like things. -/

namespace Sys2Proof

/-- One byte of a cell or of an order body. -/
abbrev Byte := BitVec 8

/-- A 16-bit field: a service number, a product code, an event id, an order tag. -/
abbrev Half := BitVec 16

/-- A 32-bit field: network seconds, a key word, a tally. Addition on it wraps modulo 2^32. -/
abbrev Word := BitVec 32

/-- A table of exactly `n` rows, indexed from 0: the manual's numbered records. The rows stand in a
list together with the fact that there are `n` of them, so no index below `n` is ever missing. -/
structure Table (α : Type) (n : Nat) where
  rows : List α
  size : rows.length = n
  deriving DecidableEq, Repr

/-- The table whose every row is `x`. -/
def Table.filled {α : Type} (n : Nat) (x : α) : Table α n :=
  ⟨List.replicate n x, List.length_replicate⟩

/-- Row `i`. -/
def Table.read {α : Type} {n : Nat} (t : Table α n) (i : Fin n) : α :=
  t.rows[i.val]'(t.size.symm ▸ i.isLt)

/-- The table with row `i` replaced. -/
def Table.write {α : Type} {n : Nat} (t : Table α n) (i : Fin n) (x : α) : Table α n :=
  ⟨t.rows.set i.val x, by simp [t.size]⟩

/-- The table with `f` worked on every row. -/
def Table.map {α β : Type} {n : Nat} (f : α → β) (t : Table α n) : Table β n :=
  ⟨t.rows.map f, by simp [t.size]⟩

/-- The rows in ascending order, each with its index. -/
def Table.entries {α : Type} {n : Nat} (t : Table α n) : List (Fin n × α) :=
  (List.finRange n).zip t.rows

/-- The lowest index whose row satisfies `p`. -/
def Table.firstIdx {α : Type} {n : Nat} (p : α → Bool) (t : Table α n) : Option (Fin n) :=
  (t.entries.find? fun e => p e.2).map (·.1)

/-- How many rows satisfy `p`. -/
def Table.count {α : Type} {n : Nat} (p : α → Bool) (t : Table α n) : Nat :=
  t.rows.countP p

end Sys2Proof
end

