-- ==== Sys2Proof/Config.lean ====
section
/-! DEFINITION. What one implementation fixes: the free values, constants without a body that no proof can look into.
A claim about the model holds whatever they are. -/

namespace Sys2Proof.Config

/-- Free value: which of the announcements that stand ready is taken next, where the manual says that either order
may come about (R35, R52, R57, R100, R105, R121, R146). It is applied to `State.freeCount`, which advances at every use. See log entry 3. -/
opaque takerChoice : Nat → Nat

/-- Free value: the byte that a reply gives for a count that does not fit in one byte (256 started marks or
256 required flow entries; R59 and R171 give such a count one byte and state no result). See log entry 9. -/
opaque wideCount : Nat → Byte

/-- Free value: the four bytes that a reply gives for a PERIOD unlock whose until time lies above 4,294,967,295
(R138, R141 and R171 give the field four bytes and state no result). See log entry 10. -/
opaque wideUntil : Nat → Word

end Sys2Proof.Config
end

