-- ==== Sys2Proof/Syntax.lean ====
section
/-! DEFINITION. The commands of the part: one constructor of `Instr` for each row of spec/opcode_table.json. -/

namespace Sys2Proof

/-- A feed F0 to F7. -/
abbrev FeedId := Fin 8
/-- A destination D0 to D11. -/
abbrev DestId := Fin 12
/-- A delivery port P0 to P3. -/
abbrev PortId := Fin 4

/-- The payload of a cell: 184 bytes (section 1.1). -/
abbrev Payload := Table Byte 184

/-- A cell of 192 bytes: the eight header bytes (10.6, cell header) and the payload. The header stands as
bytes, so that a malformed cell is a cell too (R2), and bits the part does not know are carried (R172). -/
structure Cell where
  /-- Byte 0, the sync. -/
  sync : Byte
  /-- Byte 1: key phase in bits 7-6, flow id bits 13-8 in bits 5-0. -/
  phaseFlow : Byte
  /-- Byte 2: flow id bits 7-0. -/
  flowLow : Byte
  /-- Byte 3: unit-start in bit 7, the sequence in bits 4-0. -/
  startSeq : Byte
  /-- Byte 4, the route. -/
  route : Byte
  /-- Byte 5, carried as it arrived. -/
  spareA : Byte
  /-- Byte 6, carried as it arrived. -/
  spareB : Byte
  /-- Byte 7, the header check. -/
  check : Byte
  payload : Payload
  deriving DecidableEq, Repr

/-- The commands. Events of the pins, timers and the timebase first, then the orders of the host, then the reset pin.
An order is an order record (10.6): its tag and its body as bytes; the body length is the length of the list, so a
record of a wrong length (R163) is written too. -/
inductive Instr where
  /-- FEED_CELL_ARRIVAL: a cell arrives at a feed input (R5, R6, R7). -/
  | feedCellArrival (feed : FeedId) (cell : Cell)
  /-- SILENCE_TIMER_EXPIRY (R8). -/
  | silenceTimerExpiry (feed : FeedId)
  /-- TIMEBASE_TICK (R26). -/
  | timebaseTick
  /-- SOURCE_SILENCE_TIMER_EXPIRY (R34). -/
  | sourceSilenceTimerExpiry
  /-- ACQUISITION_TIMER_EXPIRY (R73). -/
  | acquisitionTimerExpiry (dest : DestId)
  /-- HOLD_TIMER_EXPIRY (R142). -/
  | holdTimerExpiry (dest : DestId)
  /-- DRAIN: the downstream device of the port raises its accept signal (R154). -/
  | drain (port : PortId)
  /-- SLOT_TIMER_EXPIRY, with the accept signal as the port finds it (R155). -/
  | slotTimerExpiry (port : PortId) (ready : Bool)
  /-- DRAIN_WATCH_EXPIRY (R156). -/
  | drainWatchExpiry (port : PortId)
  /-- COMMAND_CELL: the host sends a cell on the host link (R161). -/
  | commandCell (cell : Cell)
  /-- UNKNOWN_ORDER: an order record whose code is not in the list of orders (R163). -/
  | unknownOrder (code : Byte) (tag : Half) (body : List Byte)
  /-- EMISSION: the host takes the head of the outbound queue (R168). -/
  | emission
  /-- FEED_ENABLE (R10). -/
  | feedEnable (tag : Half) (body : List Byte)
  /-- FEED_DISABLE (R11). -/
  | feedDisable (tag : Half) (body : List Byte)
  /-- FEED_CONFIGURE (R12). -/
  | feedConfigure (tag : Half) (body : List Byte)
  /-- READ_FEED (R13). -/
  | readFeed (tag : Half) (body : List Byte)
  /-- SET_FLOW (R20). -/
  | setFlow (tag : Half) (body : List Byte)
  /-- CLEAR_FLOW (R21). -/
  | clearFlow (tag : Half) (body : List Byte)
  /-- READ_FLOW (R22). -/
  | readFlow (tag : Half) (body : List Byte)
  /-- SET_TIME_SOURCE (R38). -/
  | setTimeSource (tag : Half) (body : List Byte)
  /-- READ_TIME (R39). -/
  | readTime (tag : Half) (body : List Byte)
  /-- SET_SERVICE (R41). -/
  | setService (tag : Half) (body : List Byte)
  /-- CLEAR_SERVICE (R42). -/
  | clearService (tag : Half) (body : List Byte)
  /-- READ_SERVICE (R43). -/
  | readService (tag : Half) (body : List Byte)
  /-- BIND_DESTINATION (R45). -/
  | bindDestination (tag : Half) (body : List Byte)
  /-- READ_DESTINATION (R59). -/
  | readDestination (tag : Half) (body : List Byte)
  /-- SELECT (R61). -/
  | select (tag : Half) (body : List Byte)
  /-- TAKE (R68). -/
  | take (tag : Half) (body : List Byte)
  /-- DISCARD_CHANGES (R69). -/
  | discardChanges (tag : Half) (body : List Byte)
  /-- READ_CHANGES (R69). -/
  | readChanges (tag : Half) (body : List Byte)
  /-- RELEASE (R70). -/
  | release (tag : Half) (body : List Byte)
  /-- SET_ACQUIRE_TIME (R71). -/
  | setAcquireTime (tag : Half) (body : List Byte)
  /-- LOAD_KEY_QUARTER (R78). -/
  | loadKeyQuarter (tag : Half) (body : List Byte)
  /-- SET_COMMIT_MASK (R81). -/
  | setCommitMask (tag : Half) (body : List Byte)
  /-- CLEAR_KEY (R82). -/
  | clearKey (tag : Half) (body : List Byte)
  /-- READ_KEY_STATE (R83). -/
  | readKeyState (tag : Half) (body : List Byte)
  /-- GRANT_ENTITLEMENT (R95). -/
  | grantEntitlement (tag : Half) (body : List Byte)
  /-- REVOKE_ENTITLEMENT (R96). -/
  | revokeEntitlement (tag : Half) (body : List Byte)
  /-- READ_ENTITLEMENT (R97). -/
  | readEntitlement (tag : Half) (body : List Byte)
  /-- PURGE_GUIDE (R122). -/
  | purgeGuide (tag : Half) (body : List Byte)
  /-- QUERY_EVENT (R123). -/
  | queryEvent (tag : Half) (body : List Byte)
  /-- QUERY_NEXT (R124). -/
  | queryNext (tag : Half) (body : List Byte)
  /-- READ_GUIDE (R125). -/
  | readGuide (tag : Half) (body : List Byte)
  /-- SET_PROFILE (R129). -/
  | setProfile (tag : Half) (body : List Byte)
  /-- READ_PROFILE (R130). -/
  | readProfile (tag : Half) (body : List Byte)
  /-- ADD_ALLOWANCE (R133). -/
  | addAllowance (tag : Half) (body : List Byte)
  /-- GRANT_UNLOCK (R138). -/
  | grantUnlock (tag : Half) (body : List Byte)
  /-- RESOLVE_HOLD (R141). -/
  | resolveHold (tag : Half) (body : List Byte)
  /-- READ_PARENTAL (R144). -/
  | readParental (tag : Half) (body : List Byte)
  /-- PORT_CONFIGURE (R149). -/
  | portConfigure (tag : Half) (body : List Byte)
  /-- PORT_START (R150). -/
  | portStart (tag : Half) (body : List Byte)
  /-- PORT_STOP (R151). -/
  | portStop (tag : Half) (body : List Byte)
  /-- PORT_CLEAR (R157). -/
  | portClear (tag : Half) (body : List Byte)
  /-- READ_PORT (R159). -/
  | readPort (tag : Half) (body : List Byte)
  /-- ACK_ATTENTION (R176). -/
  | ackAttention (tag : Half) (body : List Byte)
  /-- SET_ATTENTION_MASK (R175). -/
  | setAttentionMask (tag : Half) (body : List Byte)
  /-- SNAPSHOT_TALLIES (R177). -/
  | snapshotTallies (tag : Half) (body : List Byte)
  /-- READ_IDENTITY (R178). -/
  | readIdentity (tag : Half) (body : List Byte)
  /-- RESET_PART (R180). -/
  | resetPart (tag : Half) (body : List Byte)
  /-- RESET_ASSERT: the reset pin is asserted (R179). -/
  | resetAssert
  /-- RESET_RELEASE: the reset pin is released (R179). -/
  | resetRelease
  deriving DecidableEq, Repr

end Sys2Proof
end

