-- ==== Sys2Proof/Machine/State.lean ====
section
/-! DEFINITION. State: every piece of state that the spec gives the part, block by block, as plain data, and its
value right after a power-on reset. INVENTORY.md lists each item with its rule. -/

namespace Sys2Proof.Machine

/-- A timer on the 1 ms timebase: `none` when stopped, the milliseconds left when running; 0 left means
that its expiry is due (log entry 5). -/
abbrev Timer := Option Nat

/-! ## Feed receivers (1.2) -/

/-- The feed state (R4). -/
inductive FeedState where
  | off | unsettled | locked | lapsed
  deriving DecidableEq, Repr

/-- The per-feed tallies (1.4), in the reply order of section 11.3. -/
structure FeedTallies where
  arrived : Word
  settling : Word
  malformed : Word
  fill : Word
  unmatched : Word
  duplicate : Word
  gap : Word
  routed : Word
  forwarded : Word
  consumed : Word
  discarded : Word
  badClock : Word
  deriving DecidableEq, Repr

/-- The names of the per-feed tallies (1.4). -/
inductive FeedTally where
  | arrived | settling | malformed | fill | unmatched | duplicate | gap | routed
  | forwarded | consumed | discarded | badClock
  deriving DecidableEq, Repr

/-- The feed record (1.2.1). -/
structure Feed where
  state : FeedState
  settleRun : Nat
  lapseRun : Nat
  /-- The silence timer. -/
  silence : Timer
  /-- The silence timeout in milliseconds. -/
  timeout : Nat
  /-- Sequence checking ON. -/
  checking : Bool
  tallies : FeedTallies
  deriving DecidableEq, Repr

/-! ## Flow classifier (1.3) -/

/-- The role of a PROGRAMME entry. -/
inductive Role where
  | video | audio | subtitle | data
  deriving DecidableEq, Repr

/-- The programme fields of a PROGRAMME entry (1.3.1). -/
structure Programme where
  service : Fin 64
  role : Role
  required : Bool
  keySlot : Option (Fin 32)
  deriving DecidableEq, Repr

/-- The kind of a flow entry; only PROGRAMME entries hold the programme fields. -/
inductive FlowKind where
  | programme (p : Programme)
  | accessMessage | guide | clock | discard
  deriving DecidableEq, Repr

/-- A valid flow entry (1.3.1). -/
structure FlowEntry where
  /-- The feed match; `none` is ANY. -/
  feedMatch : Option FeedId
  flowId : BitVec 14
  mask : BitVec 14
  kind : FlowKind
  /-- The last sequence, or absent. -/
  lastSeq : Option (BitVec 5)
  deriving DecidableEq, Repr

/-! ## Time unit (2.1) -/

/-- The time state (R25). -/
inductive TimeState where
  | unset | disciplined | free
  deriving DecidableEq, Repr

/-- The time unit (R24). -/
structure TimeUnit where
  /-- T, network seconds. -/
  sec : Word
  /-- M, milliseconds within the second. -/
  ms : Nat
  state : TimeState
  /-- The pending slew P in milliseconds. -/
  slew : Int
  /-- The time source; `none` is NONE. -/
  source : Option FeedId
  /-- The local offset in minutes. -/
  offset : Int
  /-- The source silence timer. -/
  silence : Timer
  deriving DecidableEq, Repr

/-! ## Destination controller (3, 4) -/

/-- A valid service record (3.1). -/
structure Service where
  number : Half
  /-- The product code, or absent. -/
  product : Option Half
  deriving DecidableEq, Repr

/-- The kind of a destination. -/
inductive DestKind where
  | view | record
  deriving DecidableEq, Repr

/-- The role mask: a set drawn from the four roles. -/
structure RoleMask where
  video : Bool
  audio : Bool
  subtitle : Bool
  data : Bool
  deriving DecidableEq, Repr

/-- The destination state (3.2.3). -/
inductive DestState where
  | vacant | acquiring | presenting | stalled | held | withheld
  deriving DecidableEq, Repr

/-- The restriction reasons (R135): a set drawn from RATING, QUIET and ALLOWANCE. -/
structure Limits where
  rating : Bool
  quiet : Bool
  allowance : Bool
  deriving DecidableEq, Repr

/-- The reason set of a destination (R44). -/
structure Reasons where
  access : Bool
  limits : Limits
  declined : Bool
  noAnswer : Bool
  port : Bool
  key : Bool
  deriving DecidableEq, Repr

/-- The cause of a DENIED verdict (3.4). -/
inductive DenyCause where
  | timeUnset | noSubscription | noPurchase
  deriving DecidableEq, Repr

/-- The access verdict; a cause is present with DENIED alone (3.4). -/
inductive AccessVerdict where
  | free | entitled | preview
  | denied (cause : DenyCause)
  deriving DecidableEq, Repr

/-- The parental verdict (R136). -/
inductive ParentalVerdict where
  | clear | covered | restricted
  deriving DecidableEq, Repr

/-- The hold condition (R134). -/
inductive HoldCondition where
  | none | opened | declined | noAnswer
  deriving DecidableEq, Repr

/-- The parental report (3.4). -/
structure ParentalReport where
  verdict : ParentalVerdict
  uncovered : Limits
  hold : HoldCondition
  serial : Byte
  deriving DecidableEq, Repr

/-- The per-destination tallies (R44), in the reply order of section 11.3. -/
structure DestTallies where
  delivered : Word
  dropped : Word
  unkeyed : Word
  purged : Word
  notices : Word
  deriving DecidableEq, Repr

/-- The destination record (R44). -/
structure Dest where
  kind : DestKind
  port : PortId
  profile : Fin 8
  roles : RoleMask
  state : DestState
  service : Option (Fin 64)
  /-- The started marks: flow entry indexes in ascending order, without duplicates. -/
  marks : List (Fin 256)
  reasons : Reasons
  unkeyedRun : Nat
  /-- The acquisition timer. -/
  acquisition : Timer
  access : Option AccessVerdict
  parental : Option ParentalReport
  noticeSeq : BitVec 5
  tallies : DestTallies
  deriving DecidableEq, Repr

/-- The destination controller's state. -/
structure Controller where
  services : Table (Option Service) 64
  dests : Table Dest 12
  /-- Whether each port is halted, as the port last announced it (R44). -/
  halted : Table Bool 4
  /-- The change set in list order (R60). -/
  changes : List (DestId × Fin 64)
  /-- The acquisition time in milliseconds (R71). -/
  acquireTime : Nat
  deriving DecidableEq, Repr

/-! ## Descrambler (5.1) -/

/-- Four 32-bit quantities numbered 0 to 3: key words, or staging quarters. -/
structure Quarters where
  q0 : Word
  q1 : Word
  q2 : Word
  q3 : Word
  deriving DecidableEq, Repr

/-- One phase of a key slot: its state (VALID or EMPTY), key words and staging quarters. -/
structure KeyPhase where
  valid : Bool
  key : Quarters
  staging : Quarters
  deriving DecidableEq, Repr

/-- One key slot: two phases and the commit mask, with bit q for quarter q (R81). -/
structure KeySlot where
  a : KeyPhase
  b : KeyPhase
  commitMask : BitVec 4
  deriving DecidableEq, Repr

/-! ## Access unit (6) -/

/-- The key of an entitlement record (R94). -/
inductive EntitlementKey where
  | subscription (product : Half)
  | event (product id : Half)
  deriving DecidableEq, Repr

/-- An entitlement record (6.1.1). -/
structure Entitlement where
  key : EntitlementKey
  start : Word
  stop : Word
  deriving DecidableEq, Repr

/-- The access unit's state. -/
structure AccessUnit where
  table : Table (Option Entitlement) 48
  /-- The last report per destination (R99). -/
  last : Table (Option AccessVerdict) 12
  deriving DecidableEq, Repr

/-! ## Guide builder (7) -/

/-- An open assembly slot (7.1). The bytes gathered are the length of the buffer. -/
structure Assembly where
  entry : Fin 256
  feed : FeedId
  flowId : BitVec 14
  service : Half
  length : Nat
  buffer : List Byte
  deriving DecidableEq, Repr

/-- A filled entry of the section register (R115). -/
structure RegisterEntry where
  service : Half
  section_ : Byte
  version : Byte
  deriving DecidableEq, Repr

/-- A record of the event table (7.4). Its origin is (service, originSection). -/
structure EventRecord where
  service : Half
  id : Half
  start : Word
  duration : Nat
  /-- The end as held: start + duration, at most 4,294,967,295 (R114). -/
  stop : Word
  rating : Byte
  /-- The product code; 0 is none. -/
  product : Half
  /-- The preview seconds. -/
  preview : Nat
  title : Half
  originSection : Byte
  deriving DecidableEq, Repr

/-- The nine guide counters, in the order of R127. -/
structure GuideCounters where
  applied : Word
  repeated : Word
  abandoned : Word
  busy : Word
  crcFailed : Word
  formatFailed : Word
  registerFull : Word
  skipped : Word
  evictions : Word
  deriving DecidableEq, Repr

/-- The guide builder's state. -/
structure Guide where
  slots : Table (Option Assembly) 4
  register : Table (Option RegisterEntry) 128
  /-- The event table, in ascending order of service number and, within one, of start (7.4). -/
  events : List EventRecord
  /-- The current event per service index (R119). -/
  current : Table (Option Half) 64
  counters : GuideCounters
  deriving DecidableEq, Repr

/-! ## Parental unit (8) -/

/-- What happens at a restriction (R140). -/
inductive Policy where
  | blank | ask
  deriving DecidableEq, Repr

/-- A limited allowance: the daily minutes and the remaining seconds. -/
structure Allowance where
  minutes : Nat
  remaining : Nat
  deriving DecidableEq, Repr

/-- A profile (8.1). -/
structure Profile where
  ceiling : Nat
  /-- The unrated policy is RESTRICT. -/
  restrictUnrated : Bool
  quietStart : Nat
  quietStop : Nat
  /-- The allowance and remaining seconds; `none` is UNLIMITED. -/
  allowance : Option Allowance
  lastRefill : Int
  policy : Policy
  /-- The ask timeout in seconds. -/
  askTimeout : Nat
  deriving DecidableEq, Repr

/-- An unlock (R134). -/
inductive Unlock where
  | event (id : Half)
  | period (untilTime : Nat)
  deriving DecidableEq, Repr

/-- The formed verdict (R134). -/
structure Formed where
  verdict : ParentalVerdict
  present : Limits
  uncovered : Limits
  deriving DecidableEq, Repr

/-- The parental unit's record of one destination (8.3). -/
structure Viewer where
  formed : Option Formed
  unlock : Option Unlock
  hold : HoldCondition
  serial : Byte
  /-- The hold timer. -/
  timer : Timer
  /-- The access bar is placed. -/
  barred : Bool
  last : Option ParentalReport
  deriving DecidableEq, Repr

/-- The parental unit's state. -/
structure ParentalUnit where
  profiles : Table Profile 8
  viewers : Table Viewer 12
  deriving DecidableEq, Repr

/-! ## Delivery ports (9) -/

/-- The port state (R148). -/
inductive PortState where
  | off | running | halted
  deriving DecidableEq, Repr

/-- The mode of a port. -/
inductive PortMode where
  | demand | paced
  deriving DecidableEq, Repr

/-- The port record (9.1). -/
structure Port where
  state : PortState
  mode : PortMode
  /-- The slot period in microseconds. -/
  slotPeriod : Nat
  /-- The underrun policy is FILL (else SKIP). -/
  underrunFill : Bool
  /-- The overflow policy is HALT (else DROP). -/
  overflowHalt : Bool
  queue : List Cell
  /-- The slot timer is running (its expiry is a command of its own, log entry 5). -/
  slotRunning : Bool
  /-- The drain watch. -/
  watch : Timer
  /-- OVERFLOW is latched. -/
  overflow : Bool
  /-- UNHEARD is latched. -/
  unheard : Bool
  emitted : Word
  fillEmitted : Word
  /-- The accept pin: the downstream device has raised accept with nothing presented (R154). -/
  accept : Bool
  deriving DecidableEq, Repr

/-! ## Host link (10) and attention unit (11) -/

/-- The command cell in progress, with the place of its next order record (10.1). -/
structure CommandCell where
  cell : Cell
  pos : Nat
  /-- The records still to come stand after a taken RESET_PART and are answered DISCARDED (R180). -/
  discarding : Bool
  deriving DecidableEq, Repr

/-- A cell of the outbound queue (R168). -/
inductive OutCell where
  | report (c : Cell)
  | forwarded (c : Cell)
  deriving DecidableEq, Repr

/-- The attention causes (11.1), in order of priority. -/
inductive Cause where
  | time | feedLapse | port | hold | accessLapse | allowance | stall | guideFull | forwardDrop
  deriving DecidableEq, Repr

/-- An attention record (R174). -/
structure AttentionRecord where
  cause : Cause
  source : Byte
  serial : Byte
  others : Nat
  deriving DecidableEq, Repr

/-- The host link's state (10.1, R168, R169). -/
structure HostLink where
  command : Option CommandCell
  /-- The cells that the host has sent and the link holds off, oldest first: not taken, and not lost (R170, log entry 30). -/
  arriving : List Cell
  /-- The records of the open report cell; `none` when no report cell is open. -/
  filling : Option (List Byte)
  /-- Report cells that are closed and wait for a place; the spec's rules let one wait (R166, log entry 12). -/
  waiting : List Cell
  /-- The attention record that waits outside the report cells (R167). -/
  waitingRecord : Option AttentionRecord
  outbound : List OutCell
  reportSeq : BitVec 5
  forwardDrops : Word
  deriving DecidableEq, Repr

/-- A pending source with its hold serial (0 but for HOLD) (R173). -/
structure Pending where
  source : Byte
  serial : Byte
  deriving DecidableEq, Repr

/-- What the attention unit holds per cause (R173): the mask flag and the pending set, in ascending order of source. -/
structure CauseState where
  enabled : Bool
  pending : List Pending
  deriving DecidableEq, Repr

/-- The presentation: the cause, source and serial last presented (R173). -/
structure Presentation where
  cause : Cause
  source : Byte
  serial : Byte
  deriving DecidableEq, Repr

/-- The attention unit's state. -/
structure Attention where
  causes : Table CauseState 9
  presented : Option Presentation
  /-- The latched snapshot per group 0 to 24 (R177). -/
  snapshots : Table (List Word) 25
  deriving DecidableEq, Repr

/-! ## The whole part -/

/-- A cell that has left the part: on a delivery output or on the outbound side of the host link. -/
inductive Sent where
  | port (p : PortId) (c : Cell)
  | host (c : Cell)
  deriving DecidableEq, Repr

/-- The state of the part. -/
structure State where
  feeds : Table Feed 8
  /-- The flow table: `none` is an invalid entry, all its fields and its last sequence absent (R14). -/
  flows : Table (Option FlowEntry) 256
  time : TimeUnit
  ctl : Controller
  keys : Table KeySlot 32
  access : AccessUnit
  guide : Guide
  parental : ParentalUnit
  ports : Table Port 4
  link : HostLink
  attention : Attention
  /-- The reset pin is asserted (R179). -/
  resetPin : Bool
  /-- The model's own field: the cells emitted so far, oldest first (log entry 4). -/
  sent : List Sent
  /-- The model's own field: how many free choices have been made (log entry 3). -/
  freeCount : Nat
  /-- The model's own field: outcomes fixed beforehand for the next free choices, to follow one order of events;
  empty means that every choice is free (log entry 3). -/
  script : List Nat
  /-- The commands that wait, first in, first out. -/
  pending : List Instr
  deriving DecidableEq, Repr

/-- Why a step can stop with a fault. The part has no behaviour that stops it, and the spec leaves no command without an
effect: there is no fault. -/
inductive Fault where
  deriving DecidableEq, Repr

/-- Why a step can refuse a command. -/
inductive Refusal where
  /-- Raised by an arm of `exec` for a command that has no meaning yet; safe. No arm raises it. -/
  | notModelled (mnemonic : String)
  deriving DecidableEq, Repr

/-! ## Power-on values -/

/-- No reasons. -/
def Limits.empty : Limits := ⟨false, false, false⟩

/-- The empty reason set. -/
def Reasons.empty : Reasons := ⟨false, .empty, false, false, false, false⟩

/-- All twelve tallies 0 (R23). -/
def FeedTallies.zero : FeedTallies := ⟨0, 0, 0, 0, 0, 0, 0, 0, 0, 0, 0, 0⟩

/-- The feed record after a power-on reset (1.2.1). -/
def Feed.reset : Feed :=
  { state := .off, settleRun := 0, lapseRun := 0, silence := none, timeout := 20, checking := true,
    tallies := .zero }

/-- The time unit after a power-on reset (R24). -/
def TimeUnit.reset : TimeUnit :=
  { sec := 0, ms := 0, state := .unset, slew := 0, source := none, offset := 0, silence := none }

/-- A destination after a power-on reset (R44). -/
def Dest.reset : Dest :=
  { kind := .view, port := 0, profile := 0, roles := ⟨true, true, true, true⟩, state := .vacant, service := none,
    marks := [], reasons := .empty, unkeyedRun := 0, acquisition := none, access := none, parental := none,
    noticeSeq := 0, tallies := ⟨0, 0, 0, 0, 0⟩ }

/-- The destination controller after a power-on reset (R40, R44, R60, R71). -/
def Controller.reset : Controller :=
  { services := .filled 64 none, dests := .filled 12 .reset, halted := .filled 4 false, changes := [],
    acquireTime := 1500 }

/-- Four zero quantities. -/
def Quarters.zero : Quarters := ⟨0, 0, 0, 0⟩

/-- An EMPTY phase with nothing staged (R76). -/
def KeyPhase.reset : KeyPhase := ⟨false, .zero, .zero⟩

/-- A key slot after a power-on reset: the commit mask is the set of quarter 3 (R76). -/
def KeySlot.reset : KeySlot := ⟨.reset, .reset, 8⟩

/-- The access unit after a power-on reset (R94, R99). -/
def AccessUnit.reset : AccessUnit := ⟨.filled 48 none, .filled 12 none⟩

/-- The guide builder after a power-on reset (R110, R115, R117, R119, R127). -/
def Guide.reset : Guide :=
  { slots := .filled 4 none, register := .filled 128 none, events := [], current := .filled 64 none,
    counters := ⟨0, 0, 0, 0, 0, 0, 0, 0, 0⟩ }

/-- A profile after a power-on reset (8.1). -/
def Profile.reset : Profile :=
  { ceiling := 15, restrictUnrated := false, quietStart := 0, quietStop := 0, allowance := none, lastRefill := 0,
    policy := .blank, askTimeout := 30 }

/-- The parental unit's record of a destination after every reset (8.3). -/
def Viewer.reset : Viewer :=
  { formed := none, unlock := none, hold := .none, serial := 0, timer := none, barred := false, last := none }

/-- The parental unit after a power-on reset (R128, R134). -/
def ParentalUnit.reset : ParentalUnit := ⟨.filled 8 .reset, .filled 12 .reset⟩

/-- A port after a power-on reset (R147). The accept pin is the downstream device's (log entry 6). -/
def Port.reset : Port :=
  { state := .off, mode := .demand, slotPeriod := 100, underrunFill := false, overflowHalt := false, queue := [],
    slotRunning := false, watch := none, overflow := false, unheard := false, emitted := 0, fillEmitted := 0,
    accept := false }

/-- The host link after a power-on reset (10.1, R179). -/
def HostLink.reset : HostLink :=
  { command := none, arriving := [], filling := none, waiting := [], waitingRecord := none, outbound := [], reportSeq := 0,
    forwardDrops := 0 }

/-- The zero snapshot of a group: as many zeros as the group has tallies (11.3). -/
def zeroSnapshot (group : Nat) : List Word :=
  List.replicate (if group < 8 then 12 else if group < 20 then 5 else if group < 24 then 2 else 1) 0

/-- The latched snapshots after a power-on reset (R177). -/
def snapshotsReset : Table (List Word) 25 :=
  ⟨(List.range 25).map zeroSnapshot, by simp⟩

/-- The attention unit after a power-on reset (R175, R177, R179). -/
def Attention.reset : Attention :=
  { causes := .filled 9 ⟨true, []⟩, presented := none, snapshots := snapshotsReset }

/-- The part right after a power-on reset. -/
def State.reset : State :=
  { feeds := .filled 8 .reset, flows := .filled 256 none, time := .reset, ctl := .reset, keys := .filled 32 .reset,
    access := .reset, guide := .reset, parental := .reset, ports := .filled 4 .reset, link := .reset,
    attention := .reset, resetPin := false, sent := [], freeCount := 0, script := [], pending := [] }

end Sys2Proof.Machine
end

