-- ==== Sys2Proof/Machine/Operands.lean ====
section
/-! DEFINITION. The fields of order bodies and payloads, the fields of reply bodies, and the codings of both (R171, 10.2.3). -/

namespace Sys2Proof.Machine

/-! ## Reading fields: multi-byte fields are most significant byte first (4.2, R171) -/

/-- Byte `i`; past the end, 0 (a body of the right length is never read past its end). -/
def byteAt (b : List Byte) (i : Nat) : Byte := b.getD i 0

/-- The 1-byte field at `i` as a number. -/
def field8 (b : List Byte) (i : Nat) : Nat := (byteAt b i).toNat

/-- The 2-byte field at `i`. -/
def half (b : List Byte) (i : Nat) : Half := byteAt b i ++ byteAt b (i + 1)

/-- The 2-byte field at `i` as a number. -/
def field16 (b : List Byte) (i : Nat) : Nat := (half b i).toNat

/-- The 4-byte field at `i`. -/
def word (b : List Byte) (i : Nat) : Word := half b i ++ half b (i + 2)

/-- The 4-byte field at `i` as a number. -/
def field32 (b : List Byte) (i : Nat) : Nat := (word b i).toNat

/-- `x` as an index below `n`, or none where it is outside its range. -/
def below (n x : Nat) : Option (Fin n) := if h : x < n then some ⟨x, h⟩ else none

/-- `x` held to the range `lo` to `hi` (R163). -/
def clamp (lo hi x : Nat) : Nat := max lo (min hi x)

/-- A local offset held to −840 to +840 minutes (R28). -/
def clampOffset (x : Int) : Int := max (-840) (min 840 x)

/-- A product code as a field gives it: 0 is absent (R171). -/
def productOf (h : Half) : Option Half := if h = 0 then none else some h

/-! ## Writing fields -/

/-- A 1-byte field. -/
def bytes8 (n : Nat) : List Byte := [BitVec.ofNat 8 n]

/-- A 2-byte field. -/
def bytes16 (h : Half) : List Byte := [h.extractLsb' 8 8, h.extractLsb' 0 8]

/-- A 4-byte field. -/
def bytes32 (w : Word) : List Byte := bytes16 (w.extractLsb' 16 16) ++ bytes16 (w.extractLsb' 0 16)

/-- A number in 2 bytes. -/
def num16 (n : Nat) : List Byte := bytes16 (BitVec.ofNat 16 n)

/-- A number in 4 bytes. -/
def num32 (n : Nat) : List Byte := bytes32 (BitVec.ofNat 32 n)

/-- A flag: 0 for no and 1 for yes. -/
def flag (b : Bool) : List Byte := [if b then 1 else 0]

/-- A count of at most 255 in its one byte; the byte of a greater one is free (log entry 9). -/
def countByte (n : Nat) : List Byte := [if n < 256 then BitVec.ofNat 8 n else Config.wideCount n]

/-- A field that may be absent: the presence byte, and `width` zero bytes when it is absent (R171). -/
def shown {α : Type} (width : Nat) (f : α → List Byte) : Option α → List Byte
  | none => 0 :: List.replicate width 0
  | some x => 1 :: f x

/-- Milliseconds left on a timer beside the flag that says whether it runs: 0 when it does not. -/
def timerLeft (t : Timer) : List Byte := num32 (t.getD 0)

/-! ## Results (10.2.3) -/

/-- The result of an order. -/
inductive Result where
  | done | unknownOrder | badLength | range | noEntry | inUse | notVacant | linkActive | tableFull
  | notHeld | stale | discarded
  deriving DecidableEq, Repr

/-- The result code. -/
def Result.code : Result → Byte
  | .done => 0 | .unknownOrder => 1 | .badLength => 2 | .range => 3 | .noEntry => 4 | .inUse => 5
  | .notVacant => 6 | .linkActive => 7 | .tableFull => 8 | .notHeld => 9 | .stale => 10 | .discarded => 11

/-- What an order leaves: the state, the result and the reply's body. -/
structure Answer where
  state : State
  result : Result
  body : List Byte

/-- The order is taken: DONE, with a body. -/
def Answer.done (s : State) (body : List Byte) : Answer := ⟨s, .done, body⟩

/-- The order is refused: nothing changes and the body is empty (R163, R165). -/
def Answer.refuse (s : State) (r : Result) : Answer := ⟨s, r, []⟩

/-! ## Codings of replies (R171) -/

def FeedState.byte : FeedState → Byte
  | .off => 0 | .unsettled => 1 | .locked => 2 | .lapsed => 3

def TimeState.byte : TimeState → Byte
  | .unset => 0 | .disciplined => 1 | .free => 2

def DestState.byte : DestState → Byte
  | .vacant => 0 | .acquiring => 1 | .presenting => 2 | .stalled => 3 | .held => 4 | .withheld => 5

def AccessVerdict.byte : AccessVerdict → Byte
  | .free => 0 | .entitled => 1 | .preview => 2 | .denied _ => 3

/-- The access cause: 0 is none. -/
def AccessVerdict.causeByte : AccessVerdict → Byte
  | .denied .timeUnset => 1 | .denied .noSubscription => 2 | .denied .noPurchase => 3 | _ => 0

def ParentalVerdict.byte : ParentalVerdict → Byte
  | .clear => 0 | .covered => 1 | .restricted => 2

def HoldCondition.byte : HoldCondition → Byte
  | .none => 0 | .opened => 1 | .declined => 2 | .noAnswer => 3

def PortState.byte : PortState → Byte
  | .off => 0 | .running => 1 | .halted => 2

def PortMode.byte : PortMode → Byte
  | .demand => 0 | .paced => 1

def DestKind.byte : DestKind → Byte
  | .view => 0 | .record => 1

def Policy.byte : Policy → Byte
  | .blank => 0 | .ask => 1

def Role.byte : Role → Byte
  | .video => 0 | .audio => 1 | .subtitle => 2 | .data => 3

def FlowKind.byte : FlowKind → Byte
  | .programme _ => 0 | .accessMessage => 1 | .guide => 2 | .clock => 3 | .discard => 4

/-- The role that a code names (R171). -/
def Role.ofCode : Nat → Option Role
  | 0 => some .video | 1 => some .audio | 2 => some .subtitle | 3 => some .data | _ => none

/-- A time source or feed match: 255 is NONE or ANY. -/
def feedByte : Option FeedId → Byte
  | none => 255
  | some f => BitVec.ofNat 8 f.val

/-- The cause number 1 to 9 (10.6, attention record). -/
def Cause.number : Cause → Nat
  | .time => 1 | .feedLapse => 2 | .port => 3 | .hold => 4 | .accessLapse => 5 | .allowance => 6 | .stall => 7
  | .guideFull => 8 | .forwardDrop => 9

/-- The row of a cause, in order of priority. -/
def Cause.row : Cause → Fin 9
  | .time => 0 | .feedLapse => 1 | .port => 2 | .hold => 3 | .accessLapse => 4 | .allowance => 5 | .stall => 6
  | .guideFull => 7 | .forwardDrop => 8

/-- Every cause, in order of priority (11.1). -/
def Cause.all : List Cause :=
  [.time, .feedLapse, .port, .hold, .accessLapse, .allowance, .stall, .guideFull, .forwardDrop]

/-- The cause that a number names. -/
def Cause.ofNumber (n : Nat) : Option Cause := Cause.all.find? fun c => c.number == n

/-- Whether a source number is in the range of a cause's sources (11.1); a cause without sources has source 255. -/
def Cause.admits (c : Cause) (source : Nat) : Bool :=
  match c with
  | .time | .guideFull | .forwardDrop => source == 255
  | .feedLapse | .allowance => source < 8
  | .port => source < 4
  | .hold | .accessLapse | .stall => source < 12

/-- The fields of an unlock: its kind, then an event id, then an until time; the one it does not hold reads 0
(log entry 8). -/
def Unlock.bytes : Unlock → List Byte
  | .event id => 0 :: bytes16 id ++ num32 0
  | .period u => 1 :: num16 0 ++ bytes32 (if u < 2 ^ 32 then BitVec.ofNat 32 u else Config.wideUntil u)

end Sys2Proof.Machine
end

