-- ==== Sys2Proof/Machine/Cells.lean ====
section
/-! DEFINITION. The cell header's fields, the judgment of a cell, and the cells the part builds (1.1, 10.6, R172). -/

namespace Sys2Proof

/-- The key phase code: 0 CLEAR, 1 A, 2 B, 3 invalid. -/
def Cell.phase (c : Cell) : BitVec 2 := c.phaseFlow.extractLsb' 6 2

/-- The flow id. -/
def Cell.flowId (c : Cell) : BitVec 14 := c.phaseFlow.extractLsb' 0 6 ++ c.flowLow

/-- The unit-start flag. -/
def Cell.unitStart (c : Cell) : Bool := c.startSeq.getLsbD 7

/-- The sequence. -/
def Cell.seq (c : Cell) : BitVec 5 := c.startSeq.extractLsb' 0 5

/-- The exclusive-or of header bytes 0 to 6. -/
def Cell.headerXor (c : Cell) : Byte :=
  c.sync ^^^ c.phaseFlow ^^^ c.flowLow ^^^ c.startSeq ^^^ c.route ^^^ c.spareA ^^^ c.spareB

/-- The judgment of R2: sync 0xB8, a valid key phase code, and a true header check. -/
def Cell.wellFormed (c : Cell) : Bool :=
  c.sync == 0xB8 && c.phase != 3 && c.check == c.headerXor

/-- A well-formed cell of the host is a command cell: flow id 16382, key phase CLEAR (R161). -/
def Cell.isCommand (c : Cell) : Bool := c.wellFormed && c.flowId == 16382 && c.phase == 0

/-- The cell with its header check worked afresh (R1). -/
def Cell.rechecked (c : Cell) : Cell := { c with check := c.headerXor }

/-- The cell with another route and a fresh header check (R1, R18, R53). -/
def Cell.routed (c : Cell) (route : Byte) : Cell := Cell.rechecked { c with route := route }

/-- The cell with key phase CLEAR and a fresh header check (R87). -/
def Cell.cleared (c : Cell) : Cell :=
  Cell.rechecked { c with phaseFlow := 0#2 ++ c.phaseFlow.extractLsb' 0 6 }

/-- The bytes of `l`, cut or filled with zeros to `n` bytes. -/
def fitted : Nat → List Byte → List Byte
  | 0, _ => []
  | n + 1, [] => 0 :: fitted n []
  | n + 1, b :: l => b :: fitted n l

theorem fitted_length (n : Nat) (l : List Byte) : (fitted n l).length = n := by
  induction n generalizing l with
  | zero => rfl
  | succ n ih => cases l <;> simp [fitted, ih]

/-- A payload that begins with the given bytes; the rest is 0. -/
def payloadOf (l : List Byte) : Payload := ⟨fitted 184 l, fitted_length 184 l⟩

/-- A cell the part builds: key phase CLEAR, the spare bits and bytes 0, the header check worked (R172). -/
def builtCell (flow : BitVec 14) (unitStart : Bool) (seq : BitVec 5) (route : Byte) (payload : List Byte) : Cell :=
  Cell.rechecked
    { sync := 0xB8, phaseFlow := 0#2 ++ flow.extractLsb' 8 6, flowLow := flow.extractLsb' 0 8,
      startSeq := BitVec.ofBool unitStart ++ 0#2 ++ seq, route := route, spareA := 0, spareB := 0, check := 0,
      payload := payloadOf payload }

/-- The fill cell (R155). -/
def fillCell : Cell := builtCell 16383 false 0 255 []

/-- A queued cell is a notice: it carries flow id 16380 (9.3). -/
def Cell.isNotice (c : Cell) : Bool := c.flowId == 16380

/-- A queued cell is routed to destination `d` (9.3). -/
def Cell.isFor (c : Cell) (d : DestId) : Bool := c.route == BitVec.ofNat 8 d.val

end Sys2Proof
end

