-- ==== Sys2Proof/Machine/Flags.lean ====
section
/-! DEFINITION. The sets and flags of the part: reason sets, role masks and latched faults with their bit codings
(10.6, R171), and the counting of tallies. -/

namespace Sys2Proof.Machine

/-- One bit of a set's coding. -/
def setBit (b : Bool) (value : Byte) : Byte := if b then value else 0

/-- A set of restriction reasons, in the bit coding of the notice payload's reason set. -/
def Limits.byte (l : Limits) : Byte := setBit l.rating 2 ||| setBit l.quiet 4 ||| setBit l.allowance 8

/-- The reason set (10.6, notice payload). -/
def Reasons.byte (r : Reasons) : Byte :=
  setBit r.access 1 ||| r.limits.byte ||| setBit r.declined 16 ||| setBit r.noAnswer 32 ||| setBit r.port 64
    ||| setBit r.key 128

/-- The set holds no reason. -/
def Limits.isEmpty (l : Limits) : Bool := !(l.rating || l.quiet || l.allowance)

/-- The reasons of `l` that are not in `m`. -/
def Limits.without (l m : Limits) : Limits :=
  ⟨l.rating && !m.rating, l.quiet && !m.quiet, l.allowance && !m.allowance⟩

/-- The role mask's coding (R171). -/
def RoleMask.byte (m : RoleMask) : Byte :=
  setBit m.video 1 ||| setBit m.audio 2 ||| setBit m.subtitle 4 ||| setBit m.data 8

/-- The role mask that a byte names, or none where it names anything other than the four roles (R45). -/
def RoleMask.ofByte (b : Byte) : Option RoleMask :=
  if b.toNat < 16 then some ⟨b.getLsbD 0, b.getLsbD 1, b.getLsbD 2, b.getLsbD 3⟩ else none

/-- The role is in the mask. -/
def RoleMask.has (m : RoleMask) : Role → Bool
  | .video => m.video | .audio => m.audio | .subtitle => m.subtitle | .data => m.data

/-- The latched faults of a port (R171). -/
def Port.faultByte (p : Port) : Byte := setBit p.overflow 1 ||| setBit p.unheard 2

/-- The delivering states (3.2.3). -/
def DestState.delivering : DestState → Bool
  | .acquiring | .presenting | .stalled => true
  | .vacant | .held | .withheld => false

/-- The states that receive a notice at a second mark (R57). -/
def DestState.blocked : DestState → Bool
  | .held | .withheld => true
  | _ => false

/-- The verdict is DENIED. -/
def AccessVerdict.isDenied : AccessVerdict → Bool
  | .denied _ => true
  | _ => false

/-- A report is held and its verdict is DENIED; an absent report counts as not DENIED (R65). -/
def deniedReport (r : Option AccessVerdict) : Bool := r.any AccessVerdict.isDenied

/-- One more in a per-feed tally, modulo 2^32 (R23). -/
def FeedTallies.count (t : FeedTallies) : FeedTally → FeedTallies
  | .arrived => { t with arrived := t.arrived + 1 }
  | .settling => { t with settling := t.settling + 1 }
  | .malformed => { t with malformed := t.malformed + 1 }
  | .fill => { t with fill := t.fill + 1 }
  | .unmatched => { t with unmatched := t.unmatched + 1 }
  | .duplicate => { t with duplicate := t.duplicate + 1 }
  | .gap => { t with gap := t.gap + 1 }
  | .routed => { t with routed := t.routed + 1 }
  | .forwarded => { t with forwarded := t.forwarded + 1 }
  | .consumed => { t with consumed := t.consumed + 1 }
  | .discarded => { t with discarded := t.discarded + 1 }
  | .badClock => { t with badClock := t.badClock + 1 }

/-- The per-feed tallies in the reply order of section 11.3. -/
def FeedTallies.list (t : FeedTallies) : List Word :=
  [t.arrived, t.settling, t.malformed, t.fill, t.unmatched, t.duplicate, t.gap, t.routed, t.forwarded, t.consumed,
   t.discarded, t.badClock]

/-- The per-destination tallies in the reply order of section 11.3. -/
def DestTallies.list (t : DestTallies) : List Word := [t.delivered, t.dropped, t.unkeyed, t.purged, t.notices]

/-- The guide counters in the order of R127. -/
def GuideCounters.list (c : GuideCounters) : List Word :=
  [c.applied, c.repeated, c.abandoned, c.busy, c.crcFailed, c.formatFailed, c.registerFull, c.skipped, c.evictions]

end Sys2Proof.Machine
end

