-- ==== Sys2Proof/Machine/Ops.lean ====
section
/-! DEFINITION. The named operations over the part's records: reading and replacing one record, the local time (R36), the
time windows (R37), and the free choice among announcements. -/

namespace Sys2Proof.Machine

/-! ## One record of a table -/

def State.feed (s : State) (f : FeedId) : Feed := s.feeds.read f
def State.setFeed (f : FeedId) (x : Feed) (s : State) : State := { s with feeds := s.feeds.write f x }

def State.flow (s : State) (k : Fin 256) : Option FlowEntry := s.flows.read k
def State.setFlow (k : Fin 256) (x : Option FlowEntry) (s : State) : State := { s with flows := s.flows.write k x }

def State.service (s : State) (i : Fin 64) : Option Service := s.ctl.services.read i
def State.setService (i : Fin 64) (x : Option Service) (s : State) : State :=
  { s with ctl := { s.ctl with services := s.ctl.services.write i x } }

def State.dest (s : State) (d : DestId) : Dest := s.ctl.dests.read d
def State.setDest (d : DestId) (x : Dest) (s : State) : State :=
  { s with ctl := { s.ctl with dests := s.ctl.dests.write d x } }

def State.portHalted (s : State) (p : PortId) : Bool := s.ctl.halted.read p
def State.setPortHalted (p : PortId) (b : Bool) (s : State) : State :=
  { s with ctl := { s.ctl with halted := s.ctl.halted.write p b } }

def State.keySlot (s : State) (k : Fin 32) : KeySlot := s.keys.read k
def State.setKeySlot (k : Fin 32) (x : KeySlot) (s : State) : State := { s with keys := s.keys.write k x }

def State.profile (s : State) (p : Fin 8) : Profile := s.parental.profiles.read p
def State.setProfile (p : Fin 8) (x : Profile) (s : State) : State :=
  { s with parental := { s.parental with profiles := s.parental.profiles.write p x } }

def State.viewer (s : State) (d : DestId) : Viewer := s.parental.viewers.read d
def State.setViewer (d : DestId) (x : Viewer) (s : State) : State :=
  { s with parental := { s.parental with viewers := s.parental.viewers.write d x } }

def State.port (s : State) (p : PortId) : Port := s.ports.read p
def State.setPort (p : PortId) (x : Port) (s : State) : State := { s with ports := s.ports.write p x }

def State.lastAccess (s : State) (d : DestId) : Option AccessVerdict := s.access.last.read d
def State.setLastAccess (d : DestId) (v : Option AccessVerdict) (s : State) : State :=
  { s with access := { s.access with last := s.access.last.write d v } }

/-- One more in a tally of feed `f`. -/
def State.countFeed (f : FeedId) (t : FeedTally) (s : State) : State :=
  s.setFeed f { s.feed f with tallies := (s.feed f).tallies.count t }

/-- A cell has left the part (log entry 4). -/
def State.send (c : Sent) (s : State) : State := { s with sent := s.sent ++ [c] }

/-- `f` for each destination, in ascending order of number. -/
def State.eachDest (f : DestId → State → State) (s : State) : State :=
  (List.finRange 12).foldl (fun s d => f d s) s

/-- The destination is a non-VACANT VIEW destination: the parental unit forms its verdict (R137). -/
def Dest.isViewing (x : Dest) : Bool := x.kind == .view && x.state != .vacant

/-! ## Timers -/

/-- One millisecond passes on a timer; a timer with 0 left waits for its expiry to be taken (log entry 5). -/
def Timer.tick (t : Timer) : Timer := t.map (· - 1)

/-- The timer runs and has run out: its expiry is due. -/
def Timer.due (t : Timer) : Bool := t == some 0

/-! ## Local time (R36) and time windows (R37) -/

/-- The local seconds L. -/
def localSeconds (sec : Word) (offset : Int) : Int := sec.toNat + offset * 60

/-- The local day; the division rounds toward minus infinity. -/
def localDay (sec : Word) (offset : Int) : Int := localSeconds sec offset / 86400

/-- The second of day. -/
def secondOfDay (sec : Word) (offset : Int) : Int := localSeconds sec offset % 86400

/-- The minute of day. -/
def minuteOfDay (sec : Word) (offset : Int) : Nat := (secondOfDay sec offset).toNat / 60

/-- A window from `start` up to, but without, `stop`. -/
def inWindow (start stop t : Word) : Bool := start.toNat ≤ t.toNat && t.toNat < stop.toNat

/-- The quiet window (R37): it wraps past midnight when it starts after it ends, and never holds when both are equal. -/
def inQuiet (start stop minute : Nat) : Bool :=
  if start < stop then start ≤ minute && minute < stop
  else if stop < start then start ≤ minute || minute < stop
  else false

/-! ## Free choices -/

/-- One of `n` courses that the spec leaves open: the next outcome of the script while there is one, else the free
value (log entry 3). With one course there is no choice. -/
def State.choose (n : Nat) (s : State) : Nat × State :=
  if n ≤ 1 then (0, s)
  else
    match s.script with
    | c :: rest => (c % n, { s with script := rest })
    | [] => (Config.takerChoice s.freeCount % n, { s with freeCount := s.freeCount + 1 })

end Sys2Proof.Machine
end

