-- ==== Sys2Proof/Machine/HostLink.lean ====
section
/-! DEFINITION. The host link's outbound side (10.3, 10.4) and the attention unit (11.1, 11.2): report cells, the outbound
queue, raising and withdrawing sources, and the presentation. -/

namespace Sys2Proof.Machine

/-! ## The outbound queue and report cells -/

/-- The free places of the outbound queue, which holds at most 24 cells (R168). -/
def HostLink.free (l : HostLink) : Nat := 24 - l.outbound.length

/-- The forwarded cells in the outbound queue. -/
def HostLink.forwardedCount (l : HostLink) : Nat :=
  l.outbound.countP fun | .forwarded _ => true | .report _ => false

/-- The intake state (R161). It is a function of the other state of the link: BUSY while a command cell is in progress or
the report cell of the last one still waits to be queued, else OPEN or HELD by the free places (log entry 13). -/
inductive Intake where
  | opened | held | busy
  deriving DecidableEq, Repr

def HostLink.intake (l : HostLink) : Intake :=
  if l.command.isSome || !l.waiting.isEmpty then .busy
  else if 2 ≤ l.free then .opened else .held

/-- A report cell with the given records: an end marker and zeros follow them (R166). -/
def HostLink.reportCell (l : HostLink) (records : List Byte) : Cell := builtCell 16381 true l.reportSeq 255 records

/-- A report cell is closed: written, and queued if a place is free, else it waits (R166). -/
def HostLink.closeRecords (records : List Byte) (l : HostLink) : HostLink :=
  let c := l.reportCell records
  let l' := { l with reportSeq := l.reportSeq + 1 }
  if l.waiting.isEmpty && l.free != 0 then { l' with outbound := l.outbound ++ [.report c] }
  else { l' with waiting := l.waiting ++ [c] }

/-- The open report cell, if there is one, is closed (R166). -/
def HostLink.closeFilling (l : HostLink) : HostLink :=
  match l.filling with
  | none => l
  | some records => HostLink.closeRecords records { l with filling := none }

/-- The record fits in the open report cell, or in a new one when none is open (R166). -/
def HostLink.fits (l : HostLink) (n : Nat) : Bool := (l.filling.getD []).length + n ≤ 184

/-- A record is placed behind the records of the open report cell, which it fits in. -/
def HostLink.append (record : List Byte) (l : HostLink) : HostLink :=
  { l with filling := some (l.filling.getD [] ++ record) }

/-- A record is placed into the open report cell, or where it does not fit at the start of a new one (R166). -/
def HostLink.placeRecord (record : List Byte) (l : HostLink) : HostLink :=
  if l.fits record.length then l.append record else l.closeFilling.append record

/-- The bytes of an attention record (10.6). -/
def AttentionRecord.bytes (r : AttentionRecord) : List Byte :=
  [2, BitVec.ofNat 8 r.cause.number, r.source, r.serial, BitVec.ofNat 8 r.others, 0]

/-- A report cell of its own for one attention record, queued at once (R167). -/
def HostLink.ownReport (r : AttentionRecord) (l : HostLink) : HostLink :=
  { l with outbound := l.outbound ++ [.report (l.reportCell r.bytes)], reportSeq := l.reportSeq + 1 }

/-- An attention record is built and placed, or waits (R167, log entries 23 and 24). -/
def HostLink.placeAttention (r : AttentionRecord) (l : HostLink) : HostLink :=
  if l.waitingRecord.isSome then { l with waitingRecord := some r }
  else if l.command.isSome then
    if l.fits r.bytes.length || l.waiting.isEmpty then l.placeRecord r.bytes
    else { l with waitingRecord := some r }
  else if l.free != 0 then l.ownReport r
  else { l with waitingRecord := some r }

/-- The record of a settled presentation, where it brings one. -/
def HostLink.notify (r : Option AttentionRecord) (l : HostLink) : HostLink :=
  match r with
  | none => l
  | some r => l.placeAttention r

/-- A waiting attention record is placed at an emission, if it finds a place (R168, step 3). -/
def HostLink.placeWaiting (l : HostLink) : HostLink :=
  match l.waitingRecord with
  | none => l
  | some r =>
    if l.command.isSome && l.fits r.bytes.length then HostLink.append r.bytes { l with waitingRecord := none }
    else if l.free != 0 then HostLink.ownReport r { l with waitingRecord := none }
    else l

/-- The bytes of a reply record (10.6). -/
def replyBytes (code : Byte) (tag : Half) (result : Result) (body : List Byte) : List Byte :=
  [1, code] ++ bytes16 tag ++ [result.code, BitVec.ofNat 8 body.length] ++ body

/-- The reply to one order record (R165). -/
def State.reply (code : Byte) (tag : Half) (result : Result) (body : List Byte) (s : State) : State :=
  { s with link := s.link.placeRecord (replyBytes code tag result body) }

/-! ## The attention unit -/

def Attention.cause (a : Attention) (c : Cause) : CauseState := a.causes.read c.row
def Attention.setCause (c : Cause) (x : CauseState) (a : Attention) : Attention :=
  { a with causes := a.causes.write c.row x }

/-- A source joins a pending set, in ascending order of source; one already there takes the serial given (R173). -/
def joinPending (p : Pending) : List Pending → List Pending
  | [] => [p]
  | q :: rest =>
    if p.source.toNat < q.source.toNat then p :: q :: rest
    else if p.source = q.source then p :: rest
    else q :: joinPending p rest

/-- The pending sources in ENABLED causes. -/
def Attention.enabledCount (a : Attention) : Nat :=
  (a.causes.rows.map fun c => if c.enabled then c.pending.length else 0).sum

/-- The ENABLED cause of highest priority with a pending source, with its lowest-numbered one (R174). -/
def Attention.foremost (a : Attention) : Option Presentation :=
  Cause.all.findSome? fun c =>
    match a.cause c with
    | ⟨true, p :: _⟩ => some ⟨c, p.source, p.serial⟩
    | _ => none

/-- The count of R174: the pending sources in ENABLED causes other than the one presented. -/
def Attention.others (a : Attention) : Nat := a.enabledCount - 1

/-- The record that the presentation brings when it is settled (R174). -/
def Attention.news (a : Attention) : Option AttentionRecord :=
  if a.foremost = a.presented then none
  else a.foremost.map fun p => ⟨p.cause, p.source, p.serial, a.others⟩

/-- The presentation is settled again, and a new one brings an attention record (R174). -/
def State.settleAttention (a : Attention) (s : State) : State :=
  { s with attention := { a with presented := a.foremost }, link := s.link.notify a.news }

/-- A block raises a source (R173). -/
def State.raise (c : Cause) (source serial : Byte) (s : State) : State :=
  let x := s.attention.cause c
  s.settleAttention (s.attention.setCause c { x with pending := joinPending ⟨source, serial⟩ x.pending })

/-- A block withdraws a source (R173). -/
def State.withdraw (c : Cause) (source : Byte) (s : State) : State :=
  let x := s.attention.cause c
  s.settleAttention (s.attention.setCause c { x with pending := x.pending.filter (·.source != source) })

/-- The source is pending. -/
def Attention.isPending (a : Attention) (c : Cause) (source : Byte) : Bool :=
  (a.cause c).pending.any (·.source == source)

/-- The attention line is driven low: while any ENABLED cause has a pending source (R174), but never while the reset
pin is asserted (R179). -/
def State.attentionLow (s : State) : Bool := !s.resetPin && s.attention.enabledCount != 0

/-- The source number of a feed, port, destination or profile. -/
def sourceByte {n : Nat} (i : Fin n) : Byte := BitVec.ofNat 8 i.val

/-! ## Forwarded cells -/

/-- A forwarded cell is offered to the outbound queue (R169): at most 16 of its cells are forwarded cells. -/
def State.offerForward (c : Cell) (s : State) : State :=
  if s.link.forwardedCount < 16 && s.link.free != 0 then
    { s with link := { s.link with outbound := s.link.outbound ++ [.forwarded c] } }
  else
    State.raise .forwardDrop 255 0 { s with link := { s.link with forwardDrops := s.link.forwardDrops + 1 } }

end Sys2Proof.Machine
end

