-- ==== Sys2Proof/Machine/Ports.lean ====
section
/-! DEFINITION. The delivery ports (9): joining a queue, emission, purging, halting and the resets of one port. Each is a
function of the one port; a cell that leaves is returned beside it. -/

namespace Sys2Proof.Machine

/-- The port has room for an offered cell (R152). -/
def Port.hasRoom (p : Port) : Bool := p.state == .running && p.queue.length < 64

/-- The drain watch after an emission: restarted while cells remain, else stopped (R156). -/
def watchFor (queue : List Cell) : Timer := if queue.isEmpty then none else some 250

/-- The head cell leaves the queue and is emitted (R154, R155): the port after it, and the cell. -/
def Port.emitHead (p : Port) : Port × Option Cell :=
  match p.queue with
  | [] => (p, none)
  | c :: rest =>
    ({ p with queue := rest, emitted := p.emitted + 1, watch := watchFor rest, accept := false }, some c)

/-- An accepted cell joins the queue at its tail; a cell accepted into an empty queue starts the drain watch (R152, R156). DEDUCED (log entry 34): it does
so also where the watch has expired and a purge has emptied the queue since. -/
def Port.join (c : Cell) (p : Port) : Port :=
  { p with queue := p.queue ++ [c], watch := if p.queue.isEmpty then some 250 else p.watch }

/-- The port after it accepted a cell: where a DEMAND port's device has its accept raised with nothing presented, the
cell is taken as soon as it is accepted (R154). -/
def Port.accepted (c : Cell) (p : Port) : Port × Option Cell :=
  let q := p.join c
  if p.mode == .demand && p.accept && p.queue.isEmpty then q.emitHead else (q, none)

/-- The port halts (R153, steps 2 to 4). -/
def Port.halt (p : Port) : Port :=
  { p with queue := [], slotRunning := false, watch := none, state := .halted, overflow := true }

/-- The port is left with an empty queue and a running slot timer in PACED mode (R150, R157). -/
def Port.run (p : Port) : Port :=
  { p with state := .running, queue := [], watch := none, slotRunning := p.mode == .paced }

/-- The port without the cells that `q` names; the rest keep their places, and an emptied queue stops the drain
watch (R158). -/
def Port.purge (q : Cell → Bool) (p : Port) : Port :=
  let rest := p.queue.filter fun c => !q c
  { p with queue := rest, watch := if rest.isEmpty then none else p.watch }

/-- How many cells a purge removes. -/
def Port.purgeCount (q : Cell → Bool) (p : Port) : Nat := p.queue.countP q

/-- The port after a TRAFFIC reset (R147). -/
def Port.trafficReset (p : Port) : Port :=
  match p.state with
  | .off => { p with queue := [], watch := none, overflow := false, unheard := false }
  | .running | .halted => { p.run with overflow := false, unheard := false }

/-- The port after a FULL or power-on reset (R147); the accept pin is the device's own (log entry 6). -/
def Port.fullReset (p : Port) : Port := { Port.reset with accept := p.accept }

/-- A cell that left port `p`, if there is one, is on its output. -/
def State.sendPort (p : PortId) (c : Option Cell) (s : State) : State :=
  match c with
  | none => s
  | some c => s.send (.port p c)

/-- Port `p` accepts a cell. -/
def State.acceptCell (p : PortId) (c : Cell) (s : State) : State :=
  let r := (s.port p).accepted c
  (s.setPort p r.1).sendPort p r.2

/-- The head cell of port `p` leaves. -/
def State.emitPort (p : PortId) (s : State) : State :=
  let r := (s.port p).emitHead
  (s.setPort p r.1).sendPort p r.2

end Sys2Proof.Machine
end

