-- ==== Sys2Proof/Machine/Destinations.lean ====
section
/-! DEFINITION. The destination controller (3, 4.6): required sets, the completion test, evaluation and moves between
states, offers to ports with halts and their ends, and notice cells. -/

namespace Sys2Proof.Machine

/-! ## The required set (R48) -/

/-- The entry is in the required set of a destination with this service index and role mask. -/
def Programme.requiredBy (p : Programme) (x : Dest) : Bool :=
  x.service == some p.service && p.required && x.roles.has p.role

/-- The programme fields of a valid PROGRAMME entry. -/
def FlowEntry.programme? (e : FlowEntry) : Option Programme :=
  match e.kind with
  | .programme p => some p
  | _ => none

/-- The required set of a destination, from the flow table as it stands, in ascending order (R48). -/
def State.requiredSet (s : State) (x : Dest) : List (Fin 256 × Programme) :=
  s.flows.entries.filterMap fun e =>
    match e.2.bind FlowEntry.programme? with
    | some p => if p.requiredBy x then some (e.1, p) else none
    | none => none

/-- The members of the required set that have not started. -/
def State.unstarted (s : State) (x : Dest) : List (Fin 256) :=
  ((s.requiredSet x).map (·.1)).filter fun k => !x.marks.contains k

/-- A started mark joins the set, in ascending order. -/
def joinMark (k : Fin 256) : List (Fin 256) → List (Fin 256)
  | [] => [k]
  | j :: rest => if k < j then k :: j :: rest else if k = j then j :: rest else j :: joinMark k rest

/-! ## Purges (R158) -/

/-- A purge of destination `d`: all its cells, or its programme copies alone; each cell removed is counted PURGED. -/
def State.purgeDest (d : DestId) (notices : Bool) (s : State) : State :=
  let x := s.dest d
  let q := fun c : Cell => c.isFor d && (notices || !c.isNotice)
  let n := (s.port x.port).purgeCount q
  (s.setPort x.port ((s.port x.port).purge q)).setDest d
    { x with tallies := { x.tallies with purged := x.tallies.purged + BitVec.ofNat 32 n } }

/-- How many cells the full purge of `d` removes. -/
def State.fullPurgeCount (d : DestId) (s : State) : Nat :=
  (s.port (s.dest d).port).purgeCount fun c => c.isFor d

/-! ## The completion test (R48) -/

/-- The completion test is made for `d`, with its outcome by the state of `d`. -/
def State.completionTest (d : DestId) (s : State) : State :=
  let x := s.dest d
  let passes := (s.unstarted x).isEmpty
  match x.state, passes with
  | .acquiring, true => s.setDest d { x with state := .presenting, acquisition := none }
  | .stalled, true => (s.setDest d { x with state := .presenting }).withdraw .stall (sourceByte d)
  | .presenting, false => s.setDest d { x with state := .acquiring, acquisition := some s.ctl.acquireTime }
  | _, _ => s

/-! ## Evaluation and moves (R46, R47) -/

/-- The parental report that restricts a VIEW destination, if its last one does. -/
def Dest.restriction (x : Dest) : Option ParentalReport :=
  match x.kind, x.parental with
  | .view, some r => if r.verdict = .restricted then some r else none
  | _, _ => none

/-- The reason set formed anew (R46). -/
def Dest.reasonsAfresh (x : Dest) (halted : Bool) : Reasons :=
  let r := x.restriction
  { access := deniedReport x.access
    limits := (r.map (·.uncovered)).getD .empty
    declined := r.any (·.hold == .declined)
    noAnswer := r.any (·.hold == .noAnswer)
    port := halted
    key := x.reasons.key }

/-- The state that the first row of R46 that holds chooses. -/
def Dest.chosen (x : Dest) (halted : Bool) : DestState :=
  if deniedReport x.access then .withheld
  else
    match x.restriction with
    | some r => if r.hold = .opened then .held else .withheld
    | none =>
      if halted || x.reasons.key then .withheld
      else if x.state.delivering then x.state
      else .acquiring

/-- Entering ACQUIRING from HELD, WITHHELD or VACANT (R47). -/
def State.enterAcquiring (d : DestId) (s : State) : State :=
  (s.setDest d { s.dest d with state := .acquiring, marks := [], unkeyedRun := 0,
                               acquisition := some s.ctl.acquireTime }).completionTest d

/-- Leaving a delivering state for HELD or WITHHELD (R47). -/
def State.leaveDelivering (d : DestId) (next : DestState) (s : State) : State :=
  let x := s.dest d
  let s1 := s.setDest d { x with state := next, marks := [], unkeyedRun := 0, acquisition := none }
  let s2 := if x.state = .stalled then s1.withdraw .stall (sourceByte d) else s1
  s2.purgeDest d false

/-- `d` moves to the state chosen, with the effects of R47; a state it is in already is no move. -/
def State.moveTo (d : DestId) (next : DestState) (s : State) : State :=
  let x := s.dest d
  if next = x.state then s
  else if next = .acquiring then s.enterAcquiring d
  else if x.state.delivering then s.leaveDelivering d next
  else s.setDest d { x with state := next }

/-- The evaluation of `d` (R46); a VACANT destination is not evaluated. -/
def State.evaluate (d : DestId) (s : State) : State :=
  let x := s.dest d
  if x.state = .vacant then s
  else
    let h := s.portHalted x.port
    (s.setDest d { x with reasons := x.reasonsAfresh h }).moveTo d (x.chosen h)

/-- The evaluation that ends a change (R66): `d` is treated as coming from VACANT. -/
def State.evaluateAfresh (d : DestId) (s : State) : State :=
  let x := { s.dest d with state := .vacant }
  let h := s.portHalted x.port
  (s.setDest d { x with reasons := x.reasonsAfresh h }).moveTo d (x.chosen h)

/-! ## Port halts and key commits (R55, R56) -/

/-- Every non-VACANT destination bound to port `p` is evaluated, in ascending order, as R55 says of a halt; at the end of a halt the order is a
DESIGN CHOICE (log entry 32). -/
def State.evaluatePort (p : PortId) (s : State) : State :=
  s.eachDest fun d s => if (s.dest d).port = p then s.evaluate d else s

/-- The controller takes a halt announcement, or the announcement that a halt has ended (R55). -/
def State.announceHalt (p : PortId) (halted : Bool) (s : State) : State :=
  (s.setPortHalted p halted).evaluatePort p

/-- The controller takes a key committed announcement for slot `k` (R56). DESIGN CHOICE (log entry 32): the destinations are taken in ascending order. -/
def State.keyCommitted (k : Fin 32) (s : State) : State :=
  s.eachDest fun d s =>
    let x := s.dest d
    if x.state != .vacant && x.reasons.key && (s.requiredSet x).any (fun m => m.2.keySlot == some k) then
      (s.setDest d { x with reasons := { x.reasons with key := false } }).evaluate d
    else s

/-! ## Offers (R152, R153) -/

/-- The port accepts the cell offered to it now. -/
def State.portTakes (p : PortId) (s : State) : Bool := (s.port p).hasRoom

/-- A programme copy is offered to port `p`: accepted, refused, or refused with a halt (R152, R153). -/
def State.offerCopy (p : PortId) (c : Cell) (s : State) : State :=
  let x := s.port p
  if x.hasRoom then s.acceptCell p c
  else if x.state = .running && x.overflowHalt then
    ((s.setPort p x.halt).raise .port (sourceByte p) 0).announceHalt p true
  else s

/-- A notice is offered to port `p`: it never halts the port (R152). -/
def State.offerNotice (p : PortId) (c : Cell) (s : State) : State :=
  if s.portTakes p then s.acceptCell p c else s

/-- `d` has one more copy DELIVERED, or DROPPED. -/
def State.countCopy (d : DestId) (taken : Bool) (s : State) : State :=
  let x := s.dest d
  s.setDest d { x with tallies :=
    if taken then { x.tallies with delivered := x.tallies.delivered + 1 }
    else { x.tallies with dropped := x.tallies.dropped + 1 } }

/-! ## Programme cells (R53, R54) -/

/-- `d` takes part in a cell of an entry with these programme fields (R53). -/
def Dest.takesPart (x : Dest) (e : Programme) : Bool :=
  x.state.delivering && x.service == some e.service && x.roles.has e.role

/-- Steps 1 to 4 of R53 for one destination that takes part. -/
def State.fanOne (k : Fin 256) (e : Programme) (c : Cell) (d : DestId) (s : State) : State :=
  let x := s.dest d
  if x.takesPart e then
    let started := x.marks.contains k
    let begins := !started && c.unitStart
    let s1 := s.setDest d { x with
      unkeyedRun := if e.required then 0 else x.unkeyedRun
      marks := if begins then joinMark k x.marks else x.marks }
    if started || begins then
      let taken := s1.portTakes x.port
      let s2 := (s1.countCopy d taken).offerCopy x.port (c.routed (sourceByte d))
      if begins && (s2.dest d).state.delivering then s2.completionTest d else s2
    else s1
  else s

/-- A clear or descrambled programme cell of entry `k` is taken (R53). -/
def State.fanOut (k : Fin 256) (e : Programme) (c : Cell) (s : State) : State :=
  s.eachDest (State.fanOne k e c)

/-- An unkeyed cell is counted for one destination (R54). -/
def State.unkeyedOne (e : Programme) (d : DestId) (s : State) : State :=
  let x := s.dest d
  if x.takesPart e then
    let run := if e.required then x.unkeyedRun + 1 else x.unkeyedRun
    let x1 := { x with unkeyedRun := run, tallies := { x.tallies with unkeyed := x.tallies.unkeyed + 1 } }
    if e.required && 24 ≤ run then
      (s.setDest d { x1 with reasons := { x1.reasons with key := true } }).evaluate d
    else s.setDest d x1
  else s

/-- An unkeyed programme cell is taken (R54). DESIGN CHOICE (log entry 32): the destinations are taken in ascending order, as R53 says of clear and
descrambled cells alone. -/
def State.unkeyedCell (e : Programme) (s : State) : State := s.eachDest (State.unkeyedOne e)

/-! ## Entry changes (R49) -/

/-- The controller takes an entry changed announcement for entry `k` (R49): first the marks, then the tests. DESIGN CHOICE (log entry 32): the tests
are made in ascending order of destination. -/
def State.entryChanged (k : Fin 256) (s : State) : State :=
  let s1 := { s with ctl := { s.ctl with
    dests := s.ctl.dests.map fun (x : Dest) => { x with marks := x.marks.filter (· != k) } } }
  s1.eachDest fun d s => if (s.dest d).state.delivering then s.completionTest d else s

/-! ## Notices (R57, R58) -/

/-- The notice payload of `d` (R58, 10.6). -/
def State.noticePayload (d : DestId) (s : State) : List Byte :=
  let x := s.dest d
  let number := ((x.service.bind s.service).map (·.number)).getD 0
  let current := x.service.bind fun i => s.guide.current.read i
  [BitVec.ofNat 8 d.val, if x.state = .held then 0 else 1, x.reasons.byte,
   (x.access.map (·.causeByte)).getD 0, (x.parental.map (·.serial)).getD 0]
    ++ bytes16 number ++ [if current.isSome then 1 else 0] ++ bytes16 (current.getD 0)

/-- One notice is built for `d` and offered to its port (R57). -/
def State.noticeOne (d : DestId) (s : State) : State :=
  let x := s.dest d
  if x.state.blocked then
    let c := builtCell 16380 true x.noticeSeq (sourceByte d) (s.noticePayload d)
    let taken := s.portTakes x.port
    (s.setDest d { x with
      noticeSeq := x.noticeSeq + 1
      tallies := if taken then { x.tallies with notices := x.tallies.notices + 1 }
                 else { x.tallies with dropped := x.tallies.dropped + 1 } }).offerNotice x.port c
  else s

/-- The controller takes a second mark (R57). -/
def State.notices (s : State) : State := s.eachDest State.noticeOne

end Sys2Proof.Machine
end

