-- ==== Sys2Proof/Machine/Parental.lean ====
section
/-! DEFINITION. The parental unit (8): restriction reasons, the verdict, unlocks, holds, the allowance and the events the unit takes. -/

namespace Sys2Proof.Machine

/-! ## The current event's record (R135) -/

/-- Of two records, the one that starts later; of equal starts the first in the table (DESIGN CHOICE, log entry 31). -/
def laterStart (a : Option EventRecord) (b : EventRecord) : Option EventRecord :=
  match a with
  | none => some b
  | some a => if a.start.toNat < b.start.toNat then some b else some a

/-- The record of service number `n` that carries event id `id`: of two, the one whose window contains T, or failing
that the one with the later start (R135). -/
def State.eventRecord (s : State) (n id : Half) : Option EventRecord :=
  let found := s.guide.events.filter fun e => e.service == n && e.id == id
  match found.find? fun e => inWindow e.start e.stop s.time.sec with
  | some e => some e
  | none => found.foldl laterStart none

/-- The record of the current event of index `i`, as the guide builder holds it. -/
def State.currentRecord (s : State) (i : Fin 64) : Option EventRecord :=
  match s.service i, s.guide.current.read i with
  | some v, some id => s.eventRecord v.number id
  | _, _ => none

/-! ## Reasons and the verdict (R135, R136) -/

/-- RATING (R135, log entry 20). -/
def State.ratingPresent (s : State) (p : Profile) (i : Fin 64) : Bool :=
  match s.currentRecord i with
  | none => p.restrictUnrated
  | some e => if e.rating = 0 then p.restrictUnrated else p.ceiling < e.rating.toNat

/-- QUIET (R135). -/
def State.quietPresent (s : State) (p : Profile) : Bool :=
  s.time.state != .unset && inQuiet p.quietStart p.quietStop (minuteOfDay s.time.sec s.time.offset)

/-- ALLOWANCE (R135). -/
def Profile.exhausted (p : Profile) : Bool := p.allowance.any (·.remaining == 0)

/-- The present reasons of a destination with profile `p` on service index `i` (R135). -/
def State.presentReasons (s : State) (p : Profile) (i : Fin 64) : Limits :=
  ⟨s.ratingPresent p i, s.quietPresent p, p.exhausted⟩

/-- The reasons that an unlock covers (R136). -/
def State.coveredBy (s : State) (u : Option Unlock) (i : Fin 64) : Limits :=
  match u with
  | none => .empty
  | some (.event x) => ⟨s.guide.current.read i == some x, false, false⟩
  | some (.period until_) => let c := decide (s.time.sec.toNat < until_); ⟨c, c, c⟩

/-- The verdict from the present and the uncovered reasons (R136). -/
def verdictOf (present uncovered : Limits) : ParentalVerdict :=
  if present.isEmpty then .clear else if uncovered.isEmpty then .covered else .restricted

/-- The verdict that is formed for a destination with profile `p` on index `i` under unlock `u` (R136). -/
def State.formedFor (s : State) (p : Profile) (i : Fin 64) (u : Option Unlock) : Formed :=
  let present := s.presentReasons p i
  let uncovered := present.without (s.coveredBy u i)
  ⟨verdictOf present uncovered, present, uncovered⟩

/-! ## Holds (R140) -/

/-- A hold opens for `d`: the serial advances, the timer starts with the ask timeout, HOLD is raised. -/
def State.openHold (d : DestId) (s : State) : State :=
  let v := s.viewer d
  let p := s.profile (s.dest d).profile
  (s.setViewer d { v with hold := .opened, serial := v.serial + 1, timer := some (p.askTimeout * 1000) }).raise
    .hold (sourceByte d) (v.serial + 1)

/-- The hold of `d` takes condition `c`; an open one closes: its timer stops and HOLD is withdrawn. -/
def State.endHold (d : DestId) (c : HoldCondition) (s : State) : State :=
  let v := s.viewer d
  let s1 := s.setViewer d { v with hold := c, timer := none }
  if v.hold = .opened then s1.withdraw .hold (sourceByte d) else s1

/-- The hold rule (R140). -/
def State.holdRule (d : DestId) (s : State) : State :=
  let v := s.viewer d
  match v.formed with
  | none => s
  | some f =>
    if f.verdict = .restricted then
      match (s.profile (s.dest d).profile).policy with
      | .blank => s.endHold d .none
      | .ask => if v.hold = .none && !v.barred then s.openHold d else s
    else s.endHold d .none

/-- The decline memory of `d` is cleared (R143). -/
def State.clearMemory (d : DestId) (s : State) : State :=
  let v := s.viewer d
  if v.hold = .declined ∨ v.hold = .noAnswer then s.setViewer d { v with hold := .none } else s

/-! ## Reports (R51, R137) -/

/-- The report that the unit's record of a destination gives, once a verdict is formed. -/
def Viewer.report (v : Viewer) : Option ParentalReport :=
  v.formed.map fun f => ⟨f.verdict, f.uncovered, v.hold, v.serial⟩

/-- The report of `d` is handed and stored by the controller, which evaluates `d` later in the same event. -/
def State.reportStored (d : DestId) (s : State) : State :=
  let v := s.viewer d
  match v.report with
  | none => s
  | some r =>
    let s1 := s.setViewer d { v with last := some r }
    if (s1.dest d).isViewing then s1.setDest d { s1.dest d with parental := some r } else s1

/-- The report of `d` is handed, and taken by the controller (R51). -/
def State.reportHanded (d : DestId) (s : State) : State :=
  let s1 := s.reportStored d
  if (s.dest d).isViewing && (s.viewer d).formed.isSome then s1.evaluate d else s1

/-- The report of `d` is handed where it differs from the last one (R137). -/
def State.reportIfChanged (d : DestId) (s : State) : State :=
  if (s.viewer d).report = (s.viewer d).last then s else s.reportHanded d

/-! ## Forming (R137) -/

/-- The verdict of `d` is formed and stored, and the hold rule applied (R136, R140). -/
def State.formVerdict (d : DestId) (s : State) : State :=
  let x := s.dest d
  match x.service with
  | none => s
  | some i =>
    let v := s.viewer d
    (s.setViewer d { v with formed := some (s.formedFor (s.profile x.profile) i v.unlock) }).holdRule d

/-- The verdict of `d` is formed and its report handed where it differs (R137). -/
def State.formAndReport (d : DestId) (s : State) : State := (s.formVerdict d).reportIfChanged d

/-- The verdicts of the non-VACANT VIEW destinations that `want` names are formed, in ascending order (R137). -/
def State.formEach (want : Dest → Bool) (s : State) : State :=
  s.eachDest fun d s => if (s.dest d).isViewing && want (s.dest d) then s.formAndReport d else s

/-! ## The access bar (R50, R140) -/

/-- The access bar is placed on `d`: an open hold closes without memory, any memory is cleared, and the unit reports. -/
def State.placeBar (d : DestId) (s : State) : State :=
  let s1 := s.endHold d .none
  (s1.setViewer d { s1.viewer d with barred := true }).reportStored d

/-- The access bar of `d` is lifted: the hold rule is applied to the formed verdict as it stands, and the unit reports. -/
def State.liftBar (d : DestId) (s : State) : State :=
  ((s.setViewer d { s.viewer d with barred := false }).holdRule d).reportStored d

/-! ## Selections, retries and releases at the unit (R65, R67, R70) -/

/-- An EVENT unlock is removed; a PERIOD unlock stays. -/
def Viewer.withoutEventUnlock (v : Viewer) : Viewer :=
  match v.unlock with
  | some (.event _) => { v with unlock := none }
  | _ => v

/-- The unit takes the service change of `d` (R65). -/
def State.parentalChange (d : DestId) (s : State) : State :=
  let s1 := s.endHold d .none
  ((s1.setViewer d (s1.viewer d).withoutEventUnlock).formVerdict d).reportStored d

/-- The unit takes the retry of `d` (R67). -/
def State.parentalRetry (d : DestId) (s : State) : State :=
  ((s.clearMemory d).formVerdict d).reportStored d

/-- The unit takes the release of `d` (R70, R134): the serial is kept. -/
def State.parentalRelease (d : DestId) (s : State) : State :=
  let s1 := s.endHold d .none
  s1.setViewer d { s1.viewer d with formed := none, unlock := none, barred := false, last := none }

/-! ## Second marks (R131, R132, R139, R145) -/

/-- One profile is refilled at a mark (R131). -/
def Profile.refill (day : Int) (p : Profile) : Profile :=
  if p.lastRefill < day then
    { p with lastRefill := day, allowance := p.allowance.map fun a => { a with remaining := a.minutes * 60 } }
  else p

/-- The profiles are refilled (R131). -/
def State.refill (t : Word) (s : State) : State :=
  { s with parental := { s.parental with
    profiles := s.parental.profiles.map (Profile.refill (localDay t s.time.offset)) } }

/-- A VIEW destination bound to profile `p` is in a delivering state. -/
def State.profileDelivering (p : Fin 8) (s : State) : Bool :=
  s.ctl.dests.rows.any fun x => x.kind == .view && x.profile == p && x.state.delivering

/-- One profile is charged (R132). -/
def State.chargeOne (p : Fin 8) (s : State) : State :=
  let x := s.profile p
  match x.allowance with
  | none => s
  | some a =>
    if s.profileDelivering p && a.remaining != 0 then
      let s1 := s.setProfile p { x with allowance := some { a with remaining := a.remaining - 1 } }
      if a.remaining = 1 then s1.raise .allowance (sourceByte p) 0 else s1
    else s

/-- The profiles are charged, in ascending order (R132). -/
def State.charge (s : State) : State := (List.finRange 8).foldl (fun s p => s.chargeOne p) s

/-- A PERIOD unlock whose until time is at or below the mark's T is removed (R139). -/
def Viewer.withoutSpentUnlock (t : Word) (v : Viewer) : Viewer :=
  match v.unlock with
  | some (.period u) => if u ≤ t.toNat then { v with unlock := none } else v
  | _ => v

/-- The unit takes a second mark, in the four parts of R145. -/
def State.parentalMark (t : Word) (s : State) : State :=
  let s1 := (s.refill t).charge
  let s2 := { s1 with parental := { s1.parental with
    viewers := s1.parental.viewers.map (Viewer.withoutSpentUnlock t) } }
  s2.formEach fun _ => true

/-- The unit takes a current-event change for index `i` (R137, R139, R143, log entry 18). -/
def State.parentalEventChange (i : Fin 64) (s : State) : State :=
  let s1 := s.eachDest fun d s =>
    if (s.dest d).service = some i then
      let s1 := s.clearMemory d
      s1.setViewer d (s1.viewer d).withoutEventUnlock
    else s
  s1.formEach fun x => x.service == some i

/-! ## Unlocks and answers (R138, R141) -/

/-- T for the clamp of an unlock: while time is UNSET, T counts as 0 (R138). -/
def State.unlockTime (s : State) : Nat := if s.time.state = .unset then 0 else s.time.sec.toNat

/-- An until time held to T + 14,400 (R138). -/
def State.clampUntil (s : State) (u : Nat) : Nat := min u (s.unlockTime + 14400)

/-- An unlock is installed on `d`, in place of any it held. -/
def State.installUnlock (d : DestId) (u : Unlock) (s : State) : State :=
  s.setViewer d { s.viewer d with unlock := some u }

/-- The unlock that a GRANT installs for a destination on index `i` with these uncovered reasons (R141). -/
def State.grantFor (s : State) (i : Option (Fin 64)) (uncovered : Limits) : Unlock :=
  match i.bind (fun i => s.guide.current.read i), i.bind s.currentRecord with
  | some id, e =>
    if uncovered = ⟨true, false, false⟩ then .event id
    else .period (s.clampUntil (match e with | some e => e.stop.toNat | none => s.unlockTime + 3600))
  | none, _ => .period (s.clampUntil (s.unlockTime + 3600))

end Sys2Proof.Machine
end

