-- ==== Sys2Proof/Machine/Access.lean ====
section
/-! DEFINITION. The access unit (6): the event weighed, the verdict, the expiry sweep, and access reports at the controller. -/

namespace Sys2Proof.Machine

/-! ## The verdict (R100, R101) -/

/-- The event that the access unit weighs for a service number: the record whose window contains T (R100). -/
def State.eventWeighed (s : State) (n : Half) : Option EventRecord :=
  if s.time.state = .unset then none
  else s.guide.events.find? fun e => e.service == n && inWindow e.start e.stop s.time.sec

/-- A record with this key is valid at T (R94). -/
def State.entitled (s : State) (k : EntitlementKey) : Bool :=
  s.access.table.rows.any fun
    | some e => e.key == k && inWindow e.start e.stop s.time.sec
    | none => false

/-- Steps 3 to 6 of R101, once a subscription does not stand in the way. -/
def State.eventVerdict (s : State) (hasProduct : Bool) (e : Option EventRecord) : AccessVerdict :=
  match e with
  | none => if hasProduct then .entitled else .free
  | some e =>
    if e.product = 0 then (if hasProduct then .entitled else .free)
    else if s.entitled (.event e.product e.id) then .entitled
    else if 0 < e.preview && s.time.sec.toNat < e.start.toNat + e.preview then .preview
    else .denied .noPurchase

/-- The access verdict on a service record (R101). An empty record has neither a number nor a product code. -/
def State.accessVerdict (s : State) (i : Fin 64) : AccessVerdict :=
  match s.service i with
  | none => .free
  | some v =>
    match v.product with
    | none => s.eventVerdict false (s.eventWeighed v.number)
    | some p =>
      if s.time.state = .unset then .denied .timeUnset
      else if !s.entitled (.subscription p) then .denied .noSubscription
      else s.eventVerdict true (s.eventWeighed v.number)

/-! ## The expiry sweep (R98) -/

/-- Every record whose end is at or below the T of the mark is removed. -/
def State.sweep (t : Word) (s : State) : State :=
  { s with access := { s.access with table := s.access.table.map fun
    | some e => if e.stop.toNat ≤ t.toNat then none else some e
    | none => none } }

/-! ## Access reports at the controller (R50, R106) -/

/-- The bar of a VIEW destination is placed or lifted on the change from report `old` to verdict `v` (R50). -/
def State.settleBar (d : DestId) (old : Option AccessVerdict) (v : AccessVerdict) (s : State) : State :=
  if (s.dest d).kind = .record then s
  else if v.isDenied && !deniedReport old then s.placeBar d
  else if !v.isDenied && deniedReport old then s.liftBar d
  else s

/-- ACCESS_LAPSE is raised where the report turns a delivering destination to DENIED (R106). -/
def State.accessLapse (d : DestId) (old : Option AccessVerdict) (v : AccessVerdict) (s : State) : State :=
  if v.isDenied && old.any (fun o => !o.isDenied) && (s.dest d).state.delivering then
    s.raise .accessLapse (sourceByte d) 0
  else s

/-- The controller stores an access report. -/
def State.storeAccess (d : DestId) (v : AccessVerdict) (s : State) : State :=
  s.setDest d { s.dest d with access := some v }

/-- The controller takes an access report for `d` (R50, R106); one for a VACANT destination is not taken. -/
def State.takeAccessReport (d : DestId) (v : AccessVerdict) (s : State) : State :=
  let x := s.dest d
  if x.state = .vacant then s
  else (((s.storeAccess d v).settleBar d x.access v).accessLapse d x.access v).evaluate d

/-! ## Forming at a trigger (R103, R104) -/

/-- The reports that a trigger brings: the verdicts of the non-VACANT destinations that `want` names, in ascending
order, where they differ from the last report. -/
def State.accessReports (want : Dest → Bool) (s : State) : List (DestId × AccessVerdict) :=
  s.ctl.dests.entries.filterMap fun e =>
    match e.2.service with
    | some i =>
      if e.2.state != .vacant && want e.2 && s.lastAccess e.1 != some (s.accessVerdict i) then
        some (e.1, s.accessVerdict i)
      else none
    | none => none

/-- The reports are stored as the last reports. -/
def State.storeLast (reports : List (DestId × AccessVerdict)) (s : State) : State :=
  reports.foldl (fun s r => s.setLastAccess r.1 (some r.2)) s

/-- The access unit forms verdicts within one order, and the controller takes the reports one by one (R95, R96, R104). -/
def State.formAccessNow (want : Dest → Bool) (s : State) : State :=
  let reports := s.accessReports want
  reports.foldl (fun s r => s.takeAccessReport r.1 r.2) (s.storeLast reports)

/-! ## Selections and retries (R65, R67) -/

/-- The access unit forms the verdict of `d` at a selection and always hands it: the last report, and the controller's. -/
def State.accessAtSelection (d : DestId) (v : AccessVerdict) (s : State) : State :=
  (s.setLastAccess d (some v)).storeAccess d v

/-- The bar at a change: DENIED places it, and any other verdict lifts a bar that stood (R65, log entry 19). -/
def State.barAtChange (d : DestId) (v : AccessVerdict) (s : State) : State :=
  if (s.dest d).kind = .record then s
  else if v.isDenied then s.placeBar d
  else if (s.viewer d).barred then s.liftBar d
  else s

end Sys2Proof.Machine
end

