-- ==== Sys2Proof/Machine/Guide.lean ====
section
/-! DEFINITION. The guide builder (7): section assembly and checks, the section register, the event table with eviction, current events. -/

namespace Sys2Proof.Machine

/-- The guide builder with its counters changed. -/
def State.countGuide (f : GuideCounters → GuideCounters) (s : State) : State :=
  { s with guide := { s.guide with counters := f s.guide.counters } }

/-! ## Abandoning (R110) -/

/-- Every open slot that `q` names is abandoned, each counted in ABANDONED (R110). -/
def State.abandon (q : Assembly → Bool) (s : State) : State :=
  let n := s.guide.slots.count fun x => x.any q
  { s with guide := { s.guide with
    slots := s.guide.slots.map fun x => x.filter fun a => !q a
    counters := { s.guide.counters with abandoned := s.guide.counters.abandoned + BitVec.ofNat 32 n } } }

/-- The announcements that abandon the slot of an entry: gap and entry changed (R110). -/
def State.abandonEntry (k : Fin 256) (s : State) : State := s.abandon fun a => a.entry == k

/-- The feed lost announcement (R9, R110). -/
def State.abandonFeed (f : FeedId) (s : State) : State := s.abandon fun a => a.feed == f

/-! ## The check value (R113) -/

/-- One of the eight turns for a byte: the value is doubled, and 0x8005 combined when its top bit was set. -/
def crcTurn (v : Half) : Half := if v.getLsbD 15 then (v <<< 1) ^^^ 0x8005 else v <<< 1

/-- One byte of the check. -/
def crcByte (v : Half) (b : Byte) : Half :=
  let w := v ^^^ (b ++ 0#8)
  crcTurn (crcTurn (crcTurn (crcTurn (crcTurn (crcTurn (crcTurn (crcTurn w)))))))

/-- The 16-bit check value over a run of bytes. -/
def checkValue (bytes : List Byte) : Half := bytes.foldl crcByte 0xFFFF

/-! ## Sections and candidates (R113, R114) -/

/-- The second stage of R113 for a complete section of length L. -/
def sectionUsable (b : List Byte) : Bool :=
  field16 b 2 != 0 && field8 b 4 ≤ 31 && field8 b 5 ≤ field8 b 6 && field8 b 7 ≤ 63
    && b.length == 10 + 16 * field8 b 7

/-- The end of an event, held at 4,294,967,295 at most (R114). -/
def eventStop (start : Word) (duration : Nat) : Word := BitVec.ofNat 32 (min 4294967295 (start.toNat + duration))

/-- The candidate that a descriptor gives, or none where it is skipped (R114). -/
def candidate (service : Half) (origin : Byte) (d : List Byte) : Option EventRecord :=
  let duration := field8 d 6 * 65536 + field16 d 7
  if 1 ≤ duration ∧ duration ≤ 86400 ∧ field8 d 9 ≤ 15 then
    some { service := service, id := half d 0, start := word d 2, duration := duration,
           stop := eventStop (word d 2) duration, rating := byteAt d 9, product := half d 10,
           preview := min 600 (field16 d 12), title := half d 14, originSection := origin }
  else none

/-- The descriptors of a section, `n` of them from byte 8 on. -/
def descriptors : Nat → List Byte → List (List Byte)
  | 0, _ => []
  | n + 1, b => b.take 16 :: descriptors n (b.drop 16)

/-! ## The event table (R117, R118) -/

/-- Two events overlap when each starts before the other ends. -/
def EventRecord.overlaps (a b : EventRecord) : Bool :=
  a.start.toNat < b.stop.toNat && b.start.toNat < a.stop.toNat

/-- `a` stands before `b` in the table: by service number, then by start. -/
def EventRecord.before (a b : EventRecord) : Bool :=
  a.service.toNat < b.service.toNat || (a.service == b.service && a.start.toNat < b.start.toNat)

/-- A record is put into its place in the table, before records of its service with the same start (DESIGN CHOICE, log entry 31). -/
def insertEvent (e : EventRecord) : List EventRecord → List EventRecord
  | [] => [e]
  | a :: rest => if a.before e then a :: insertEvent e rest else e :: a :: rest

/-- Of two past records, the one to evict: the earlier end, then the lower service number, then the earlier start. -/
def pastBefore (a b : EventRecord) : Bool :=
  a.stop.toNat < b.stop.toNat || (a.stop == b.stop && a.before b)

/-- Of two records, the one to evict as a later record: the later start, then the higher service number. -/
def laterBefore (a b : EventRecord) : Bool :=
  b.start.toNat < a.start.toNat || (a.start == b.start && b.service.toNat < a.service.toNat)

/-- The record that comes first by `lt`; where several do, the first in the table (DESIGN CHOICE, log entry 31). -/
def firstBy (lt : EventRecord → EventRecord → Bool) : List EventRecord → Option EventRecord
  | [] => none
  | a :: rest =>
    match firstBy lt rest with
    | none => some a
    | some b => if lt b a then some b else some a

/-- A record is past: the time state is not UNSET and its end is at or below T (R118). -/
def TimeUnit.isPast (t : TimeUnit) (e : EventRecord) : Bool :=
  t.state != .unset && e.stop.toNat ≤ t.sec.toNat

/-- The record that a full table gives up for candidate `e`, or none where `e` itself is discarded (R118). -/
def evictee (t : TimeUnit) (e : EventRecord) (table : List EventRecord) : Option EventRecord :=
  match firstBy pastBefore (table.filter t.isPast) with
  | some r => some r
  | none =>
    match firstBy laterBefore table with
    | some r => if e.start.toNat ≤ r.start.toNat then some r else none
    | none => none

/-- What an application has come to: the part, and the service numbers that had a record inserted, removed or evicted. -/
structure Applying where
  state : State
  touched : List Half

/-- The event table is replaced. -/
def State.setEvents (l : List EventRecord) (s : State) : State := { s with guide := { s.guide with events := l } }

/-- A candidate is inserted (R117), with eviction from a full table (R118). -/
def Applying.insert (w : Applying) (e : EventRecord) : Applying :=
  let kept := w.state.guide.events.filter fun r => !(r.service == e.service && r.overlaps e)
  let touched := if kept.length = w.state.guide.events.length then w.touched else e.service :: w.touched
  if kept.length < 512 then ⟨w.state.setEvents (insertEvent e kept), e.service :: touched⟩
  else
    let s1 := (w.state.countGuide fun c => { c with evictions := c.evictions + 1 }).raise .guideFull 255 0
    match evictee s1.time e kept with
    | some r => ⟨s1.setEvents (insertEvent e (kept.erase r)), e.service :: r.service :: touched⟩
    | none => ⟨s1.setEvents kept, touched⟩

/-! ## Current events (R119, R120) -/

/-- The current event of index `i` as a recomputation finds it (R119). -/
def State.currentOf (s : State) (i : Fin 64) : Option Half :=
  match s.service i with
  | none => none
  | some v => (s.eventWeighed v.number).map (·.id)

/-- A current-event change: the index, the event id before and the one after (R120). -/
structure EventChange where
  index : Fin 64
  before : Option Half
  after : Option Half
  deriving DecidableEq, Repr

/-- The changes that a recomputation of the indices that `want` names brings, in ascending order. -/
def State.eventChanges (want : Fin 64 → Bool) (s : State) : List EventChange :=
  s.guide.current.entries.filterMap fun e =>
    if want e.1 && e.2 != s.currentOf e.1 then some ⟨e.1, e.2, s.currentOf e.1⟩ else none

/-- The guide builder holds the current events that a recomputation gave. -/
def State.storeCurrent (l : List EventChange) (s : State) : State :=
  { s with guide := { s.guide with current := l.foldl (fun t c => t.write c.index c.after) s.guide.current } }

/-- The service number of index `i` is among those touched; an empty record has none. -/
def State.touches (s : State) (numbers : List Half) (i : Fin 64) : Bool :=
  match s.service i with
  | none => false
  | some v => numbers.contains v.number

/-! ## The register and the application (R115, R116) -/

/-- A section is applied: its origin's records leave, its candidates are inserted in descriptor order (R116,
log entry 16). -/
def State.applySection (b : List Byte) (s : State) : Applying :=
  let service := half b 2
  let origin := byteAt b 5
  let kept := s.guide.events.filter fun r => !(r.service == service && r.originSection == origin)
  let touched := if kept.length = s.guide.events.length then [] else [service]
  let read := (descriptors (field8 b 7) (b.drop 8)).map (candidate service origin)
  let skipped := read.countP Option.isNone
  let s1 := (s.setEvents kept).countGuide fun c =>
    { c with applied := c.applied + 1, skipped := c.skipped + BitVec.ofNat 32 skipped }
  (read.filterMap id).foldl Applying.insert ⟨s1, touched⟩

/-- The register entry `i` takes a key and version. -/
def State.setRegister (i : Fin 128) (x : Option RegisterEntry) (s : State) : State :=
  { s with guide := { s.guide with register := s.guide.register.write i x } }

/-- A sound section is taken against the register (R115): what it touched, where it is applied. -/
def State.takeSection (b : List Byte) (s : State) : Applying :=
  let e : RegisterEntry := ⟨half b 2, byteAt b 5, byteAt b 4⟩
  let same := fun (r : RegisterEntry) => r.service == e.service && r.section_ == e.section_
  match s.guide.register.firstIdx fun r => r.any same with
  | some i =>
    if s.guide.register.read i = some e then
      ⟨s.countGuide fun c => { c with repeated := c.repeated + 1 }, []⟩
    else (s.setRegister i (some e)).applySection b
  | none =>
    match s.guide.register.firstIdx Option.isNone with
    | some i => (s.setRegister i (some e)).applySection b
    | none =>
      ⟨(s.countGuide fun c => { c with registerFull := c.registerFull + 1 }).raise .guideFull 255 0, []⟩

/-- A complete section is checked (R113) and, where it is sound, taken. -/
def State.checkSection (b : List Byte) (s : State) : Applying :=
  let l := b.length
  if checkValue (b.take (l - 2)) != half b (l - 2) then
    ⟨s.countGuide fun c => { c with crcFailed := c.crcFailed + 1 }, []⟩
  else if !sectionUsable b then
    ⟨s.countGuide fun c => { c with formatFailed := c.formatFailed + 1 }, []⟩
  else s.takeSection b

/-! ## Guide cells (R111, R112) -/

/-- Slot `i` holds an assembly, or is free. -/
def State.setSlot (i : Fin 4) (x : Option Assembly) (s : State) : State :=
  { s with guide := { s.guide with slots := s.guide.slots.write i x } }

/-- A unit-start GUIDE cell begins a section (R111). -/
def State.beginSection (k : Fin 256) (f : FeedId) (c : Cell) (s : State) : Applying :=
  let s1 := s.abandonEntry k
  let b := c.payload.rows
  let l := field16 b 0
  if l < 10 ∨ 1024 < l then ⟨s1.countGuide fun c => { c with formatFailed := c.formatFailed + 1 }, []⟩
  else if l ≤ 184 then s1.checkSection (b.take l)
  else
    match s1.guide.slots.firstIdx Option.isNone with
    | some i => ⟨s1.setSlot i (some ⟨k, f, c.flowId, half b 2, l, b⟩), []⟩
    | none => ⟨s1.countGuide fun c => { c with busy := c.busy + 1 }, []⟩

/-- A GUIDE cell without unit-start continues a section (R112). -/
def State.continueSection (k : Fin 256) (f : FeedId) (c : Cell) (s : State) : Applying :=
  match s.guide.slots.firstIdx fun x => x.any fun a => a.entry == k with
  | none => ⟨s, []⟩
  | some i =>
    match s.guide.slots.read i with
    | none => ⟨s, []⟩
    | some a =>
      if a.feed != f || a.flowId != c.flowId then ⟨s.abandonEntry k, []⟩
      else
        let b := (a.buffer ++ c.payload.rows).take a.length
        if b.length < a.length then ⟨s.setSlot i (some { a with buffer := b }), []⟩
        else (s.setSlot i none).checkSection b

/-- The guide builder takes a GUIDE cell (R111, R112). -/
def State.guideCell (k : Fin 256) (f : FeedId) (c : Cell) (s : State) : Applying :=
  if c.unitStart then s.beginSection k f c else s.continueSection k f c

end Sys2Proof.Machine
end

