-- ==== Sys2Proof/Machine/Announce.lean ====
section
/-! DEFINITION. The announcements between blocks that more than one block takes at one event (R35, R120, R104): the order
in which they are taken is free where the manual says that either may be first. -/

namespace Sys2Proof.Machine

/-- An announcement on its way to the block that takes it. The controller takes second marks alone; at time set and at
a time step it does nothing. -/
inductive Announcement where
  /-- Time set, or a time step in either direction, to the guide builder, the access unit, the parental unit. -/
  | guideTime | accessTime | parentalTime
  /-- A second mark with its T, to the four takers. -/
  | guideMark | accessMark (t : Word) | parentalMark (t : Word) | controllerMark
  /-- A current-event change, to the access unit and to the parental unit. -/
  | accessChange (c : EventChange) | parentalChange (c : EventChange)
  /-- An access report handed to the destination controller. -/
  | accessReport (d : DestId) (v : AccessVerdict)
  deriving DecidableEq, Repr

/-- The path from a sender to a taker; what is sent on one path is taken in the order it was sent. -/
def Announcement.path : Announcement → Nat
  | .guideTime | .guideMark => 0
  | .accessTime | .accessMark _ => 1
  | .parentalTime | .parentalMark _ => 2
  | .controllerMark => 3
  | .accessChange _ => 4
  | .parentalChange _ => 5
  | .accessReport _ _ => 6

/-- How many announcements one can bring in all, itself included: the bound that `deliver` runs on. -/
def Announcement.weight : Announcement → Nat
  | .guideTime | .guideMark => 1 + 64 * 14
  | .accessTime | .accessMark _ | .accessChange _ => 13
  | .parentalTime | .parentalMark _ | .controllerMark | .parentalChange _ | .accessReport _ _ => 1

/-- Every destination is VACANT: then the takers act on separate state, and their order does not show (log entry 3). -/
def State.allVacant (s : State) : Bool := s.ctl.dests.rows.all fun x => x.state == .vacant

/-- Some destination that is not VACANT holds service index `i`; a change for another index has no taker. -/
def State.showsIndex (s : State) (i : Fin 64) : Bool :=
  s.ctl.dests.rows.any fun x => x.state != .vacant && x.service == some i

/-- The announcements of current-event changes: each to the access unit and to the parental unit (R120). -/
def State.announceChanges (l : List EventChange) (s : State) : List Announcement :=
  (l.filter fun c => s.showsIndex c.index).flatMap fun c => [.accessChange c, .parentalChange c]

/-- The guide builder recomputes the indices that `want` names (R119, R120). -/
def State.recompute (want : Fin 64 → Bool) (s : State) : State × List Announcement :=
  let l := s.eventChanges want
  (s.storeCurrent l, s.announceChanges l)

/-- The access unit forms verdicts at a trigger; its reports go to the controller (R103, R104,
log entry 25). -/
def State.formAccess (want : Dest → Bool) (s : State) : State × List Announcement :=
  let l := s.accessReports want
  (s.storeLast l, l.map fun r => .accessReport r.1 r.2)

/-- A block takes an announcement; what it announces in turn is returned beside the state. -/
def Announcement.take (a : Announcement) (s : State) : State × List Announcement :=
  match a with
  | .guideTime | .guideMark => s.recompute fun _ => true
  | .accessTime => s.formAccess fun _ => true
  | .accessMark t => (s.sweep t).formAccess fun _ => true
  | .parentalTime => (s.formEach fun _ => true, [])
  | .parentalMark t => (s.parentalMark t, [])
  | .controllerMark => (s.notices, [])
  | .accessChange c => s.formAccess fun x => x.service == some c.index
  | .parentalChange c => (s.parentalEventChange c.index, [])
  | .accessReport d v => (s.takeAccessReport d v, [])

/-- The announcements that may be taken next, each with those that are then left: the first of each path. -/
def heads (seen : List Nat) (before : List Announcement) : List Announcement → List (Announcement × List Announcement)
  | [] => []
  | a :: rest =>
    let later := heads (a.path :: seen) (before ++ [a]) rest
    if seen.contains a.path then later else (a, before ++ rest) :: later

/-- Which of `n` announcements is taken next. -/
def State.nextTaker (n : Nat) (s : State) : Nat × State := if s.allVacant then (0, s) else s.choose n

/-- The announcements are taken one after another until none is left. -/
def deliverFor : Nat → List Announcement → State → State
  | 0, _, s => s
  | fuel + 1, l, s =>
    match heads [] [] l with
    | [] => s
    | h :: t =>
      let n := s.nextTaker (t.length + 1)
      let pick := (h :: t).getD n.1 h
      let r := pick.1.take n.2
      deliverFor fuel (pick.2 ++ r.2) r.1

/-- The announcements are taken until none is left; each brings at most its weight of them. -/
def State.deliver (l : List Announcement) (s : State) : State := deliverFor (l.map (·.weight)).sum l s

/-- The end of an application: the current events of the indices touched are recomputed (R116, R119). -/
def Applying.finish (w : Applying) : State :=
  let r := w.state.recompute (w.state.touches w.touched)
  r.1.deliver r.2

end Sys2Proof.Machine
end

