-- ==== Sys2Proof/Machine/GuideOrders.lean ====
section
/-! DEFINITION. The orders of the guide builder (R122 to R125). -/

namespace Sys2Proof.Machine

/-- The services that a PURGE_GUIDE names: one, or with 0 every service. -/
def purgeNames (n service : Half) : Bool := n == 0 || service == n

/-- What PURGE_GUIDE leaves of the guide builder before the recomputation (R122). -/
def State.emptyGuide (n : Half) (s : State) : State :=
  let s1 := s.abandon fun a => purgeNames n a.service
  { s1 with guide := { s1.guide with
    events := s1.guide.events.filter fun e => !purgeNames n e.service
    register := s1.guide.register.map fun r => r.filter fun x => !purgeNames n x.service } }

/-- PURGE_GUIDE (service number) (R122). -/
def orderPurgeGuide (b : List Byte) (s : State) : Answer :=
  let n := half b 0
  let lost := (s.guide.events.filter fun e => purgeNames n e.service).map (·.service)
  let s1 := s.emptyGuide n
  let r := s1.recompute (s1.touches lost)
  .done (r.1.deliver r.2)
    (num16 lost.length ++ bytes8 (s.guide.register.count fun r => r.any fun x => purgeNames n x.service)
      ++ bytes8 (s.guide.slots.count fun a => a.any fun x => purgeNames n x.service))

/-- The record as QUERY_EVENT and QUERY_NEXT give it (R123). -/
def EventRecord.bytes (e : EventRecord) : List Byte :=
  bytes16 e.id ++ bytes32 e.start ++ num32 e.duration ++ bytes32 e.stop ++ [e.rating] ++ bytes16 e.product
    ++ num16 e.preview ++ bytes16 e.title ++ [e.originSection]

/-- The reply of QUERY_EVENT and QUERY_NEXT: NONE, or the record (R123). -/
def queryReply (e : Option EventRecord) : List Byte := shown 22 EventRecord.bytes e

/-- QUERY_EVENT (service number, time) (R123). -/
def orderQueryEvent (b : List Byte) (s : State) : Answer :=
  let n := half b 0
  if n = 0 then .refuse s .range
  else .done s (queryReply (s.guide.events.find? fun e => e.service == n && inWindow e.start e.stop (word b 2)))

/-- Of two records, the one with the smaller start; of equal starts the first in the table (DESIGN CHOICE, log entry 31). -/
def earlierStart (a : Option EventRecord) (b : EventRecord) : Option EventRecord :=
  match a with
  | none => some b
  | some a => if b.start.toNat < a.start.toNat then some b else some a

/-- The record of service number `n` with the smallest start above `t` (R124). -/
def State.nextEvent (s : State) (n : Half) (t : Word) : Option EventRecord :=
  (s.guide.events.filter fun e => e.service == n && t.toNat < e.start.toNat).foldl earlierStart none

/-- QUERY_NEXT (service number, time) (R124). -/
def orderQueryNext (b : List Byte) (s : State) : Answer :=
  let n := half b 0
  if n = 0 then .refuse s .range else .done s (queryReply (s.nextEvent n (word b 2)))

/-- An assembly slot as READ_GUIDE gives it; its fields are 0 while it is free (R125). DEDUCED (log entry 11): the open flag is the presence
byte (R171) of the group of fields. -/
def slotBytes : Option Assembly → List Byte
  | none => flag false ++ List.replicate 9 0
  | some a => flag true ++ num16 a.entry.val ++ bytes8 a.feed.val ++ bytes16 a.service ++ num16 a.length
      ++ num16 a.buffer.length

/-- READ_GUIDE (R125). -/
def orderReadGuide (_b : List Byte) (s : State) : Answer :=
  .done s (s.guide.slots.rows.flatMap slotBytes ++ bytes8 (s.guide.register.count Option.isSome)
    ++ num16 s.guide.events.length ++ s.guide.counters.list.flatMap bytes32)

end Sys2Proof.Machine
end

