-- ==== Sys2Proof/Machine/Keys.lean ====
section
/-! DEFINITION. The descrambler (5): the key slot table, commits, per-cell outcomes and the keystream. -/

namespace Sys2Proof.Machine

/-- A key phase that a slot holds: A or B. -/
inductive PhaseName where
  | a | b
  deriving DecidableEq, Repr

/-- The phase that a code of an order names: 1 A, 2 B (R171). -/
def PhaseName.ofCode : Nat → Option PhaseName
  | 1 => some .a | 2 => some .b | _ => none

/-- A phase of a slot. -/
def KeySlot.phase (k : KeySlot) : PhaseName → KeyPhase
  | .a => k.a | .b => k.b

/-- The slot with a phase replaced; the other phase stays (R76). -/
def KeySlot.setPhase (k : KeySlot) (h : PhaseName) (x : KeyPhase) : KeySlot :=
  match h with
  | .a => { k with a := x } | .b => { k with b := x }

/-- The quarters with quarter `q` replaced (R78). -/
def Quarters.set (q : Fin 4) (v : Word) (x : Quarters) : Quarters :=
  match q with
  | 0 => { x with q0 := v } | 1 => { x with q1 := v } | 2 => { x with q2 := v } | 3 => { x with q3 := v }

/-- The phase with one staging quarter written (R78). -/
def KeyPhase.stage (q : Fin 4) (v : Word) (x : KeyPhase) : KeyPhase := { x with staging := x.staging.set q v }

/-- The commit: the key takes the four staging quarters as they stand, and the phase becomes VALID (R79). -/
def KeyPhase.commit (x : KeyPhase) : KeyPhase := { x with key := x.staging, valid := true }

/-- The clear: EMPTY, with four zero key words; the staging quarters are kept (R82). -/
def KeyPhase.clear (x : KeyPhase) : KeyPhase := { x with key := .zero, valid := false }

/-! ## The keystream (R89, R90) -/

/-- The seed (R89). -/
def seed (flow : BitVec 14) (seq : BitVec 5) (kw0 : Word) : Word :=
  let x := BitVec.ofNat 32 (flow.toNat * 65536 + seq.toNat * 256 + 90) ^^^ kw0
  if x = 0 then 1 else x

/-- Steps 1 to 3 of R90. -/
def generate (x : Word) : Word :=
  let x1 := x ^^^ (x <<< 13)
  let x2 := x1 ^^^ (x1 >>> 17)
  x2 ^^^ (x2 <<< 5)

/-- The payload words in order, combined with the keystream; the three added key words take turns (R90). -/
def descrambleBytes (x k1 k2 k3 : Word) : List Byte → List Byte
  | b0 :: b1 :: b2 :: b3 :: rest =>
    let y := generate x
    bytes32 (word [b0, b1, b2, b3] 0 ^^^ (y + k1)) ++ descrambleBytes y k2 k3 k1 rest
  | rest => rest

/-- The payload of a cell, descrambled with a key (R89, R90). -/
def descramblePayload (c : Cell) (key : Quarters) : Payload :=
  payloadOf (descrambleBytes (seed c.flowId c.seq key.q0) key.q1 key.q2 key.q3 c.payload.rows)

/-- The cell with outcome descrambled: its payload descrambled, its key phase CLEAR, its check afresh (R87). -/
def descrambleCell (c : Cell) (key : Quarters) : Cell := Cell.cleared { c with payload := descramblePayload c key }

/-! ## The outcome (R85) -/

/-- The outcome of a programme cell. -/
inductive CellOutcome where
  | clear
  | unkeyed
  | descrambled (key : Quarters)
  deriving DecidableEq, Repr

/-- The outcome for a scrambled cell of phase `h` on an entry with this key slot (R85). -/
def State.keyedOutcome (h : PhaseName) (slot : Option (Fin 32)) (s : State) : CellOutcome :=
  match slot with
  | none => .unkeyed
  | some k =>
    let p := (s.keySlot k).phase h
    if p.valid then .descrambled p.key else .unkeyed

/-- The outcome of a programme cell (R85). The invalid fourth code never comes here: such a cell is malformed (R2). -/
def State.outcome (c : Cell) (slot : Option (Fin 32)) (s : State) : CellOutcome :=
  if c.phase = 0 then .clear
  else if c.phase = 1 then s.keyedOutcome .a slot
  else if c.phase = 2 then s.keyedOutcome .b slot
  else .unkeyed

/-- The descrambler takes a programme cell and hands it to the destination controller (R85 to R88). -/
def State.programmeCell (k : Fin 256) (e : Programme) (c : Cell) (s : State) : State :=
  match s.outcome c e.keySlot with
  | .clear => s.fanOut k e c
  | .descrambled key => s.fanOut k e (descrambleCell c key)
  | .unkeyed => s.unkeyedCell e

end Sys2Proof.Machine
end

