-- ==== Sys2Proof/Machine/KeyOrders.lean ====
section
/-! DEFINITION. The orders of the descrambler (R78 to R83) and of the access unit (R95 to R97). -/

namespace Sys2Proof.Machine

/-! ## Keys -/

/-- The coding of a phase state (R171). -/
def KeyPhase.byte (x : KeyPhase) : Byte := if x.valid then 1 else 0

/-- LOAD_KEY_QUARTER (slot, phase, quarter, value) (R78, R79, R80). -/
def orderLoadKeyQuarter (b : List Byte) (s : State) : Answer :=
  match below 32 (field8 b 0), PhaseName.ofCode (field8 b 1), below 4 (field8 b 2) with
  | some k, some h, some q =>
    let slot := s.keySlot k
    let x := (slot.phase h).stage q (word b 3)
    if slot.commitMask.getLsbD q.val then
      .done ((s.setKeySlot k (slot.setPhase h x.commit)).keyCommitted k) (flag true ++ [x.commit.byte])
    else .done (s.setKeySlot k (slot.setPhase h x)) (flag false ++ [x.byte])
  | _, _, _ => .refuse s .range

/-- SET_COMMIT_MASK (slot, mask) (R81). -/
def orderSetCommitMask (b : List Byte) (s : State) : Answer :=
  match below 32 (field8 b 0), below 16 (field8 b 1) with
  | some k, some m =>
    .done (s.setKeySlot k { s.keySlot k with commitMask := BitVec.ofNat 4 m.val }) (bytes8 m.val)
  | _, _ => .refuse s .range

/-- CLEAR_KEY (slot, phase) (R82). -/
def orderClearKey (b : List Byte) (s : State) : Answer :=
  match below 32 (field8 b 0), PhaseName.ofCode (field8 b 1) with
  | some k, some h =>
    let slot := s.keySlot k
    .done (s.setKeySlot k (slot.setPhase h (slot.phase h).clear)) [(slot.phase h).byte]
  | _, _ => .refuse s .range

/-- READ_KEY_STATE (slot) (R83). -/
def orderReadKeyState (b : List Byte) (s : State) : Answer :=
  match below 32 (field8 b 0) with
  | none => .refuse s .range
  | some k => .done s ([(s.keySlot k).a.byte, (s.keySlot k).b.byte] ++ bytes8 (s.keySlot k).commitMask.toNat)

/-! ## Entitlements -/

/-- The key that the first three fields of GRANT_ENTITLEMENT and REVOKE_ENTITLEMENT name, or none where the kind or the product
code is refused (R95). -/
def entitlementKey (b : List Byte) : Option EntitlementKey :=
  let p := half b 1
  if p = 0 then none
  else
    match field8 b 0 with
    | 0 => some (.subscription p)
    | 1 => some (.event p (half b 3))
    | _ => none

/-- The place of the record with this key. -/
def State.entitlementPlace (s : State) (key : EntitlementKey) : Option (Fin 48) :=
  s.access.table.firstIdx fun x => x.any (·.key == key)

/-- The number of records in the entitlement table. -/
def State.entitlementCount (s : State) : Nat := s.access.table.count Option.isSome

/-- Place `i` of the entitlement table. -/
def State.setEntitlement (i : Fin 48) (x : Option Entitlement) (s : State) : State :=
  { s with access := { s.access with table := s.access.table.write i x } }

/-- The record is written and every verdict is formed; the reply follows the reports (R95). -/
def storeEntitlement (i : Fin 48) (e : Entitlement) (outcome : Byte) (s : State) : Answer :=
  let t := (s.setEntitlement i (some e)).formAccessNow fun _ => true
  .done t (bytes8 i.val ++ [outcome] ++ bytes8 t.entitlementCount)

/-- GRANT_ENTITLEMENT (kind, product code, event id, start, end) (R95). -/
def orderGrantEntitlement (b : List Byte) (s : State) : Answer :=
  match entitlementKey b with
  | none => .refuse s .range
  | some key =>
    let e : Entitlement := ⟨key, word b 5, word b 9⟩
    if e.stop.toNat ≤ e.start.toNat then .refuse s .range
    else
      match s.entitlementPlace key, s.access.table.firstIdx Option.isNone with
      | some i, _ => storeEntitlement i e 1 s
      | none, some i => storeEntitlement i e 0 s
      | none, none => .refuse s .tableFull

/-- REVOKE_ENTITLEMENT (kind, product code, event id) (R96). -/
def orderRevokeEntitlement (b : List Byte) (s : State) : Answer :=
  match entitlementKey b with
  | none => .refuse s .range
  | some key =>
    match s.entitlementPlace key with
    | none => .refuse s .noEntry
    | some i =>
      let t := (s.setEntitlement i none).formAccessNow fun _ => true
      .done t (bytes8 i.val ++ bytes8 t.entitlementCount)

/-- The kind of a record's key. -/
def EntitlementKey.kindByte : EntitlementKey → Byte
  | .subscription _ => 0 | .event _ _ => 1

/-- The product code of a record's key. -/
def EntitlementKey.product : EntitlementKey → Half
  | .subscription p => p | .event p _ => p

/-- The event id of a record's key. -/
def EntitlementKey.eventId : EntitlementKey → Option Half
  | .subscription _ => none | .event _ id => some id

/-- The record's fields as a reply gives them. -/
def Entitlement.bytes (e : Entitlement) : List Byte :=
  [e.key.kindByte] ++ bytes16 e.key.product ++ shown 2 bytes16 e.key.eventId ++ bytes32 e.start ++ bytes32 e.stop

/-- Whether the record is valid at T; absent while the time state is UNSET (R97). -/
def State.entitlementValidity (s : State) (e : Entitlement) : Option Bool :=
  if s.time.state = .unset then none else some (inWindow e.start e.stop s.time.sec)

/-- READ_ENTITLEMENT (place) (R97). -/
def orderReadEntitlement (b : List Byte) (s : State) : Answer :=
  match below 48 (field8 b 0) with
  | none => .refuse s .range
  | some i =>
    let e := s.access.table.read i
    .done s (shown 14 Entitlement.bytes e ++ shown 1 flag (e.bind s.entitlementValidity))

end Sys2Proof.Machine
end

