-- ==== Sys2Proof/Machine/ParentalOrders.lean ====
section
/-! DEFINITION. The orders of the parental unit (R129, R130, R133, R138, R141, R144). -/

namespace Sys2Proof.Machine

/-! ## Profiles -/

/-- The remaining seconds; 4,294,967,295 for UNLIMITED (R171). -/
def Profile.remainingBytes (p : Profile) : List Byte :=
  match p.allowance with
  | none => num32 4294967295
  | some a => num32 a.remaining

/-- The fields of a profile as a reply gives them (R129, R130). -/
def Profile.bytes (p : Profile) : List Byte :=
  bytes8 p.ceiling ++ flag p.restrictUnrated ++ num16 p.quietStart ++ num16 p.quietStop
    ++ num16 ((p.allowance.map (·.minutes)).getD 65535) ++ p.remainingBytes ++ bytes32 (BitVec.ofInt 32 p.lastRefill)
    ++ [p.policy.byte] ++ num16 p.askTimeout

/-- The allowance that SET_PROFILE stores over the one held: the field 65535 is UNLIMITED, and 1441 to 65534 is stored as 1440 (R129). -/
def newAllowance (field : Nat) (old : Option Allowance) : Option Allowance :=
  if field = 65535 then none
  else
    let a := min 1440 field
    some ⟨a, match old with | none => a * 60 | some o => min o.remaining (a * 60)⟩

/-- The parental unit forms the verdicts of the destinations bound to profile `p` (R129, R133). -/
def State.formProfile (p : Fin 8) (s : State) : State := s.formEach fun x => x.profile == p

/-- The policy that a field names: 0 BLANK, 1 ASK (R129). -/
def Policy.ofCode : Nat → Option Policy
  | 0 => some .blank | 1 => some .ask | _ => none

/-- SET_PROFILE (profile, rating ceiling, unrated policy, quiet start, quiet end, allowance, policy, ask timeout) (R129). -/
def orderSetProfile (b : List Byte) (s : State) : Answer :=
  match below 8 (field8 b 0), Policy.ofCode (field8 b 9) with
  | some p, some policy =>
    if 15 < field8 b 1 ∨ 1 < field8 b 2 ∨ 1439 < field16 b 3 ∨ 1439 < field16 b 5 then .refuse s .range
    else
      let old := s.profile p
      let new : Profile :=
        { ceiling := field8 b 1, restrictUnrated := field8 b 2 == 1, quietStart := field16 b 3,
          quietStop := field16 b 5, allowance := newAllowance (field16 b 7) old.allowance,
          lastRefill := old.lastRefill, policy := policy, askTimeout := clamp 5 300 (field16 b 10) }
      .done ((s.setProfile p new).formProfile p) new.bytes
  | _, _ => .refuse s .range

/-- The VIEW destinations bound to profile `p`. -/
def State.boundTo (s : State) (p : Fin 8) : Nat := s.ctl.dests.count fun x => x.kind == .view && x.profile == p

/-- Those of them in a delivering state. -/
def State.deliveringOn (s : State) (p : Fin 8) : Nat :=
  s.ctl.dests.count fun x => x.kind == .view && x.profile == p && x.state.delivering

/-- READ_PROFILE (profile) (R130). -/
def orderReadProfile (b : List Byte) (s : State) : Answer :=
  match below 8 (field8 b 0) with
  | none => .refuse s .range
  | some p =>
    .done s ((s.profile p).bytes ++ bytes8 (s.boundTo p) ++ bytes8 (s.deliveringOn p)
      ++ flag (s.attention.isPending .allowance (sourceByte p)))

/-- ADD_ALLOWANCE (profile, seconds) (R133). -/
def orderAddAllowance (b : List Byte) (s : State) : Answer :=
  match below 8 (field8 b 0) with
  | none => .refuse s .range
  | some p =>
    let x := s.profile p
    match x.allowance with
    | none => .done s x.remainingBytes
    | some a =>
      let y := { x with allowance := some { a with remaining := min (a.minutes * 60) (a.remaining + field32 b 1) } }
      .done ((s.setProfile p y).formProfile p) y.remainingBytes

/-! ## Unlocks and holds -/

/-- The unlock that a GRANT_UNLOCK body gives, or none where the kind is refused (R138). -/
def State.unlockFields (s : State) (b : List Byte) : Option Unlock :=
  match field8 b 1 with
  | 0 => some (.event (half b 2))
  | 1 => some (.period (s.clampUntil (field32 b 4)))
  | _ => none

/-- The verdict of a non-VACANT VIEW destination, formed or absent. -/
def State.formedShown (s : State) (d : DestId) : Option ParentalVerdict :=
  if (s.dest d).isViewing then (s.viewer d).formed.map (·.verdict) else none

/-- GRANT_UNLOCK (destination, kind, event id, until) (R138). DEDUCED (log entry 11): the reply gives the formed verdict as its byte alone, without
its reasons, behind a presence byte. -/
def orderGrantUnlock (b : List Byte) (s : State) : Answer :=
  match below 12 (field8 b 0), s.unlockFields b with
  | some d, some u =>
    let s1 := s.installUnlock d u
    let s2 := if (s.dest d).isViewing then (s1.clearMemory d).formAndReport d else s1
    .done s2 (u.bytes ++ shown 1 (fun v => [v.byte]) (s2.formedShown d))
  | _, _ => .refuse s .range

/-- The hold condition and serial of a destination as a reply gives them. -/
def Viewer.holdBytes (v : Viewer) : List Byte := [v.hold.byte] ++ num16 v.serial.toNat

/-- A GRANT that is taken (R141). -/
def State.grantHold (d : DestId) (u : Unlock) (s : State) : Answer :=
  let t := (s.installUnlock d u).formAndReport d
  .done t ((t.viewer d).holdBytes ++ u.bytes)

/-- A DECLINE that is taken (R141). -/
def State.declineHold (d : DestId) (s : State) : Answer :=
  let t := (s.endHold d .declined).reportHanded d
  .done t (t.viewer d).holdBytes

/-- RESOLVE_HOLD (destination, serial, answer) (R141). DEDUCED (log entry 33): a GRANT looks at the uncovered reasons stored at the last forming, and
forms none before it. -/
def orderResolveHold (b : List Byte) (s : State) : Answer :=
  match below 12 (field8 b 0) with
  | none => .refuse s .range
  | some d =>
    if 255 < field16 b 1 ∨ 1 < field8 b 3 then .refuse s .range
    else
      let v := s.viewer d
      if v.hold ≠ .opened then .refuse s .notHeld
      else if v.serial.toNat ≠ field16 b 1 then ⟨s, .stale, num16 v.serial.toNat⟩
      else if field8 b 3 = 0 then
        s.grantHold d (s.grantFor (s.dest d).service ((v.formed.map (·.uncovered)).getD .empty))
      else s.declineHold d

/-- The formed verdict with its present and uncovered reasons, as a reply gives them. -/
def Formed.bytes (f : Formed) : List Byte := [f.verdict.byte, f.present.byte, f.uncovered.byte]

/-- READ_PARENTAL (destination) (R144). -/
def orderReadParental (b : List Byte) (s : State) : Answer :=
  match below 12 (field8 b 0) with
  | none => .refuse s .range
  | some d =>
    let v := s.viewer d
    .done s (shown 3 Formed.bytes v.formed ++ shown 7 Unlock.bytes v.unlock ++ v.holdBytes
      ++ shown 4 num32 v.timer ++ flag v.barred)

end Sys2Proof.Machine
end

