-- ==== Sys2Proof/Machine/TimeUnit.lean ====
section
/-! DEFINITION. The time unit (2): the timebase tick, clock cells, slew and step, and the timers that run on the 1 ms timebase. -/

namespace Sys2Proof.Machine

/-- The announcements of time set, and of a backward time step (R35). -/
def timeNews : List Announcement := [.guideTime, .accessTime, .parentalTime]

/-- The announcements of a second mark (R35). -/
def markNews (t : Word) : List Announcement := [.guideMark, .accessMark t, .parentalMark t, .controllerMark]

/-! ## The timebase tick (R26) -/

/-- Every timer of the 1 ms timebase runs on by a tick (R8, R34, R72, R142, R156). -/
def State.runTimers (s : State) : State :=
  { s with
    feeds := s.feeds.map fun x => { x with silence := Timer.tick x.silence }
    time := { s.time with silence := Timer.tick s.time.silence }
    ctl := { s.ctl with dests := s.ctl.dests.map fun x => { x with acquisition := Timer.tick x.acquisition } }
    parental := { s.parental with viewers := s.parental.viewers.map fun x => { x with timer := Timer.tick x.timer } }
    ports := s.ports.map fun x => { x with watch := Timer.tick x.watch } }

/-- The step added to M by the pending slew before the tick (R26). -/
def slewStep (p : Int) : Nat := if 0 < p then 2 else if p < 0 then 0 else 1

/-- The pending slew after the tick (R26). -/
def slewAfter (p : Int) : Int := if 0 < p then p - 1 else if p < 0 then p + 1 else 0

/-- The time unit at a tick in DISCIPLINED or FREE (R26). -/
def TimeUnit.advance (t : TimeUnit) : TimeUnit :=
  let m := t.ms + slewStep t.slew
  if 1000 ≤ m then { t with ms := m - 1000, sec := t.sec + 1, slew := slewAfter t.slew }
  else { t with ms := m, slew := slewAfter t.slew }

/-- The tick brings M to 1000 or more: a second mark is announced (R26). -/
def TimeUnit.marks (t : TimeUnit) : Bool := t.state != .unset && 1000 ≤ t.ms + slewStep t.slew

/-- A timebase tick: the timers run on, network time advances, and a second mark is taken by its takers (R26, R35). DESIGN CHOICE (log entry 5): the timers
and the mark are one command, so the mark of a tick comes before every expiry that falls due at that tick; the manual lets either be first (R34,
R52, R142). -/
def State.tick (s : State) : State :=
  let s1 := s.runTimers
  if s1.time.state = .unset then s1
  else
    let s2 := { s1 with time := s1.time.advance }
    if s1.time.marks then s2.deliver (markNews s2.time.sec) else s2

/-! ## Clock cells (R27 to R32) -/

/-- The seconds difference D: S − T modulo 2^32, read as signed (R30). -/
def secondsApart (s t : Word) : Int := (s - t).toInt

/-- What a clock cell taken in DISCIPLINED or FREE is (R30). -/
inductive ClockAct where
  | slew (d : Int)
  | forwardStep
  | backwardStep
  deriving DecidableEq, Repr

/-- The comparison of R30. -/
def TimeUnit.compare (t : TimeUnit) (s : Word) (m : Nat) : ClockAct :=
  let apart := secondsApart s t.sec
  if 2000000 < apart then .forwardStep
  else if apart < -2000000 then .backwardStep
  else
    let d := apart * 1000 + ((m : Int) - t.ms)
    if 2000 < d then .forwardStep else if d < -2000 then .backwardStep else .slew d

/-- T and M are set, the slew is cleared, and the time is DISCIPLINED with its silence timer at 10 s (R29, R32). -/
def TimeUnit.setTo (t : TimeUnit) (s : Word) (m : Nat) : TimeUnit :=
  { t with sec := s, ms := m, slew := 0, state := .disciplined, silence := some 10000 }

/-- The time unit takes a clock cell from feed `f` (R27 to R32). -/
def State.clockCell (f : FeedId) (c : Cell) (s : State) : State :=
  let b := c.payload.rows
  let sec := word b 0
  let m := field16 b 4
  if 999 < m then s.countFeed f .badClock
  else if s.time.source != some f then s
  else
    let t : TimeUnit := { s.time with offset := clampOffset (half b 6).toInt }
    if t.state = .unset then State.deliver timeNews { s with time := t.setTo sec m }
    else
      match t.compare sec m with
      | .slew d => { s with time := { t with slew := d, state := .disciplined, silence := some 10000 } }
      | .forwardStep => State.deliver (timeNews ++ markNews sec) { s with time := t.setTo sec m }
      | .backwardStep => State.deliver timeNews { s with time := t.setTo sec m }

/-! ## The source silence timer (R34) -/

/-- The source silence timer expires, where its expiry is due. -/
def State.sourceSilence (s : State) : State :=
  if s.time.state = .disciplined ∧ s.time.silence.due then
    State.raise .time 255 0 { s with time := { s.time with state := .free, silence := none } }
  else s

end Sys2Proof.Machine
end

