-- ==== Sys2Proof/Machine/Feeds.lean ====
section
/-! DEFINITION. The feed receivers and the flow classifier (1): judgment, lock and lapse, screening, matching, the sequence check
and disposition. -/

namespace Sys2Proof.Machine

/-! ## Lapse (R8, R9) -/

/-- The record of a feed that enters LAPSED (R9). -/
def Feed.lapse (x : Feed) : Feed := { x with state := .lapsed, settleRun := 0, lapseRun := 0, silence := none }

/-- Feed `f` enters LAPSED: FEED_LAPSE is raised and feed lost is announced (R9). -/
def State.enterLapsed (f : FeedId) (s : State) : State :=
  ((s.setFeed f (s.feed f).lapse).raise .feedLapse (sourceByte f) 0).abandonFeed f

/-- The silence timer of a LOCKED feed expires, where its expiry is due (R8). -/
def State.feedSilence (f : FeedId) (s : State) : State :=
  let x := s.feed f
  if x.state = .locked ∧ x.silence.due then s.enterLapsed f else s

/-! ## Matching (R15) -/

/-- The entry matches a cell of feed `f` with flow id `id` (R15). -/
def FlowEntry.matches (e : FlowEntry) (f : FeedId) (id : BitVec 14) : Bool :=
  (e.feedMatch == none || e.feedMatch == some f) && (id &&& e.mask) == (e.flowId &&& e.mask)

/-- The lowest-index entry that matches, with its index (R15). -/
def State.matchEntry (f : FeedId) (id : BitVec 14) (s : State) : Option (Fin 256 × FlowEntry) :=
  s.flows.entries.findSome? fun e => e.2.bind fun x => if x.matches f id then some (e.1, x) else none

/-! ## The sequence check (R17) -/

/-- The outcome of the sequence check. -/
inductive SeqOutcome where
  | unchecked | accepted | duplicate | gap
  deriving DecidableEq, Repr

/-- The sequence check for a cell's sequence on a feed with this checking setting (R17). -/
def FlowEntry.sequenceCheck (e : FlowEntry) (checking : Bool) (seq : BitVec 5) : SeqOutcome :=
  if checking && e.mask == 0x3FFF then
    match e.lastSeq with
    | none => .accepted
    | some l => if seq = l then .duplicate else if seq = l + 1 then .accepted else .gap
  else .unchecked

/-- The cell's sequence becomes the last sequence of entry `k` (R17). -/
def State.setLastSeq (k : Fin 256) (e : FlowEntry) (seq : BitVec 5) (s : State) : State :=
  s.setFlow k (some { e with lastSeq := some seq })

/-! ## Disposition (R18) -/

/-- A cell that entry `k` has taken is disposed of by the entry's kind (R18). -/
def State.dispose (k : Fin 256) (e : FlowEntry) (f : FeedId) (c : Cell) (s : State) : State :=
  match e.kind with
  | .programme p => (s.countFeed f .routed).programmeCell k p c
  | .accessMessage => (s.countFeed f .forwarded).offerForward (c.routed (sourceByte f))
  | .guide => ((s.countFeed f .consumed).guideCell k f c).finish
  | .clock => (s.countFeed f .consumed).clockCell f c
  | .discard => s.countFeed f .discarded

/-- The flow classifier takes a cell that survived screening (R15 to R18). -/
def State.classify (f : FeedId) (c : Cell) (s : State) : State :=
  match s.matchEntry f c.flowId with
  | none => s.countFeed f .unmatched
  | some (k, e) =>
    match e.sequenceCheck (s.feed f).checking c.seq with
    | .unchecked => s.dispose k e f c
    | .accepted => (s.setLastSeq k e c.seq).dispose k e f c
    | .duplicate => s.countFeed f .duplicate
    | .gap => (((s.countFeed f .gap).setLastSeq k e c.seq).abandonEntry k).dispose k e f c

/-- Screening by flow id (R3). -/
def State.screen (f : FeedId) (c : Cell) (s : State) : State :=
  if c.flowId = 16383 then s.countFeed f .fill
  else if 16380 ≤ c.flowId.toNat then s.countFeed f .unmatched
  else s.classify f c

/-! ## Arrivals (R5 to R7) -/

/-- A malformed cell at a LOCKED feed (R7): the silence timer restarts, and the second in a row brings the lapse. -/
def State.lockedMalformed (f : FeedId) (s : State) : State :=
  let x := s.feed f
  let s1 := (s.setFeed f { x with silence := some x.timeout, lapseRun := x.lapseRun + 1 }).countFeed f .malformed
  if 2 ≤ x.lapseRun + 1 then s1.enterLapsed f else s1

/-- A well-formed cell at a LOCKED feed (R7). -/
def State.lockedWellFormed (f : FeedId) (c : Cell) (s : State) : State :=
  let x := s.feed f
  (s.setFeed f { x with silence := some x.timeout, lapseRun := 0 }).screen f c

/-- A malformed cell while the feed seeks lock (R6). -/
def State.seekingMalformed (f : FeedId) (s : State) : State :=
  (s.setFeed f { s.feed f with settleRun := 0 }).countFeed f .malformed

/-- A well-formed cell while the feed seeks lock; the third in a row locks it and is handled as in LOCKED (R6). -/
def State.seekingWellFormed (f : FeedId) (c : Cell) (s : State) : State :=
  let x := s.feed f
  if x.settleRun < 2 then (s.setFeed f { x with settleRun := x.settleRun + 1 }).countFeed f .settling
  else (s.setFeed f { x with state := .locked, settleRun := 3 }).lockedWellFormed f c

/-- A cell arrives at feed `f` (R5, R6, R7). -/
def State.arrival (f : FeedId) (c : Cell) (s : State) : State :=
  match (s.feed f).state with
  | .off => s
  | .unsettled | .lapsed =>
    let s1 := s.countFeed f .arrived
    if c.wellFormed then s1.seekingWellFormed f c else s1.seekingMalformed f
  | .locked =>
    let s1 := s.countFeed f .arrived
    if c.wellFormed then s1.lockedWellFormed f c else s1.lockedMalformed f

end Sys2Proof.Machine
end

