-- ==== Sys2Proof/Machine/Selection.lean ====
section
/-! DEFINITION. Channel change (4): the change set, the application of a selection, releases, and the acquisition timer's expiry. -/

namespace Sys2Proof.Machine

/-- The outcome of a selection (4.3). -/
inductive SelectOutcome where
  | change | noChange | retry
  deriving DecidableEq, Repr

/-- The outcome's coding in a reply (R171). -/
def SelectOutcome.byte : SelectOutcome → Byte
  | .change => 0 | .noChange => 1 | .retry => 2

/-- The outcome of a selection of index `i` for a destination (4.3). -/
def Dest.outcomeOf (x : Dest) (i : Fin 64) : SelectOutcome :=
  if x.state = .vacant ∨ x.service ≠ some i then .change
  else if x.state.delivering then .noChange
  else .retry

/-- The STALL source of `d` is withdrawn where `d` is STALLED. -/
def State.withdrawStall (d : DestId) (s : State) : State :=
  if (s.dest d).state = .stalled then s.withdraw .stall (sourceByte d) else s

/-- A full purge of `d`, where it is not VACANT (R64, R70). -/
def State.fullPurge (d : DestId) (s : State) : State :=
  if (s.dest d).state = .vacant then s else s.purgeDest d true

/-- The number of cells that a change or release of `d` purges. -/
def State.purgedBy (d : DestId) (s : State) : Nat :=
  if (s.dest d).state = .vacant then 0 else s.fullPurgeCount d

/-- What a change and a release forget of a destination (R64, R70). -/
def Dest.forget (x : Dest) : Dest :=
  { x with marks := [], reasons := .empty, unkeyedRun := 0, acquisition := none, access := none, parental := none }

/-- The old service of `d` is cleared away, and the service index becomes `i` (R64). -/
def State.clearAway (d : DestId) (i : Fin 64) (s : State) : State :=
  let s1 := (s.purgeDest d true).withdrawStall d
  s1.setDest d { (s1.dest d).forget with service := some i }

/-- The parental unit is told of a retry, for a VIEW destination alone (R67). -/
def State.tellRetry (d : DestId) (s : State) : State :=
  match (s.dest d).kind with
  | .view => s.parentalRetry d
  | .record => s

/-- While the controller asks for fresh verdicts, `d` counts as selected: its reports are taken (R65). -/
def State.markSelected (d : DestId) (s : State) : State :=
  s.setDest d { s.dest d with state := .withheld }

/-- The parental unit takes the service change of a VIEW destination (R65); a RECORD destination loses its EVENT unlock, as R139 says of any
destination (log entry 17). -/
def State.tellChange (d : DestId) (s : State) : State :=
  match (s.dest d).kind with
  | .view => s.parentalChange d
  | .record => s.setViewer d (s.viewer d).withoutEventUnlock

/-- A selection with outcome change (R64, R65, R66). -/
def State.applyChange (d : DestId) (i : Fin 64) (s : State) : State :=
  let s1 := (s.clearAway d i).markSelected d
  let v := s1.accessVerdict i
  (((s1.accessAtSelection d v).barAtChange d v).tellChange d).evaluateAfresh d

/-- KEY, DECLINED and NO_ANSWER leave the reason set of `d` (R67). -/
def State.dropRetryReasons (d : DestId) (s : State) : State :=
  let x := s.dest d
  s.setDest d { x with reasons := { x.reasons with key := false, declined := false, noAnswer := false } }

/-- A selection with outcome retry (R67). -/
def State.applyRetry (d : DestId) (i : Fin 64) (s : State) : State :=
  let s1 := s.dropRetryReasons d
  let v := s1.accessVerdict i
  let old := (s1.dest d).access
  (((s1.accessAtSelection d v).settleBar d old v).tellRetry d).evaluate d

/-- A selection of index `i` is applied to `d` (R63). -/
def State.applySelection (d : DestId) (i : Fin 64) (s : State) : State :=
  match (s.dest d).outcomeOf i with
  | .change => s.applyChange d i
  | .noChange => s
  | .retry => s.applyRetry d i

/-- The number of cells that the application of a selection purges (R63). -/
def State.selectionPurges (d : DestId) (i : Fin 64) (s : State) : Nat :=
  match (s.dest d).outcomeOf i with
  | .change => s.fullPurgeCount d
  | .noChange | .retry => 0

/-! ## The change set (R60, R62, R68) -/

/-- The place of a destination in the list, from 0 (R60). -/
def changePlace (d : DestId) (l : List (DestId × Fin 64)) : Option Nat := l.findIdx? fun e => e.1 == d

/-- A staged selection joins the list, or takes the place of the destination's entry (R62). -/
def stageChange (d : DestId) (i : Fin 64) (l : List (DestId × Fin 64)) : List (DestId × Fin 64) :=
  if (changePlace d l).isSome then l.map fun e => if e.1 = d then (d, i) else e else l ++ [(d, i)]

/-- The change set is replaced. -/
def State.setChanges (l : List (DestId × Fin 64)) (s : State) : State :=
  { s with ctl := { s.ctl with changes := l } }

/-- Every entry of the list is applied, in order (R68). -/
def State.applyAll (l : List (DestId × Fin 64)) (s : State) : State :=
  l.foldl (fun s e => s.applySelection e.1 e.2) s

/-! ## RELEASE (R70) -/

/-- `d` returns to VACANT (R70). An unlock leaves with the release of a destination of either kind (R134, R139, log entry 17). -/
def State.releaseDest (d : DestId) (s : State) : State :=
  let s1 := (s.fullPurge d).withdrawStall d
  let s2 := s1.setDest d { (s1.dest d).forget with service := none }
  let s3 := (s2.setLastAccess d none).parentalRelease d
  let s4 := s3.setChanges (s3.ctl.changes.filter fun e => e.1 != d)
  s4.setDest d { s4.dest d with state := .vacant }

/-! ## The acquisition timer (R73) -/

/-- The acquisition timer of `d` expires, where its expiry is due: STALLED, and STALL is raised. -/
def State.acquisitionExpires (d : DestId) (s : State) : State :=
  let x := s.dest d
  if x.state = .acquiring ∧ x.acquisition.due then
    (s.setDest d { x with state := .stalled, acquisition := none }).raise .stall (sourceByte d) 0
  else s

/-- The hold timer of `d` expires, where its expiry is due (R142). -/
def State.holdExpires (d : DestId) (s : State) : State :=
  let v := s.viewer d
  if v.hold = .opened ∧ v.timer.due then (s.endHold d .noAnswer).reportHanded d else s

/-! ## Services in use (R40) -/

/-- The destinations that are not VACANT and hold index `i`. -/
def State.holders (s : State) (i : Fin 64) : Nat :=
  s.ctl.dests.count fun x => x.state != .vacant && x.service == some i

/-- The record is in use (R40). -/
def State.inUse (s : State) (i : Fin 64) : Bool :=
  s.holders i != 0 || s.ctl.changes.any fun e => e.2 == i

end Sys2Proof.Machine
end

