-- ==== Sys2Proof/Machine/Resets.lean ====
section
/-! DEFINITION. The resets: power-on (R179), FULL and TRAFFIC (R180, R181), block by block. -/

namespace Sys2Proof.Machine

/-! ## TRAFFIC, block by block -/

/-- A feed at a TRAFFIC reset (R4). -/
def Feed.trafficReset (x : Feed) : Feed :=
  { x with state := if x.state = .off then .off else .unsettled, settleRun := 0, lapseRun := 0, silence := none }

/-- A flow entry at a TRAFFIC reset: its last sequence is absent (R14). -/
def FlowEntry.trafficReset (e : FlowEntry) : FlowEntry := { e with lastSeq := none }

/-- A destination at a TRAFFIC reset (the third column of R44). -/
def Dest.trafficReset (x : Dest) : Dest :=
  { Dest.reset with kind := x.kind, port := x.port, profile := x.profile, roles := x.roles, tallies := x.tallies }

/-- The destination controller at a TRAFFIC reset (R40, R44, R75). -/
def Controller.trafficReset (c : Controller) : Controller :=
  { c with dests := c.dests.map Dest.trafficReset, halted := .filled 4 false, changes := [] }

/-- The access unit at a TRAFFIC reset (R94, R99). -/
def AccessUnit.trafficReset (a : AccessUnit) : AccessUnit := { a with last := .filled 12 none }

/-- The guide builder at a TRAFFIC reset: every slot is free; the register, the event table, the current events and the counters
are kept (R110, R115, R117, R119, R127). -/
def Guide.trafficReset (g : Guide) : Guide := { g with slots := .filled 4 none }

/-- The parental unit at a TRAFFIC reset (R128, R134). -/
def ParentalUnit.trafficReset (p : ParentalUnit) : ParentalUnit := { p with viewers := .filled 12 .reset }

/-- The host link at a TRAFFIC reset: a waiting attention record is discarded (R181). -/
def HostLink.trafficReset (l : HostLink) : HostLink := { l with waitingRecord := none }

/-- The attention unit at a TRAFFIC reset: every pending set is emptied and the presentation is none; the masks and the
snapshots are kept (R180, R181). -/
def Attention.trafficReset (a : Attention) : Attention :=
  { a with causes := a.causes.map fun x => { x with pending := [] }, presented := none }

/-- A TRAFFIC reset of every block (R180, R181). -/
def State.trafficReset (s : State) : State :=
  { s with
    feeds := s.feeds.map Feed.trafficReset
    flows := s.flows.map fun e => e.map FlowEntry.trafficReset
    ctl := s.ctl.trafficReset
    access := s.access.trafficReset
    guide := s.guide.trafficReset
    parental := s.parental.trafficReset
    ports := s.ports.map Port.trafficReset
    link := s.link.trafficReset
    attention := s.attention.trafficReset }

/-! ## FULL -/

/-- An outbound cell is a report cell. -/
def OutCell.isReport : OutCell → Bool
  | .report _ => true
  | .forwarded _ => false

/-- The host link at a FULL reset (R181): the command cell, the report cells and the report sequence are kept. -/
def HostLink.fullReset (l : HostLink) : HostLink :=
  { l with waitingRecord := none, outbound := l.outbound.filter OutCell.isReport, forwardDrops := 0 }

/-- A FULL reset of every block (R180, R181). -/
def State.fullReset (s : State) : State :=
  { s with
    feeds := .filled 8 .reset
    flows := .filled 256 none
    time := .reset
    ctl := .reset
    keys := .filled 32 .reset
    access := .reset
    guide := .reset
    parental := .reset
    ports := s.ports.map Port.fullReset
    link := s.link.fullReset
    attention := .reset }

/-! ## Power-on (R179) -/

/-- Every block takes its power-on values; what the reset does not reach is kept: the waiting commands, the accept pins of the
ports, and the model's own fields (log entries 4, 6, 27 and 29). -/
def State.powerOn (s : State) : State :=
  { State.reset with
    ports := s.ports.map Port.fullReset
    sent := s.sent, freeCount := s.freeCount, script := s.script, pending := s.pending }

/-- The reset pin is asserted (R179): the command cell in progress, the outbound queue and the cells held off are lost (log entries 7 and 30). -/
def State.assertReset (s : State) : State := { s with resetPin := true, link := .reset }

end Sys2Proof.Machine
end

