-- ==== Sys2Proof/Machine/PortOrders.lean ====
section
/-! DEFINITION. The orders of the delivery ports (R149 to R159), of the attention unit (R175 to R178), and RESET_PART (R180). -/

namespace Sys2Proof.Machine

/-! ## Ports -/

/-- The mode that a field names: 0 DEMAND, 1 PACED (R149). -/
def PortMode.ofCode : Nat → Option PortMode
  | 0 => some .demand | 1 => some .paced | _ => none

/-- The configuration as a reply gives it. -/
def Port.config (p : Port) : List Byte :=
  [p.mode.byte] ++ num16 p.slotPeriod ++ flag p.underrunFill ++ flag p.overflowHalt

/-- PORT_CONFIGURE (port, mode, slot period, underrun policy, overflow policy) (R149). -/
def orderPortConfigure (b : List Byte) (s : State) : Answer :=
  match below 4 (field8 b 0), PortMode.ofCode (field8 b 1) with
  | some p, some mode =>
    if 1 < field8 b 4 ∨ 1 < field8 b 5 then .refuse s .range
    else if (s.port p).state ≠ .off then .refuse s .linkActive
    else
      let y := { s.port p with mode := mode, slotPeriod := clamp 20 2000 (field16 b 2),
                               underrunFill := field8 b 4 == 1, overflowHalt := field8 b 5 == 1 }
      .done (s.setPort p y) y.config
  | _, _ => .refuse s .range

/-- PORT_START (port) (R150). -/
def orderPortStart (b : List Byte) (s : State) : Answer :=
  match below 4 (field8 b 0) with
  | none => .refuse s .range
  | some p =>
    let x := s.port p
    if x.state = .off then .done (s.setPort p x.run) [PortState.byte .running]
    else .done s [x.state.byte]

/-- The port after PORT_STOP (R151). -/
def Port.stopped (p : Port) : Port := { p with state := .off, queue := [], slotRunning := false, watch := none }

/-- PORT_STOP (port) (R151). -/
def orderPortStop (b : List Byte) (s : State) : Answer :=
  match below 4 (field8 b 0) with
  | none => .refuse s .range
  | some p =>
    let x := s.port p
    let s1 := s.setPort p x.stopped
    .done (if x.state = .halted then s1.announceHalt p false else s1) ([x.state.byte] ++ bytes8 x.queue.length)

/-- The port with no latched fault. -/
def Port.withoutFaults (p : Port) : Port := { p with overflow := false, unheard := false }

/-- PORT_CLEAR (port) (R157). -/
def orderPortClear (b : List Byte) (s : State) : Answer :=
  match below 4 (field8 b 0) with
  | none => .refuse s .range
  | some p =>
    let x := s.port p
    match x.state with
    | .halted =>
      .done ((s.setPort p x.withoutFaults.run).announceHalt p false) [x.faultByte, PortState.byte .running]
    | .running =>
      .done (s.setPort p { x.withoutFaults with watch := if x.queue.isEmpty then x.watch else some 250 })
        [x.faultByte, PortState.byte .running]
    | .off => .done (s.setPort p x.withoutFaults) [x.faultByte, PortState.byte .off]

/-- READ_PORT (port) (R159). -/
def orderReadPort (b : List Byte) (s : State) : Answer :=
  match below 4 (field8 b 0) with
  | none => .refuse s .range
  | some p =>
    let x := s.port p
    .done s ([x.state.byte] ++ x.config ++ bytes8 x.queue.length ++ bytes8 (x.queue.countP Cell.isNotice)
      ++ [x.faultByte] ++ shown 4 num32 x.watch)

/-! ## Attention -/

/-- The presentation and the count of R174 as ACK_ATTENTION gives them (R176). DEDUCED (log entry 11): the two bytes of the hold serial stand in the group of
every presentation, 0 for a cause other than HOLD. -/
def Attention.shownPresentation (a : Attention) : List Byte :=
  shown 4 (fun p : Presentation => bytes8 p.cause.number ++ [p.source] ++ num16 p.serial.toNat) a.presented
    ++ bytes8 a.others

/-- ACK_ATTENTION (cause, source) (R176). -/
def orderAckAttention (b : List Byte) (s : State) : Answer :=
  match Cause.ofNumber (field8 b 0) with
  | none => .refuse s .range
  | some c =>
    if !c.admits (field8 b 1) then .refuse s .range
    else if !s.attention.isPending c (byteAt b 1) then .refuse s .noEntry
    else
      let t := s.withdraw c (byteAt b 1)
      .done t t.attention.shownPresentation

/-- The nine mask flags, for causes 1 to 9 in turn (R171). -/
def Attention.maskFlags (a : Attention) : List Byte := a.causes.rows.flatMap fun x => flag x.enabled

/-- SET_ATTENTION_MASK (cause, setting) (R175). -/
def orderSetAttentionMask (b : List Byte) (s : State) : Answer :=
  match Cause.ofNumber (field8 b 0) with
  | none => .refuse s .range
  | some c =>
    if 1 < field8 b 1 then .refuse s .range
    else
      let t := s.settleAttention
        (s.attention.setCause c { s.attention.cause c with enabled := field8 b 1 == 1 })
      .done t t.attention.maskFlags

/-- The tallies of a group as they stand, in reply order (11.3). -/
def State.groupTallies (s : State) (g : Fin 25) : List Word :=
  match below 8 g.val, below 12 (g.val - 8), below 4 (g.val - 20) with
  | some f, _, _ => (s.feed f).tallies.list
  | none, some d, _ => (s.dest d).tallies.list
  | none, none, some p => [(s.port p).emitted, (s.port p).fillEmitted]
  | none, none, none => [s.link.forwardDrops]

/-- SNAPSHOT_TALLIES (group) (R177). -/
def orderSnapshotTallies (b : List Byte) (s : State) : Answer :=
  match below 25 (field8 b 0) with
  | none => .refuse s .range
  | some g =>
    .done { s with attention := { s.attention with snapshots := s.attention.snapshots.write g (s.groupTallies g) } }
      (bytes8 g.val ++ (s.attention.snapshots.read g).flatMap bytes32)

/-- READ_IDENTITY (R178). -/
def orderReadIdentity (_b : List Byte) (s : State) : Answer := .done s [0x07, 0x40, 2, 8, 4, 12, 32, 1, 0]

/-! ## RESET_PART (R180) -/

/-- The orders that stand after a taken RESET_PART in its cell are answered DISCARDED (R180). -/
def State.discardRest (s : State) : State :=
  { s with link := { s.link with command := s.link.command.map fun c => { c with discarding := true } } }

/-- RESET_PART (scope) (R180). -/
def orderResetPart (b : List Byte) (s : State) : Answer :=
  match field8 b 0 with
  | 0 => .done s.fullReset.discardRest [0]
  | 1 => .done s.trafficReset.discardRest [1]
  | _ => .refuse s .range

end Sys2Proof.Machine
end

