-- ==== Sys2Proof/Machine/FeedOrders.lean ====
section
/-! DEFINITION. The feed orders (R10 to R13) and the flow table orders (R20 to R22). The body of each has the order's length. -/

namespace Sys2Proof.Machine

/-! ## Feeds -/

/-- FEED_ENABLE (feed) (R10). -/
def orderFeedEnable (b : List Byte) (s : State) : Answer :=
  match below 8 (field8 b 0) with
  | none => .refuse s .range
  | some f =>
    let x := s.feed f
    if x.state = .off then
      .done (s.setFeed f { x with state := .unsettled, settleRun := 0, lapseRun := 0, silence := none })
        [FeedState.byte .unsettled]
    else .done s [x.state.byte]

/-- FEED_DISABLE (feed) (R11). -/
def orderFeedDisable (b : List Byte) (s : State) : Answer :=
  match below 8 (field8 b 0) with
  | none => .refuse s .range
  | some f =>
    let x := s.feed f
    if x.state = .off then .done s []
    else
      .done ((s.setFeed f { x with state := .off, settleRun := 0, lapseRun := 0, silence := none }).abandonFeed f) []

/-- FEED_CONFIGURE (feed, silence timeout, sequence checking) (R12). -/
def orderFeedConfigure (b : List Byte) (s : State) : Answer :=
  match below 8 (field8 b 0) with
  | none => .refuse s .range
  | some f =>
    let x := s.feed f
    if 1 < field8 b 3 then .refuse s .range
    else if x.state ≠ .off then .refuse s .linkActive
    else
      let timeout := clamp 5 200 (field16 b 1)
      let checking := field8 b 3 == 1
      .done (s.setFeed f { x with timeout := timeout, checking := checking }) (num16 timeout ++ flag checking)

/-- READ_FEED (feed) (R13). -/
def orderReadFeed (b : List Byte) (s : State) : Answer :=
  match below 8 (field8 b 0) with
  | none => .refuse s .range
  | some f =>
    let x := s.feed f
    .done s ([x.state.byte] ++ bytes8 x.settleRun ++ bytes8 x.lapseRun ++ num16 x.timeout ++ flag x.checking)

/-! ## The flow table -/

/-- A feed match or time source: a feed 0 to 7, or 255 for ANY or NONE; `none` is any other value (R171). -/
def feedChoice (x : Nat) : Option (Option FeedId) := if x = 255 then some none else (below 8 x).map some

/-- The key slot of SET_FLOW: 0 to 31 a slot, 255 absent; `none` is any other value (R171). -/
def slotChoice (x : Nat) : Option (Option (Fin 32)) := if x = 255 then some none else (below 32 x).map some

/-- A flow id or flow mask: at most 16383. -/
def flowField (x : Nat) : Option (BitVec 14) := (below 16384 x).map fun v => BitVec.ofNat 14 v.val

/-- The programme fields of a SET_FLOW body, or none where one is outside its range (R20). -/
def programmeFields (b : List Byte) : Option Programme :=
  match below 64 (field8 b 8), Role.ofCode (field8 b 9), slotChoice (field8 b 11) with
  | some i, some r, some k => some ⟨i, r, field8 b 10 != 0, k⟩
  | _, _, _ => none

/-- The kind of a SET_FLOW body, with the programme fields for PROGRAMME alone (R20). -/
def kindFields (b : List Byte) : Option FlowKind :=
  match field8 b 7 with
  | 0 => (programmeFields b).map .programme
  | 1 => some .accessMessage
  | 2 => some .guide
  | 3 => some .clock
  | 4 => some .discard
  | _ => none

/-- The entry that a SET_FLOW body gives, or none where a field is outside its range (R20). Its last sequence is absent. -/
def entryFields (b : List Byte) : Option FlowEntry :=
  match feedChoice (field8 b 2), flowField (field16 b 3), flowField (field16 b 5), kindFields b with
  | some f, some id, some m, some k => some ⟨f, id, m, k, none⟩
  | _, _, _, _ => none

/-- The entry changed announcement for entry `k`: taken by the guide builder and by the destination controller (R19). -/
def State.announceEntry (k : Fin 256) (s : State) : State := (s.abandonEntry k).entryChanged k

/-- SET_FLOW (index, feed match, flow id, flow mask, kind, service index, role, required, key slot) (R20). -/
def orderSetFlow (b : List Byte) (s : State) : Answer :=
  match below 256 (field16 b 0), entryFields b with
  | some k, some e => .done ((s.setFlow k (some e)).announceEntry k) []
  | _, _ => .refuse s .range

/-- CLEAR_FLOW (index) (R21). -/
def orderClearFlow (b : List Byte) (s : State) : Answer :=
  match below 256 (field16 b 0) with
  | none => .refuse s .range
  | some k => .done ((s.setFlow k none).announceEntry k) []

/-- The reply of READ_FLOW: valid, then the other nine fields, each shown as absent where it is (R22). -/
def flowReply (e : Option FlowEntry) : List Byte :=
  let p := e.bind FlowEntry.programme?
  flag e.isSome
    ++ shown 1 (fun x => [feedByte x]) (e.map (·.feedMatch))
    ++ shown 2 (fun x => num16 x.toNat) (e.map (·.flowId))
    ++ shown 2 (fun x => num16 x.toNat) (e.map (·.mask))
    ++ shown 1 (fun x => [x.byte]) (e.map (·.kind))
    ++ shown 1 (fun x => bytes8 x.val) (p.map (·.service))
    ++ shown 1 (fun x => [x.byte]) (p.map (·.role))
    ++ shown 1 flag (p.map (·.required))
    ++ shown 1 (fun x => bytes8 x.val) (p.bind (·.keySlot))
    ++ shown 1 (fun x => bytes8 x.toNat) (e.bind (·.lastSeq))

/-- READ_FLOW (index) (R22). -/
def orderReadFlow (b : List Byte) (s : State) : Answer :=
  match below 256 (field16 b 0) with
  | none => .refuse s .range
  | some k => .done s (flowReply (s.flow k))

end Sys2Proof.Machine
end

