-- ==== Sys2Proof/Machine/TableOrders.lean ====
section
/-! DEFINITION. The orders of the time unit (R38, R39), of the service table (R41 to R43), and of the destination records (R45, R59). -/

namespace Sys2Proof.Machine

/-! ## Time -/

/-- The time unit when a source is named: another source than the one it has brings DISCIPLINED to FREE (R38). -/
def TimeUnit.nameSource (t : TimeUnit) (source : Option FeedId) : TimeUnit :=
  if source = t.source then t
  else if t.state = .disciplined then { t with source := source, state := .free, silence := none }
  else { t with source := source }

/-- SET_TIME_SOURCE (source, local offset) (R38). -/
def orderSetTimeSource (b : List Byte) (s : State) : Answer :=
  match feedChoice (field8 b 0) with
  | none => .refuse s .range
  | some source =>
    let t := TimeUnit.nameSource { s.time with offset := clampOffset (half b 1).toInt } source
    .done { s with time := t } ([feedByte t.source] ++ bytes16 (BitVec.ofInt 16 t.offset) ++ [t.state.byte])

/-- The reply of READ_TIME (R39). -/
def timeReply (t : TimeUnit) : List Byte :=
  let known := t.state != .unset
  bytes32 t.sec ++ num16 t.ms ++ [t.state.byte] ++ bytes16 (BitVec.ofInt 16 t.slew) ++ [feedByte t.source]
    ++ bytes16 (BitVec.ofInt 16 t.offset) ++ flag t.silence.isSome
    ++ shown 4 (fun d => bytes32 (BitVec.ofInt 32 d)) (if known then some (localDay t.sec t.offset) else none)
    ++ shown 2 num16 (if known then some (minuteOfDay t.sec t.offset) else none)

/-- READ_TIME (R39). -/
def orderReadTime (_b : List Byte) (s : State) : Answer := .done s (timeReply s.time)

/-! ## Services -/

/-- The fields of a service record that may be absent: its number and its product code. -/
def serviceFields (v : Option Service) : List Byte :=
  shown 2 bytes16 (v.map (·.number)) ++ shown 2 bytes16 (v.bind (·.product))

/-- The service changed announcement for index `i` (R41): the guide builder recomputes the index, the access unit the verdicts of
its destinations. DESIGN CHOICE (log entry 3): the guide builder takes it first, then the access unit, then the current-event changes are
taken; R41 lets either block be first, and no reachable state shows a difference. -/
def State.serviceChanged (i : Fin 64) (s : State) : State :=
  let r := s.recompute fun j => j == i
  (r.1.formAccessNow fun x => x.service == some i).deliver r.2

/-- Another valid record than `i` holds number `n`. -/
def State.numberTaken (s : State) (i : Fin 64) (n : Half) : Bool :=
  s.ctl.services.entries.any fun e => e.1 != i && e.2.any (·.number == n)

/-- SET_SERVICE (index, service number, product code) (R41). -/
def orderSetService (b : List Byte) (s : State) : Answer :=
  match below 64 (field8 b 0) with
  | none => .refuse s .range
  | some i =>
    let n := half b 1
    if n = 0 then .refuse s .range
    else if s.numberTaken i n then .refuse s .inUse
    else if s.inUse i && (s.service i).map (·.number) != some n then .refuse s .inUse
    else
      let v : Service := ⟨n, productOf (half b 3)⟩
      .done ((s.setService i (some v)).serviceChanged i) (flag true ++ serviceFields (some v))

/-- CLEAR_SERVICE (index) (R42). -/
def orderClearService (b : List Byte) (s : State) : Answer :=
  match below 64 (field8 b 0) with
  | none => .refuse s .range
  | some i =>
    if s.inUse i then .refuse s .inUse
    else .done ((s.setService i none).serviceChanged i) []

/-- READ_SERVICE (index) (R43). -/
def orderReadService (b : List Byte) (s : State) : Answer :=
  match below 64 (field8 b 0) with
  | none => .refuse s .range
  | some i =>
    let v := s.service i
    .done s (flag v.isSome ++ serviceFields v ++ flag (s.inUse i) ++ bytes8 (s.holders i))

/-! ## Destination records -/

/-- The kind that a code names (R171). -/
def DestKind.ofCode : Nat → Option DestKind
  | 0 => some .view | 1 => some .record | _ => none

/-- The binding as a reply gives it. -/
def Dest.binding (x : Dest) : List Byte := [x.kind.byte] ++ bytes8 x.port.val ++ bytes8 x.profile.val ++ [x.roles.byte]

/-- BIND_DESTINATION (destination, kind, port, profile, role mask) (R45). -/
def orderBindDestination (b : List Byte) (s : State) : Answer :=
  match below 12 (field8 b 0), DestKind.ofCode (field8 b 1), below 4 (field8 b 2), below 8 (field8 b 3),
      RoleMask.ofByte (byteAt b 4) with
  | some d, some kind, some port, some profile, some roles =>
    let x := s.dest d
    if x.state ≠ .vacant then .refuse s .notVacant
    else
      let y := { x with kind := kind, port := port, profile := profile, roles := roles }
      .done ((s.setDest d y).setViewer d { s.viewer d with unlock := none }) y.binding
  | _, _, _, _, _ => .refuse s .range

/-- The reply of READ_DESTINATION (R59). -/
def State.destinationReply (s : State) (x : Dest) : List Byte :=
  let unstarted := s.unstarted x
  x.binding ++ [x.state.byte] ++ shown 1 (fun i => bytes8 i.val) x.service ++ [x.reasons.byte]
    ++ shown 1 (fun v => [v.byte]) x.access ++ shown 1 (fun v => [v.causeByte]) x.access
    ++ shown 1 (fun r => [r.verdict.byte]) x.parental ++ shown 1 (fun r => [r.uncovered.byte]) x.parental
    ++ shown 1 (fun r => [r.hold.byte]) x.parental ++ shown 2 (fun r => num16 r.serial.toNat) x.parental
    ++ bytes8 x.unkeyedRun ++ bytes8 x.noticeSeq.toNat ++ flag x.acquisition.isSome ++ timerLeft x.acquisition
    ++ countByte x.marks.length ++ countByte (s.requiredSet x).length ++ countByte unstarted.length
    ++ shown 2 (fun k => num16 k.val) unstarted.head?

/-- READ_DESTINATION (destination) (R59). -/
def orderReadDestination (b : List Byte) (s : State) : Answer :=
  match below 12 (field8 b 0) with
  | none => .refuse s .range
  | some d => .done s (s.destinationReply (s.dest d))

end Sys2Proof.Machine
end

