-- ==== Sys2Proof/Machine/SelectOrders.lean ====
section
/-! DEFINITION. The orders of channel change (R61 to R71). -/

namespace Sys2Proof.Machine

/-- A staged SELECT (R62). -/
def orderStage (d : DestId) (i : Fin 64) (s : State) : Answer :=
  let old := s.ctl.changes
  let l := stageChange d i old
  .done (s.setChanges l)
    (bytes8 l.length ++ bytes8 ((changePlace d l).getD 0 + 1) ++ flag (changePlace d old).isSome)

/-- An unstaged SELECT (R63). -/
def orderSelectNow (d : DestId) (i : Fin 64) (s : State) : Answer :=
  let outcome := (s.dest d).outcomeOf i
  let t := s.applySelection d i
  .done t ([outcome.byte, (t.dest d).state.byte] ++ bytes8 (s.selectionPurges d i))

/-- SELECT (destination, service index, staged) (R61). -/
def orderSelect (b : List Byte) (s : State) : Answer :=
  match below 12 (field8 b 0), below 64 (field8 b 1) with
  | some d, some i =>
    if 1 < field8 b 2 then .refuse s .range
    else if (s.service i).isNone then .refuse s .noEntry
    else if field8 b 2 = 1 then orderStage d i s
    else orderSelectNow d i s
  | _, _ => .refuse s .range

/-- TAKE (R68). -/
def orderTake (_b : List Byte) (s : State) : Answer :=
  .done ((s.applyAll s.ctl.changes).setChanges []) (bytes8 s.ctl.changes.length)

/-- DISCARD_CHANGES (R69). -/
def orderDiscardChanges (_b : List Byte) (s : State) : Answer :=
  .done (s.setChanges []) (bytes8 s.ctl.changes.length)

/-- READ_CHANGES (R69). -/
def orderReadChanges (_b : List Byte) (s : State) : Answer :=
  .done s (bytes8 s.ctl.changes.length ++ s.ctl.changes.flatMap fun e => bytes8 e.1.val ++ bytes8 e.2.val)

/-- RELEASE (destination) (R70). -/
def orderRelease (b : List Byte) (s : State) : Answer :=
  match below 12 (field8 b 0) with
  | none => .refuse s .range
  | some d => .done (s.releaseDest d) ([(s.dest d).state.byte] ++ bytes8 (s.purgedBy d))

/-- SET_ACQUIRE_TIME (milliseconds) (R71). -/
def orderSetAcquireTime (b : List Byte) (s : State) : Answer :=
  let t := clamp 100 5000 (field16 b 0)
  .done { s with ctl := { s.ctl with acquireTime := t } } (num16 t)

end Sys2Proof.Machine
end

