-- ==== Sys2Proof/Decode.lean ====
section
/-! DEFINITION. How words spell commands: the list of orders (10.5), the order record (10.6), and
`decodeTableWord` over the rows of spec/opcode_table.json that give bits (none does). -/

namespace Sys2Proof

/-- The orders of the list in section 10.5. -/
inductive Order where
  | feedEnable | feedDisable | feedConfigure | readFeed
  | setFlow | clearFlow | readFlow
  | setTimeSource | readTime
  | setService | clearService | readService | bindDestination | readDestination
  | select | take | discardChanges | readChanges | release | setAcquireTime
  | loadKeyQuarter | setCommitMask | clearKey | readKeyState
  | grantEntitlement | revokeEntitlement | readEntitlement
  | purgeGuide | queryEvent | queryNext | readGuide
  | setProfile | readProfile | addAllowance | grantUnlock | resolveHold | readParental
  | portConfigure | portStart | portStop | portClear | readPort
  | ackAttention | setAttentionMask | snapshotTallies | readIdentity | resetPart
  deriving DecidableEq, Repr

/-- The order code of section 10.5. -/
def Order.code : Order → Byte
  | .feedEnable => 0x01 | .feedDisable => 0x02 | .feedConfigure => 0x03 | .readFeed => 0x04
  | .setFlow => 0x08 | .clearFlow => 0x09 | .readFlow => 0x0A
  | .setTimeSource => 0x10 | .readTime => 0x11
  | .setService => 0x18 | .clearService => 0x19 | .readService => 0x1A
  | .bindDestination => 0x1C | .readDestination => 0x1D
  | .select => 0x20 | .take => 0x21 | .discardChanges => 0x22 | .readChanges => 0x23
  | .release => 0x24 | .setAcquireTime => 0x25
  | .loadKeyQuarter => 0x28 | .setCommitMask => 0x29 | .clearKey => 0x2A | .readKeyState => 0x2B
  | .grantEntitlement => 0x30 | .revokeEntitlement => 0x31 | .readEntitlement => 0x32
  | .purgeGuide => 0x38 | .queryEvent => 0x39 | .queryNext => 0x3A | .readGuide => 0x3B
  | .setProfile => 0x40 | .readProfile => 0x41 | .addAllowance => 0x42 | .grantUnlock => 0x43
  | .resolveHold => 0x44 | .readParental => 0x45
  | .portConfigure => 0x48 | .portStart => 0x49 | .portStop => 0x4A | .portClear => 0x4B | .readPort => 0x4C
  | .ackAttention => 0x50 | .setAttentionMask => 0x51 | .snapshotTallies => 0x52
  | .readIdentity => 0x53 | .resetPart => 0x54

/-- The body length of section 10.5, in bytes. -/
def Order.bodyLength : Order → Nat
  | .feedEnable => 1 | .feedDisable => 1 | .feedConfigure => 4 | .readFeed => 1
  | .setFlow => 12 | .clearFlow => 2 | .readFlow => 2
  | .setTimeSource => 3 | .readTime => 0
  | .setService => 5 | .clearService => 1 | .readService => 1
  | .bindDestination => 5 | .readDestination => 1
  | .select => 3 | .take => 0 | .discardChanges => 0 | .readChanges => 0
  | .release => 1 | .setAcquireTime => 2
  | .loadKeyQuarter => 7 | .setCommitMask => 2 | .clearKey => 2 | .readKeyState => 1
  | .grantEntitlement => 13 | .revokeEntitlement => 5 | .readEntitlement => 1
  | .purgeGuide => 2 | .queryEvent => 6 | .queryNext => 6 | .readGuide => 0
  | .setProfile => 12 | .readProfile => 1 | .addAllowance => 5 | .grantUnlock => 8
  | .resolveHold => 4 | .readParental => 1
  | .portConfigure => 6 | .portStart => 1 | .portStop => 1 | .portClear => 1 | .readPort => 1
  | .ackAttention => 2 | .setAttentionMask => 2 | .snapshotTallies => 1
  | .readIdentity => 0 | .resetPart => 1

/-- Every order, in the order of the list of section 10.5. -/
def Order.all : List Order :=
  [.feedEnable, .feedDisable, .feedConfigure, .readFeed, .setFlow, .clearFlow, .readFlow,
   .setTimeSource, .readTime, .setService, .clearService, .readService, .bindDestination, .readDestination] ++
  [.select, .take, .discardChanges, .readChanges, .release, .setAcquireTime,
   .loadKeyQuarter, .setCommitMask, .clearKey, .readKeyState,
   .grantEntitlement, .revokeEntitlement, .readEntitlement] ++
  [.purgeGuide, .queryEvent, .queryNext, .readGuide,
   .setProfile, .readProfile, .addAllowance, .grantUnlock, .resolveHold, .readParental] ++
  [.portConfigure, .portStart, .portStop, .portClear, .readPort,
   .ackAttention, .setAttentionMask, .snapshotTallies, .readIdentity, .resetPart]

/-- The order that a code names, or none where the code is not in the list (R163, step 1). -/
def Order.ofCode (code : Byte) : Option Order := Order.all.find? fun o => o.code == code

/-- An order record as the host link reads it: code, tag and body (10.6). -/
structure OrderRecord where
  code : Byte
  tag : Half
  body : List Byte
  deriving DecidableEq, Repr

/-- What stands at the place of the next order record of a command cell (R162). -/
inductive RecordRead where
  /-- Fewer than four payload bytes remain, or the order code is 0: the cell ends. -/
  | cellEnds
  /-- Head and body together run past payload byte 183. -/
  | runsPast (code : Byte) (tag : Half)
  /-- A whole record, to be checked and taken. -/
  | whole (r : OrderRecord)
  deriving DecidableEq, Repr

/-- The record that stands at payload byte `pos` (R162, and the order record of 10.6). -/
def readRecord (payload : Payload) (pos : Nat) : RecordRead :=
  match payload.rows.drop pos with
  | code :: t1 :: t0 :: len :: rest =>
    if code = 0 then .cellEnds
    else if rest.length < len.toNat then .runsPast code (t1 ++ t0)
    else .whole ⟨code, t1 ++ t0, rest.take len.toNat⟩
  | _ => .cellEnds

/-- The bytes of an order record (10.6); the length byte is the body's length. -/
def OrderRecord.bytes (r : OrderRecord) : List Byte :=
  [r.code, r.tag.extractLsb' 8 8, r.tag.extractLsb' 0 8, BitVec.ofNat 8 r.body.length] ++ r.body

/-- The command that a word of the opcode table spells. No row of spec/opcode_table.json gives bits, so no word
spells a command. -/
def decodeTableWord (_nbits _w : Nat) : Option Instr := none

end Sys2Proof
end

