-- ==== Sys2Proof/WellFormed.lean ====
section
/-! DEFINITION. Which commands are well formed: an order record has a body of at most 180 bytes (10.6), and an
UNKNOWN_ORDER record has a code that is neither 0 (R162) nor in the list of orders (R163). -/

namespace Sys2Proof

/-- The body of an order record is 0 to 180 bytes long (10.6, order record). -/
def bodyFits (body : List Byte) : Bool := body.length ≤ 180

/-- The code of an UNKNOWN_ORDER record: not 0, which ends the cell, and not an order's. -/
def codeUnknown (code : Byte) : Bool := code != 0 && (Order.ofCode code).isNone

/-- The order record that a command of the host stands for, with its body's bytes; none for an event. -/
def Instr.record : Instr → Option OrderRecord
  | .feedCellArrival _ _ | .silenceTimerExpiry _ | .timebaseTick | .sourceSilenceTimerExpiry
  | .acquisitionTimerExpiry _ | .holdTimerExpiry _ | .drain _ | .slotTimerExpiry _ _ | .drainWatchExpiry _
  | .commandCell _ | .emission | .resetAssert | .resetRelease => none
  | .unknownOrder c t b => some ⟨c, t, b⟩
  | .feedEnable t b => some ⟨Order.feedEnable.code, t, b⟩
  | .feedDisable t b => some ⟨Order.feedDisable.code, t, b⟩
  | .feedConfigure t b => some ⟨Order.feedConfigure.code, t, b⟩
  | .readFeed t b => some ⟨Order.readFeed.code, t, b⟩
  | .setFlow t b => some ⟨Order.setFlow.code, t, b⟩
  | .clearFlow t b => some ⟨Order.clearFlow.code, t, b⟩
  | .readFlow t b => some ⟨Order.readFlow.code, t, b⟩
  | .setTimeSource t b => some ⟨Order.setTimeSource.code, t, b⟩
  | .readTime t b => some ⟨Order.readTime.code, t, b⟩
  | .setService t b => some ⟨Order.setService.code, t, b⟩
  | .clearService t b => some ⟨Order.clearService.code, t, b⟩
  | .readService t b => some ⟨Order.readService.code, t, b⟩
  | .bindDestination t b => some ⟨Order.bindDestination.code, t, b⟩
  | .readDestination t b => some ⟨Order.readDestination.code, t, b⟩
  | .select t b => some ⟨Order.select.code, t, b⟩
  | .take t b => some ⟨Order.take.code, t, b⟩
  | .discardChanges t b => some ⟨Order.discardChanges.code, t, b⟩
  | .readChanges t b => some ⟨Order.readChanges.code, t, b⟩
  | .release t b => some ⟨Order.release.code, t, b⟩
  | .setAcquireTime t b => some ⟨Order.setAcquireTime.code, t, b⟩
  | .loadKeyQuarter t b => some ⟨Order.loadKeyQuarter.code, t, b⟩
  | .setCommitMask t b => some ⟨Order.setCommitMask.code, t, b⟩
  | .clearKey t b => some ⟨Order.clearKey.code, t, b⟩
  | .readKeyState t b => some ⟨Order.readKeyState.code, t, b⟩
  | .grantEntitlement t b => some ⟨Order.grantEntitlement.code, t, b⟩
  | .revokeEntitlement t b => some ⟨Order.revokeEntitlement.code, t, b⟩
  | .readEntitlement t b => some ⟨Order.readEntitlement.code, t, b⟩
  | .purgeGuide t b => some ⟨Order.purgeGuide.code, t, b⟩
  | .queryEvent t b => some ⟨Order.queryEvent.code, t, b⟩
  | .queryNext t b => some ⟨Order.queryNext.code, t, b⟩
  | .readGuide t b => some ⟨Order.readGuide.code, t, b⟩
  | .setProfile t b => some ⟨Order.setProfile.code, t, b⟩
  | .readProfile t b => some ⟨Order.readProfile.code, t, b⟩
  | .addAllowance t b => some ⟨Order.addAllowance.code, t, b⟩
  | .grantUnlock t b => some ⟨Order.grantUnlock.code, t, b⟩
  | .resolveHold t b => some ⟨Order.resolveHold.code, t, b⟩
  | .readParental t b => some ⟨Order.readParental.code, t, b⟩
  | .portConfigure t b => some ⟨Order.portConfigure.code, t, b⟩
  | .portStart t b => some ⟨Order.portStart.code, t, b⟩
  | .portStop t b => some ⟨Order.portStop.code, t, b⟩
  | .portClear t b => some ⟨Order.portClear.code, t, b⟩
  | .readPort t b => some ⟨Order.readPort.code, t, b⟩
  | .ackAttention t b => some ⟨Order.ackAttention.code, t, b⟩
  | .setAttentionMask t b => some ⟨Order.setAttentionMask.code, t, b⟩
  | .snapshotTallies t b => some ⟨Order.snapshotTallies.code, t, b⟩
  | .readIdentity t b => some ⟨Order.readIdentity.code, t, b⟩
  | .resetPart t b => some ⟨Order.resetPart.code, t, b⟩

/-- A command is well formed. -/
def Instr.wf (i : Instr) : Bool :=
  match i with
  | .unknownOrder c _ b => codeUnknown c && bodyFits b
  | _ =>
    match i.record with
    | some r => bodyFits r.body
    | none => true

end Sys2Proof
end

