-- ==== Sys2Proof/Machine/Intake.lean ====
section
/-! DEFINITION. The inbound side of the host link (10.1, 10.2) and emissions (R168): reading order records, checking and taking
them, suspension and resumption, and the replies that no block takes part in. -/

namespace Sys2Proof.Machine

/-! ## Checking and carrying out one order (R163) -/

/-- An order's own checks and effect, on a body of the order's length. -/
def runOrder : Order → List Byte → State → Answer
  | .feedEnable => orderFeedEnable | .feedDisable => orderFeedDisable
  | .feedConfigure => orderFeedConfigure | .readFeed => orderReadFeed
  | .setFlow => orderSetFlow | .clearFlow => orderClearFlow | .readFlow => orderReadFlow
  | .setTimeSource => orderSetTimeSource | .readTime => orderReadTime
  | .setService => orderSetService | .clearService => orderClearService | .readService => orderReadService
  | .bindDestination => orderBindDestination | .readDestination => orderReadDestination
  | .select => orderSelect | .take => orderTake | .discardChanges => orderDiscardChanges
  | .readChanges => orderReadChanges | .release => orderRelease | .setAcquireTime => orderSetAcquireTime
  | .loadKeyQuarter => orderLoadKeyQuarter | .setCommitMask => orderSetCommitMask
  | .clearKey => orderClearKey | .readKeyState => orderReadKeyState
  | .grantEntitlement => orderGrantEntitlement | .revokeEntitlement => orderRevokeEntitlement
  | .readEntitlement => orderReadEntitlement
  | .purgeGuide => orderPurgeGuide | .queryEvent => orderQueryEvent | .queryNext => orderQueryNext
  | .readGuide => orderReadGuide
  | .setProfile => orderSetProfile | .readProfile => orderReadProfile | .addAllowance => orderAddAllowance
  | .grantUnlock => orderGrantUnlock | .resolveHold => orderResolveHold | .readParental => orderReadParental
  | .portConfigure => orderPortConfigure | .portStart => orderPortStart | .portStop => orderPortStop
  | .portClear => orderPortClear | .readPort => orderReadPort
  | .ackAttention => orderAckAttention | .setAttentionMask => orderSetAttentionMask
  | .snapshotTallies => orderSnapshotTallies | .readIdentity => orderReadIdentity | .resetPart => orderResetPart

/-- The length of an order's longest reply body, in bytes (R164). -/
def largestBody : Order → Nat
  | .feedEnable => 1 | .feedDisable => 0 | .feedConfigure => 3 | .readFeed => 6
  | .setFlow => 0 | .clearFlow => 0 | .readFlow => 21
  | .setTimeSource => 4 | .readTime => 21
  | .setService => 7 | .clearService => 0 | .readService => 9 | .bindDestination => 4 | .readDestination => 34
  | .select => 3 | .take => 1 | .discardChanges => 1 | .readChanges => 25 | .release => 2 | .setAcquireTime => 2
  | .loadKeyQuarter => 2 | .setCommitMask => 1 | .clearKey => 1 | .readKeyState => 3
  | .grantEntitlement => 3 | .revokeEntitlement => 2 | .readEntitlement => 17
  | .purgeGuide => 4 | .queryEvent => 23 | .queryNext => 23 | .readGuide => 79
  | .setProfile => 19 | .readProfile => 22 | .addAllowance => 4 | .grantUnlock => 9 | .resolveHold => 10
  | .readParental => 21
  | .portConfigure => 5 | .portStart => 1 | .portStop => 2 | .portClear => 2 | .readPort => 14
  | .ackAttention => 6 | .setAttentionMask => 9 | .snapshotTallies => 49 | .readIdentity => 9 | .resetPart => 1

/-- A whole order record is checked and carried out, in the three steps of R163. -/
def carryOut (r : OrderRecord) (s : State) : Answer :=
  match Order.ofCode r.code with
  | none => .refuse s .unknownOrder
  | some o => if r.body.length ≠ o.bodyLength then .refuse s .badLength else runOrder o r.body s

/-! ## The next order record of the command cell (R162, R164) -/

/-- What stands at the place of the next order record (R162). -/
def CommandCell.read (c : CommandCell) : RecordRead := readRecord c.cell.payload c.pos

/-- The longest reply that what stands next can bring; none where the cell ends (log entry 21). -/
def CommandCell.largestReply (c : CommandCell) : Option Nat :=
  match c.read with
  | .cellEnds => none
  | .runsPast _ _ => some 6
  | .whole r => some (6 + if c.discarding then 0 else ((Order.ofCode r.code).map largestBody).getD 0)

/-- The open report cell lacks room for the longest reply that comes next. -/
def HostLink.lacksRoom (l : HostLink) (c : CommandCell) : Bool := c.largestReply.any fun n => !l.fits n

/-- The taking of orders is suspended (R164, log entry 22). -/
def HostLink.suspended (l : HostLink) (c : CommandCell) : Bool :=
  !l.waiting.isEmpty || (l.lacksRoom c && l.free == 0)

/-- The command cell ends: its report cell is closed and queued (R162, R166). -/
def HostLink.endCell (l : HostLink) : HostLink := HostLink.closeFilling { l with command := none }

/-- The next order record is the one behind record `r`. -/
def CommandCell.advance (r : OrderRecord) (c : CommandCell) : CommandCell := { c with pos := c.pos + r.bytes.length }

/-- The link reads on until the command cell ends, its next order stands ready to be taken, or the taking is suspended. On the way it
answers what no block takes part in: a record that runs past the payload (R162) and records after a RESET_PART (R180). -/
def HostLink.settle : Nat → HostLink → HostLink
  | 0, l => l
  | fuel + 1, l =>
    match l.command with
    | none => l
    | some c =>
      if l.suspended c then l
      else
        match c.read with
        | .cellEnds => l.endCell
        | .runsPast code tag =>
          (l.placeRecord (replyBytes code tag (if c.discarding then .discarded else .badLength) [])).endCell
        | .whole r =>
          if c.discarding then
            HostLink.settle fuel
              (HostLink.placeRecord (replyBytes r.code r.tag .discarded []) { l with command := some (c.advance r) })
          else l

/-- A payload holds at most 46 order records; one turn more sees the end. -/
def State.settleCommand (s : State) : State := { s with link := s.link.settle 47 }

/-! ## Taking a command cell and an order -/

/-- The cell becomes the command cell in progress. -/
def HostLink.install (c : Cell) (l : HostLink) : HostLink := { l with command := some ⟨c, 0, false⟩ }

/-- The cells that the link holds off are taken in turn while the intake is OPEN; a cell that is no command cell is discarded (R161). The
rest stay held on the link (R170). -/
def HostLink.takeArriving : List Cell → HostLink → HostLink
  | [], l => { l with arriving := [] }
  | c :: rest, l =>
    if l.intake = .opened then HostLink.takeArriving rest (if c.isCommand then (l.install c).settle 47 else l)
    else { l with arriving := c :: rest }

/-- The link takes what it holds off, where the intake lets it. -/
def State.letIn (s : State) : State := { s with link := s.link.takeArriving s.link.arriving }

/-- The host sends a cell (R161). In HELD and BUSY it is held on the link, behind any held before it, until the intake is OPEN (R170, log
entry 30). -/
def State.commandCell (c : Cell) (s : State) : State :=
  State.letIn { s with link := { s.link with arriving := s.link.arriving ++ [c] } }

/-- The next order is taken whole, its reply is placed, and the link reads on (R164, R165). -/
def State.runRecord (r : OrderRecord) (s : State) : State :=
  let s1 := { s with link := { s.link with command := s.link.command.map (CommandCell.advance r) } }
  let a := carryOut r s1
  (a.state.reply r.code r.tag a.result a.body).settleCommand

/-- The order record stands next in the command cell, and nothing keeps it from being taken. -/
def HostLink.ready (l : HostLink) (c : CommandCell) (r : OrderRecord) : Bool :=
  c.read == .whole r && !c.discarding && !l.suspended c

/-- An order is commanded. With a command cell in progress it is that cell's next order; else, in OPEN, it is the one order of a
command cell of its own. An order that the link cannot take now leaves the part as it is (log entry 14). -/
def State.takeOrder (r : OrderRecord) (s : State) : State :=
  match s.link.command with
  | some c => if s.link.ready c r then (s.runRecord r).letIn else s
  | none =>
    if s.link.intake = .opened ∧ bodyFits r.body then
      (State.runRecord r { s with link := s.link.install (builtCell 16382 true 0 0 r.bytes) }).letIn
    else s

/-! ## Emissions (R168) -/

/-- The cell that stands in a place of the outbound queue. -/
def OutCell.cell : OutCell → Cell
  | .report c => c
  | .forwarded c => c

/-- Step 1: the report cell that waits closed is queued. -/
def HostLink.queueWaiting (l : HostLink) : HostLink :=
  match l.waiting with
  | [] => l
  | c :: rest => if l.free = 0 then l else { l with waiting := rest, outbound := l.outbound ++ [.report c] }

/-- What stands next in a command cell whose taking resumes: an order is taken whole (R164); anything else the link answers itself. -/
def State.takeNext (c : CommandCell) (s : State) : State :=
  match c.read, c.discarding with
  | .whole r, false => s.runRecord r
  | _, _ => s.settleCommand

/-- The open report cell, where it lacks room for what comes next, is closed and queued in the place that is free (R164). -/
def HostLink.makeRoom (c : CommandCell) (l : HostLink) : HostLink := if l.lacksRoom c then l.closeFilling else l

/-- Step 2: a command cell that was suspended before the emission resumes where R164 lets it, and its next order is then taken. -/
def State.resume (before : HostLink) (s : State) : State :=
  match s.link.command with
  | none => s
  | some c =>
    if before.suspended c && !s.link.suspended c then State.takeNext c { s with link := s.link.makeRoom c }
    else s

/-- Step 3: a waiting attention record is placed. -/
def State.placeWaiting (s : State) : State := { s with link := s.link.placeWaiting }

/-- The host takes the head of the outbound queue, and the link does what R168 lists, in its order; a cell held off is taken once the intake is
OPEN (R161, R170). With an empty queue nothing is presented and nothing happens. -/
def State.emission (s : State) : State :=
  match s.link.outbound with
  | [] => s
  | c :: rest =>
    let s1 := State.send (.host c.cell) { s with link := HostLink.queueWaiting { s.link with outbound := rest } }
    (s1.resume s.link).placeWaiting.letIn

end Sys2Proof.Machine
end

