-- ==== Sys2Proof/Machine/Events.lean ====
section
/-! DEFINITION. The meanings of the commands that are events: arrivals, timers, the pins of the ports, the host link's cells and
emissions, and the reset pin. While the reset pin is asserted the part takes and emits nothing (R179): `guarded` says so once. -/

namespace Sys2Proof.Machine

/-- The effect of a command; none while the reset pin is asserted (R179, log entry 7). -/
def guarded (f : State → State) (s : State) : Host.Outcome State Fault Refusal :=
  if s.resetPin then .next s else .next (f s)

/-! ## The ports -/

/-- The downstream device of port `p` raises its accept signal (R154). With nothing presented the signal stays raised until a cell is
accepted (log entry 6). A PACED port looks at the signal at its slots alone (R155). -/
def State.drain (p : PortId) (s : State) : State :=
  let x := s.port p
  match x.mode with
  | .paced => s
  | .demand =>
    if x.state = .running ∧ ¬ x.queue.isEmpty then s.emitPort p else s.setPort p { x with accept := true }

/-- The slot timer of port `p` expires; `ready` is the accept signal as the port finds it (R155). -/
def State.slot (p : PortId) (ready : Bool) (s : State) : State :=
  let x := s.port p
  if x.state = .running ∧ x.slotRunning ∧ ready then
    match x.queue with
    | _ :: _ => s.emitPort p
    | [] =>
      if x.underrunFill then
        (s.setPort p { x with fillEmitted := x.fillEmitted + 1 }).send (.port p fillCell)
      else s
  else s

/-- The drain watch of port `p` expires, where its expiry is due (R156). -/
def State.drainWatch (p : PortId) (s : State) : State :=
  let x := s.port p
  if x.state = .running ∧ x.watch.due then
    (s.setPort p { x with watch := none, unheard := true }).raise .port (sourceByte p) 0
  else s

/-! ## The meanings -/

/-- FEED_CELL_ARRIVAL (R5, R6, R7). -/
def execFeedCellArrival (feed : FeedId) (cell : Cell) (s : State) : Host.Outcome State Fault Refusal :=
  guarded (State.arrival feed cell) s

/-- SILENCE_TIMER_EXPIRY (R8). -/
def execSilenceTimerExpiry (feed : FeedId) (s : State) : Host.Outcome State Fault Refusal :=
  guarded (State.feedSilence feed) s

/-- TIMEBASE_TICK (R26). -/
def execTimebaseTick (s : State) : Host.Outcome State Fault Refusal := guarded State.tick s

/-- SOURCE_SILENCE_TIMER_EXPIRY (R34). -/
def execSourceSilenceTimerExpiry (s : State) : Host.Outcome State Fault Refusal := guarded State.sourceSilence s

/-- ACQUISITION_TIMER_EXPIRY (R73). -/
def execAcquisitionTimerExpiry (dest : DestId) (s : State) : Host.Outcome State Fault Refusal :=
  guarded (State.acquisitionExpires dest) s

/-- HOLD_TIMER_EXPIRY (R142). -/
def execHoldTimerExpiry (dest : DestId) (s : State) : Host.Outcome State Fault Refusal :=
  guarded (State.holdExpires dest) s

/-- DRAIN (R154). -/
def execDrain (port : PortId) (s : State) : Host.Outcome State Fault Refusal := guarded (State.drain port) s

/-- SLOT_TIMER_EXPIRY (R155). -/
def execSlotTimerExpiry (port : PortId) (ready : Bool) (s : State) : Host.Outcome State Fault Refusal :=
  guarded (State.slot port ready) s

/-- DRAIN_WATCH_EXPIRY (R156). -/
def execDrainWatchExpiry (port : PortId) (s : State) : Host.Outcome State Fault Refusal :=
  guarded (State.drainWatch port) s

/-- COMMAND_CELL (R161). -/
def execCommandCell (cell : Cell) (s : State) : Host.Outcome State Fault Refusal := guarded (State.commandCell cell) s

/-- EMISSION (R168). -/
def execEmission (s : State) : Host.Outcome State Fault Refusal := guarded State.emission s

/-- RESET_ASSERT (R179). -/
def execResetAssert (s : State) : Host.Outcome State Fault Refusal := .next s.assertReset

/-- RESET_RELEASE (R179): every block holds its power-on values. -/
def execResetRelease (s : State) : Host.Outcome State Fault Refusal := .next s.powerOn

end Sys2Proof.Machine
end

