-- ==== Sys2Proof/Machine/Orders.lean ====
section
/-! DEFINITION. The meanings of the commands that are orders. Each is the taking of its order record (`State.takeOrder`); what the order
does is its own definition in the file of its chapter, which `runOrder` names. -/

namespace Sys2Proof.Machine

/-- UNKNOWN_ORDER (R163). A code that is 0 or an order's is no unknown order: the command then leaves the part as it is (log entry 26). -/
def execUnknownOrder (code : Byte) (tag : Half) (body : List Byte) (s : State) : Host.Outcome State Fault Refusal :=
  guarded (fun s => if codeUnknown code then s.takeOrder ⟨code, tag, body⟩ else s) s

/-- FEED_ENABLE (R10). -/
def execFeedEnable (tag : Half) (body : List Byte) (s : State) : Host.Outcome State Fault Refusal :=
  guarded (State.takeOrder ⟨Order.feedEnable.code, tag, body⟩) s

/-- FEED_DISABLE (R11). -/
def execFeedDisable (tag : Half) (body : List Byte) (s : State) : Host.Outcome State Fault Refusal :=
  guarded (State.takeOrder ⟨Order.feedDisable.code, tag, body⟩) s

/-- FEED_CONFIGURE (R12). -/
def execFeedConfigure (tag : Half) (body : List Byte) (s : State) : Host.Outcome State Fault Refusal :=
  guarded (State.takeOrder ⟨Order.feedConfigure.code, tag, body⟩) s

/-- READ_FEED (R13). -/
def execReadFeed (tag : Half) (body : List Byte) (s : State) : Host.Outcome State Fault Refusal :=
  guarded (State.takeOrder ⟨Order.readFeed.code, tag, body⟩) s

/-- SET_FLOW (R20). -/
def execSetFlow (tag : Half) (body : List Byte) (s : State) : Host.Outcome State Fault Refusal :=
  guarded (State.takeOrder ⟨Order.setFlow.code, tag, body⟩) s

/-- CLEAR_FLOW (R21). -/
def execClearFlow (tag : Half) (body : List Byte) (s : State) : Host.Outcome State Fault Refusal :=
  guarded (State.takeOrder ⟨Order.clearFlow.code, tag, body⟩) s

/-- READ_FLOW (R22). -/
def execReadFlow (tag : Half) (body : List Byte) (s : State) : Host.Outcome State Fault Refusal :=
  guarded (State.takeOrder ⟨Order.readFlow.code, tag, body⟩) s

/-- SET_TIME_SOURCE (R38). -/
def execSetTimeSource (tag : Half) (body : List Byte) (s : State) : Host.Outcome State Fault Refusal :=
  guarded (State.takeOrder ⟨Order.setTimeSource.code, tag, body⟩) s

/-- READ_TIME (R39). -/
def execReadTime (tag : Half) (body : List Byte) (s : State) : Host.Outcome State Fault Refusal :=
  guarded (State.takeOrder ⟨Order.readTime.code, tag, body⟩) s

/-- SET_SERVICE (R41). -/
def execSetService (tag : Half) (body : List Byte) (s : State) : Host.Outcome State Fault Refusal :=
  guarded (State.takeOrder ⟨Order.setService.code, tag, body⟩) s

/-- CLEAR_SERVICE (R42). -/
def execClearService (tag : Half) (body : List Byte) (s : State) : Host.Outcome State Fault Refusal :=
  guarded (State.takeOrder ⟨Order.clearService.code, tag, body⟩) s

/-- READ_SERVICE (R43). -/
def execReadService (tag : Half) (body : List Byte) (s : State) : Host.Outcome State Fault Refusal :=
  guarded (State.takeOrder ⟨Order.readService.code, tag, body⟩) s

/-- BIND_DESTINATION (R45). -/
def execBindDestination (tag : Half) (body : List Byte) (s : State) : Host.Outcome State Fault Refusal :=
  guarded (State.takeOrder ⟨Order.bindDestination.code, tag, body⟩) s

/-- READ_DESTINATION (R59). -/
def execReadDestination (tag : Half) (body : List Byte) (s : State) : Host.Outcome State Fault Refusal :=
  guarded (State.takeOrder ⟨Order.readDestination.code, tag, body⟩) s

/-- SELECT (R61). -/
def execSelect (tag : Half) (body : List Byte) (s : State) : Host.Outcome State Fault Refusal :=
  guarded (State.takeOrder ⟨Order.select.code, tag, body⟩) s

/-- TAKE (R68). -/
def execTake (tag : Half) (body : List Byte) (s : State) : Host.Outcome State Fault Refusal :=
  guarded (State.takeOrder ⟨Order.take.code, tag, body⟩) s

/-- DISCARD_CHANGES (R69). -/
def execDiscardChanges (tag : Half) (body : List Byte) (s : State) : Host.Outcome State Fault Refusal :=
  guarded (State.takeOrder ⟨Order.discardChanges.code, tag, body⟩) s

/-- READ_CHANGES (R69). -/
def execReadChanges (tag : Half) (body : List Byte) (s : State) : Host.Outcome State Fault Refusal :=
  guarded (State.takeOrder ⟨Order.readChanges.code, tag, body⟩) s

/-- RELEASE (R70). -/
def execRelease (tag : Half) (body : List Byte) (s : State) : Host.Outcome State Fault Refusal :=
  guarded (State.takeOrder ⟨Order.release.code, tag, body⟩) s

/-- SET_ACQUIRE_TIME (R71). -/
def execSetAcquireTime (tag : Half) (body : List Byte) (s : State) : Host.Outcome State Fault Refusal :=
  guarded (State.takeOrder ⟨Order.setAcquireTime.code, tag, body⟩) s

/-- LOAD_KEY_QUARTER (R78). -/
def execLoadKeyQuarter (tag : Half) (body : List Byte) (s : State) : Host.Outcome State Fault Refusal :=
  guarded (State.takeOrder ⟨Order.loadKeyQuarter.code, tag, body⟩) s

/-- SET_COMMIT_MASK (R81). -/
def execSetCommitMask (tag : Half) (body : List Byte) (s : State) : Host.Outcome State Fault Refusal :=
  guarded (State.takeOrder ⟨Order.setCommitMask.code, tag, body⟩) s

/-- CLEAR_KEY (R82). -/
def execClearKey (tag : Half) (body : List Byte) (s : State) : Host.Outcome State Fault Refusal :=
  guarded (State.takeOrder ⟨Order.clearKey.code, tag, body⟩) s

/-- READ_KEY_STATE (R83). -/
def execReadKeyState (tag : Half) (body : List Byte) (s : State) : Host.Outcome State Fault Refusal :=
  guarded (State.takeOrder ⟨Order.readKeyState.code, tag, body⟩) s

/-- GRANT_ENTITLEMENT (R95). -/
def execGrantEntitlement (tag : Half) (body : List Byte) (s : State) : Host.Outcome State Fault Refusal :=
  guarded (State.takeOrder ⟨Order.grantEntitlement.code, tag, body⟩) s

/-- REVOKE_ENTITLEMENT (R96). -/
def execRevokeEntitlement (tag : Half) (body : List Byte) (s : State) : Host.Outcome State Fault Refusal :=
  guarded (State.takeOrder ⟨Order.revokeEntitlement.code, tag, body⟩) s

/-- READ_ENTITLEMENT (R97). -/
def execReadEntitlement (tag : Half) (body : List Byte) (s : State) : Host.Outcome State Fault Refusal :=
  guarded (State.takeOrder ⟨Order.readEntitlement.code, tag, body⟩) s

/-- PURGE_GUIDE (R122). -/
def execPurgeGuide (tag : Half) (body : List Byte) (s : State) : Host.Outcome State Fault Refusal :=
  guarded (State.takeOrder ⟨Order.purgeGuide.code, tag, body⟩) s

/-- QUERY_EVENT (R123). -/
def execQueryEvent (tag : Half) (body : List Byte) (s : State) : Host.Outcome State Fault Refusal :=
  guarded (State.takeOrder ⟨Order.queryEvent.code, tag, body⟩) s

/-- QUERY_NEXT (R124). -/
def execQueryNext (tag : Half) (body : List Byte) (s : State) : Host.Outcome State Fault Refusal :=
  guarded (State.takeOrder ⟨Order.queryNext.code, tag, body⟩) s

/-- READ_GUIDE (R125). -/
def execReadGuide (tag : Half) (body : List Byte) (s : State) : Host.Outcome State Fault Refusal :=
  guarded (State.takeOrder ⟨Order.readGuide.code, tag, body⟩) s

/-- SET_PROFILE (R129). -/
def execSetProfile (tag : Half) (body : List Byte) (s : State) : Host.Outcome State Fault Refusal :=
  guarded (State.takeOrder ⟨Order.setProfile.code, tag, body⟩) s

/-- READ_PROFILE (R130). -/
def execReadProfile (tag : Half) (body : List Byte) (s : State) : Host.Outcome State Fault Refusal :=
  guarded (State.takeOrder ⟨Order.readProfile.code, tag, body⟩) s

/-- ADD_ALLOWANCE (R133). -/
def execAddAllowance (tag : Half) (body : List Byte) (s : State) : Host.Outcome State Fault Refusal :=
  guarded (State.takeOrder ⟨Order.addAllowance.code, tag, body⟩) s

/-- GRANT_UNLOCK (R138). -/
def execGrantUnlock (tag : Half) (body : List Byte) (s : State) : Host.Outcome State Fault Refusal :=
  guarded (State.takeOrder ⟨Order.grantUnlock.code, tag, body⟩) s

/-- RESOLVE_HOLD (R141). -/
def execResolveHold (tag : Half) (body : List Byte) (s : State) : Host.Outcome State Fault Refusal :=
  guarded (State.takeOrder ⟨Order.resolveHold.code, tag, body⟩) s

/-- READ_PARENTAL (R144). -/
def execReadParental (tag : Half) (body : List Byte) (s : State) : Host.Outcome State Fault Refusal :=
  guarded (State.takeOrder ⟨Order.readParental.code, tag, body⟩) s

/-- PORT_CONFIGURE (R149). -/
def execPortConfigure (tag : Half) (body : List Byte) (s : State) : Host.Outcome State Fault Refusal :=
  guarded (State.takeOrder ⟨Order.portConfigure.code, tag, body⟩) s

/-- PORT_START (R150). -/
def execPortStart (tag : Half) (body : List Byte) (s : State) : Host.Outcome State Fault Refusal :=
  guarded (State.takeOrder ⟨Order.portStart.code, tag, body⟩) s

/-- PORT_STOP (R151). -/
def execPortStop (tag : Half) (body : List Byte) (s : State) : Host.Outcome State Fault Refusal :=
  guarded (State.takeOrder ⟨Order.portStop.code, tag, body⟩) s

/-- PORT_CLEAR (R157). -/
def execPortClear (tag : Half) (body : List Byte) (s : State) : Host.Outcome State Fault Refusal :=
  guarded (State.takeOrder ⟨Order.portClear.code, tag, body⟩) s

/-- READ_PORT (R159). -/
def execReadPort (tag : Half) (body : List Byte) (s : State) : Host.Outcome State Fault Refusal :=
  guarded (State.takeOrder ⟨Order.readPort.code, tag, body⟩) s

/-- ACK_ATTENTION (R176). -/
def execAckAttention (tag : Half) (body : List Byte) (s : State) : Host.Outcome State Fault Refusal :=
  guarded (State.takeOrder ⟨Order.ackAttention.code, tag, body⟩) s

/-- SET_ATTENTION_MASK (R175). -/
def execSetAttentionMask (tag : Half) (body : List Byte) (s : State) : Host.Outcome State Fault Refusal :=
  guarded (State.takeOrder ⟨Order.setAttentionMask.code, tag, body⟩) s

/-- SNAPSHOT_TALLIES (R177). -/
def execSnapshotTallies (tag : Half) (body : List Byte) (s : State) : Host.Outcome State Fault Refusal :=
  guarded (State.takeOrder ⟨Order.snapshotTallies.code, tag, body⟩) s

/-- READ_IDENTITY (R178). -/
def execReadIdentity (tag : Half) (body : List Byte) (s : State) : Host.Outcome State Fault Refusal :=
  guarded (State.takeOrder ⟨Order.readIdentity.code, tag, body⟩) s

/-- RESET_PART (R180). -/
def execResetPart (tag : Half) (body : List Byte) (s : State) : Host.Outcome State Fault Refusal :=
  guarded (State.takeOrder ⟨Order.resetPart.code, tag, body⟩) s

end Sys2Proof.Machine
end

