-- ==== Sys2Proof/Machine/Dispatch.lean ====
section
/-! DEFINITION. Which meaning each command has: one arm per constructor. -/

namespace Sys2Proof.Machine

def exec (i : Instr) (s : State) : Host.Outcome State Fault Refusal :=
  match i with
  | .feedCellArrival feed cell => Sys2Proof.Machine.execFeedCellArrival feed cell s
  | .silenceTimerExpiry feed => Sys2Proof.Machine.execSilenceTimerExpiry feed s
  | .timebaseTick => Sys2Proof.Machine.execTimebaseTick s
  | .sourceSilenceTimerExpiry => Sys2Proof.Machine.execSourceSilenceTimerExpiry s
  | .acquisitionTimerExpiry dest => Sys2Proof.Machine.execAcquisitionTimerExpiry dest s
  | .holdTimerExpiry dest => Sys2Proof.Machine.execHoldTimerExpiry dest s
  | .drain port => Sys2Proof.Machine.execDrain port s
  | .slotTimerExpiry port ready => Sys2Proof.Machine.execSlotTimerExpiry port ready s
  | .drainWatchExpiry port => Sys2Proof.Machine.execDrainWatchExpiry port s
  | .commandCell cell => Sys2Proof.Machine.execCommandCell cell s
  | .unknownOrder code tag body => Sys2Proof.Machine.execUnknownOrder code tag body s
  | .emission => Sys2Proof.Machine.execEmission s
  | .feedEnable tag body => Sys2Proof.Machine.execFeedEnable tag body s
  | .feedDisable tag body => Sys2Proof.Machine.execFeedDisable tag body s
  | .feedConfigure tag body => Sys2Proof.Machine.execFeedConfigure tag body s
  | .readFeed tag body => Sys2Proof.Machine.execReadFeed tag body s
  | .setFlow tag body => Sys2Proof.Machine.execSetFlow tag body s
  | .clearFlow tag body => Sys2Proof.Machine.execClearFlow tag body s
  | .readFlow tag body => Sys2Proof.Machine.execReadFlow tag body s
  | .setTimeSource tag body => Sys2Proof.Machine.execSetTimeSource tag body s
  | .readTime tag body => Sys2Proof.Machine.execReadTime tag body s
  | .setService tag body => Sys2Proof.Machine.execSetService tag body s
  | .clearService tag body => Sys2Proof.Machine.execClearService tag body s
  | .readService tag body => Sys2Proof.Machine.execReadService tag body s
  | .bindDestination tag body => Sys2Proof.Machine.execBindDestination tag body s
  | .readDestination tag body => Sys2Proof.Machine.execReadDestination tag body s
  | .select tag body => Sys2Proof.Machine.execSelect tag body s
  | .take tag body => Sys2Proof.Machine.execTake tag body s
  | .discardChanges tag body => Sys2Proof.Machine.execDiscardChanges tag body s
  | .readChanges tag body => Sys2Proof.Machine.execReadChanges tag body s
  | .release tag body => Sys2Proof.Machine.execRelease tag body s
  | .setAcquireTime tag body => Sys2Proof.Machine.execSetAcquireTime tag body s
  | .loadKeyQuarter tag body => Sys2Proof.Machine.execLoadKeyQuarter tag body s
  | .setCommitMask tag body => Sys2Proof.Machine.execSetCommitMask tag body s
  | .clearKey tag body => Sys2Proof.Machine.execClearKey tag body s
  | .readKeyState tag body => Sys2Proof.Machine.execReadKeyState tag body s
  | .grantEntitlement tag body => Sys2Proof.Machine.execGrantEntitlement tag body s
  | .revokeEntitlement tag body => Sys2Proof.Machine.execRevokeEntitlement tag body s
  | .readEntitlement tag body => Sys2Proof.Machine.execReadEntitlement tag body s
  | .purgeGuide tag body => Sys2Proof.Machine.execPurgeGuide tag body s
  | .queryEvent tag body => Sys2Proof.Machine.execQueryEvent tag body s
  | .queryNext tag body => Sys2Proof.Machine.execQueryNext tag body s
  | .readGuide tag body => Sys2Proof.Machine.execReadGuide tag body s
  | .setProfile tag body => Sys2Proof.Machine.execSetProfile tag body s
  | .readProfile tag body => Sys2Proof.Machine.execReadProfile tag body s
  | .addAllowance tag body => Sys2Proof.Machine.execAddAllowance tag body s
  | .grantUnlock tag body => Sys2Proof.Machine.execGrantUnlock tag body s
  | .resolveHold tag body => Sys2Proof.Machine.execResolveHold tag body s
  | .readParental tag body => Sys2Proof.Machine.execReadParental tag body s
  | .portConfigure tag body => Sys2Proof.Machine.execPortConfigure tag body s
  | .portStart tag body => Sys2Proof.Machine.execPortStart tag body s
  | .portStop tag body => Sys2Proof.Machine.execPortStop tag body s
  | .portClear tag body => Sys2Proof.Machine.execPortClear tag body s
  | .readPort tag body => Sys2Proof.Machine.execReadPort tag body s
  | .ackAttention tag body => Sys2Proof.Machine.execAckAttention tag body s
  | .setAttentionMask tag body => Sys2Proof.Machine.execSetAttentionMask tag body s
  | .snapshotTallies tag body => Sys2Proof.Machine.execSnapshotTallies tag body s
  | .readIdentity tag body => Sys2Proof.Machine.execReadIdentity tag body s
  | .resetPart tag body => Sys2Proof.Machine.execResetPart tag body s
  | .resetAssert => Sys2Proof.Machine.execResetAssert s
  | .resetRelease => Sys2Proof.Machine.execResetRelease s

end Sys2Proof.Machine
end

