-- ==== Sys2Proof/Safety.lean ====
section
/-! DEFINITION. What the claims about the part speak of: the host link at rest, the state with one more reply sent, and the invariants
that the manual's prose states. -/

namespace Sys2Proof.Machine

/-! ## The host link at rest -/

/-- The part takes commands, and its host link is OPEN with no report cell in hand and no cell held off: an order commanded now is the one order of a command
cell of its own (R161), and the report cell with its reply is queued at once (R166). -/
structure LinkAtRest (s : State) : Prop where
  pin : s.resetPin = false
  command : s.link.command = none
  filling : s.link.filling = none
  waiting : s.link.waiting = []
  arriving : s.link.arriving = []
  places : s.link.outbound.length ≤ 22

/-- The link with one more report cell queued, holding one reply (R165, R166). -/
def HostLink.answered (code : Byte) (tag : Half) (result : Result) (body : List Byte) (l : HostLink) : HostLink :=
  { l with outbound := l.outbound ++ [.report (builtCell 16381 true l.reportSeq 255 (replyBytes code tag result body))]
           reportSeq := l.reportSeq + 1 }

/-- The state with one more report cell queued, holding one reply; all else as it stands. -/
def State.answered (code : Byte) (tag : Half) (result : Result) (body : List Byte) (s : State) : State :=
  { s with link := s.link.answered code tag result body }

/-- A report cell that is queued, or waits closed, holds the record. -/
def Reported (record : List Byte) (s : State) : Prop :=
  ∃ c before after, (.report c ∈ s.link.outbound ∨ c ∈ s.link.waiting) ∧ c.payload.rows = before ++ record ++ after

/-- The command that stands for an order record. -/
def orderCommand (o : Order) (tag : Half) (body : List Byte) : Instr :=
  match o with
  | .feedEnable => .feedEnable tag body | .feedDisable => .feedDisable tag body
  | .feedConfigure => .feedConfigure tag body | .readFeed => .readFeed tag body
  | .setFlow => .setFlow tag body | .clearFlow => .clearFlow tag body | .readFlow => .readFlow tag body
  | .setTimeSource => .setTimeSource tag body | .readTime => .readTime tag body
  | .setService => .setService tag body | .clearService => .clearService tag body
  | .readService => .readService tag body
  | .bindDestination => .bindDestination tag body | .readDestination => .readDestination tag body
  | .select => .select tag body | .take => .take tag body | .discardChanges => .discardChanges tag body
  | .readChanges => .readChanges tag body | .release => .release tag body | .setAcquireTime => .setAcquireTime tag body
  | .loadKeyQuarter => .loadKeyQuarter tag body | .setCommitMask => .setCommitMask tag body
  | .clearKey => .clearKey tag body | .readKeyState => .readKeyState tag body
  | .grantEntitlement => .grantEntitlement tag body | .revokeEntitlement => .revokeEntitlement tag body
  | .readEntitlement => .readEntitlement tag body
  | .purgeGuide => .purgeGuide tag body | .queryEvent => .queryEvent tag body | .queryNext => .queryNext tag body
  | .readGuide => .readGuide tag body
  | .setProfile => .setProfile tag body | .readProfile => .readProfile tag body
  | .addAllowance => .addAllowance tag body | .grantUnlock => .grantUnlock tag body
  | .resolveHold => .resolveHold tag body | .readParental => .readParental tag body
  | .portConfigure => .portConfigure tag body | .portStart => .portStart tag body | .portStop => .portStop tag body
  | .portClear => .portClear tag body | .readPort => .readPort tag body
  | .ackAttention => .ackAttention tag body | .setAttentionMask => .setAttentionMask tag body
  | .snapshotTallies => .snapshotTallies tag body | .readIdentity => .readIdentity tag body
  | .resetPart => .resetPart tag body

/-- The command takes order record `r`: it is the order's command, or the emission at which the suspended command cell resumes with it
(R164, R168). -/
def TakesOrder (c : Instr) (s : State) (r : OrderRecord) : Prop :=
  (∃ o, c = orderCommand o r.tag r.body ∧ r.code = o.code) ∨
    (c = .emission ∧ ∃ k, s.link.command = some k ∧ readRecord k.cell.payload k.pos = .whole r)

/-- The command is answered with result `r` and an empty body, and nothing else changes (R163, R165). -/
def Refused (c : Instr) (code : Byte) (tag : Half) (r : Result) (s : State) : Prop :=
  exec c s = .next (s.answered code tag r [])

/-- The order with this body is carried out with DONE and this reply body, which the host link then places in a report cell (R165, R166). -/
def Replies (o : Order) (body : List Byte) (s : State) (reply : List Byte) : Prop :=
  (runOrder o body s).result = .done ∧ (runOrder o body s).body = reply

/-! ## Cells at a LOCKED feed -/

/-- A LOCKED feed has taken a well-formed cell: it is counted ARRIVED, the silence timer runs afresh, and the lapse run is 0 (R7). -/
def State.heard (f : FeedId) (s : State) : State :=
  s.setFeed f { s.feed f with
    silence := some (s.feed f).timeout, lapseRun := 0,
    tallies := { (s.feed f).tallies with arrived := (s.feed f).tallies.arrived + 1 } }

/-- A well-formed cell arrives at a LOCKED feed and survives screening (R3, R7). -/
structure Survives (s : State) (f : FeedId) (c : Cell) : Prop where
  pin : s.resetPin = false
  locked : (s.feed f).state = .locked
  wellFormed : c.wellFormed = true
  flow : c.flowId.toNat ≤ 16379

/-- The cell's sequence is the last sequence of entry `k` (R17). -/
def State.sequenced (k : Fin 256) (e : FlowEntry) (c : Cell) (s : State) : State :=
  s.setFlow k (some { e with lastSeq := some c.seq })

/-- The sequence check is made on the cells of entry `e` from feed `f` (R17). -/
def Checked (s : State) (f : FeedId) (e : FlowEntry) : Prop := (s.feed f).checking = true ∧ e.mask = 0x3FFF

/-- The sequence check lets the cell pass, and leaves state `t` (R17): it is not made; or the sequence is the first or the next one; or it shows a
gap, which is counted and abandons the entry's guide assembly. -/
inductive PassesCheck (s : State) (f : FeedId) (c : Cell) (k : Fin 256) (e : FlowEntry) : State → Prop where
  | unchecked : ¬ Checked s f e → PassesCheck s f c k e (s.heard f)
  | accepted : Checked s f e → (∀ l, e.lastSeq = some l → c.seq = l + 1) →
      PassesCheck s f c k e ((s.heard f).sequenced k e c)
  | gap (l : BitVec 5) : Checked s f e → e.lastSeq = some l → c.seq ≠ l → c.seq ≠ l + 1 →
      PassesCheck s f c k e ((((s.heard f).countFeed f .gap).sequenced k e c).abandonEntry k)

/-- Entry `k` takes the cell (R15), and the sequence check lets it pass and leaves `t` (R17). -/
structure Taken (s : State) (f : FeedId) (c : Cell) (k : Fin 256) (e : FlowEntry) (t : State) : Prop extends Survives s f c where
  matched : s.matchEntry f c.flowId = some (k, e)
  passes : PassesCheck s f c k e t

/-! ## What a command leaves alone -/

/-- What the evaluation of destinations and the forming of verdicts leave as it stands (R46, R64, R103, R137, R140): everything but the
destination records, the two units' records of destinations, the ports, the pending sources with their presentation, and the report cells
that an attention record or a reply takes. -/
structure Settled (s t : State) : Prop where
  feeds : t.feeds = s.feeds
  flows : t.flows = s.flows
  time : t.time = s.time
  services : t.ctl.services = s.ctl.services
  halted : t.ctl.halted = s.ctl.halted
  changes : t.ctl.changes = s.ctl.changes
  acquireTime : t.ctl.acquireTime = s.ctl.acquireTime
  keys : t.keys = s.keys
  table : t.access.table = s.access.table
  guide : t.guide = s.guide
  profiles : t.parental.profiles = s.parental.profiles
  command : t.link.command = s.link.command
  arriving : t.link.arriving = s.link.arriving
  forwardDrops : t.link.forwardDrops = s.link.forwardDrops
  enabled : ∀ c, (t.attention.cause c).enabled = (s.attention.cause c).enabled
  snapshots : t.attention.snapshots = s.attention.snapshots
  resetPin : t.resetPin = s.resetPin
  sent : t.sent = s.sent
  freeCount : t.freeCount = s.freeCount
  script : t.script = s.script
  pending : t.pending = s.pending

/-- Beyond `Settled`, the access unit and the parental unit are as they were. -/
structure UnitsKept (s t : State) : Prop extends Settled s t where
  access : t.access = s.access
  parental : t.parental = s.parental

/-- What an effect on destination `d` alone leaves: beyond `Settled`, every other destination with the two units' records of it, every port
but the one `d` is bound to, and every pending source of another number than `d`'s. -/
structure OthersKept (d : DestId) (s t : State) : Prop extends Settled s t where
  dests : ∀ e, e ≠ d → t.dest e = s.dest e
  viewers : ∀ e, e ≠ d → t.viewer e = s.viewer e
  lastAccess : ∀ e, e ≠ d → t.lastAccess e = s.lastAccess e
  ports : ∀ p, p ≠ (s.dest d).port → t.port p = s.port p
  sources : ∀ c x, x ≠ sourceByte d → t.attention.isPending c x = s.attention.isPending c x

/-! ## Verdicts formed at a trigger -/

/-- The access verdict of `d`, which shows index `i`, is formed and handed (R103, R104): it is the last report, and where the last report was
the one that the controller held (`ReportsAgreed`), it is the one that the controller holds. -/
structure AccessFormed (s t : State) (d : DestId) (i : Fin 64) : Prop where
  last : t.lastAccess d = some (t.accessVerdict i)
  report : s.lastAccess d = (s.dest d).access → (t.dest d).access = some (t.accessVerdict i)

/-- Destination `d` with the two units' records of it is as it was. -/
def DestKept (s t : State) (d : DestId) : Prop :=
  t.dest d = s.dest d ∧ t.viewer d = s.viewer d ∧ t.lastAccess d = s.lastAccess d

/-- An order forms the access verdict of every non-VACANT destination; a destination whose verdict is its last report, and a VACANT one,
is handed nothing (R95, R96, R104). -/
def AccessHanded (s t : State) : Prop :=
  ∀ d, ((s.dest d).state = .vacant → DestKept s t d) ∧
    ∀ i, (s.dest d).state ≠ .vacant → (s.dest d).service = some i →
      AccessFormed s t d i ∧ (s.lastAccess d = some (t.accessVerdict i) → DestKept s t d)

/-- The verdict that the parental unit holds for `d`, which shows index `i`, is the one that its present state gives (R136, R137). -/
def ParentalStands (t : State) (d : DestId) (i : Fin 64) : Prop :=
  (t.viewer d).formed = some (t.formedFor (t.profile (t.dest d).profile) i (t.viewer d).unlock)

/-- Both units have formed the verdicts of every non-VACANT destination (R103, R137). -/
def VerdictsFormed (s t : State) : Prop :=
  ∀ d i, (s.dest d).state ≠ .vacant → (s.dest d).service = some i →
    AccessFormed s t d i ∧ ((s.dest d).kind = .view → ParentalStands t d i)

/-- The current-event change of index `i` has reached both units (R103, R137, R139, R143): of every destination on the index the verdicts are formed, the
EVENT unlock is removed, and no decline memory stands. -/
def EventChangeTaken (s t : State) (i : Fin 64) : Prop :=
  ∀ d, (s.dest d).state ≠ .vacant → (s.dest d).service = some i →
    AccessFormed s t d i ∧ ((s.dest d).kind = .view → ParentalStands t d i) ∧
      (∀ x, (t.viewer d).unlock ≠ some (.event x)) ∧ (t.viewer d).hold ≠ .declined ∧ (t.viewer d).hold ≠ .noAnswer

/-- The unit's record of a destination after the hold rule (R140): under policy ASK a RESTRICTED verdict opens a hold where none is open, no memory
stands and no bar is placed; any other verdict, and policy BLANK, leave no hold and no memory. -/
def Viewer.ruled (p : Profile) (f : Formed) (v : Viewer) : Viewer :=
  if f.verdict = .restricted ∧ p.policy = .ask then
    if v.hold = .none ∧ v.barred = false then
      { v with hold := .opened, serial := v.serial + 1, timer := some (p.askTimeout * 1000) }
    else v
  else { v with hold := .none, timer := none }

/-- The record with the access bar placed (R50): an open hold closes without memory, and any memory is cleared. -/
def Viewer.placed (v : Viewer) : Viewer := { v with hold := .none, timer := none, barred := true }

/-- The record with the access bar lifted (R50): the hold rule is applied to the formed verdict as it stands. -/
def Viewer.lifted (p : Profile) (v : Viewer) : Viewer :=
  match v.formed with
  | none => { v with barred := false }
  | some f => Viewer.ruled p f { v with barred := false }

/-- The record without decline memory (R143). -/
def Viewer.forgetful (v : Viewer) : Viewer :=
  { v with hold := if v.hold = .declined ∨ v.hold = .noAnswer then .none else v.hold }

/-- The record without an EVENT unlock; a PERIOD unlock stays (R139). -/
def Viewer.periodOnly (v : Viewer) : Viewer :=
  { v with unlock := match v.unlock with | some (.period u) => some (.period u) | _ => none }

/-- Of `d`, which shows index `i` and whose record at the parental unit was `v` by then, the verdict is formed, the hold rule applied, and the report
handed where it differs from the last one (R136, R137, R140). -/
def ParentalFormed (s t : State) (d : DestId) (i : Fin 64) (v : Viewer) : Prop :=
  let p := t.profile (s.dest d).profile
  let f := t.formedFor p i v.unlock
  let w := Viewer.ruled p f { v with formed := some f }
  t.viewer d = { w with last := some ⟨f.verdict, f.uncovered, w.hold, w.serial⟩ } ∧
    (v.last = (s.dest d).parental → (t.dest d).parental = some ⟨f.verdict, f.uncovered, w.hold, w.serial⟩)

/-! ## Order bodies that a statement writes out -/

/-- The bytes of a SET_FLOW body (R20, R171). -/
def flowBody (k : Fin 256) (feedMatch : Option FeedId) (id mask : BitVec 14) (kind : FlowKind) : List Byte :=
  num16 k.val ++ [feedByte feedMatch] ++ num16 id.toNat ++ num16 mask.toNat ++ [kind.byte] ++
    match kind with
    | .programme p =>
      [BitVec.ofNat 8 p.service.val, p.role.byte, if p.required then 1 else 0,
       match p.keySlot with | none => 255 | some k => BitVec.ofNat 8 k.val]
    | _ => [0, 0, 0, 0]

/-- The bytes of the kind, product code and event id of GRANT_ENTITLEMENT and REVOKE_ENTITLEMENT (R95, R171). -/
def keyBody : EntitlementKey → List Byte
  | .subscription p => 0 :: bytes16 p ++ [0, 0]
  | .event p id => 1 :: bytes16 p ++ bytes16 id

/-! ## Invariants -/

/-- Every step keeps `inv`, from every state that has it. -/
def KeptByStep (inv : State → Prop) : Prop := ∀ s t, inv s → step s = .next t → inv t

/-- The conservation of dispositions (R23): ARRIVED equals the sum of the nine dispositions, modulo 2^32. -/
def FeedTallies.conserved (t : FeedTallies) : Prop :=
  t.arrived = t.settling + t.malformed + t.fill + t.unmatched + t.duplicate + t.routed + t.forwarded + t.consumed
    + t.discarded

/-- Every feed conserves its dispositions (R23). -/
def DispositionsConserved (s : State) : Prop := ∀ f, (s.feed f).tallies.conserved

/-- The outbound queue holds at most 24 cells, at most 16 of them forwarded cells (R168). -/
def OutboundBounded (s : State) : Prop := s.link.outbound.length ≤ 24 ∧ s.link.forwardedCount ≤ 16

/-- Every latched snapshot holds as many tallies as its group has (R177). -/
def SnapshotsSized (s : State) : Prop :=
  ∀ g : Fin 25, (s.attention.snapshots.read g).length = (zeroSnapshot g.val).length

/-- A cell is held off only while the intake is not OPEN (R161, R170). -/
def HeldOffLawful (s : State) : Prop := s.link.intake = .opened → s.link.arriving = []

/-- Every pending set stands in ascending order of source, each source once, and holds sources of its cause alone (R173). -/
def PendingLawful (s : State) : Prop :=
  ∀ c, (s.attention.cause c).pending.Pairwise (fun p q => p.source.toNat < q.source.toNat) ∧
    ∀ p ∈ (s.attention.cause c).pending, c.admits p.source.toNat = true

/-- A port keeps the rules of its state (R148, R156): at most 64 cells; none outside RUNNING; a running slot timer exactly when it is
RUNNING in PACED mode; a running drain watch only over a queue that holds a cell. -/
def Port.sound (p : Port) : Prop :=
  p.queue.length ≤ 64 ∧ (p.state ≠ .running → p.queue = []) ∧
    (p.slotRunning = true ↔ p.state = .running ∧ p.mode = .paced) ∧ (p.watch.isSome = true → p.queue ≠ [])

/-- Every port is sound. -/
def PortsSound (s : State) : Prop := ∀ p, (s.port p).sound

/-- The time unit keeps the ranges of R24 and the table of R25. -/
def TimeUnit.sound (t : TimeUnit) : Prop :=
  t.ms ≤ 999 ∧ -2000 ≤ t.slew ∧ t.slew ≤ 2000 ∧ -840 ≤ t.offset ∧ t.offset ≤ 840 ∧
    (t.state = .unset → t.sec = 0 ∧ t.ms = 0) ∧ (t.silence.isSome = true ↔ t.state = .disciplined)

/-- The event table holds at most 512 records, and no two of one service number overlap (R117). -/
def EventsSound (s : State) : Prop :=
  s.guide.events.length ≤ 512 ∧
    s.guide.events.Pairwise fun a b => a.service = b.service → a.overlaps b = false

/-- A destination holds a service index exactly when it is not VACANT (R44); what it holds names a valid record, and so does every entry of
the change set; the change set has at most 12 entries, never two for one destination (R40, R60). -/
def SelectionsSound (s : State) : Prop :=
  (∀ d, (s.dest d).state = .vacant ↔ (s.dest d).service = none) ∧
    (∀ d i, (s.dest d).service = some i → (s.service i).isSome = true) ∧
    (∀ e ∈ s.ctl.changes, (s.service e.2).isSome = true) ∧
    (s.ctl.changes.map (·.1)).Nodup

/-- Every queued cell belongs to a destination that is bound to the port and not VACANT, and is a notice unless that destination delivers
(R53, R47, R152). -/
def QueuesLawful (s : State) : Prop :=
  ∀ p, ∀ c ∈ (s.port p).queue, ∃ d, c.isFor d = true ∧ (s.dest d).port = p ∧ (s.dest d).state ≠ .vacant ∧
    (c.isNotice = false → (s.dest d).state.delivering = true)

/-- No cell with key phase A or B stands in a port's queue, or has left on a port (R88). -/
def DeliveryClear (s : State) : Prop :=
  (∀ p, ∀ c ∈ (s.port p).queue, c.phase = 0) ∧ ∀ p c, Sent.port p c ∈ s.sent → c.phase = 0

/-- The last reports that the two units hold of a destination are the ones that the destination controller holds (R50, R51, R104, R137): the access
report of any destination, the parental report of a VIEW destination that is not VACANT. -/
def ReportsAgreed (s : State) : Prop :=
  ∀ d, s.lastAccess d = (s.dest d).access ∧
    ((s.dest d).state ≠ .vacant → (s.dest d).kind = .view → (s.viewer d).last = (s.dest d).parental)

/-- The current event that R119 gives index `i`, from the tables and T as they stand. -/
def CurrentEventIs (s : State) (i : Fin 64) (x : Option Half) : Prop :=
  let shows := fun e : EventRecord => s.time.state ≠ .unset ∧ e ∈ s.guide.events ∧ (∃ v, s.service i = some v ∧ e.service = v.number) ∧
    e.start.toNat ≤ s.time.sec.toNat ∧ s.time.sec.toNat < e.stop.toNat
  (∀ e, shows e → x = some e.id) ∧ ((∀ e, ¬ shows e) → x = none)

/-- No destination delivers against its verdicts (R46): in a delivering state its access report is not DENIED, and for a VIEW destination
its parental report is not RESTRICTED. -/
def DeliveryPermitted (s : State) : Prop :=
  ∀ d, (s.dest d).state.delivering = true →
    (∀ c, (s.dest d).access ≠ some (.denied c)) ∧
      ((s.dest d).kind = .view → ∀ r, (s.dest d).parental = some r → r.verdict ≠ .restricted)

end Sys2Proof.Machine
end

