-- ==== Sys2Proof/Certificates/Slice0/Obligations.lean ====
section
/-! DEFINITION. The statements for the provers. Each says what a command, an operation or the whole part does, in terms of the state before and
after. `LinkAtRest` (Safety.lean) is the host link on which an order is the one order of a command cell of its own (log
entry 14); `answered` is the state with that
order's reply queued. -/

open Sys2Proof Sys2Proof.Machine

/-! ## The queue of commands, the reset pin, order records -/

/-- A step runs the command at the front of the queue, on the queue's rest. That the part idles on an empty queue is the model's choice
(log entry 1). -/
def Obligations.StepTakesFront : Prop :=
  (∀ (s : State) (c : Instr) (rest : List Instr),
    step { s with pending := c :: rest } = exec c { s with pending := rest }) ∧
  ∀ s : State, s.pending = [] → step s = .next s

/-- While the reset pin is asserted no cell is taken or emitted and the attention line is released, and at its release every block holds its power-on
values (R179). The model's reading and choices: the host link is lost at the assertion already, and no other command, ticks, expiries
and orders among them, has an effect while the pin is asserted (log entry 7); a cell held off on the link is lost with it (log entry
30); a release brings the power-on values whether or not an assertion came before (log entry 27); the commands waiting, the accept pins
of the ports and the model's own fields stay (log entries 4, 6 and 29). -/
def Obligations.ResetPinAndRelease : Prop :=
  (∀ s : State, exec .resetAssert s = .next { s with resetPin := true, link := State.reset.link }) ∧
  (∀ (s : State) (c : Instr), s.resetPin = true → c ≠ .resetAssert → c ≠ .resetRelease → exec c s = .next s) ∧
  (∀ s : State, s.resetPin = true → s.attentionLow = false) ∧
  ∀ s : State, ∃ t, exec .resetRelease s = .next t ∧
    (∀ p, (t.port p) = { State.reset.port p with accept := (s.port p).accept }) ∧
    t = { State.reset with ports := t.ports, sent := s.sent, freeCount := s.freeCount, script := s.script, pending := s.pending }

/-- Order records that stand one after another in a payload are read back one after another: at the place where the bytes of a
record begin, that record is read; behind the last one the cell ends (R162, 10.6). -/
def Obligations.RecordsReadBack : Prop :=
  (∀ (before : List Byte) (r : OrderRecord) (after : List Byte), r.code ≠ 0 → r.body.length ≤ 180 →
    (before ++ r.bytes ++ after).length ≤ 184 →
    readRecord (payloadOf (before ++ r.bytes ++ after)) before.length = .whole r) ∧
  ∀ before : List Byte, before.length ≤ 184 → readRecord (payloadOf before) before.length = .cellEnds

/-- An order record is refused before its own checks with UNKNOWN_ORDER where its code is not an order's, and with BAD_LENGTH where its body
has not the order's length (R163, steps 1 and 2). -/
def Obligations.RefusedUnread : Prop :=
  ∀ (s : State) (tag : Half) (body : List Byte), LinkAtRest s → body.length ≤ 180 →
    (∀ code : Byte, code ≠ 0 → Order.ofCode code = none →
      exec (.unknownOrder code tag body) s = .next (s.answered code tag .unknownOrder [])) ∧
    ∀ o : Order, body.length ≠ o.bodyLength →
      exec (orderCommand o tag body) s = .next (s.answered o.code tag .badLength [])

/-! ## Feeds and the flow classifier -/

/-- A cell at a feed in OFF changes nothing (R5). In UNSETTLED or LAPSED a malformed cell breaks the settle run, the first two well-formed cells of a
run count toward it, and the third locks the feed and is handled as in LOCKED (R6).

A malformed cell at a LOCKED feed is counted MALFORMED and restarts the silence timer; the second in a row brings LAPSED, with
FEED_LAPSE raised and the feed's guide assemblies abandoned (R7, R9). -/
def Obligations.FeedLockAndLapse : Prop :=
  (∀ (s : State) (f : FeedId) (c : Cell), s.resetPin = false →
     ((s.feed f).state = .off → exec (.feedCellArrival f c) s = .next s) ∧
     ((s.feed f).state = .unsettled ∨ (s.feed f).state = .lapsed →
       (c.wellFormed = false → exec (.feedCellArrival f c) s = .next (s.setFeed f { s.feed f with
           settleRun := 0
           tallies := { (s.feed f).tallies with arrived := (s.feed f).tallies.arrived + 1
                                                malformed := (s.feed f).tallies.malformed + 1 } })) ∧
       (c.wellFormed = true → (s.feed f).settleRun < 2 → exec (.feedCellArrival f c) s = .next (s.setFeed f { s.feed f with
           settleRun := (s.feed f).settleRun + 1
           tallies := { (s.feed f).tallies with arrived := (s.feed f).tallies.arrived + 1
                                                settling := (s.feed f).tallies.settling + 1 } })) ∧
       (c.wellFormed = true → 2 ≤ (s.feed f).settleRun →
         exec (.feedCellArrival f c) s =
           exec (.feedCellArrival f c) (s.setFeed f { s.feed f with state := .locked, settleRun := 3 })))) ∧
  (∀ (s : State) (f : FeedId) (c : Cell), s.resetPin = false → (s.feed f).state = .locked → c.wellFormed = false →
     ((s.feed f).lapseRun = 0 → exec (.feedCellArrival f c) s = .next (s.setFeed f { s.feed f with
         silence := some (s.feed f).timeout, lapseRun := 1
         tallies := { (s.feed f).tallies with arrived := (s.feed f).tallies.arrived + 1
                                              malformed := (s.feed f).tallies.malformed + 1 } })) ∧
     (1 ≤ (s.feed f).lapseRun → exec (.feedCellArrival f c) s = .next (((s.setFeed f { s.feed f with
         state := .lapsed, silence := none, settleRun := 0, lapseRun := 0
         tallies := { (s.feed f).tallies with arrived := (s.feed f).tallies.arrived + 1
                                              malformed := (s.feed f).tallies.malformed + 1 } }).raise
           .feedLapse (sourceByte f) 0).abandonFeed f)))

/-- Screening (R3): at a LOCKED feed a well-formed cell with flow id 16383 is counted FILL and dropped, one with flow id 16380, 16381 or
16382 is counted UNMATCHED and dropped, and every other goes on to the flow table. -/
def Obligations.Screening : Prop :=
  ∀ (s : State) (f : FeedId) (c : Cell), s.resetPin = false → (s.feed f).state = .locked → c.wellFormed = true →
    (c.flowId.toNat = 16383 → exec (.feedCellArrival f c) s = .next ((s.heard f).countFeed f .fill)) ∧
    (16380 ≤ c.flowId.toNat → c.flowId.toNat ≤ 16382 →
      exec (.feedCellArrival f c) s = .next ((s.heard f).countFeed f .unmatched)) ∧
    (c.flowId.toNat ≤ 16379 → exec (.feedCellArrival f c) s = .next ((s.heard f).classify f c))

/-- Matching (R15): the entry of lowest index that matches takes the cell, where an entry matches by its feed match and by the flow id in the bit
positions of its mask; a cell that no entry matches is counted UNMATCHED and dropped. -/
def Obligations.Matching : Prop :=
  (∀ (e : FlowEntry) (f : FeedId) (id : BitVec 14), e.matches f id = true ↔
    (e.feedMatch = none ∨ e.feedMatch = some f) ∧
      ∀ i < 14, e.mask.getLsbD i = true → id.getLsbD i = e.flowId.getLsbD i) ∧
  (∀ (s : State) (f : FeedId) (id : BitVec 14) (k : Fin 256) (e : FlowEntry), s.matchEntry f id = some (k, e) ↔
    s.flow k = some e ∧ e.matches f id = true ∧ ∀ j < k, ∀ e', s.flow j = some e' → e'.matches f id = false) ∧
  ∀ (s : State) (f : FeedId) (c : Cell), Survives s f c →
    (∀ j e, s.flow j = some e → e.matches f c.flowId = false) →
    exec (.feedCellArrival f c) s = .next ((s.heard f).countFeed f .unmatched)

/-- The sequence check (R17), shown at the exact state it leaves for an entry of kind DISCARD, and for DUPLICATE at any kind: what is
checked, what each outcome counts, and what becomes the last sequence.

A cell of any kind of entry that the check lets pass is disposed of by the entry's kind, on the state that the check leaves: the last sequence
stored, and a gap counted and the entry's guide assembly abandoned first (R17, R18). -/
def Obligations.SequenceCheck : Prop :=
  (∀ (s : State) (f : FeedId) (c : Cell) (k : Fin 256) (e : FlowEntry) (t : State), Taken s f c k e t →
    exec (.feedCellArrival f c) s = .next (t.dispose k e f c)) ∧
  ∀ (s : State) (f : FeedId) (c : Cell) (k : Fin 256) (e : FlowEntry), Survives s f c →
    s.matchEntry f c.flowId = some (k, e) →
    ((s.feed f).checking = false ∨ e.mask ≠ 0x3FFF → e.kind = .discard →
      exec (.feedCellArrival f c) s = .next ((s.heard f).countFeed f .discarded)) ∧
    ((s.feed f).checking = true → e.mask = 0x3FFF →
      (e.lastSeq = none ∨ (∃ l, e.lastSeq = some l ∧ c.seq = l + 1) → e.kind = .discard →
        exec (.feedCellArrival f c) s =
          .next (((s.heard f).setFlow k (some { e with lastSeq := some c.seq })).countFeed f .discarded)) ∧
      (e.lastSeq = some c.seq → exec (.feedCellArrival f c) s = .next ((s.heard f).countFeed f .duplicate)) ∧
      (∀ l, e.lastSeq = some l → c.seq ≠ l → c.seq ≠ l + 1 → e.kind = .discard →
        exec (.feedCellArrival f c) s =
          .next (((((s.heard f).countFeed f .gap).setFlow k (some { e with lastSeq := some c.seq })).abandonEntry k).countFeed
            f .discarded)))

/-- A cell that an ACCESS_MESSAGE entry takes is counted FORWARDED and queued for the host, with its feed as route and a fresh header check,
while fewer than 16 forwarded cells are queued and a place is free; else it is lost, FORWARD_DROPS rises and FORWARD_DROP is
raised (R18, R109, R169).

A cell that a PROGRAMME entry takes is counted ROUTED and changes nothing else where no destination takes part in it (R18, R53). -/
def Obligations.ForwardedAndUnheardCells : Prop :=
  (∀ (s : State) (f : FeedId) (c : Cell) (k : Fin 256) (e : FlowEntry) (t : State), Taken s f c k e t → e.kind = .accessMessage →
     let counted := t.countFeed f .forwarded
     let sent := { c with route := sourceByte f
                          check := c.sync ^^^ c.phaseFlow ^^^ c.flowLow ^^^ c.startSeq ^^^ sourceByte f ^^^ c.spareA ^^^ c.spareB }
     (s.link.forwardedCount < 16 → s.link.outbound.length < 24 →
       exec (.feedCellArrival f c) s =
         .next { counted with link := { s.link with outbound := s.link.outbound ++ [.forwarded sent] } }) ∧
     (16 ≤ s.link.forwardedCount ∨ 24 ≤ s.link.outbound.length →
       exec (.feedCellArrival f c) s =
         .next (State.raise .forwardDrop 255 0
           { counted with link := { s.link with forwardDrops := s.link.forwardDrops + 1 } }))) ∧
  (∀ (s : State) (f : FeedId) (c : Cell) (k : Fin 256) (e : FlowEntry) (p : Programme) (t : State), Taken s f c k e t → e.kind = .programme p →
     (∀ d, ¬ ((s.dest d).state.delivering = true ∧ (s.dest d).service = some p.service ∧ (s.dest d).roles.has p.role = true)) →
     exec (.feedCellArrival f c) s = .next (t.countFeed f .routed))

/-- FEED_ENABLE and FEED_DISABLE (R10, R11). -/
def Obligations.FeedEnableDisable : Prop :=
  ∀ (s : State) (tag : Half), LinkAtRest s →
    (∀ f : FeedId,
      ((s.feed f).state = .off →
        exec (.feedEnable tag [sourceByte f]) s = .next ((s.setFeed f { s.feed f with
          state := .unsettled, settleRun := 0, lapseRun := 0, silence := none }).answered 0x01 tag .done [1]) ∧
        exec (.feedDisable tag [sourceByte f]) s = .next (s.answered 0x02 tag .done [])) ∧
      ((s.feed f).state ≠ .off →
        exec (.feedEnable tag [sourceByte f]) s = .next (s.answered 0x01 tag .done [(s.feed f).state.byte]) ∧
        exec (.feedDisable tag [sourceByte f]) s = .next (((s.setFeed f { s.feed f with
          state := .off, settleRun := 0, lapseRun := 0, silence := none }).abandonFeed f).answered 0x02 tag .done []))) ∧
    ∀ b : Byte, 8 ≤ b.toNat →
      Refused (.feedEnable tag [b]) 0x01 tag .range s ∧ Refused (.feedDisable tag [b]) 0x02 tag .range s

/-- FEED_CONFIGURE: the RANGE checks, then LINK_ACTIVE outside OFF, then the two settings, the timeout held to 5 to 200 ms (R12).

READ_FEED gives the feed's state, runs and settings and changes nothing (R13). -/
def Obligations.FeedConfigureAndRead : Prop :=
  (∀ (s : State) (tag t : Half), LinkAtRest s →
     (∀ (f : FeedId) (checking : Bool), (s.feed f).state = .off →
       let stored := max 5 (min 200 t.toNat)
       exec (.feedConfigure tag ([sourceByte f] ++ bytes16 t ++ [if checking then 1 else 0])) s =
         .next ((s.setFeed f { s.feed f with timeout := stored, checking := checking }).answered 0x03 tag .done
           (num16 stored ++ [if checking then 1 else 0]))) ∧
     (∀ (f : FeedId) (x : Byte), x.toNat ≤ 1 → (s.feed f).state ≠ .off →
       Refused (.feedConfigure tag ([sourceByte f] ++ bytes16 t ++ [x])) 0x03 tag .linkActive s) ∧
     ∀ f x : Byte, 8 ≤ f.toNat ∨ 2 ≤ x.toNat → Refused (.feedConfigure tag ([f] ++ bytes16 t ++ [x])) 0x03 tag .range s) ∧
  (∀ (s : State) (tag : Half), LinkAtRest s →
     (∀ f : FeedId, exec (.readFeed tag [sourceByte f]) s = .next (s.answered 0x04 tag .done
       ([(s.feed f).state.byte, BitVec.ofNat 8 (s.feed f).settleRun, BitVec.ofNat 8 (s.feed f).lapseRun] ++
         num16 (s.feed f).timeout ++ [if (s.feed f).checking then 1 else 0]))) ∧
     ∀ b : Byte, 8 ≤ b.toNat → Refused (.readFeed tag [b]) 0x04 tag .range s)

/-- SET_FLOW replaces an entry whole, with its last sequence absent; CLEAR_FLOW makes it invalid; either way the entry's started marks leave
every destination (R19, R20, R21). A SET_FLOW field outside its range is refused with RANGE.

READ_FLOW gives every field of an entry, absent fields shown absent, and changes nothing (R22). The presence bytes follow
R171 as log entry 11 reads it. -/
def Obligations.FlowTableOrders : Prop :=
  (∀ (s : State) (tag : Half), LinkAtRest s →
     (∀ (k : Fin 256) (fm : Option FeedId) (id mask : BitVec 14) (kind : FlowKind),
       Replies .setFlow (flowBody k fm id mask kind) s [] ∧ ∃ t, exec (.setFlow tag (flowBody k fm id mask kind)) s = .next t ∧
         (∀ d, k ∉ (t.dest d).marks) ∧ t.ports = s.ports ∧
         UnitsKept ((s.abandonEntry k).setFlow k (some ⟨fm, id, mask, kind, none⟩)) t) ∧
     (∀ k : Fin 256,
       Replies .clearFlow (num16 k.val) s [] ∧ ∃ t, exec (.clearFlow tag (num16 k.val)) s = .next t ∧
         (∀ d, k ∉ (t.dest d).marks) ∧ t.ports = s.ports ∧ UnitsKept ((s.abandonEntry k).setFlow k none) t) ∧
     (∀ h : Half, 256 ≤ h.toNat → Refused (.clearFlow tag (bytes16 h)) 0x09 tag .range s) ∧
     ∀ (k id mask : Half) (fm kind service role required slot : Byte),
       256 ≤ k.toNat ∨ (8 ≤ fm.toNat ∧ fm.toNat ≠ 255) ∨ 16384 ≤ id.toNat ∨ 16384 ≤ mask.toNat ∨ 5 ≤ kind.toNat ∨
         (kind.toNat = 0 ∧ (64 ≤ service.toNat ∨ 4 ≤ role.toNat ∨ (32 ≤ slot.toNat ∧ slot.toNat ≠ 255))) →
       Refused (.setFlow tag (bytes16 k ++ [fm] ++ bytes16 id ++ bytes16 mask ++ [kind, service, role, required, slot]))
         0x08 tag .range s) ∧
  (∀ (s : State) (tag : Half), LinkAtRest s →
     (∀ k : Fin 256, s.flow k = none →
       exec (.readFlow tag (num16 k.val)) s = .next (s.answered 0x0A tag .done (List.replicate 21 0))) ∧
     (∀ (k : Fin 256) (e : FlowEntry), s.flow k = some e →
       let last := match e.lastSeq with | none => [0, 0] | some q => [1, BitVec.ofNat 8 q.toNat]
       let head := [1, 1, feedByte e.feedMatch, 1] ++ num16 e.flowId.toNat ++ [1] ++ num16 e.mask.toNat ++ [1, e.kind.byte]
       (∀ p, e.kind = .programme p →
         exec (.readFlow tag (num16 k.val)) s = .next (s.answered 0x0A tag .done (head ++
           [1, BitVec.ofNat 8 p.service.val, 1, p.role.byte, 1, if p.required then 1 else 0] ++
           (match p.keySlot with | none => [0, 0] | some x => [1, BitVec.ofNat 8 x.val]) ++ last))) ∧
       ((∀ p, e.kind ≠ .programme p) →
         exec (.readFlow tag (num16 k.val)) s =
           .next (s.answered 0x0A tag .done (head ++ [0, 0, 0, 0, 0, 0, 0, 0] ++ last)))) ∧
     ∀ h : Half, 256 ≤ h.toNat → Refused (.readFlow tag (bytes16 h)) 0x0A tag .range s)

/-! ## The descrambler and programme cells -/

/-- The outcome of a programme cell, row by row (R85). -/
def Obligations.ProgrammeOutcome : Prop :=
  ∀ (s : State) (c : Cell) (slot : Option (Fin 32)),
    (c.phase = 0 → s.outcome c slot = .clear) ∧
    (c.phase = 1 ∨ c.phase = 2 → slot = none → s.outcome c slot = .unkeyed) ∧
    (∀ k, slot = some k →
      (c.phase = 1 → (s.keySlot k).a.valid = false → s.outcome c slot = .unkeyed) ∧
      (c.phase = 2 → (s.keySlot k).b.valid = false → s.outcome c slot = .unkeyed) ∧
      (c.phase = 1 → (s.keySlot k).a.valid = true → s.outcome c slot = .descrambled (s.keySlot k).a.key) ∧
      (c.phase = 2 → (s.keySlot k).b.valid = true → s.outcome c slot = .descrambled (s.keySlot k).b.key))

/-- The keystream, word by word: the seed from the flow id, the sequence and the first key word (R89), three steps a word, and the other three key words in turn
(R90). Combined by exclusive-or, it gives a payload back that is descrambled twice with one key. A descrambled cell leaves CLEAR, with its header
otherwise as it was and the check worked afresh (R87). -/
def Obligations.Descrambling : Prop :=
  (∀ (c : Cell) (key : Quarters),
     let combined := (c.flowId.toNat * 65536 + c.seq.toNat * 256 + 90) ^^^ key.q0.toNat
     let turn := fun x : Nat =>
       let x1 := x ^^^ (x * 8192 % 4294967296)
       let x2 := x1 ^^^ (x1 / 131072)
       x2 ^^^ (x2 * 32 % 4294967296)
     ∀ j < 46,
       let x := Nat.iterate turn (j + 1) (if combined = 0 then 1 else combined)
       let added := if j % 3 = 0 then key.q1 else if j % 3 = 1 then key.q2 else key.q3
       (word (descramblePayload c key).rows (4 * j)).toNat = (word c.payload.rows (4 * j)).toNat ^^^ ((x + added.toNat) % 4294967296)) ∧
  (∀ (c : Cell) (key : Quarters), descramblePayload { c with payload := descramblePayload c key } key = c.payload) ∧
  ∀ (c : Cell) (key : Quarters),
    let r := descrambleCell c key
    r.phase = 0 ∧ r.flowId = c.flowId ∧ r.startSeq = c.startSeq ∧ r.route = c.route ∧ r.sync = c.sync ∧
      r.spareA = c.spareA ∧ r.spareB = c.spareB ∧ r.check = r.headerXor ∧ r.payload = descramblePayload c key

/-- A cell that a PROGRAMME entry takes is counted ROUTED; as a clear cell, or descrambled, it goes to D0 to D11 in ascending order, and as an unkeyed
cell it is counted for each of them in that order, which is the model's choice there (log entry 32) (R18, R53, R54, R85, R86).

A destination's part in one clear or descrambled programme cell of entry `k` (R53): who takes part, when the mark is set, where the copy goes and
what it counts. It is shown for a copy that its port accepts, at once emitted or not, and for one that the port refuses without halting; a flow that
starts is followed by the completion test. A refusal that halts is `OverflowHalts`. That an accept into an empty queue starts the drain watch also after
an expiry and a purge is the model's reading (log entry 34).

An unkeyed programme cell counts UNKEYED against a destination that takes part and, for a required entry, raises its unkeyed run; at 24 the destination is
WITHHELD with KEY (R54). The premise is the invariant `DeliveryPermitted`. -/
def Obligations.ProgrammeCells : Prop :=
  (∀ (s : State) (f : FeedId) (c : Cell) (k : Fin 256) (e : FlowEntry) (p : Programme) (t : State), Taken s f c k e t → e.kind = .programme p →
     let routed := t.countFeed f .routed
     let fanned := fun cell : Cell => (List.finRange 12).foldl (fun u d => u.fanOne k p cell d) routed
     (s.outcome c p.keySlot = .clear → exec (.feedCellArrival f c) s = .next (fanned c)) ∧
     (∀ key, s.outcome c p.keySlot = .descrambled key → exec (.feedCellArrival f c) s = .next (fanned (descrambleCell c key))) ∧
     (s.outcome c p.keySlot = .unkeyed →
       exec (.feedCellArrival f c) s = .next ((List.finRange 12).foldl (fun u d => u.unkeyedOne p d) routed))) ∧
  (∀ (s : State) (k : Fin 256) (e : Programme) (c : Cell) (d : DestId),
     let x := s.dest d
     let p := s.port x.port
     let copy := c.routed (sourceByte d)
     let run := if e.required then 0 else x.unkeyedRun
     (¬ (x.state.delivering = true ∧ x.service = some e.service ∧ x.roles.has e.role = true) → s.fanOne k e c d = s) ∧
     (x.state.delivering = true → x.service = some e.service → x.roles.has e.role = true →
       (k ∉ x.marks → c.unitStart = false → s.fanOne k e c d = s.setDest d { x with unkeyedRun := run }) ∧
       (p.state = .running → p.queue.length < 64 →
         let delivered := { x.tallies with delivered := x.tallies.delivered + 1 }
         let after := fun (marks : List (Fin 256)) (accepted : State → State) =>
           accepted (s.setDest d { x with unkeyedRun := run, marks := marks, tallies := delivered })
         let queued := State.setPort x.port { p with queue := p.queue ++ [copy], watch := if p.queue = [] then some 250 else p.watch }
         let emitted := fun u : State => (u.setPort x.port { p with queue := [], emitted := p.emitted + 1, watch := none, accept := false }).send
           (.port x.port copy)
         let atOnce := p.mode = .demand ∧ p.accept = true ∧ p.queue = []
         (k ∈ x.marks → ¬ atOnce → s.fanOne k e c d = after x.marks queued) ∧
         (k ∈ x.marks → atOnce → s.fanOne k e c d = after x.marks emitted) ∧
         (k ∉ x.marks → c.unitStart = true → ¬ atOnce →
           s.fanOne k e c d = (after (joinMark k x.marks) queued).completionTest d) ∧
         (k ∉ x.marks → c.unitStart = true → atOnce →
           s.fanOne k e c d = (after (joinMark k x.marks) emitted).completionTest d)) ∧
       (k ∈ x.marks → p.state ≠ .running ∨ (64 ≤ p.queue.length ∧ p.overflowHalt = false) →
         s.fanOne k e c d =
           s.setDest d { x with unkeyedRun := run, tallies := { x.tallies with dropped := x.tallies.dropped + 1 } }) ∧
       (k ∉ x.marks → c.unitStart = true → p.state ≠ .running ∨ (64 ≤ p.queue.length ∧ p.overflowHalt = false) →
         s.fanOne k e c d =
           (s.setDest d { x with unkeyedRun := run, marks := joinMark k x.marks,
                                 tallies := { x.tallies with dropped := x.tallies.dropped + 1 } }).completionTest d))) ∧
  (∀ (s : State) (e : Programme) (d : DestId), DeliveryPermitted s →
     let x := s.dest d
     let counted := { x.tallies with unkeyed := x.tallies.unkeyed + 1 }
     x.state.delivering = true → x.service = some e.service → x.roles.has e.role = true →
       (e.required = false → s.unkeyedOne e d = s.setDest d { x with tallies := counted }) ∧
       (e.required = true → x.unkeyedRun + 1 < 24 →
         s.unkeyedOne e d = s.setDest d { x with unkeyedRun := x.unkeyedRun + 1, tallies := counted }) ∧
       (e.required = true → 24 ≤ x.unkeyedRun + 1 →
         let t := s.unkeyedOne e d
         (t.dest d).state = .withheld ∧ (t.dest d).reasons.key = true ∧ (t.dest d).unkeyedRun = 0 ∧ (t.dest d).marks = [] ∧
           (t.dest d).acquisition = none ∧ OthersKept d s t))

/-- A programme copy offered to a full RUNNING port under HALT is refused and halts the port: its queue is emptied, OVERFLOW is latched,
PORT is raised, and no destination bound to the port delivers any longer (R153, R55). -/
def Obligations.OverflowHalts : Prop :=
  ∀ (s : State) (p : PortId) (c : Cell), (s.port p).state = .running → 64 ≤ (s.port p).queue.length →
    (s.port p).overflowHalt = true →
    let t := s.offerCopy p c
    (t.port p).state = .halted ∧ (t.port p).queue = [] ∧ (t.port p).overflow = true ∧ (t.port p).slotRunning = false ∧
      (t.port p).watch = none ∧ (∀ q, q ≠ p → t.port q = s.port q) ∧ UnitsKept (s.setPortHalted p true) t ∧
      t.attention.isPending .port (sourceByte p) = true ∧
      (∀ d, (s.dest d).port = p → (t.dest d).state.delivering = false) ∧
      ∀ d, (s.dest d).port ≠ p → t.dest d = s.dest d

/-! ## Time -/

/-- A timebase tick that brings no second mark (R25, R26): in UNSET network time stands; else M advances by 2, 0 or 1 ms by the sign of the
pending slew, which runs out by one. Every timer of the 1 ms timebase runs on by the tick: feed silence, source silence, acquisition, holds and drain
watches (R8, R34, R72, R142, R156).

A tick that brings M to 1000 or more (R26): M loses 1000, T gains 1, and the second mark sweeps the entitlement table: exactly the records whose end
is above the new T stay, each in its place (R98). Every profile is refilled where the local day is past its last refill, and then charged one
second or none (R131, R132); exactly the PERIOD unlocks whose until time the new T has reached are removed (R139). Both units form the verdicts of every
destination that is not VACANT, and the access unit hands its own (R103, R104, R137).

The work of the mark, unit by unit: the refill of a profile (R131); the charge of a profile, with ALLOWANCE raised at exhaustion (R132); the unlocks (R139);
one notice cell for each blocked destination, with its sequence, NOTICES and DROPPED (R57, R58), and the drain watch that its accept may start (log
entry 34). It is shown for a notice that its port does not emit at once. -/
def Obligations.TimebaseTick : Prop :=
  (∀ s : State, s.resetPin = false →
     (s.time.state = .unset → exec .timebaseTick s = .next s.runTimers ∧
       s.runTimers.time = { s.time with silence := s.time.silence.map (· - 1) }) ∧
     (s.time.state ≠ .unset →
       (0 < s.time.slew → s.time.ms + 2 < 1000 → exec .timebaseTick s = .next { s.runTimers with
         time := { s.runTimers.time with ms := s.time.ms + 2, slew := s.time.slew - 1 } }) ∧
       (s.time.slew < 0 → s.time.ms < 1000 → exec .timebaseTick s = .next { s.runTimers with
         time := { s.runTimers.time with slew := s.time.slew + 1 } }) ∧
       (s.time.slew = 0 → s.time.ms + 1 < 1000 → exec .timebaseTick s = .next { s.runTimers with
         time := { s.runTimers.time with ms := s.time.ms + 1 } }))) ∧
  (∀ s : State,
     let t := s.runTimers
     (∀ f, t.feed f = { s.feed f with silence := (s.feed f).silence.map (· - 1) }) ∧
       t.time = { s.time with silence := s.time.silence.map (· - 1) } ∧
       (∀ d, t.dest d = { s.dest d with acquisition := (s.dest d).acquisition.map (· - 1) }) ∧
       (∀ d, t.viewer d = { s.viewer d with timer := (s.viewer d).timer.map (· - 1) }) ∧
       (∀ p, t.port p = { s.port p with watch := (s.port p).watch.map (· - 1) }) ∧
       t = { s with feeds := t.feeds, time := t.time, ctl := { s.ctl with dests := t.ctl.dests }
                    parental := { s.parental with viewers := t.parental.viewers }, ports := t.ports }) ∧
  (∀ s : State, s.resetPin = false → s.time.state ≠ .unset →
     let stepped := s.time.ms + (if 0 < s.time.slew then 2 else if s.time.slew < 0 then 0 else 1)
     1000 ≤ stepped →
     ∃ t, exec .timebaseTick s = .next t ∧
       t.time = { s.runTimers.time with
         sec := s.time.sec + 1, ms := stepped - 1000
         slew := if 0 < s.time.slew then s.time.slew - 1 else if s.time.slew < 0 then s.time.slew + 1 else 0 } ∧
       (∀ i e, t.access.table.read i = some e ↔
         s.access.table.read i = some e ∧ (s.time.sec + 1).toNat < e.stop.toNat) ∧
       VerdictsFormed s t ∧
       Settled { s.runTimers with
         time := t.time, access := { s.access with table := t.access.table }, guide := { s.guide with current := t.guide.current }
         parental := { s.parental with profiles := t.parental.profiles }
         sent := t.sent, freeCount := t.freeCount, script := t.script } t ∧
       (∀ p,
         let x := s.profile p
         let day := localDay (s.time.sec + 1) s.time.offset
         let filled : Profile := if x.lastRefill < day then
           { x with lastRefill := day, allowance := x.allowance.map fun a => { a with remaining := a.minutes * 60 } } else x
         t.profile p = filled ∨
           ∃ a, filled.allowance = some a ∧ 0 < a.remaining ∧
             t.profile p = { filled with allowance := some { a with remaining := a.remaining - 1 } }) ∧
       ∀ d u, (s.viewer d).unlock = some (.period u) →
         (t.viewer d).unlock = if u ≤ (s.time.sec + 1).toNat then none else some (.period u)) ∧
  (∀ (s : State) (t : Word),
     let day := localDay t s.time.offset
     let u := s.refill t
     (∀ p, u.profile p = if (s.profile p).lastRefill < day then { s.profile p with
         lastRefill := day, allowance := (s.profile p).allowance.map fun a => { a with remaining := a.minutes * 60 } } else s.profile p) ∧
       u = { s with parental := { s.parental with profiles := u.parental.profiles } }) ∧
  (∀ (s : State) (p : Fin 8),
     let x := s.profile p
     let delivering := ∃ d, (s.dest d).kind = .view ∧ (s.dest d).profile = p ∧ (s.dest d).state.delivering = true
     (x.allowance = none ∨ ¬ delivering → s.chargeOne p = s) ∧
     ∀ a, x.allowance = some a →
       let charged := s.setProfile p { x with allowance := some { a with remaining := a.remaining - 1 } }
       (a.remaining = 0 → s.chargeOne p = s) ∧
       (delivering → a.remaining = 1 → s.chargeOne p = charged.raise .allowance (sourceByte p) 0) ∧
       (delivering → 1 < a.remaining → s.chargeOne p = charged)) ∧
  (∀ (s : State) (t : Word),
     let u := s.parentalMark t
     (∀ p, u.profile p = ((s.refill t).chargeOne p).profile p) ∧
     (∀ p, u.attention.isPending .allowance (sourceByte p) = ((s.refill t).chargeOne p).attention.isPending .allowance (sourceByte p)) ∧
     (∀ d, (s.viewer d).unlock = none → (u.viewer d).unlock = none) ∧
     (∀ d id, (s.viewer d).unlock = some (.event id) → (u.viewer d).unlock = some (.event id)) ∧
     (∀ d x, (s.viewer d).unlock = some (.period x) → (u.viewer d).unlock = if x ≤ t.toNat then none else some (.period x)) ∧
     ∀ d, (s.dest d).state ≠ .vacant → (s.dest d).kind = .view → ∀ i, (s.dest d).service = some i →
       ∃ f, (u.viewer d).formed = some f ∧ f = State.formedFor u (u.profile (s.dest d).profile) i (u.viewer d).unlock) ∧
  (∀ (s : State) (d : DestId),
     let x := s.dest d
     let p := s.port x.port
     let number := match x.service.bind s.service with | none => 0 | some v => v.number
     let current := x.service.bind fun i => s.guide.current.read i
     let cause : Byte := match x.access with
       | some (.denied .timeUnset) => 1 | some (.denied .noSubscription) => 2 | some (.denied .noPurchase) => 3 | _ => 0
     let notice := builtCell 16380 true x.noticeSeq (sourceByte d)
       ([sourceByte d, if x.state = .held then 0 else 1, x.reasons.byte, cause,
         match x.parental with | none => 0 | some r => r.serial] ++ bytes16 number ++
         match current with | none => [0, 0, 0] | some id => 1 :: bytes16 id)
     (x.state ≠ .held → x.state ≠ .withheld → s.noticeOne d = s) ∧
     (x.state = .held ∨ x.state = .withheld →
       (p.state = .running → p.queue.length < 64 → ¬ (p.mode = .demand ∧ p.accept = true ∧ p.queue = []) →
         s.noticeOne d = (s.setDest d { x with
             noticeSeq := x.noticeSeq + 1, tallies := { x.tallies with notices := x.tallies.notices + 1 } }).setPort x.port
           { p with queue := p.queue ++ [notice], watch := if p.queue = [] then some 250 else p.watch }) ∧
       (p.state ≠ .running ∨ 64 ≤ p.queue.length →
         s.noticeOne d = s.setDest d { x with
           noticeSeq := x.noticeSeq + 1, tallies := { x.tallies with dropped := x.tallies.dropped + 1 } }))) ∧
  ∀ s : State, s.notices = (List.finRange 12).foldl (fun t d => t.noticeOne d) s

/-- A clock cell (R27 to R32): one with m above 999 counts BAD_CLOCK; one that is not from the time source is not used; one from the source sets the local offset,
then sets the time in UNSET, and in DISCIPLINED or FREE replaces the pending slew where the difference is at most 2000 ms, else steps. At time set and at
a step both units form their verdicts (R103, R137). -/
def Obligations.ClockCell : Prop :=
  ∀ (s : State) (f : FeedId) (c : Cell) (k : Fin 256) (e : FlowEntry) (checked : State), Taken s f c k e checked → e.kind = .clock →
    let b := c.payload.rows
    let sec := word b 0
    let m := field16 b 4
    let offset := max (-840) (min 840 (half b 6).toInt)
    let apart := (sec - s.time.sec).toInt
    let d := apart * 1000 + ((m : Int) - s.time.ms)
    let counted := checked.countFeed f .consumed
    let small := -2000000 ≤ apart ∧ apart ≤ 2000000 ∧ -2000 ≤ d ∧ d ≤ 2000
    (999 < m → exec (.feedCellArrival f c) s = .next (counted.countFeed f .badClock)) ∧
    (m ≤ 999 → s.time.source ≠ some f → exec (.feedCellArrival f c) s = .next counted) ∧
    (m ≤ 999 → s.time.source = some f → s.time.state ≠ .unset → small →
      exec (.feedCellArrival f c) s = .next { counted with
        time := { s.time with offset := offset, slew := d, state := .disciplined, silence := some 10000 } }) ∧
    (m ≤ 999 → s.time.source = some f → s.time.state = .unset ∨ ¬ small →
      ∃ t, exec (.feedCellArrival f c) s = .next t ∧ VerdictsFormed s t ∧
        (s.time.state = .unset ∨ apart < -2000000 ∨ (apart ≤ 2000000 ∧ d < -2000) →
          t.access.table = s.access.table ∧ t.parental.profiles = s.parental.profiles ∧ t.sent = s.sent) ∧
        (s.time.state ≠ .unset → 2000000 < apart ∨ (-2000000 ≤ apart ∧ 2000 < d) →
          ∀ i e, t.access.table.read i = some e ↔ s.access.table.read i = some e ∧ sec.toNat < e.stop.toNat) ∧
        Settled { counted with
          time := { s.time with
            offset := offset, sec := sec, ms := m, slew := 0, state := .disciplined, silence := some 10000 }
          access := { s.access with table := t.access.table }, guide := { counted.guide with current := t.guide.current }
          parental := { s.parental with profiles := t.parental.profiles }
          sent := t.sent, freeCount := t.freeCount, script := t.script } t)

/-- The timers of a feed and of the time source. The silence timer of a LOCKED feed that has run out brings LAPSED (R8, R9); the source silence timer that
has run out brings FREE and raises TIME (R34). That an expiry has no effect while the timer has not run out is the model's choice
(log entry 5).

A drain watch that has run out latches UNHEARD and raises PORT (R156). That an expiry has no effect while the watch has not run out is the model's choice
(log entry 5). -/
def Obligations.TimerExpiries : Prop :=
  (∀ s : State, s.resetPin = false →
     (∀ f, (s.feed f).state = .locked → (s.feed f).silence = some 0 →
       exec (.silenceTimerExpiry f) s = .next (((s.setFeed f { s.feed f with
         state := .lapsed, silence := none, settleRun := 0, lapseRun := 0 }).raise .feedLapse (sourceByte f) 0).abandonFeed f)) ∧
     (∀ f, (s.feed f).state ≠ .locked ∨ (s.feed f).silence ≠ some 0 → exec (.silenceTimerExpiry f) s = .next s) ∧
     (s.time.state = .disciplined → s.time.silence = some 0 →
       exec .sourceSilenceTimerExpiry s =
         .next (State.raise .time 255 0 { s with time := { s.time with state := .free, silence := none } })) ∧
     (s.time.state ≠ .disciplined ∨ s.time.silence ≠ some 0 → exec .sourceSilenceTimerExpiry s = .next s)) ∧
  (∀ (s : State) (p : PortId), s.resetPin = false →
     ((s.port p).state = .running → (s.port p).watch = some 0 →
       exec (.drainWatchExpiry p) s =
         .next ((s.setPort p { s.port p with watch := none, unheard := true }).raise .port (sourceByte p) 0)) ∧
     ((s.port p).state ≠ .running ∨ (s.port p).watch ≠ some 0 → exec (.drainWatchExpiry p) s = .next s))

/-- SET_TIME_SOURCE stores the offset held to ±840 minutes, then the source; another source than the one held brings DISCIPLINED to FREE and
stops the silence timer (R38).

READ_TIME gives the time unit's items, the local day and minute absent in UNSET, and changes nothing (R39). -/
def Obligations.TimeOrders : Prop :=
  (∀ (s : State) (tag o : Half), LinkAtRest s →
     (∀ source : Option FeedId,
       let offset := max (-840) (min 840 o.toInt)
       let reply := fun t : TimeState => [feedByte source] ++ bytes16 (BitVec.ofInt 16 offset) ++ [t.byte]
       (source = s.time.source →
         exec (.setTimeSource tag (feedByte source :: bytes16 o)) s =
           .next (State.answered 0x10 tag .done (reply s.time.state) { s with time := { s.time with offset := offset } })) ∧
       (source ≠ s.time.source → s.time.state = .disciplined →
         exec (.setTimeSource tag (feedByte source :: bytes16 o)) s =
           .next (State.answered 0x10 tag .done (reply .free)
             { s with time := { s.time with offset := offset, source := source, state := .free, silence := none } })) ∧
       (source ≠ s.time.source → s.time.state ≠ .disciplined →
         exec (.setTimeSource tag (feedByte source :: bytes16 o)) s =
           .next (State.answered 0x10 tag .done (reply s.time.state)
             { s with time := { s.time with offset := offset, source := source } }))) ∧
     ∀ b : Byte, 8 ≤ b.toNat → b.toNat ≠ 255 → Refused (.setTimeSource tag (b :: bytes16 o)) 0x10 tag .range s) ∧
  (∀ (s : State) (tag : Half), LinkAtRest s →
     let t := s.time
     let head := bytes32 t.sec ++ num16 t.ms ++ [t.state.byte] ++ bytes16 (BitVec.ofInt 16 t.slew) ++ [feedByte t.source] ++
       bytes16 (BitVec.ofInt 16 t.offset) ++ [if t.silence.isSome then 1 else 0]
     (t.state = .unset →
       exec (.readTime tag []) s = .next (s.answered 0x11 tag .done (head ++ [0, 0, 0, 0, 0, 0, 0, 0]))) ∧
     (t.state ≠ .unset →
       exec (.readTime tag []) s = .next (s.answered 0x11 tag .done
         (head ++ [1] ++ bytes32 (BitVec.ofInt 32 (localDay t.sec t.offset)) ++ [1] ++ num16 (minuteOfDay t.sec t.offset)))))

/-- The local quantities (R36) with their ranges, and the time windows (R37). -/
def Obligations.LocalTimeAndWindows : Prop :=
  (∀ (sec : Word) (offset : Int), -840 ≤ offset → offset ≤ 840 →
    let l := localSeconds sec offset
    l = sec.toNat + offset * 60 ∧ -50400 ≤ l ∧ l ≤ 4295017695 ∧
      localDay sec offset = Int.floor ((l : ℚ) / 86400) ∧ -1 ≤ localDay sec offset ∧ localDay sec offset ≤ 49710 ∧
      secondOfDay sec offset = l - 86400 * localDay sec offset ∧ 0 ≤ secondOfDay sec offset ∧ secondOfDay sec offset ≤ 86399 ∧
      (minuteOfDay sec offset : Int) = Int.floor ((secondOfDay sec offset : ℚ) / 60) ∧ minuteOfDay sec offset ≤ 1439) ∧
  (∀ start stop t : Word, inWindow start stop t = true ↔ start.toNat ≤ t.toNat ∧ t.toNat < stop.toNat) ∧
  (∀ (start : Word) (duration : Nat), (eventStop start duration).toNat = min 4294967295 (start.toNat + duration)) ∧
  ∀ qs qe minute : Nat,
    (qs < qe → (inQuiet qs qe minute = true ↔ qs ≤ minute ∧ minute < qe)) ∧
    (qe < qs → (inQuiet qs qe minute = true ↔ qs ≤ minute ∨ minute < qe)) ∧
    (qs = qe → inQuiet qs qe minute = false)

/-! ## Services and destinations -/

/-- SET_SERVICE and CLEAR_SERVICE (R40, R41, R42): the four refusals of SET_SERVICE in their order, and what a taken order leaves of the service table. The
access verdicts of the destinations on the index are formed and handed (R103, R104).

READ_SERVICE gives the record, whether it is in use, and the number of destinations that hold it, and changes nothing (R43). The
presence bytes follow R171 as log entry 11 reads it. -/
def Obligations.ServiceOrders : Prop :=
  (∀ (s : State) (tag n product : Half), LinkAtRest s →
     let body := fun i : Byte => i :: bytes16 n ++ bytes16 product
     let taken := fun i : Fin 64 => ∃ j, j ≠ i ∧ ∃ v, s.service j = some v ∧ v.number = n
     let used := fun i : Fin 64 => (∃ d, (s.dest d).state ≠ .vacant ∧ (s.dest d).service = some i) ∨ ∃ e ∈ s.ctl.changes, e.2 = i
     let held := fun i : Fin 64 => ∃ v, s.service i = some v ∧ v.number = n
     (∀ i : Byte, 64 ≤ i.toNat ∨ n = 0 → Refused (.setService tag (body i)) 0x18 tag .range s) ∧
     (∀ i : Fin 64, n ≠ 0 → taken i ∨ (used i ∧ ¬ held i) → Refused (.setService tag (body (sourceByte i))) 0x18 tag .inUse s) ∧
     (∀ i : Fin 64, n ≠ 0 → ¬ taken i → ¬ used i ∨ held i →
       Replies .setService (body (sourceByte i)) s ([1, 1] ++ bytes16 n ++ (if product = 0 then [0, 0, 0] else 1 :: bytes16 product)) ∧
       ∃ t, exec (.setService tag (body (sourceByte i))) s = .next t ∧
         (∀ d, (s.dest d).state ≠ .vacant → (s.dest d).service = some i → AccessFormed s t d i) ∧
         (∀ j, j ≠ i → t.guide.current.read j = s.guide.current.read j) ∧
         (∀ d, (s.dest d).service ≠ some i → t.dest d = s.dest d ∧ t.viewer d = s.viewer d ∧ t.lastAccess d = s.lastAccess d) ∧
         Settled { s.setService i (some ⟨n, if product = 0 then none else some product⟩) with
           guide := { s.guide with current := t.guide.current }, freeCount := t.freeCount, script := t.script } t) ∧
     (∀ i : Byte, 64 ≤ i.toNat → Refused (.clearService tag [i]) 0x19 tag .range s) ∧
     (∀ i : Fin 64, used i → Refused (.clearService tag [sourceByte i]) 0x19 tag .inUse s) ∧
     ∀ i : Fin 64, ¬ used i →
       exec (.clearService tag [sourceByte i]) s = .next (State.answered 0x19 tag .done [] { s.setService i none with
         guide := { s.guide with current := s.guide.current.write i none } })) ∧
  (∀ (s : State) (tag : Half), LinkAtRest s →
     (∀ i : Fin 64,
       let holders := (s.ctl.dests.rows.filter fun x => x.state ≠ .vacant ∧ x.service = some i).length
       let use : List Byte := [if holders ≠ 0 ∨ ∃ e ∈ s.ctl.changes, e.2 = i then 1 else 0, BitVec.ofNat 8 holders]
       (s.service i = none →
         exec (.readService tag [sourceByte i]) s = .next (s.answered 0x1A tag .done ([0, 0, 0, 0, 0, 0, 0] ++ use))) ∧
       ∀ v, s.service i = some v →
         exec (.readService tag [sourceByte i]) s = .next (s.answered 0x1A tag .done ([1, 1] ++ bytes16 v.number ++
           (match v.product with | none => [0, 0, 0] | some p => 1 :: bytes16 p) ++ use))) ∧
     ∀ b : Byte, 64 ≤ b.toNat → Refused (.readService tag [b]) 0x1A tag .range s)

/-- BIND_DESTINATION: the RANGE checks, then NOT_VACANT, then the four fields as given and the destination's unlock removed (R45,
R134).

READ_DESTINATION gives the destination record and changes nothing (R59). The presence bytes, and the free byte for a count of 256, are
the model's choice (log entries 9 and 11). -/
def Obligations.DestinationOrders : Prop :=
  (∀ (s : State) (tag : Half), LinkAtRest s →
     (∀ (d : DestId) (kind : DestKind) (p : PortId) (profile : Fin 8) (roles : RoleMask),
       let body := [sourceByte d, kind.byte, sourceByte p, sourceByte profile, roles.byte]
       ((s.dest d).state = .vacant →
         exec (.bindDestination tag body) s = .next (((s.setDest d { s.dest d with
           kind := kind, port := p, profile := profile, roles := roles }).setViewer d { s.viewer d with
           unlock := none }).answered 0x1C tag .done body.tail)) ∧
       ((s.dest d).state ≠ .vacant → Refused (.bindDestination tag body) 0x1C tag .notVacant s)) ∧
     ∀ d kind p profile roles : Byte,
       12 ≤ d.toNat ∨ 2 ≤ kind.toNat ∨ 4 ≤ p.toNat ∨ 8 ≤ profile.toNat ∨ 16 ≤ roles.toNat →
       Refused (.bindDestination tag [d, kind, p, profile, roles]) 0x1C tag .range s) ∧
  (∀ (s : State) (tag : Half), LinkAtRest s →
     (∀ d : DestId,
       let x := s.dest d
       let opt := fun (v : Option (List Byte)) (zeros : List Byte) => match v with | none => 0 :: zeros | some b => 1 :: b
       exec (.readDestination tag [sourceByte d]) s = .next (s.answered 0x1D tag .done
         ([x.kind.byte, sourceByte x.port, sourceByte x.profile, x.roles.byte, x.state.byte] ++
           opt (x.service.map fun i => [sourceByte i]) [0] ++ [x.reasons.byte] ++
           opt (x.access.map fun v => [v.byte]) [0] ++ opt (x.access.map fun v => [v.causeByte]) [0] ++
           opt (x.parental.map fun r => [r.verdict.byte]) [0] ++ opt (x.parental.map fun r => [r.uncovered.byte]) [0] ++
           opt (x.parental.map fun r => [r.hold.byte]) [0] ++ opt (x.parental.map fun r => [0, r.serial]) [0, 0] ++
           [BitVec.ofNat 8 x.unkeyedRun, BitVec.ofNat 8 x.noticeSeq.toNat] ++
           (match x.acquisition with | none => 0 :: num32 0 | some ms => 1 :: num32 ms) ++
           countByte x.marks.length ++ countByte (s.requiredSet x).length ++ countByte (s.unstarted x).length ++
           opt ((s.unstarted x).head?.map fun k => num16 k.val) [0, 0]))) ∧
     ∀ b : Byte, 12 ≤ b.toNat → Refused (.readDestination tag [b]) 0x1D tag .range s)

/-- The required set (R48): the valid PROGRAMME entries of the destination's service index, required, with a role in its mask.

The completion test (R48) by the state of the destination, and what an entry changed announcement leaves of a destination: its mark of the entry
gone, and the test made where it delivers (R49).

The evaluation of a destination that is not VACANT (R46): the reason set formed anew, the state by the first row that holds, and nothing of
another destination. In ACQUIRING it may pass on to PRESENTING by the completion test (R47, R48). -/
def Obligations.EvaluationRows : Prop :=
  (∀ (s : State) (x : Dest) (k : Fin 256) (p : Programme), (k, p) ∈ s.requiredSet x ↔
     ∃ e, s.flow k = some e ∧ e.kind = .programme p ∧ x.service = some p.service ∧ p.required = true ∧ x.roles.has p.role = true) ∧
  (∀ (s : State) (d : DestId),
     let x := s.dest d
     let done := ∀ m ∈ s.requiredSet x, m.1 ∈ x.marks
     (x.state = .acquiring → done → s.completionTest d = s.setDest d { x with state := .presenting, acquisition := none }) ∧
     (x.state = .stalled → done → s.completionTest d = (s.setDest d { x with state := .presenting }).withdraw .stall (sourceByte d)) ∧
     (x.state = .presenting → ¬ done →
       s.completionTest d = s.setDest d { x with state := .acquiring, acquisition := some s.ctl.acquireTime }) ∧
     (x.state = .presenting → done → s.completionTest d = s) ∧
     (x.state ≠ .presenting → ¬ done → s.completionTest d = s) ∧
     (x.state.delivering = false → s.completionTest d = s)) ∧
  (∀ (s : State) (k : Fin 256) (d : DestId),
     let x := s.dest d
     let marks := x.marks.filter (· ≠ k)
     let done := ∀ m ∈ s.requiredSet x, m.1 ∈ marks
     let y := (s.entryChanged k).dest d
     (x.state = .presenting → ¬ done →
       y = { x with marks := marks, state := .acquiring, acquisition := some s.ctl.acquireTime }) ∧
     (x.state = .acquiring → done → y = { x with marks := marks, state := .presenting, acquisition := none }) ∧
     (x.state = .stalled → done → y = { x with marks := marks, state := .presenting } ∧
       (s.entryChanged k).attention.isPending .stall (sourceByte d) = false) ∧
     ((x.state = .presenting ↔ done) ∨ x.state.delivering = false → y = { x with marks := marks })) ∧
  (∀ (s : State) (d : DestId), (s.dest d).state ≠ .vacant →
     let x := s.dest d
     let t := s.evaluate d
     let y := t.dest d
     let denied := ∃ c, x.access = some (.denied c)
     let restricted := fun r : ParentalReport => x.kind = .view ∧ x.parental = some r ∧ r.verdict = .restricted
     let halted := s.portHalted x.port = true
     (y.reasons.access = true ↔ denied) ∧ (y.reasons.port = true ↔ halted) ∧ y.reasons.key = x.reasons.key ∧
       (∀ r, restricted r → y.reasons.limits = r.uncovered ∧ (y.reasons.declined = true ↔ r.hold = .declined) ∧
         (y.reasons.noAnswer = true ↔ r.hold = .noAnswer)) ∧
       ((∀ r, ¬ restricted r) → y.reasons.limits = .empty ∧ y.reasons.declined = false ∧ y.reasons.noAnswer = false) ∧
       (denied → y.state = .withheld) ∧
       (¬ denied → ∀ r, restricted r → y.state = if r.hold = .opened then .held else .withheld) ∧
       (¬ denied → (∀ r, ¬ restricted r) → halted ∨ x.reasons.key = true → y.state = .withheld) ∧
       (¬ denied → (∀ r, ¬ restricted r) → ¬ halted → x.reasons.key = false →
         (x.state.delivering = true → y.state = x.state) ∧
         (x.state.delivering = false → y.state = if s.requiredSet x = [] then .presenting else .acquiring)) ∧
       OthersKept d s t)

/-! ## Channel change -/

/-- SELECT: its refusals in their order (R61), a staged SELECT (R60, R62), and an unstaged one whose outcome is no change (R63). -/
def Obligations.SelectChecks : Prop :=
  ∀ (s : State) (tag : Half), LinkAtRest s → SelectionsSound s →
    (∀ d i x : Byte, 12 ≤ d.toNat ∨ 64 ≤ i.toNat ∨ 2 ≤ x.toNat → Refused (.select tag [d, i, x]) 0x20 tag .range s) ∧
    (∀ (d : DestId) (i : Fin 64) (x : Byte), x.toNat ≤ 1 → s.service i = none →
      Refused (.select tag [sourceByte d, sourceByte i, x]) 0x20 tag .noEntry s) ∧
    (∀ (d : DestId) (i : Fin 64), (s.service i).isSome = true →
      let l := s.ctl.changes
      ((∀ j, (d, j) ∉ l) →
        exec (.select tag [sourceByte d, sourceByte i, 1]) s = .next ((s.setChanges (l ++ [(d, i)])).answered 0x20 tag .done
          [BitVec.ofNat 8 (l.length + 1), BitVec.ofNat 8 (l.length + 1), 0])) ∧
      (∀ before after j, l = before ++ (d, j) :: after →
        exec (.select tag [sourceByte d, sourceByte i, 1]) s = .next ((s.setChanges (before ++ (d, i) :: after)).answered
          0x20 tag .done [BitVec.ofNat 8 l.length, BitVec.ofNat 8 (before.length + 1), 1])) ∧
      ((s.dest d).state.delivering = true → (s.dest d).service = some i →
        exec (.select tag [sourceByte d, sourceByte i, 0]) s =
          .next (s.answered 0x20 tag .done [1, (s.dest d).state.byte, 0])))

/-- An unstaged SELECT whose outcome is a change (R63 to R66): the service index, the fresh access report, the bar settled by it, then, for a VIEW destination,
the parental unit told: hold closed, memory cleared, EVENT unlock removed, the verdict formed for the new index, and a hold opened under ASK where
no bar stands; then the state and the reason set by the rows of R66. No cell of the destination stays queued and those of others keep their order;
nothing of another destination changes. That the lift of a bar looks at the old formed verdict, and may spend a serial, is the model's reading
(log entry 19). A PERIOD unlock stays; an EVENT unlock is removed from a RECORD destination too (log entry 17).

An unstaged SELECT whose outcome is a retry (R67): nothing is purged, KEY leaves the reason set, the access verdict is formed afresh and the bar settled
by its change, the decline memory is cleared, an open hold and the unlock stay, the parental verdict is formed, and R46 gives the state. -/
def Obligations.SelectChangeAndRetry : Prop :=
  (∀ (s : State) (tag : Half) (d : DestId) (i : Fin 64), LinkAtRest s → (s.service i).isSome = true →
     (s.dest d).state = .vacant ∨ (s.dest d).service ≠ some i →
     let denied := (s.accessVerdict i).isDenied
     let halted := s.portHalted (s.dest d).port
     let p := s.profile (s.dest d).profile
     let v := s.viewer d
     let told : Viewer := { (if denied then v.placed else if v.barred then v.lifted p else v).periodOnly with hold := .none, timer := none }
     let f := s.formedFor p i told.unlock
     ∃ t, exec (.select tag [sourceByte d, sourceByte i, 0]) s = .next t ∧
       Replies .select [sourceByte d, sourceByte i, 0] s
         [0, (t.dest d).state.byte, BitVec.ofNat 8 ((s.port (s.dest d).port).queue.countP fun c => c.isFor d)] ∧
       ((s.dest d).kind = .view →
         ParentalFormed s t d i told ∧ (t.dest d).parental = (t.viewer d).last ∧
         (t.dest d).reasons = ⟨denied, if f.verdict = .restricted then f.uncovered else .empty, false, false, halted, false⟩ ∧
         (denied = true → (t.dest d).state = .withheld) ∧
         (denied = false → f.verdict = .restricted → (t.dest d).state = if p.policy = .ask then .held else .withheld) ∧
         (denied = false → f.verdict ≠ .restricted → (t.dest d).state =
           if halted then .withheld else if t.requiredSet (t.dest d) = [] then .presenting else .acquiring) ∧
         (denied = false → f.verdict = .restricted → p.policy = .ask →
           (t.viewer d).hold = .opened ∧ t.attention.isPending .hold (sourceByte d) = true) ∧
         (denied = true ∨ f.verdict ≠ .restricted ∨ p.policy = .blank →
           (t.viewer d).hold = .none ∧ (v.hold = .opened → t.attention.isPending .hold (sourceByte d) = false))) ∧
       ((s.dest d).kind = .record → t.viewer d = v.periodOnly ∧ (t.dest d).parental = none) ∧
       ((s.dest d).state = .stalled → t.attention.isPending .stall (sourceByte d) = false) ∧
       t.attention.isPending .accessLapse (sourceByte d) = s.attention.isPending .accessLapse (sourceByte d) ∧
       (t.dest d).service = some i ∧ (t.dest d).access = some (s.accessVerdict i) ∧ (t.dest d).state ≠ .vacant ∧
       (t.dest d).marks = [] ∧ (t.dest d).unkeyedRun = 0 ∧ (t.dest d).reasons.key = false ∧
       (t.dest d).noticeSeq = (s.dest d).noticeSeq ∧
       ((s.accessVerdict i).isDenied = true → (t.dest d).state = .withheld ∧ (t.dest d).reasons.access = true) ∧
       ((s.dest d).kind = .record → (s.accessVerdict i).isDenied = false →
         (t.dest d).state = if s.portHalted (s.dest d).port then .withheld
                            else if t.requiredSet (t.dest d) = [] then .presenting else .acquiring) ∧
       (t.port (s.dest d).port).queue = (s.port (s.dest d).port).queue.filter (fun c => !c.isFor d) ∧
       t.lastAccess d = some (s.accessVerdict i) ∧
       (∀ id, (s.viewer d).unlock = some (.event id) → (t.viewer d).unlock = none) ∧
       (∀ u, (s.viewer d).unlock = some (.period u) → (t.viewer d).unlock = some (.period u)) ∧ OthersKept d s t) ∧
  (∀ (s : State) (tag : Half) (d : DestId) (i : Fin 64), LinkAtRest s → (s.service i).isSome = true →
     (s.dest d).state = .held ∨ (s.dest d).state = .withheld → (s.dest d).service = some i →
     let denied := (s.accessVerdict i).isDenied
     let wasDenied := (s.dest d).access.any (·.isDenied)
     let halted := s.portHalted (s.dest d).port
     let p := s.profile (s.dest d).profile
     let v := s.viewer d
     let told := (if denied && !wasDenied then v.placed else if !denied && wasDenied then v.lifted p else v).forgetful
     let f := s.formedFor p i v.unlock
     ∃ t, exec (.select tag [sourceByte d, sourceByte i, 0]) s = .next t ∧
       Replies .select [sourceByte d, sourceByte i, 0] s [2, (t.dest d).state.byte, 0] ∧
       ((s.dest d).kind = .view →
         ParentalFormed s t d i told ∧ (t.dest d).parental = (t.viewer d).last ∧
         (t.dest d).reasons = ⟨denied, if f.verdict = .restricted then f.uncovered else .empty, false, false, halted, false⟩ ∧
         (denied = false → f.verdict = .restricted →
           (t.dest d).state = if (t.viewer d).hold = .opened then .held else .withheld) ∧
         (denied = false → f.verdict ≠ .restricted → (t.dest d).state =
           if halted then .withheld else if s.requiredSet (s.dest d) = [] then .presenting else .acquiring)) ∧
       ((s.dest d).kind = .record → t.viewer d = v ∧ (t.dest d).parental = (s.dest d).parental ∧
         (denied = false → halted = true → (t.dest d).state = .withheld)) ∧
       t.attention.isPending .accessLapse (sourceByte d) = s.attention.isPending .accessLapse (sourceByte d) ∧
       t.lastAccess d = some (s.accessVerdict i) ∧
       t.ports = s.ports ∧ (t.dest d).service = some i ∧ (t.dest d).access = some (s.accessVerdict i) ∧
       (t.dest d).reasons.key = false ∧
       ((s.accessVerdict i).isDenied = true → (t.dest d).state = .withheld) ∧
       ((s.dest d).kind = .record → (s.accessVerdict i).isDenied = false → s.portHalted (s.dest d).port = false →
         (t.dest d).state = if s.requiredSet (s.dest d) = [] then .presenting else .acquiring) ∧
       OthersKept d s t)

/-- TAKE applies every entry of the change set and empties it (R68): each destination named ends on the service index its entry names, and no destination
that is not named changes. -/
def Obligations.TakeApplies : Prop :=
  ∀ (s : State) (tag : Half), LinkAtRest s → SelectionsSound s →
    Replies .take [] s [BitVec.ofNat 8 s.ctl.changes.length] ∧ ∃ t, exec (.take tag []) s = .next t ∧
      (∀ d i, (d, i) ∈ s.ctl.changes → (t.dest d).service = some i ∧ (t.dest d).state ≠ .vacant) ∧
      (∀ d, (∀ i, (d, i) ∉ s.ctl.changes) →
        t.dest d = s.dest d ∧ t.viewer d = s.viewer d ∧ t.lastAccess d = s.lastAccess d) ∧
      (∀ p, (∀ e ∈ s.ctl.changes, (s.dest e.1).port ≠ p) → t.port p = s.port p) ∧ Settled (s.setChanges []) t

/-- DISCARD_CHANGES empties the change set and frees the records it named; READ_CHANGES lists it (R69). -/
def Obligations.DiscardReadChanges : Prop :=
  ∀ (s : State) (tag : Half), LinkAtRest s → SelectionsSound s →
    exec (.discardChanges tag []) s = .next ((s.setChanges []).answered 0x22 tag .done [BitVec.ofNat 8 s.ctl.changes.length]) ∧
    s.ctl.changes.length ≤ 12 ∧
    (∀ i, (s.setChanges []).inUse i = true ↔ ∃ d, (s.dest d).state ≠ .vacant ∧ (s.dest d).service = some i) ∧
    exec (.readChanges tag []) s = .next (s.answered 0x23 tag .done
      (BitVec.ofNat 8 s.ctl.changes.length :: (s.ctl.changes.map fun e => [sourceByte e.1, sourceByte e.2]).flatten))

/-- RELEASE returns a destination to VACANT (R70): the record it leaves, the purge of its cells, which leaves those of other destinations in their places and
the port otherwise as it was (R158), what the access and parental units forget, the HOLD and STALL sources it withdraws, and its entry of
the change set. That a RECORD destination too loses its unlock, verdict, hold, memory and bar is the model's reading (log entry 17: R70
speaks of a VIEW destination, R134 and R139 of any). -/
def Obligations.ReleaseToVacant : Prop :=
  ∀ (s : State) (tag : Half), LinkAtRest s →
    (∀ d : DestId, ∃ t, exec (.release tag [sourceByte d]) s = .next t ∧
      (let x := s.dest d
       let purged := (s.port x.port).queue.countP fun c => c.isFor d
       t.dest d = { x with
        state := .vacant, service := none, marks := [], reasons := ⟨false, ⟨false, false, false⟩, false, false, false, false⟩,
        unkeyedRun := 0, acquisition := none, access := none, parental := none,
        tallies := if x.state = .vacant then x.tallies else { x.tallies with purged := x.tallies.purged + BitVec.ofNat 32 purged } }) ∧
      ((s.dest d).state ≠ .vacant → ∀ c ∈ (t.port (s.dest d).port).queue, c.isFor d = false) ∧
      (let p := s.port (s.dest d).port
       let rest := p.queue.filter fun c => !c.isFor d
       t.port (s.dest d).port = if (s.dest d).state = .vacant then p else { p with queue := rest, watch := if rest = [] then none else p.watch }) ∧
      (∀ c : Cause, t.attention.isPending c (sourceByte d) =
        if (c = .hold ∧ (s.viewer d).hold = .opened) ∨ (c = .stall ∧ (s.dest d).state = .stalled) then false
        else s.attention.isPending c (sourceByte d)) ∧
      Replies .release [sourceByte d] s [(s.dest d).state.byte, if (s.dest d).state = .vacant then 0
        else BitVec.ofNat 8 ((s.port (s.dest d).port).queue.countP fun c => c.isFor d)] ∧
      t.lastAccess d = none ∧ t.viewer d = { formed := none, unlock := none, hold := .none, serial := (s.viewer d).serial,
                                             timer := none, barred := false, last := none } ∧
      OthersKept d (s.setChanges (s.ctl.changes.filter fun e => e.1 ≠ d)) t) ∧
    ∀ b : Byte, 12 ≤ b.toNat → Refused (.release tag [b]) 0x24 tag .range s

/-- SET_ACQUIRE_TIME holds the time to 100 to 5000 ms (R71); an acquisition timer that has run out brings an ACQUIRING destination to STALLED, with STALL
raised (R73). That an expiry has no effect while the timer has not run out is the model's choice (log entry 5). -/
def Obligations.AcquisitionTime : Prop :=
  (∀ (s : State) (tag ms : Half), LinkAtRest s →
    let t := max 100 (min 5000 ms.toNat)
    exec (.setAcquireTime tag (bytes16 ms)) s =
      .next (State.answered 0x25 tag .done (num16 t) { s with ctl := { s.ctl with acquireTime := t } })) ∧
  ∀ (s : State) (d : DestId), s.resetPin = false →
    ((s.dest d).state = .acquiring → (s.dest d).acquisition = some 0 →
      exec (.acquisitionTimerExpiry d) s =
        .next ((s.setDest d { s.dest d with state := .stalled, acquisition := none }).raise .stall (sourceByte d) 0)) ∧
    ((s.dest d).state ≠ .acquiring ∨ (s.dest d).acquisition ≠ some 0 → exec (.acquisitionTimerExpiry d) s = .next s)

/-! ## Keys and entitlements -/

/-- LOAD_KEY_QUARTER (R78): the staging quarter named takes the value and nothing else of the slot changes, unless the quarter is in the commit mask; then the phase
becomes VALID and its key is the four staging quarters as they stand (R79). -/
def Obligations.KeyLoadAndCommit : Prop :=
  ∀ (s : State) (tag : Half), LinkAtRest s →
    (∀ (k : Fin 32) (h : PhaseName) (q : Fin 4) (v : Word),
      let slot := s.keySlot k
      let x := slot.phase h
      let staged := match q with
        | 0 => { x.staging with q0 := v } | 1 => { x.staging with q1 := v }
        | 2 => { x.staging with q2 := v } | 3 => { x.staging with q3 := v }
      let body := [sourceByte k, match h with | .a => 1 | .b => 2, sourceByte q] ++ bytes32 v
      (slot.commitMask.getLsbD q.val = false →
        exec (.loadKeyQuarter tag body) s = .next ((s.setKeySlot k (slot.setPhase h { x with staging := staged })).answered
          0x28 tag .done [0, if x.valid then 1 else 0])) ∧
      (slot.commitMask.getLsbD q.val = true →
        Replies .loadKeyQuarter body s [1, 1] ∧ ∃ t, exec (.loadKeyQuarter tag body) s = .next t ∧
          UnitsKept (s.setKeySlot k (slot.setPhase h { staging := staged, key := staged, valid := true })) t ∧
          ((∀ d, (s.dest d).reasons.key = true → (s.dest d).state.delivering = false) → t.ports = s.ports) ∧
          (∀ d, (s.dest d).state ≠ .vacant → (∃ m ∈ s.requiredSet (s.dest d), m.2.keySlot = some k) →
            (t.dest d).reasons.key = false) ∧
          (∀ d, (s.dest d).state = .vacant ∨ (s.dest d).reasons.key = false ∨
            (∀ m ∈ s.requiredSet (s.dest d), m.2.keySlot ≠ some k) → t.dest d = s.dest d))) ∧
    ∀ (k h q : Byte) (v : Word), 32 ≤ k.toNat ∨ (h.toNat ≠ 1 ∧ h.toNat ≠ 2) ∨ 4 ≤ q.toNat →
      Refused (.loadKeyQuarter tag ([k, h, q] ++ bytes32 v)) 0x28 tag .range s

/-- SET_COMMIT_MASK (R81), CLEAR_KEY (R82) and READ_KEY_STATE (R83). -/
def Obligations.KeySlotOrders : Prop :=
  ∀ (s : State) (tag : Half), LinkAtRest s →
    (∀ (k : Fin 32) (m : BitVec 4),
      exec (.setCommitMask tag [sourceByte k, BitVec.ofNat 8 m.toNat]) s =
        .next ((s.setKeySlot k { s.keySlot k with commitMask := m }).answered 0x29 tag .done [BitVec.ofNat 8 m.toNat])) ∧
    (∀ k m : Byte, 32 ≤ k.toNat ∨ 16 ≤ m.toNat → Refused (.setCommitMask tag [k, m]) 0x29 tag .range s) ∧
    (∀ k : Fin 32,
      exec (.clearKey tag [sourceByte k, 1]) s = .next ((s.setKeySlot k { s.keySlot k with
        a := { (s.keySlot k).a with valid := false, key := ⟨0, 0, 0, 0⟩ } }).answered 0x2A tag .done
          [if (s.keySlot k).a.valid then 1 else 0]) ∧
      exec (.clearKey tag [sourceByte k, 2]) s = .next ((s.setKeySlot k { s.keySlot k with
        b := { (s.keySlot k).b with valid := false, key := ⟨0, 0, 0, 0⟩ } }).answered 0x2A tag .done
          [if (s.keySlot k).b.valid then 1 else 0])) ∧
    (∀ k h : Byte, 32 ≤ k.toNat ∨ (h.toNat ≠ 1 ∧ h.toNat ≠ 2) → Refused (.clearKey tag [k, h]) 0x2A tag .range s) ∧
    (∀ k : Fin 32, exec (.readKeyState tag [sourceByte k]) s = .next (s.answered 0x2B tag .done
      [if (s.keySlot k).a.valid then 1 else 0, if (s.keySlot k).b.valid then 1 else 0,
       BitVec.ofNat 8 (s.keySlot k).commitMask.toNat])) ∧
    ∀ k : Byte, 32 ≤ k.toNat → Refused (.readKeyState tag [k]) 0x2B tag .range s

/-- GRANT_ENTITLEMENT (R94, R95): its refusals; a record with the order's key takes the new span in its place; else the lowest empty place is filled; else TABLE_FULL.
A taken order forms the access verdict of every destination that is not VACANT, and hands it where it differs from the last report (R103, R104).

REVOKE_ENTITLEMENT empties the place of the record with the order's key, with the same forming, or answers NO_ENTRY (R96); READ_ENTITLEMENT gives one place and changes
nothing (R97). The presence bytes follow R171 as log entry 11 reads it. -/
def Obligations.EntitlementOrders : Prop :=
  (∀ (s : State) (tag : Half), LinkAtRest s →
     (∀ (key : EntitlementKey) (start stop : Word), key.product ≠ 0 →
       let body := keyBody key ++ bytes32 start ++ bytes32 stop
       let stands := fun i => ∃ e, s.access.table.read i = some e ∧ e.key = key
       (stop.toNat ≤ start.toNat → Refused (.grantEntitlement tag body) 0x30 tag .range s) ∧
       (start.toNat < stop.toNat →
         (∀ i, stands i → (∀ j < i, ¬ stands j) →
           Replies .grantEntitlement body s [sourceByte i, 1, BitVec.ofNat 8 (s.access.table.rows.filter (·.isSome)).length] ∧
           ∃ t, exec (.grantEntitlement tag body) s = .next t ∧ AccessHanded s t ∧
             Settled (s.setEntitlement i (some ⟨key, start, stop⟩)) t) ∧
         (∀ i, (∀ j, ¬ stands j) → s.access.table.read i = none → (∀ j < i, s.access.table.read j ≠ none) →
           Replies .grantEntitlement body s [sourceByte i, 0, BitVec.ofNat 8 ((s.access.table.rows.filter (·.isSome)).length + 1)] ∧
           ∃ t, exec (.grantEntitlement tag body) s = .next t ∧ AccessHanded s t ∧
             Settled (s.setEntitlement i (some ⟨key, start, stop⟩)) t) ∧
         ((∀ j, ¬ stands j) → (∀ j, s.access.table.read j ≠ none) →
           Refused (.grantEntitlement tag body) 0x30 tag .tableFull s))) ∧
     ∀ (kind : Byte) (p id : Half) (span : List Byte), span.length = 8 → 2 ≤ kind.toNat ∨ p = 0 →
       Refused (.grantEntitlement tag (kind :: bytes16 p ++ bytes16 id ++ span)) 0x30 tag .range s) ∧
  (∀ (s : State) (tag : Half), LinkAtRest s →
     (∀ key : EntitlementKey, key.product ≠ 0 →
       let stands := fun i => ∃ e, s.access.table.read i = some e ∧ e.key = key
       (∀ i, stands i → (∀ j < i, ¬ stands j) →
         Replies .revokeEntitlement (keyBody key) s [sourceByte i, BitVec.ofNat 8 ((s.access.table.rows.filter (·.isSome)).length - 1)] ∧
         ∃ t, exec (.revokeEntitlement tag (keyBody key)) s = .next t ∧ AccessHanded s t ∧
           Settled (s.setEntitlement i none) t) ∧
       ((∀ j, ¬ stands j) → Refused (.revokeEntitlement tag (keyBody key)) 0x31 tag .noEntry s)) ∧
     (∀ (kind : Byte) (p id : Half), 2 ≤ kind.toNat ∨ p = 0 →
       Refused (.revokeEntitlement tag (kind :: bytes16 p ++ bytes16 id)) 0x31 tag .range s) ∧
     (∀ i : Fin 48,
       (s.access.table.read i = none →
         exec (.readEntitlement tag [sourceByte i]) s = .next (s.answered 0x32 tag .done (List.replicate 17 0))) ∧
       ∀ e, s.access.table.read i = some e →
         let valid : List Byte := if s.time.state = .unset then [0, 0]
           else [1, if e.start.toNat ≤ s.time.sec.toNat ∧ s.time.sec.toNat < e.stop.toNat then 1 else 0]
         let key : List Byte := match e.key with
           | .subscription p => 0 :: bytes16 p ++ [0, 0, 0] | .event p id => 1 :: bytes16 p ++ 1 :: bytes16 id
         exec (.readEntitlement tag [sourceByte i]) s =
           .next (s.answered 0x32 tag .done (1 :: key ++ bytes32 e.start ++ bytes32 e.stop ++ valid))) ∧
     ∀ b : Byte, 48 ≤ b.toNat → Refused (.readEntitlement tag [b]) 0x32 tag .range s)

/-- The access verdict on a valid service record, step by step (R100, R101). The premise is that no two events of a service overlap.

An access report at the destination controller (R50, R106): it is stored; the access bar of a VIEW destination is placed exactly where DENIED comes in
place of another report or none, closing an open hold, and lifted exactly where another verdict replaces DENIED; ACCESS_LAPSE is raised
exactly where DENIED replaces a report that is present and not DENIED, at a delivering destination. -/
def Obligations.AccessVerdictFormed : Prop :=
  (∀ (s : State) (d : DestId) (v : AccessVerdict), (s.dest d).state = .vacant → s.takeAccessReport d v = s) ∧
  (∀ (s : State) (d : DestId) (v : AccessVerdict), (s.dest d).state ≠ .vacant →
    let x := s.dest d
    let t := s.takeAccessReport d v
    let denies := fun v : AccessVerdict => ∃ c, v = .denied c
    let wasDenied := ∃ o, x.access = some o ∧ denies o
    let lapses := denies v ∧ (∃ o, x.access = some o ∧ ¬ denies o) ∧ x.state.delivering = true
    (t.dest d).access = some v ∧
    (denies v → (t.dest d).state = .withheld ∧ (t.dest d).reasons.access = true) ∧
    (¬ denies v → (t.dest d).reasons.access = false) ∧
    (x.kind = .view → denies v → ¬ wasDenied →
      (t.viewer d).barred = true ∧ (t.viewer d).hold = .none ∧ (t.viewer d).timer = none ∧
        ((s.viewer d).hold = .opened → t.attention.isPending .hold (sourceByte d) = false)) ∧
    (x.kind = .view → ¬ denies v → wasDenied →
      (t.viewer d).barred = false ∧
        ∀ f, (s.viewer d).formed = some f → f.verdict = .restricted → (s.profile x.profile).policy = .ask → (s.viewer d).hold = .none →
          (t.viewer d).hold = .opened ∧ (t.viewer d).serial = (s.viewer d).serial + 1 ∧
            t.attention.isPending .hold (sourceByte d) = true) ∧
    (x.kind = .record ∨ (denies v ↔ wasDenied) → t.viewer d = s.viewer d) ∧
    (lapses → t.attention.isPending .accessLapse (sourceByte d) = true) ∧
    (¬ lapses → t.attention.isPending .accessLapse (sourceByte d) = s.attention.isPending .accessLapse (sourceByte d)) ∧
    OthersKept d s t) ∧
  ∀ (s : State) (i : Fin 64) (v : Service), EventsSound s → s.service i = some v →
    let t := s.time.sec.toNat
    let unset := s.time.state = .unset
    let valid := fun key => ∃ k e, s.access.table.read k = some e ∧ e.key = key ∧ e.start.toNat ≤ t ∧ t < e.stop.toNat
    let shows := fun e : EventRecord => ¬ unset ∧ e ∈ s.guide.events ∧ e.service = v.number ∧ e.start.toNat ≤ t ∧ t < e.stop.toNat
    let lacks := fun p => v.product = some p ∧ ¬ valid (.subscription p)
    (unset → v.product ≠ none → s.accessVerdict i = .denied .timeUnset) ∧
    (¬ unset → (∃ p, lacks p) → s.accessVerdict i = .denied .noSubscription) ∧
    (¬ unset → (∀ p, ¬ lacks p) → ∀ e, shows e → e.product ≠ 0 → ¬ valid (.event e.product e.id) →
      s.accessVerdict i = if 0 < e.preview ∧ t < e.start.toNat + e.preview then .preview else .denied .noPurchase) ∧
    (¬ unset → (∀ p, ¬ lacks p) → (∀ e, shows e → e.product ≠ 0 → valid (.event e.product e.id)) →
      (v.product ≠ none ∨ (∃ e, shows e ∧ e.product ≠ 0) → s.accessVerdict i = .entitled) ∧
      (v.product = none → (∀ e, shows e → e.product = 0) → s.accessVerdict i = .free)) ∧
    (unset → v.product = none → s.accessVerdict i = .free)

/-! ## The guide -/

/-- A unit-start GUIDE cell: the open slot of its entry is abandoned first (R110, R111). A section of an unusable length is dropped with FORMAT_FAILED;
one that lies in the cell is checked at once; a longer one opens the lowest free slot, or is dropped with GUIDE_BUSY.

A GUIDE cell without unit-start: ignored where no slot is open for its entry; another feed or flow id abandons the assembly; else its payload joins the
buffer, and a section that is complete frees its slot and is checked (R112).

The two stages of the check, with CRC_FAILED and FORMAT_FAILED (R113), and the section register: repeat, revision, new, and full (R115). That a repeated
section and one dropped at a full register count nothing in EVENTS_SKIPPED is the model's reading (log entry 16). An application removes the records of
its origin and inserts the usable descriptors one at a time, in their order; every record it leaves was in the table or comes from a descriptor of
the section (R114, R116). The services touched are those that had a record inserted, removed or evicted (R119).

A candidate inserted where the table has room (R117): every record of its service that it overlaps leaves, it stands in the table, every other record
stays, and no two records of one service overlap. Where the table is full, the record given up, or the candidate (R118): which of two records that agree in
all that R118 names is given up is not stated (log entry 31). -/
def Obligations.GuideSections : Prop :=
  (∀ (s : State) (f : FeedId) (c : Cell) (k : Fin 256) (e : FlowEntry) (t : State), Taken s f c k e t → e.kind = .guide → c.unitStart = true →
     let b := c.payload.rows
     let l := field16 b 0
     let begun := (t.countFeed f .consumed).abandonEntry k
     let count := fun g : GuideCounters => { begun with guide := { begun.guide with counters := g } }
     (l < 10 ∨ 1024 < l → exec (.feedCellArrival f c) s = .next (count { begun.guide.counters with
       formatFailed := begun.guide.counters.formatFailed + 1 })) ∧
     (10 ≤ l → l ≤ 184 → exec (.feedCellArrival f c) s = .next (begun.checkSection (b.take l)).finish) ∧
     (10 ≤ l → l ≤ 184 → checkValue (b.take (l - 2)) ≠ half b (l - 2) → exec (.feedCellArrival f c) s =
       .next (count { begun.guide.counters with crcFailed := begun.guide.counters.crcFailed + 1 })) ∧
     (185 ≤ l → l ≤ 1024 →
       (∀ i, begun.guide.slots.read i = none → (∀ j < i, begun.guide.slots.read j ≠ none) →
         exec (.feedCellArrival f c) s = .next { begun with guide := { begun.guide with
           slots := begun.guide.slots.write i (some ⟨k, f, c.flowId, half b 2, l, b⟩) } }) ∧
       ((∀ i, begun.guide.slots.read i ≠ none) → exec (.feedCellArrival f c) s =
         .next (count { begun.guide.counters with busy := begun.guide.counters.busy + 1 })))) ∧
  (∀ (s : State) (f : FeedId) (c : Cell) (k : Fin 256) (e : FlowEntry) (t : State), Taken s f c k e t → e.kind = .guide → c.unitStart = false →
     let counted := t.countFeed f .consumed
     ((∀ i a, counted.guide.slots.read i = some a → a.entry ≠ k) → exec (.feedCellArrival f c) s = .next counted) ∧
     ∀ i a, counted.guide.slots.read i = some a → a.entry = k → (∀ j < i, ∀ x, counted.guide.slots.read j = some x → x.entry ≠ k) →
       let gathered := (a.buffer ++ c.payload.rows).take a.length
       let slot := fun x : Option Assembly => { counted with guide := { counted.guide with slots := counted.guide.slots.write i x } }
       (a.feed ≠ f ∨ a.flowId ≠ c.flowId → exec (.feedCellArrival f c) s = .next (counted.abandonEntry k)) ∧
       (a.feed = f → a.flowId = c.flowId →
         (a.buffer.length + 184 < a.length →
           exec (.feedCellArrival f c) s = .next (slot (some { a with buffer := a.buffer ++ c.payload.rows }))) ∧
         (a.length ≤ a.buffer.length + 184 →
           exec (.feedCellArrival f c) s = .next ((slot none).checkSection gathered).finish))) ∧
  (∀ (s : State) (b : List Byte), 10 ≤ b.length →
     let l := b.length
     let count := fun g : GuideCounters => { s with guide := { s.guide with counters := g } }
     let unusable := half b 2 = 0 ∨ 31 < (byteAt b 4).toNat ∨ (byteAt b 6).toNat < (byteAt b 5).toNat ∨ 63 < (byteAt b 7).toNat ∨
       l ≠ 10 + 16 * (byteAt b 7).toNat
     (checkValue (b.take (l - 2)) ≠ half b (l - 2) →
       s.checkSection b = ⟨count { s.guide.counters with crcFailed := s.guide.counters.crcFailed + 1 }, []⟩) ∧
     (checkValue (b.take (l - 2)) = half b (l - 2) →
       (unusable → s.checkSection b = ⟨count { s.guide.counters with formatFailed := s.guide.counters.formatFailed + 1 }, []⟩) ∧
       (¬ unusable →
         let holds := fun i => ∃ r, s.guide.register.read i = some r ∧ r.service = half b 2 ∧ r.section_ = byteAt b 5
         let entered := fun i => { s with guide := { s.guide with
           register := s.guide.register.write i (some ⟨half b 2, byteAt b 5, byteAt b 4⟩) } }
         (∀ i r, s.guide.register.read i = some r → r.service = half b 2 → r.section_ = byteAt b 5 → (∀ j < i, ¬ holds j) →
           (r.version = byteAt b 4 →
             s.checkSection b = ⟨count { s.guide.counters with repeated := s.guide.counters.repeated + 1 }, []⟩) ∧
           (r.version ≠ byteAt b 4 → s.checkSection b = (entered i).applySection b)) ∧
         (∀ i, (∀ j, ¬ holds j) → s.guide.register.read i = none → (∀ j < i, s.guide.register.read j ≠ none) →
           s.checkSection b = (entered i).applySection b) ∧
         ((∀ j, ¬ holds j) → (∀ j, s.guide.register.read j ≠ none) →
           s.checkSection b = ⟨(count { s.guide.counters with
             registerFull := s.guide.counters.registerFull + 1 }).raise .guideFull 255 0, []⟩)))) ∧
  (∀ (s : State) (b : List Byte), (byteAt b 7).toNat ≤ 63 → b.length = 10 + 16 * (byteAt b 7).toNat →
     let t := (s.applySection b).state
     let origin := fun r : EventRecord => r.service = half b 2 ∧ r.originSection = byteAt b 5
     let at_ := fun n : Nat => b.drop (8 + 16 * n)
     let usable := fun n : Nat => decide (1 ≤ field8 (at_ n) 6 * 65536 + field16 (at_ n) 7 ∧
       field8 (at_ n) 6 * 65536 + field16 (at_ n) 7 ≤ 86400 ∧ field8 (at_ n) 9 ≤ 15)
     let read := fun n : Nat =>
       let d := at_ n
       let duration := field8 d 6 * 65536 + field16 d 7
       ({ service := half b 2, id := half d 0, start := word d 2, duration := duration, stop := eventStop (word d 2) duration,
          rating := byteAt d 9, product := half d 10, preview := min 600 (field16 d 12), title := half d 14,
          originSection := byteAt b 5 } : EventRecord)
     let candidates := ((List.range (byteAt b 7).toNat).filter usable).map read
     let rest := s.guide.events.filter fun r => !(r.service == half b 2 && r.originSection == byteAt b 5)
     let start : State := { s with guide := { s.guide with
       events := rest
       counters := { s.guide.counters with
         applied := s.guide.counters.applied + 1
         skipped := s.guide.counters.skipped + BitVec.ofNat 32 ((byteAt b 7).toNat - candidates.length) } } }
     s.applySection b = candidates.foldl Applying.insert ⟨start, if rest = s.guide.events then [] else [half b 2]⟩ ∧
     (∀ r ∈ t.guide.events, (r ∈ s.guide.events ∧ ¬ origin r) ∨ ∃ n < (byteAt b 7).toNat, usable n ∧ r = read n) ∧
     t.guide.counters.applied = s.guide.counters.applied + 1 ∧
     (∀ skipped : List Nat, skipped.Nodup → (∀ n, n ∈ skipped ↔ n < (byteAt b 7).toNat ∧ ¬ usable n) →
       t.guide.counters.skipped = s.guide.counters.skipped + BitVec.ofNat 32 skipped.length) ∧
     t.guide.register = s.guide.register ∧ t.guide.slots = s.guide.slots ∧ t.guide.current = s.guide.current) ∧
  (∀ (w : Applying) (e : EventRecord), EventsSound w.state → e.stop = eventStop e.start e.duration →
     let overlapping := fun r : EventRecord => r.service = e.service ∧ r.start.toNat < e.stop.toNat ∧ e.start.toNat < r.stop.toNat
     let events := w.state.guide.events
     let past := fun r : EventRecord => w.state.time.state ≠ .unset ∧ r.stop.toNat ≤ w.state.time.sec.toNat
     let t := (w.insert e).state
     let evicted := fun r : EventRecord => ∀ n, n ∈ (w.insert e).touched ↔ n ∈ w.touched ∨ n = e.service ∨ n = r.service
     EventsSound t ∧
       (events.length < 512 ∨ (∃ r ∈ events, overlapping r) →
         (∀ r, r ∈ t.guide.events ↔ r = e ∨ (r ∈ events ∧ ¬ overlapping r)) ∧
         (∀ n, n ∈ (w.insert e).touched ↔ n ∈ w.touched ∨ n = e.service) ∧
         t = { w.state with guide := { w.state.guide with events := t.guide.events } }) ∧
       (512 ≤ events.length → (∀ r ∈ events, ¬ overlapping r) →
         let full := State.raise .guideFull 255 0 { w.state with guide := { w.state.guide with
           counters := { w.state.guide.counters with evictions := w.state.guide.counters.evictions + 1 } } }
         t = { full with guide := { full.guide with events := t.guide.events } } ∧
         ((∃ r ∈ events, past r) → ∃ r ∈ events, past r ∧
           (∀ q ∈ events, past q → r.stop.toNat < q.stop.toNat ∨ (r.stop = q.stop ∧
             (r.service.toNat < q.service.toNat ∨ (r.service = q.service ∧ r.start.toNat ≤ q.start.toNat)))) ∧
           List.Perm t.guide.events (e :: events.erase r) ∧ evicted r) ∧
         ((∀ r ∈ events, ¬ past r) →
           ((∃ r ∈ events, e.start.toNat ≤ r.start.toNat) → ∃ r ∈ events,
             (∀ q ∈ events, q.start.toNat < r.start.toNat ∨ (q.start = r.start ∧ q.service.toNat ≤ r.service.toNat)) ∧
             List.Perm t.guide.events (e :: events.erase r) ∧ evicted r) ∧
           ((∀ r ∈ events, r.start.toNat < e.start.toNat) → t.guide.events = events ∧ (w.insert e).touched = w.touched))))

/-- QUERY_EVENT and QUERY_NEXT (R123, R124) and READ_GUIDE (R125), which change nothing. That the open flag of a slot in READ_GUIDE's reply is the presence
byte of its fields, nine zero bytes for a free slot, is the model's reading of R125 with R171 (log entry 11).

PURGE_GUIDE (R122): the records and register entries of the service named, or of every service, leave; its open slots are abandoned, each counted;
no other guide counter changes. Its reply gives the three numbers of what left. -/
def Obligations.GuideOrders : Prop :=
  (∀ (s : State) (tag n : Half) (time : Word), LinkAtRest s → EventsSound s →
     let record := fun e : EventRecord => 1 :: bytes16 e.id ++ bytes32 e.start ++ num32 e.duration ++ bytes32 e.stop ++ [e.rating] ++
       bytes16 e.product ++ num16 e.preview ++ bytes16 e.title ++ [e.originSection]
     let held := fun e : EventRecord => e ∈ s.guide.events ∧ e.service = n
     let shows := fun e : EventRecord => held e ∧ e.start.toNat ≤ time.toNat ∧ time.toNat < e.stop.toNat
     let body := bytes16 n ++ bytes32 time
     (n = 0 → Refused (.queryEvent tag body) 0x39 tag .range s ∧ Refused (.queryNext tag body) 0x3A tag .range s) ∧
     (n ≠ 0 →
       (∀ e, shows e → exec (.queryEvent tag body) s = .next (s.answered 0x39 tag .done (record e))) ∧
       ((∀ e, ¬ shows e) → exec (.queryEvent tag body) s = .next (s.answered 0x39 tag .done (List.replicate 23 0))) ∧
       (∀ e, held e → time.toNat < e.start.toNat → (∀ r, held r → time.toNat < r.start.toNat → r = e ∨ e.start.toNat < r.start.toNat) →
         exec (.queryNext tag body) s = .next (s.answered 0x3A tag .done (record e))) ∧
       ((∀ e, held e → e.start.toNat ≤ time.toNat) →
         exec (.queryNext tag body) s = .next (s.answered 0x3A tag .done (List.replicate 23 0)))) ∧
     let slot := fun a : Option Assembly => match a with
       | none => List.replicate 10 0
       | some a => 1 :: num16 a.entry.val ++ [sourceByte a.feed] ++ bytes16 a.service ++ num16 a.length ++ num16 a.buffer.length
     exec (.readGuide tag []) s = .next (s.answered 0x3B tag .done
       (slot (s.guide.slots.read 0) ++ slot (s.guide.slots.read 1) ++ slot (s.guide.slots.read 2) ++ slot (s.guide.slots.read 3) ++
         [BitVec.ofNat 8 (s.guide.register.rows.filter (·.isSome)).length] ++ num16 s.guide.events.length ++
         (s.guide.counters.list.map bytes32).flatten))) ∧
  (∀ (s : State) (tag n : Half), LinkAtRest s →
     let named := fun service : Half => n == 0 || service == n
     let abandoned := (s.guide.slots.rows.filter fun a => a.any fun x => named x.service).length
     (runOrder .purgeGuide (bytes16 n) s).body = num16 (s.guide.events.filter fun e => named e.service).length ++
       [BitVec.ofNat 8 (s.guide.register.rows.filter fun r => r.any fun x => named x.service).length, BitVec.ofNat 8 abandoned] ∧
     ∃ t, exec (.purgeGuide tag (bytes16 n)) s = .next t ∧
       t.guide.events = s.guide.events.filter (fun e => !named e.service) ∧
       (∀ i r, t.guide.register.read i = some r ↔ s.guide.register.read i = some r ∧ named r.service = false) ∧
       (∀ i a, t.guide.slots.read i = some a ↔ s.guide.slots.read i = some a ∧ named a.service = false) ∧
       t.guide.counters = { s.guide.counters with
         abandoned := s.guide.counters.abandoned + BitVec.ofNat 32 abandoned } ∧
       Settled { s with guide := t.guide, freeCount := t.freeCount, script := t.script } t)

/-! ## Parental control -/

/-- The record of the current event: of the index's service number and with the current event id, the one whose window contains T, or failing that one
with the latest start (R135); between equal starts log entry 31 chooses.

The reasons and the verdict of a destination with profile `p` on index `i` under unlock `u` (R135, R136). That RATING follows the unrated policy also
where the current event's record has left the event table is the model's reading (log entry 20). -/
def Obligations.ParentalVerdictFormed : Prop :=
  (∀ (s : State) (i : Fin 64),
     let named := fun r : EventRecord => r ∈ s.guide.events ∧
       (∃ v, s.service i = some v ∧ r.service = v.number) ∧ s.guide.current.read i = some r.id
     let shows := fun r : EventRecord => r.start.toNat ≤ s.time.sec.toNat ∧ s.time.sec.toNat < r.stop.toNat
     (s.currentRecord i = none ↔ ∀ r, ¬ named r) ∧
     ∀ e, s.currentRecord i = some e → named e ∧
       ((∃ r, named r ∧ shows r) → shows e) ∧
       ((∀ r, named r → ¬ shows r) → ∀ r, named r → r.start.toNat ≤ e.start.toNat)) ∧
  ∀ (s : State) (p : Profile) (i : Fin 64) (u : Option Unlock),
    let f := s.formedFor p i u
    (∀ e, s.currentRecord i = some e → e.rating ≠ 0 → (f.present.rating = true ↔ p.ceiling < e.rating.toNat)) ∧
    (∀ e, s.currentRecord i = some e → e.rating = 0 → f.present.rating = p.restrictUnrated) ∧
    (s.currentRecord i = none → f.present.rating = p.restrictUnrated) ∧
    (f.present.quiet = true ↔
      s.time.state ≠ .unset ∧ inQuiet p.quietStart p.quietStop (minuteOfDay s.time.sec s.time.offset) = true) ∧
    (f.present.allowance = true ↔ ∃ a, p.allowance = some a ∧ a.remaining = 0) ∧
    (u = none → f.uncovered = f.present) ∧
    (∀ x, u = some (.event x) → f.uncovered =
      { f.present with rating := f.present.rating && s.guide.current.read i != some x }) ∧
    (∀ x, u = some (.period x) → s.time.sec.toNat < x → f.uncovered = ⟨false, false, false⟩) ∧
    (∀ x, u = some (.period x) → x ≤ s.time.sec.toNat → f.uncovered = f.present) ∧
    f.verdict = if f.present = ⟨false, false, false⟩ then .clear else if f.uncovered = ⟨false, false, false⟩ then .covered else .restricted

/-- The hold rule (R140), row by row: a hold opens with its serial advanced, its timer at the ask timeout and HOLD raised; it stays; or it closes, or the memory
is cleared, with the condition NONE. -/
def Obligations.HoldRuleRows : Prop :=
  ∀ (s : State) (d : DestId) (f : Formed),
    let v := s.viewer d
    let p := s.profile (s.dest d).profile
    let ended := s.setViewer d { v with hold := .none, timer := none }
    let closed := if v.hold = .opened then ended.withdraw .hold (sourceByte d) else ended
    v.formed = some f →
      (f.verdict = .restricted → p.policy = .ask →
        (v.hold = .none → v.barred = false → s.holdRule d =
          (s.setViewer d { v with hold := .opened, serial := v.serial + 1, timer := some (p.askTimeout * 1000) }).raise
            .hold (sourceByte d) (v.serial + 1)) ∧
        (v.hold ≠ .none ∨ v.barred = true → s.holdRule d = s)) ∧
      (f.verdict = .restricted → p.policy = .blank → s.holdRule d = closed) ∧
      (f.verdict ≠ .restricted → s.holdRule d = closed)

/-- SET_PROFILE and ADD_ALLOWANCE (R129, R133): the refusals of SET_PROFILE, the profile it stores with the remaining seconds, and what ADD_ALLOWANCE adds. The
verdicts of the VIEW destinations bound to the profile are formed under it, the hold rule is applied, and the reports are handed (R137, R140).

READ_PROFILE (R130) and READ_PARENTAL (R144), which change nothing. The layout of an unlock and the presence bytes are the model's choice
(log entries 8 and 11). -/
def Obligations.ProfileAndParentalOrders : Prop :=
  (∀ (s : State) (tag : Half), LinkAtRest s →
     (∀ (p ceiling unrated policy : Byte) (qs qe allowance ask : Half),
       8 ≤ p.toNat ∨ 15 < ceiling.toNat ∨ 1 < unrated.toNat ∨ 1439 < qs.toNat ∨ 1439 < qe.toNat ∨ 1 < policy.toNat →
       Refused (.setProfile tag ([p, ceiling, unrated] ++ bytes16 qs ++ bytes16 qe ++ bytes16 allowance ++ [policy] ++ bytes16 ask))
         0x40 tag .range s) ∧
     (∀ (p : Fin 8) (ceiling : Byte) (unrated : Bool) (qs qe allowance ask : Half) (policy : Policy),
       ceiling.toNat ≤ 15 → qs.toNat ≤ 1439 → qe.toNat ≤ 1439 →
       let old := s.profile p
       let minutes := min 1440 allowance.toNat
       let body := [sourceByte p, ceiling, if unrated then 1 else 0] ++ bytes16 qs ++ bytes16 qe ++ bytes16 allowance ++
         [policy.byte] ++ bytes16 ask
       ∃ t, exec (.setProfile tag body) s = .next t ∧
         Replies .setProfile body s ([ceiling, if unrated then 1 else 0] ++ bytes16 qs ++ bytes16 qe ++
           (match (t.profile p).allowance with | none => num16 65535 ++ num32 4294967295 | some a => num16 a.minutes ++ num32 a.remaining) ++
           bytes32 (BitVec.ofInt 32 old.lastRefill) ++ [policy.byte] ++ num16 (max 5 (min 300 ask.toNat))) ∧
         Settled (s.setProfile p
           { ceiling := ceiling.toNat, restrictUnrated := unrated, quietStart := qs.toNat, quietStop := qe.toNat,
             allowance := if allowance = 65535 then none else some ⟨minutes,
               match old.allowance with | none => minutes * 60 | some a => min a.remaining (minutes * 60)⟩
             lastRefill := old.lastRefill, policy := policy, askTimeout := max 5 (min 300 ask.toNat) }) t ∧
         (∀ d i, (s.dest d).state ≠ .vacant → (s.dest d).kind = .view → (s.dest d).profile = p → (s.dest d).service = some i →
           ParentalFormed s t d i (s.viewer d)) ∧
         t.access = s.access ∧ ∀ d, (s.dest d).profile ≠ p → t.dest d = s.dest d ∧ t.viewer d = s.viewer d) ∧
     (∀ (p : Byte) (seconds : Word), 8 ≤ p.toNat → Refused (.addAllowance tag (p :: bytes32 seconds)) 0x42 tag .range s) ∧
     ∀ (p : Fin 8) (seconds : Word),
       ((s.profile p).allowance = none →
         exec (.addAllowance tag (sourceByte p :: bytes32 seconds)) s =
           .next (s.answered 0x42 tag .done (num32 4294967295))) ∧
       ∀ a, (s.profile p).allowance = some a →
         ∃ t, exec (.addAllowance tag (sourceByte p :: bytes32 seconds)) s = .next t ∧
           Settled (s.setProfile p { s.profile p with
             allowance := some { a with remaining := min (a.minutes * 60) (a.remaining + seconds.toNat) } }) t ∧
           Replies .addAllowance (sourceByte p :: bytes32 seconds) s (num32 (min (a.minutes * 60) (a.remaining + seconds.toNat))) ∧
           (∀ d i, (s.dest d).state ≠ .vacant → (s.dest d).kind = .view → (s.dest d).profile = p → (s.dest d).service = some i →
             ParentalFormed s t d i (s.viewer d)) ∧
           t.access = s.access ∧ ∀ d, (s.dest d).profile ≠ p → t.dest d = s.dest d ∧ t.viewer d = s.viewer d) ∧
  (∀ (s : State) (tag : Half), LinkAtRest s →
     (∀ p : Fin 8,
       let x := s.profile p
       let rooms := fun want : Dest → Bool =>
         BitVec.ofNat 8 (s.ctl.dests.rows.filter fun r => r.kind == .view && r.profile == p && want r).length
       exec (.readProfile tag [sourceByte p]) s = .next (s.answered 0x41 tag .done
         ([BitVec.ofNat 8 x.ceiling, if x.restrictUnrated then 1 else 0] ++ num16 x.quietStart ++ num16 x.quietStop ++
           (match x.allowance with | none => num16 65535 ++ num32 4294967295 | some a => num16 a.minutes ++ num32 a.remaining) ++
           bytes32 (BitVec.ofInt 32 x.lastRefill) ++ [x.policy.byte] ++ num16 x.askTimeout ++
           [rooms (fun _ => true), rooms (·.state.delivering),
            if s.attention.isPending .allowance (sourceByte p) then 1 else 0]))) ∧
     (∀ d : DestId,
       let v := s.viewer d
       exec (.readParental tag [sourceByte d]) s = .next (s.answered 0x45 tag .done
         ((match v.formed with
           | none => [0, 0, 0, 0] | some f => [1, f.verdict.byte, f.present.byte, f.uncovered.byte]) ++
          (match v.unlock with | none => [0, 0, 0, 0, 0, 0, 0, 0] | some u => 1 :: u.bytes) ++
          [v.hold.byte, 0, v.serial] ++
          (match v.timer with | none => [0, 0, 0, 0, 0] | some ms => 1 :: num32 ms) ++ [if v.barred then 1 else 0]))) ∧
     (∀ p : Byte, 8 ≤ p.toNat → Refused (.readProfile tag [p]) 0x41 tag .range s) ∧
     ∀ d : Byte, 12 ≤ d.toNat → Refused (.readParental tag [d]) 0x45 tag .range s)

/-- GRANT_UNLOCK (R138): the refusals; the unlock stored, a PERIOD one held to T + 14,400; on a VACANT or RECORD destination it is stored and nothing else
changes, on any other the verdict is formed under it. The bytes of the unlock and of the verdict in the reply are the model's choice (log entries 8
and 11). -/
def Obligations.GrantUnlock : Prop :=
  ∀ (s : State) (tag id : Half) (u : Word), LinkAtRest s →
    let now := if s.time.state = .unset then 0 else s.time.sec.toNat
    (∀ d kind : Byte, 12 ≤ d.toNat ∨ 2 ≤ kind.toNat →
      Refused (.grantUnlock tag ([d, kind] ++ bytes16 id ++ bytes32 u)) 0x43 tag .range s) ∧
    ∀ (d : DestId) (kind : Byte) (unlock : Unlock),
      (kind = 0 ∧ unlock = .event id) ∨ (kind = 1 ∧ unlock = .period (min u.toNat (now + 14400))) →
      ((s.dest d).state = .vacant ∨ (s.dest d).kind = .record →
        exec (.grantUnlock tag ([sourceByte d, kind] ++ bytes16 id ++ bytes32 u)) s =
          .next ((s.setViewer d { s.viewer d with unlock := some unlock }).answered 0x43 tag .done (unlock.bytes ++ [0, 0]))) ∧
      ((s.dest d).state ≠ .vacant → (s.dest d).kind = .view → ∀ i, (s.dest d).service = some i →
        ∃ t, exec (.grantUnlock tag ([sourceByte d, kind] ++ bytes16 id ++ bytes32 u)) s = .next t ∧
          (t.viewer d).unlock = some unlock ∧
          (t.viewer d).formed = some (s.formedFor (s.profile (s.dest d).profile) i (some unlock)) ∧
          (∀ f, (t.viewer d).formed = some f → Replies .grantUnlock ([sourceByte d, kind] ++ bytes16 id ++ bytes32 u) s
            (unlock.bytes ++ [1, f.verdict.byte])) ∧
          ParentalFormed s t d i { (s.viewer d).forgetful with unlock := some unlock } ∧
          (t.viewer d).hold ≠ .declined ∧ (t.viewer d).hold ≠ .noAnswer ∧ OthersKept d s t)

/-- RESOLVE_HOLD (R141): RANGE, NOT_HELD and STALE; a DECLINE closes the hold with its memory, its timer stopped and its source withdrawn, and the destination is
WITHHELD; a GRANT installs the EVENT unlock where RATING alone is uncovered under a current event, and without a current event a PERIOD unlock of an hour, which
ends the restriction and closes the hold; under a current event with other reasons beside RATING the PERIOD unlock ends with the event, held to T + 14,400.
An unlock that ends the restriction closes the hold. That the uncovered reasons are those stored at the last forming, and that an until time past the end
of network seconds is held exactly, are the model's choices (log entries 33 and 10); the bodies of the replies follow log entries 8 and 11.

A hold timer that has run out closes the hold with NO_ANSWER, withdraws HOLD, and leaves the destination WITHHELD (R142). That an expiry has no effect
while the timer has not run out is the model's choice (log entry 5). -/
def Obligations.HoldAnswersAndExpiry : Prop :=
  (∀ (s : State) (tag serial : Half), LinkAtRest s → s.time.sound →
     (∀ d answer : Byte, 12 ≤ d.toNat ∨ 255 < serial.toNat ∨ 1 < answer.toNat →
       Refused (.resolveHold tag ([d] ++ bytes16 serial ++ [answer])) 0x44 tag .range s) ∧
     ∀ d : DestId,
       let v := s.viewer d
       let order := fun answer : Byte => Instr.resolveHold tag ([sourceByte d] ++ bytes16 serial ++ [answer])
       let replies := fun (answer : Byte) (t : State) => Replies .resolveHold ([sourceByte d] ++ bytes16 serial ++ [answer]) s
         ([(t.viewer d).hold.byte, 0, (t.viewer d).serial] ++ if answer = 0 then ((t.viewer d).unlock.map (·.bytes)).getD [] else [])
       let viewing := (s.dest d).state ≠ .vacant ∧ (s.dest d).kind = .view
       let closes := fun t : State => ∃ f, (t.viewer d).formed = some f ∧ (f.verdict ≠ .restricted →
         (t.viewer d).hold = .none ∧ (t.viewer d).timer = none ∧ t.attention.isPending .hold (sourceByte d) = false)
       (∀ answer : Byte, serial.toNat ≤ 255 → answer.toNat ≤ 1 → v.hold ≠ .opened → Refused (order answer) 0x44 tag .notHeld s) ∧
       (∀ answer : Byte, serial.toNat ≤ 255 → answer.toNat ≤ 1 → v.hold = .opened → v.serial.toNat ≠ serial.toNat →
         exec (order answer) s = .next (s.answered 0x44 tag .stale [0, v.serial])) ∧
       (v.hold = .opened → v.serial.toNat = serial.toNat →
         (∃ t, exec (order 1) s = .next t ∧ replies 1 t ∧ (t.viewer d).hold = .declined ∧ (t.viewer d).timer = none ∧
           (t.viewer d).serial = v.serial ∧ t.attention.isPending .hold (sourceByte d) = false ∧
           (viewing → ∀ f, v.formed = some f → f.verdict = .restricted → (t.dest d).state = .withheld) ∧ OthersKept d s t) ∧
         (∀ i id, (s.dest d).service = some i → s.guide.current.read i = some id →
           v.formed.map (·.uncovered) = some ⟨true, false, false⟩ →
           ∃ t, exec (order 0) s = .next t ∧ replies 0 t ∧ (t.viewer d).unlock = some (.event id) ∧ (viewing → closes t) ∧ OthersKept d s t) ∧
         (∀ i id e, (s.dest d).service = some i → s.guide.current.read i = some id → s.currentRecord i = some e →
           v.formed.map (·.uncovered) ≠ some ⟨true, false, false⟩ →
           ∃ t, exec (order 0) s = .next t ∧ replies 0 t ∧
             (t.viewer d).unlock = some (.period (min e.stop.toNat ((if s.time.state = .unset then 0 else s.time.sec.toNat) + 14400))) ∧
             (viewing → closes t) ∧ OthersKept d s t) ∧
         (∀ i, viewing → (s.dest d).service = some i → s.guide.current.read i = none →
           ∃ t, exec (order 0) s = .next t ∧ replies 0 t ∧ (t.viewer d).unlock = some (.period (s.time.sec.toNat + 3600)) ∧
             (∃ f, (t.viewer d).formed = some f ∧ f.verdict ≠ .restricted) ∧ (t.viewer d).hold = .none ∧
             (t.viewer d).timer = none ∧ t.attention.isPending .hold (sourceByte d) = false ∧ OthersKept d s t))) ∧
  (∀ (s : State) (d : DestId), s.resetPin = false →
     ((s.viewer d).hold = .opened → (s.viewer d).timer = some 0 →
       ∃ t, exec (.holdTimerExpiry d) s = .next t ∧ (t.viewer d).hold = .noAnswer ∧ (t.viewer d).timer = none ∧
         (t.viewer d).serial = (s.viewer d).serial ∧ t.attention.isPending .hold (sourceByte d) = false ∧
         ((s.dest d).state ≠ .vacant → (s.dest d).kind = .view →
           ∀ f, (s.viewer d).formed = some f → f.verdict = .restricted → (t.dest d).state = .withheld) ∧ OthersKept d s t) ∧
     ((s.viewer d).hold ≠ .opened ∨ (s.viewer d).timer ≠ some 0 → exec (.holdTimerExpiry d) s = .next s))

/-! ## Delivery ports -/

/-- PORT_CONFIGURE, PORT_START and READ_PORT (R149, R150, R159). That the drain watch's flag stands as its presence byte is the model's reading
(log entry 11).

PORT_STOP and PORT_CLEAR (R151, R157): the port each leaves, and that the end of a halt is announced: no destination bound to the port keeps PORT (R55). -/
def Obligations.PortOrders : Prop :=
  (∀ (s : State) (tag period : Half), LinkAtRest s →
     (∀ (p : PortId) (mode : PortMode) (fill halt : Bool),
       let stored := max 20 (min 2000 period.toNat)
       let body := [sourceByte p, mode.byte] ++ bytes16 period ++ [if fill then 1 else 0, if halt then 1 else 0]
       ((s.port p).state = .off →
         exec (.portConfigure tag body) s = .next ((s.setPort p { s.port p with
           mode := mode, slotPeriod := stored, underrunFill := fill, overflowHalt := halt }).answered 0x48 tag .done
             ([mode.byte] ++ num16 stored ++ [if fill then 1 else 0, if halt then 1 else 0]))) ∧
       ((s.port p).state ≠ .off → Refused (.portConfigure tag body) 0x48 tag .linkActive s)) ∧
     (∀ p mode fill halt : Byte, 4 ≤ p.toNat ∨ 2 ≤ mode.toNat ∨ 2 ≤ fill.toNat ∨ 2 ≤ halt.toNat →
       Refused (.portConfigure tag ([p, mode] ++ bytes16 period ++ [fill, halt])) 0x48 tag .range s) ∧
     (∀ p : PortId,
       let x := s.port p
       (x.state = .off → exec (.portStart tag [sourceByte p]) s = .next ((s.setPort p { x with
         state := .running, queue := [], watch := none, slotRunning := x.mode == .paced }).answered 0x49 tag .done [1])) ∧
       (x.state ≠ .off → exec (.portStart tag [sourceByte p]) s = .next (s.answered 0x49 tag .done [x.state.byte])) ∧
       exec (.readPort tag [sourceByte p]) s = .next (s.answered 0x4C tag .done
         ([x.state.byte, x.mode.byte] ++ num16 x.slotPeriod ++ [if x.underrunFill then 1 else 0, if x.overflowHalt then 1 else 0,
           BitVec.ofNat 8 x.queue.length, BitVec.ofNat 8 (x.queue.filter (·.flowId == 16380)).length,
           (if x.overflow then 1 else 0) + if x.unheard then 2 else 0] ++
           match x.watch with | none => [0, 0, 0, 0, 0] | some ms => 1 :: num32 ms))) ∧
     ∀ b : Byte, 4 ≤ b.toNat →
       Refused (.portStart tag [b]) 0x49 tag .range s ∧ Refused (.readPort tag [b]) 0x4C tag .range s) ∧
  (∀ (s : State) (tag : Half), LinkAtRest s →
     (∀ p : PortId,
       let x := s.port p
       let faults : Byte := (if x.overflow then 1 else 0) + if x.unheard then 2 else 0
       let cleared := { x with overflow := false, unheard := false }
       let announced := fun t : State => UnitsKept (s.setPortHalted p false) t ∧ (∀ q, q ≠ p → t.port q = s.port q) ∧
         (∀ d, (s.dest d).port = p → (s.dest d).state ≠ .vacant → (t.dest d).reasons.port = false) ∧
         ∀ d, (s.dest d).port ≠ p → t.dest d = s.dest d
       (x.state ≠ .halted → exec (.portStop tag [sourceByte p]) s = .next ((s.setPort p { x with
         state := .off, queue := [], slotRunning := false, watch := none }).answered 0x4A tag .done
           [x.state.byte, BitVec.ofNat 8 x.queue.length])) ∧
       (x.state = .halted → Replies .portStop [sourceByte p] s [2, BitVec.ofNat 8 x.queue.length] ∧
         ∃ t, exec (.portStop tag [sourceByte p]) s = .next t ∧
         t.port p = { x with state := .off, queue := [], slotRunning := false, watch := none } ∧ announced t) ∧
       (x.state = .off → exec (.portClear tag [sourceByte p]) s =
         .next ((s.setPort p cleared).answered 0x4B tag .done [faults, 0])) ∧
       (x.state = .running → exec (.portClear tag [sourceByte p]) s = .next ((s.setPort p { cleared with
         watch := if x.queue = [] then x.watch else some 250 }).answered 0x4B tag .done [faults, 1])) ∧
       (x.state = .halted → Replies .portClear [sourceByte p] s [faults, 1] ∧ ∃ t, exec (.portClear tag [sourceByte p]) s = .next t ∧
         t.port p = { cleared with state := .running, queue := [], watch := none, slotRunning := x.mode == .paced } ∧
         announced t)) ∧
     ∀ b : Byte, 4 ≤ b.toNat →
       Refused (.portStop tag [b]) 0x4A tag .range s ∧ Refused (.portClear tag [b]) 0x4B tag .range s)

/-- DRAIN and SLOT_TIMER_EXPIRY (R154, R155): which cell leaves, what it counts, and what the drain watch does (R156). That an accept signal raised with nothing
presented is held as the accept pin is the model's reading (log entry 6). -/
def Obligations.PortEmissions : Prop :=
  ∀ (s : State) (p : PortId), s.resetPin = false →
    let x := s.port p
    let emit := fun (c : Cell) (rest : List Cell) => (s.setPort p { x with
      queue := rest, emitted := x.emitted + 1, watch := if rest = [] then none else some 250, accept := false }).send (.port p c)
    (x.mode = .demand → x.state = .running → ∀ c rest, x.queue = c :: rest →
      exec (.drain p) s = .next (emit c rest)) ∧
    (x.mode = .demand → x.state ≠ .running ∨ x.queue = [] →
      exec (.drain p) s = .next (s.setPort p { x with accept := true })) ∧
    (x.mode = .paced → exec (.drain p) s = .next s) ∧
    (x.state = .running → x.slotRunning = true →
      (∀ c rest, x.queue = c :: rest → exec (.slotTimerExpiry p true) s = .next (emit c rest)) ∧
      (x.queue = [] → x.underrunFill = true → exec (.slotTimerExpiry p true) s =
        .next ((s.setPort p { x with fillEmitted := x.fillEmitted + 1 }).send (.port p
          { sync := 0xB8, phaseFlow := 0x3F, flowLow := 0xFF, startSeq := 0, route := 255, spareA := 0, spareB := 0,
            check := 0xB8 ^^^ 0x3F ^^^ 0xFF ^^^ 0 ^^^ 255, payload := .filled 184 0 }))) ∧
      (x.queue = [] → x.underrunFill = false → exec (.slotTimerExpiry p true) s = .next s)) ∧
    exec (.slotTimerExpiry p false) s = .next s ∧
    (x.state ≠ .running ∨ x.slotRunning = false → exec (.slotTimerExpiry p true) s = .next s)

/-! ## The host link -/

/-- COMMAND_CELL (R161, R162): a cell that is no command cell is discarded; of a command cell the first record is read: the cell ends at once, or answers
BAD_LENGTH, or its first record stands ready. A cell sent while the intake is not OPEN is not taken and not lost: it is held on the link (R170), behind any held
before it, which is the model's choice (log entry 30). -/
def Obligations.CommandCellTaken : Prop :=
  (∀ (s : State) (c : Cell), s.resetPin = false →
    s.link.command.isSome = true ∨ s.link.waiting ≠ [] ∨ 23 ≤ s.link.outbound.length →
    exec (.commandCell c) s = .next { s with link := { s.link with arriving := s.link.arriving ++ [c] } }) ∧
  ∀ (s : State) (c : Cell), LinkAtRest s →
    (c.wellFormed = false ∨ c.flowId ≠ 16382 ∨ c.phase ≠ 0 → exec (.commandCell c) s = .next s) ∧
    (c.wellFormed = true → c.flowId = 16382 → c.phase = 0 →
      (readRecord c.payload 0 = .cellEnds → exec (.commandCell c) s = .next s) ∧
      (∀ code tag, readRecord c.payload 0 = .runsPast code tag →
        exec (.commandCell c) s = .next (s.answered code tag .badLength [])) ∧
      (∀ r, readRecord c.payload 0 = .whole r →
        exec (.commandCell c) s = .next { s with link := { s.link with command := some ⟨c, 0, false⟩ } }))

/-- An order of a command cell that stands next and has others behind it (R163 to R166): it is carried out whole and its reply placed in the open report
cell; the next record then stands ready and nothing is queued. It is shown for an order that leaves the host link alone.

An order alone in its command cell, attention records or none: its effect on every block but the host link is its own, and its reply stands in
a report cell that is queued or waits closed (R163, R165, R166).

No reply is longer than the longest reply of its order, and that is at most 178 bytes (R164, R166). -/
def Obligations.RepliesInCell : Prop :=
  (∀ (s : State) (o : Order) (tag : Half) (body : List Byte) (c : CommandCell) (records : List Byte) (next : OrderRecord),
     s.resetPin = false → s.link.command = some c → c.discarding = false → s.link.waiting = [] → s.link.filling = some records →
     records.length + 6 + largestBody o ≤ 184 → readRecord c.cell.payload c.pos = .whole ⟨o.code, tag, body⟩ →
     body.length = o.bodyLength → readRecord c.cell.payload (c.pos + 4 + body.length) = .whole next → s.link.outbound.length < 24 →
     let s1 := { s with link := { s.link with command := some { c with pos := c.pos + 4 + body.length } } }
     let a := runOrder o body s1
     a.state.link = s1.link → a.body.length ≤ largestBody o →
       exec (orderCommand o tag body) s = .next { a.state with link := { s1.link with
         filling := some (records ++ replyBytes o.code tag a.result a.body) } }) ∧
  (∀ (s : State) (o : Order) (tag : Half) (body : List Byte), LinkAtRest s → SnapshotsSized s → SelectionsSound s → body.length = o.bodyLength →
     let record : OrderRecord := ⟨o.code, tag, body⟩
     let a := runOrder o body { s with link := { s.link with
       command := some ⟨builtCell 16382 true 0 0 record.bytes, record.bytes.length, false⟩ } }
     ∃ t, exec (orderCommand o tag body) s = .next t ∧ t = { a.state with link := t.link } ∧
       Reported (replyBytes o.code tag a.result a.body) t) ∧
  (∀ (s : State) (o : Order) (body : List Byte), SnapshotsSized s → SelectionsSound s → body.length = o.bodyLength →
     (runOrder o body s).body.length ≤ largestBody o ∧ largestBody o ≤ 178)

/-- EMISSION (R168): the head cell leaves; a report cell that waits closed takes the place; a waiting attention record is placed, in the open report cell
of a command cell in progress where it fits, else in a report cell of its own where a place is free; with an empty queue nothing happens.

The taking of a command cell is suspended while a report cell waits closed, and while the open report cell lacks room for the longest reply that comes next
and the outbound queue has no free place (R164). The emission that ends the suspension closes and queues an open report cell that lacks room, and takes
the order that stands next; a waiting attention record is placed behind its reply (R164, R168). That it takes this one order, and that the end of
the cell waits too, is the model's reading (log entries 15 and 22); so is the room asked for an unknown code, a record past the payload or one to be
discarded (six bytes) and for a record of a wrong length (its order's longest reply) (log entry 21).

A cell held off on the link is taken by the emission that leaves two free places, and not before (R161, R170). -/
def Obligations.HostEmission : Prop :=
  (∀ s : State, s.resetPin = false → s.link.command = none →
    (s.link.outbound = [] → exec .emission s = .next s) ∧
    ∀ head rest, s.link.outbound = head :: rest → rest.length < 24 →
      (s.link.arriving = [] ∨ 23 ≤ rest.length →
        (s.link.waiting = [] → s.link.waitingRecord = none → exec .emission s =
          .next { s with link := { s.link with outbound := rest }, sent := s.sent ++ [.host head.cell] }) ∧
        (∀ w, s.link.waiting = [w] → s.link.waitingRecord = none → s.link.arriving = [] ∨ 22 ≤ rest.length → exec .emission s =
          .next { s with link := { s.link with outbound := rest ++ [.report w], waiting := [] }, sent := s.sent ++ [.host head.cell] }) ∧
        (∀ r, s.link.waiting = [] → s.link.waitingRecord = some r → exec .emission s =
          .next { s with
            link := { s.link with
              outbound := rest ++ [.report (builtCell 16381 true s.link.reportSeq 255
                [2, BitVec.ofNat 8 r.cause.number, r.source, r.serial, BitVec.ofNat 8 r.others, 0])]
              waitingRecord := none, reportSeq := s.link.reportSeq + 1 }
            sent := s.sent ++ [.host head.cell] })) ∧
      (∀ c r, s.link.waiting = [] → s.link.waitingRecord = none → s.link.arriving = [c] → rest.length ≤ 22 →
        c.wellFormed = true → c.flowId = 16382 → c.phase = 0 → readRecord c.payload 0 = .whole r → exec .emission s =
          .next { s with
            link := { s.link with outbound := rest, arriving := [], command := some ⟨c, 0, false⟩ }
            sent := s.sent ++ [.host head.cell] })) ∧
  (∀ (l : HostLink) (k : CommandCell),
    l.suspended k = true ↔ l.waiting ≠ [] ∨ (24 ≤ l.outbound.length ∧
      ((∃ code tag, readRecord k.cell.payload k.pos = .runsPast code tag ∧ 184 < (l.filling.getD []).length + 6) ∨
       ∃ r, readRecord k.cell.payload k.pos = .whole r ∧
         (184 < (l.filling.getD []).length + 6 ∨
           ∃ o, Order.ofCode r.code = some o ∧ k.discarding = false ∧ 184 < (l.filling.getD []).length + 6 + largestBody o)))) ∧
  ∀ (s : State) (k : CommandCell) (head : OutCell) (rest : List OutCell), s.resetPin = false → s.link.command = some k →
    s.link.outbound = head :: rest → rest.length < 24 → s.link.arriving = [] →
    (s.link.suspended k = false → exec .emission s =
      .next (State.placeWaiting { s with link := { s.link with outbound := rest }, sent := s.sent ++ [.host head.cell] })) ∧
    (∀ records o tag body, s.link.waiting = [] → rest.length = 23 → s.link.filling = some records → 184 < records.length + 6 + largestBody o →
      k.discarding = false → readRecord k.cell.payload k.pos = .whole ⟨o.code, tag, body⟩ →
      let room := { s with
        link := { s.link with
          outbound := rest ++ [.report (builtCell 16381 true s.link.reportSeq 255 records)]
          filling := none, reportSeq := s.link.reportSeq + 1 }
        sent := s.sent ++ [.host head.cell] }
      ∃ u, exec (orderCommand o tag body) room = .next u ∧ exec .emission s = .next u.placeWaiting) ∧
    (∀ w o tag body, s.link.waiting = [w] → k.discarding = false → readRecord k.cell.payload k.pos = .whole ⟨o.code, tag, body⟩ →
      let queued := { s with
        link := { s.link with outbound := rest ++ [.report w], waiting := [] }
        sent := s.sent ++ [.host head.cell] }
      ((s.link.filling.getD []).length + 6 + largestBody o ≤ 184 →
        ∃ u, exec (orderCommand o tag body) queued = .next u ∧ exec .emission s = .next u.placeWaiting) ∧
      (184 < (s.link.filling.getD []).length + 6 + largestBody o → rest.length = 23 →
        exec .emission s = .next queued.placeWaiting)) ∧
    (s.link.waitingRecord = none → s.placeWaiting = s) ∧
    ∀ a, s.link.waitingRecord = some a →
      let record : List Byte := [2, BitVec.ofNat 8 a.cause.number, a.source, a.serial, BitVec.ofNat 8 a.others, 0]
      ((s.link.filling.getD []).length ≤ 178 →
        s.placeWaiting = { s with link := { s.link with waitingRecord := none, filling := some (s.link.filling.getD [] ++ record) } }) ∧
      (178 < (s.link.filling.getD []).length →
        (s.link.outbound.length < 24 → s.placeWaiting = { s with link := { s.link with
          outbound := s.link.outbound ++ [.report (builtCell 16381 true s.link.reportSeq 255 record)]
          waitingRecord := none, reportSeq := s.link.reportSeq + 1 } }) ∧
        (24 ≤ s.link.outbound.length → s.placeWaiting = s))

/-! ## The attention unit, tallies and identity -/

/-- Raising and withdrawing a source (R173, R174): the pending set of its cause, every other cause as it was, the presentation settled afresh, and nothing outside the
attention unit and the host link. The presentation names the ENABLED cause of highest priority with a pending source, and its lowest-numbered
source; a HOLD source keeps the serial it was last raised with.

A raise or withdrawal that leaves the presentation, or brings it to none, brings no attention record. Any other brings one (R174), and the host link places it (R167): behind
the records of the open report cell while a command cell is in progress, in a report cell of its own while none is, and where there is
no place for it, it waits; one that waits is replaced by it. That a waiting record is replaced in every case, and that a command cell which has ended while
its report cell waits closed counts as none in progress, are the model's readings (log entries 23 and 24).

ACK_ATTENTION and SET_ATTENTION_MASK (R175, R176): their refusals, that they change their cause alone, and their replies; the bytes of the presentation
follow log entry 11. -/
def Obligations.AttentionSources : Prop :=
  ((∀ (s : State) (c : Cause) (source serial : Byte),
     let t := s.raise c source serial
     let u := s.withdraw c source
     t.attention.isPending c source = true ∧ u.attention.isPending c source = false ∧
       (∀ x, x ≠ source → t.attention.isPending c x = s.attention.isPending c x ∧
         u.attention.isPending c x = s.attention.isPending c x) ∧
       (∀ e, e ≠ c → t.attention.cause e = s.attention.cause e ∧ u.attention.cause e = s.attention.cause e) ∧
       (t.attention.cause c).enabled = (s.attention.cause c).enabled ∧ (u.attention.cause c).enabled = (s.attention.cause c).enabled ∧
       t = { s with attention := t.attention, link := t.link } ∧ u = { s with attention := u.attention, link := u.link } ∧
       t.attention.presented = t.attention.foremost ∧ u.attention.presented = u.attention.foremost) ∧
   ∀ (a : Attention) (p : Presentation), a.foremost = some p ↔
     ∃ rest, (a.cause p.cause).enabled = true ∧ (a.cause p.cause).pending = ⟨p.source, p.serial⟩ :: rest ∧
       ∀ c : Cause, c.number < p.cause.number → (a.cause c).enabled = false ∨ (a.cause c).pending = []) ∧
  (∀ (s : State) (c : Cause) (source serial : Byte), PendingLawful s →
     let t := s.raise c source serial
     let u := s.withdraw c source
     ⟨source, serial⟩ ∈ (t.attention.cause c).pending ∧
       (∀ p, p.source ≠ source → (p ∈ (t.attention.cause c).pending ↔ p ∈ (s.attention.cause c).pending)) ∧
       (∀ p, p ∈ (u.attention.cause c).pending ↔ p ∈ (s.attention.cause c).pending ∧ p.source ≠ source) ∧
       ∀ p, s.attention.foremost = some p → ∀ q ∈ (s.attention.cause p.cause).pending, p.source.toNat ≤ q.source.toNat) ∧
  (∀ (s t : State) (c : Cause) (source serial : Byte), t = s.raise c source serial ∨ t = s.withdraw c source →
     (t.attention.presented = s.attention.presented ∨ t.attention.presented = none → t.link = s.link) ∧
     ∀ p, t.attention.presented = some p → t.attention.presented ≠ s.attention.presented →
       let others := (t.attention.causes.rows.map fun x => if x.enabled then x.pending.length else 0).sum - 1
       let record : List Byte := [2, BitVec.ofNat 8 p.cause.number, p.source, p.serial, BitVec.ofNat 8 others, 0]
       let waits := { s.link with waitingRecord := some ⟨p.cause, p.source, p.serial, others⟩ }
       let own := { s.link with
         outbound := s.link.outbound ++ [.report (builtCell 16381 true s.link.reportSeq 255 record)]
         reportSeq := s.link.reportSeq + 1 }
       (PendingLawful s → c.admits source.toNat = true → others ≤ 58) ∧
       (s.link.waitingRecord ≠ none → t.link = waits) ∧
       (s.link.waitingRecord = none →
         (s.link.command = none → s.link.outbound.length < 24 → t.link = own) ∧
         (s.link.command = none → 24 ≤ s.link.outbound.length → t.link = waits) ∧
         (s.link.command ≠ none → (s.link.filling.getD []).length ≤ 178 →
           t.link = { s.link with filling := some (s.link.filling.getD [] ++ record) }) ∧
         (s.link.command ≠ none → 178 < (s.link.filling.getD []).length →
           (s.link.waiting ≠ [] → t.link = waits) ∧
           (s.link.waiting = [] →
             (s.link.outbound.length < 24 → t.link = { s.link with
               outbound := s.link.outbound ++ [.report (builtCell 16381 true s.link.reportSeq 255 (s.link.filling.getD []))]
               reportSeq := s.link.reportSeq + 1, filling := some record }) ∧
             (24 ≤ s.link.outbound.length → t.link = { s.link with
               waiting := [builtCell 16381 true s.link.reportSeq 255 (s.link.filling.getD [])]
               reportSeq := s.link.reportSeq + 1, filling := some record }))))) ∧
  (∀ (s : State) (tag : Half), LinkAtRest s →
     (∀ c x : Byte, c.toNat = 0 ∨ 9 < c.toNat →
       Refused (.ackAttention tag [c, x]) 0x50 tag .range s ∧ Refused (.setAttentionMask tag [c, x]) 0x51 tag .range s) ∧
     (∀ (c : Cause) (x : Byte), 1 < x.toNat → Refused (.setAttentionMask tag [BitVec.ofNat 8 c.number, x]) 0x51 tag .range s) ∧
     (∀ (c : Cause) (x : Byte),
       (match c with
        | .time | .guideFull | .forwardDrop => x.toNat ≠ 255
        | .feedLapse | .allowance => 8 ≤ x.toNat
        | .port => 4 ≤ x.toNat
        | .hold | .accessLapse | .stall => 12 ≤ x.toNat) →
       Refused (.ackAttention tag [BitVec.ofNat 8 c.number, x]) 0x50 tag .range s) ∧
     (∀ (c : Cause) (x : Byte), c.admits x.toNat = true →
       (s.attention.isPending c x = false → Refused (.ackAttention tag [BitVec.ofNat 8 c.number, x]) 0x50 tag .noEntry s) ∧
       (s.attention.isPending c x = true →
         ∃ t, exec (.ackAttention tag [BitVec.ofNat 8 c.number, x]) s = .next t ∧
           Replies .ackAttention [BitVec.ofNat 8 c.number, x] s
             ((match t.attention.presented with
               | none => [0, 0, 0, 0, 0] | some p => [1, BitVec.ofNat 8 p.cause.number, p.source, 0, p.serial]) ++
              [BitVec.ofNat 8 ((t.attention.causes.rows.map fun x => if x.enabled then x.pending.length else 0).sum - 1)]) ∧
           t.attention.isPending c x = false ∧ (∀ y, y ≠ x → t.attention.isPending c y = s.attention.isPending c y) ∧
           (∀ e, e ≠ c → t.attention.cause e = s.attention.cause e) ∧ t.attention.presented = t.attention.foremost ∧
           t = { s with attention := t.attention, link := t.link })) ∧
     ∀ (c : Cause) (on : Bool),
       ∃ t, exec (.setAttentionMask tag [BitVec.ofNat 8 c.number, if on then 1 else 0]) s = .next t ∧
         Replies .setAttentionMask [BitVec.ofNat 8 c.number, if on then 1 else 0] s
           (t.attention.causes.rows.map fun x => if x.enabled then 1 else 0) ∧
         t.attention.cause c = { s.attention.cause c with enabled := on } ∧
         (∀ e, e ≠ c → t.attention.cause e = s.attention.cause e) ∧ t.attention.presented = t.attention.foremost ∧
         t = { s with attention := t.attention, link := t.link })

/-- SNAPSHOT_TALLIES answers with the group's latched snapshot and latches the tallies as they stand; it changes no tally (R177). The premise is the invariant
`SnapshotsSized`. -/
def Obligations.SnapshotTallies : Prop :=
  ∀ (s : State) (tag : Half), LinkAtRest s → SnapshotsSized s →
    let latch := fun (g : Fin 25) (tallies : List Word) =>
      State.answered 0x52 tag .done (sourceByte g :: ((s.attention.snapshots.read g).map bytes32).flatten)
        { s with attention := { s.attention with snapshots := s.attention.snapshots.write g tallies } }
    (∀ (f : FeedId) (g : Fin 25), g.val = f.val →
      let t := (s.feed f).tallies
      exec (.snapshotTallies tag [sourceByte g]) s = .next (latch g
        [t.arrived, t.settling, t.malformed, t.fill, t.unmatched, t.duplicate, t.gap, t.routed, t.forwarded, t.consumed,
         t.discarded, t.badClock])) ∧
    (∀ (d : DestId) (g : Fin 25), g.val = 8 + d.val →
      let t := (s.dest d).tallies
      exec (.snapshotTallies tag [sourceByte g]) s = .next (latch g [t.delivered, t.dropped, t.unkeyed, t.purged, t.notices])) ∧
    (∀ (p : PortId) (g : Fin 25), g.val = 20 + p.val →
      exec (.snapshotTallies tag [sourceByte g]) s = .next (latch g [(s.port p).emitted, (s.port p).fillEmitted])) ∧
    exec (.snapshotTallies tag [24]) s = .next (latch 24 [s.link.forwardDrops]) ∧
    ∀ b : Byte, 25 ≤ b.toNat → Refused (.snapshotTallies tag [b]) 0x52 tag .range s

/-- READ_IDENTITY changes nothing and replies with the nine bytes of the part (R178), in every state and at the host link. -/
def Obligations.ReadIdentity : Prop :=
  (∀ (s : State) (tag : Half), LinkAtRest s →
    exec (.readIdentity tag []) s = .next (s.answered 0x53 tag .done [0x07, 0x40, 2, 8, 4, 12, 32, 0x01, 0x00])) ∧
  ∀ (s : State) (tag : Half),
    carryOut ⟨0x53, tag, []⟩ s = ⟨s, .done, [0x07, 0x40, 2, 8, 4, 12, 32, 0x01, 0x00]⟩

/-! ## Resets -/

/-- RESET_PART (R180, R181): a FULL reset sets every block to its power-on values, the host link's differences apart; a TRAFFIC reset keeps settings, tables and
tallies and clears what is in traffic, block by block. That the accept pins, the waiting commands and the model's own fields stay is
the model's choice (log entries 4, 6 and 29).

In a command cell with other records: the reply of RESET_PART, DONE, stands behind the replies before it, and behind it a reply DISCARDED for every record
that stands after it, one that runs past the payload included; none of those orders is carried out (R180). -/
def Obligations.ResetPart : Prop :=
  (∀ (s : State) (tag : Half) (scope : Byte) (k : CommandCell) (before : List Byte) (later : List OrderRecord) (rest : List Byte),
    s.resetPin = false → scope.toNat ≤ 1 → s.link.command = some k → k.discarding = false → s.link.waiting = [] → s.link.arriving = [] →
    s.link.outbound.length < 24 →
    k.cell.payload.rows = before ++ (⟨0x54, tag, [scope]⟩ : OrderRecord).bytes ++ (later.map (·.bytes)).flatten ++ rest →
    k.pos = before.length → (∀ x ∈ later, x.code ≠ 0) →
    let behind := readRecord k.cell.payload (184 - rest.length)
    let last := match behind with | .runsPast code tag => replyBytes code tag .discarded [] | _ => []
    let records := s.link.filling.getD [] ++ replyBytes 0x54 tag .done [scope] ++
      (later.map fun x => replyBytes x.code x.tag .discarded []).flatten ++ last
    (behind = .cellEnds ∨ ∃ code tag, behind = .runsPast code tag) → records.length ≤ 184 →
    let kept := if scope = 0 then s.link.outbound.filter (fun c => match c with | .report _ => true | .forwarded _ => false) else s.link.outbound
    ∃ t, exec (.resetPart tag [scope]) s = .next t ∧
      t = { (if scope = 0 then s.fullReset else s.trafficReset) with link := { s.link with
        command := none, filling := none, waitingRecord := none, reportSeq := s.link.reportSeq + 1
        outbound := kept ++ [.report (builtCell 16381 true s.link.reportSeq 255 records)]
        forwardDrops := if scope = 0 then 0 else s.link.forwardDrops } }) ∧
  ∀ (s : State) (tag : Half), LinkAtRest s →
    (∀ x : Byte, 2 ≤ x.toNat → Refused (.resetPart tag [x]) 0x54 tag .range s) ∧
    (∃ ports, (∀ p, ports.read p = { State.reset.port p with accept := (s.port p).accept }) ∧
      exec (.resetPart tag [0]) s = .next (State.answered 0x54 tag .done [0] { State.reset with
        ports := ports
        link := { s.link with waitingRecord := none, forwardDrops := 0,
                              outbound := s.link.outbound.filter fun c => match c with | .report _ => true | .forwarded _ => false }
        sent := s.sent, freeCount := s.freeCount, script := s.script, pending := s.pending })) ∧
    ∃ t, exec (.resetPart tag [1]) s = .next (State.answered 0x54 tag .done [1] t) ∧
      (∀ f, t.feed f = { s.feed f with state := if (s.feed f).state = .off then .off else .unsettled,
                                       settleRun := 0, lapseRun := 0, silence := none }) ∧
      (∀ k, t.flow k = (s.flow k).map fun e => { e with lastSeq := none }) ∧
      (∀ d, t.dest d = { State.reset.dest d with
        kind := (s.dest d).kind, port := (s.dest d).port, profile := (s.dest d).profile, roles := (s.dest d).roles,
        tallies := (s.dest d).tallies }) ∧
      (∀ p, t.portHalted p = false) ∧ t.ctl.changes = [] ∧ t.ctl.services = s.ctl.services ∧
      t.ctl.acquireTime = s.ctl.acquireTime ∧ t.time = s.time ∧ t.keys = s.keys ∧ t.access.table = s.access.table ∧
      (∀ d, t.lastAccess d = none) ∧ t.guide = { s.guide with slots := .filled 4 none } ∧
      t.parental.profiles = s.parental.profiles ∧ (∀ d, t.viewer d = State.reset.viewer d) ∧
      (∀ p, t.port p =
        { s.port p with queue := [], watch := none, overflow := false, unheard := false
                        state := if (s.port p).state = .off then .off else .running
                        slotRunning := if (s.port p).state = .off then (s.port p).slotRunning else (s.port p).mode == .paced }) ∧
      t.link = { s.link with waitingRecord := none } ∧
      (∀ c, t.attention.cause c = ⟨(s.attention.cause c).enabled, []⟩) ∧ t.attention.presented = none ∧
      t.attention.snapshots = s.attention.snapshots

/-! ## Invariants, and rules of the whole part -/

/-- Every step conserves the dispositions of every feed (R23). -/
def Obligations.DispositionsKept : Prop := KeptByStep DispositionsConserved

/-- Every step keeps the bounds of the outbound queue (R168) and the sizes of the latched snapshots (R177).

Every step keeps the ranges of the time unit, and its timer runs exactly in DISCIPLINED (R24, R25).

Every step keeps the pending sets in order, each of sources of its cause alone (R173), and holds a cell off only while the intake is not OPEN (R161, R170):
that held cells wait in order on the link and are taken as soon as the intake is OPEN is the model's choice (log entry 30). -/
def Obligations.BoundsKept : Prop :=
  (KeptByStep OutboundBounded ∧ KeptByStep SnapshotsSized ∧ KeptByStep PendingLawful ∧ KeptByStep HeldOffLawful) ∧
  (KeptByStep fun s => s.time.sound)

/-- Every step keeps the ports' rules of queue, slot timer and drain watch (R148, R152, R156). -/
def Obligations.PortsKept : Prop := KeptByStep PortsSound

/-- Every step keeps the event table at 512 records at most, with no overlap within a service (R117). -/
def Obligations.EventsKept : Prop := KeptByStep EventsSound

/-- Every step keeps the selections sound: what a destination shows, and what the change set names, is a valid service record (R40, R44, R60). -/
def Obligations.SelectionsKept : Prop := KeptByStep SelectionsSound

/-- No step lets a destination deliver against its verdicts (R46). Every step leaves the last reports of the two units equal to the reports that the
destination controller holds (R50, R51, R104, R137). -/
def Obligations.DeliveryKept : Prop := KeptByStep DeliveryPermitted ∧ KeptByStep ReportsAgreed

/-- Every cell that a port holds is of a destination bound to it, and a programme copy stands there only while its destination delivers (R47, R53, R152);
no cell stands there, or leaves, with key phase A or B (R88). -/
def Obligations.QueuesKept : Prop := KeptByStep QueuesLawful ∧ KeptByStep DeliveryClear

/-- The state after a power-on reset has every invariant. -/
def Obligations.ResetSound : Prop :=
  DispositionsConserved State.reset ∧ OutboundBounded State.reset ∧ SnapshotsSized State.reset ∧ PortsSound State.reset ∧
    State.reset.time.sound ∧ EventsSound State.reset ∧ SelectionsSound State.reset ∧ DeliveryPermitted State.reset ∧
    QueuesLawful State.reset ∧ DeliveryClear State.reset ∧ PendingLawful State.reset ∧ HeldOffLawful State.reset ∧ ReportsAgreed State.reset

/-- What no other command does: only a FULL or power-on reset brings the time back to UNSET (R25), and only the key orders and those resets change
the key slots (R76). An order is taken at its own command, or at the emission at which its suspended command cell resumes (R164, R168). -/
def Obligations.OnlyTheseCommands : Prop :=
  ∀ (c : Instr) (s t : State), exec c s = .next t →
    (s.time.state ≠ .unset → t.time.state = .unset → c = .resetRelease ∨ ∃ tag, TakesOrder c s ⟨0x54, tag, [0]⟩) ∧
    (t.keys ≠ s.keys → c = .resetRelease ∨ (∃ tag, TakesOrder c s ⟨0x54, tag, [0]⟩) ∨ ∃ o tag body,
      TakesOrder c s ⟨Order.code o, tag, body⟩ ∧ (o = .loadKeyQuarter ∨ o = .setCommitMask ∨ o = .clearKey))

/-! ## Current events -/

/-- The current events of the guide builder (R119, R120): a recomputation gives each index named the event that shows at T by the tables, or none, and sends a
current-event change, to the access unit and to the parental unit, for exactly the indices whose event id differs, in ascending order; the
model leaves out those of indices that no destination shows, which have no taker (log entry 3). The premise is that no two events of a service overlap.

Time set, time steps, second marks, SET_SERVICE, PURGE_GUIDE and the end of an application leave the current event of every index that they recompute as R119
gives it, and that of every other index as it was. A change that they bring is taken by both units.

The taking of a current-event change: the access unit forms the verdicts of the index and hands those that differ (R103, R104); the parental unit removes the
EVENT unlock and the decline memory of every destination on the index, of either kind by log entry 18, then forms the verdicts of the VIEW ones,
under which a hold opens again (R137, R139, R143). -/
def Obligations.CurrentEvents : Prop :=
  (∀ (s : State) (want : Fin 64 → Bool), EventsSound s →
     let t := (s.recompute want).1
     (∀ i, want i = true → CurrentEventIs s i (t.guide.current.read i)) ∧
     (∀ i, want i = false → t.guide.current.read i = s.guide.current.read i) ∧
     t = { s with guide := { s.guide with current := t.guide.current } } ∧
     (s.recompute want).2 = (List.finRange 64).flatMap fun i =>
       let change : EventChange := ⟨i, s.guide.current.read i, t.guide.current.read i⟩
       if change.before ≠ change.after ∧ ∃ d, (s.dest d).state ≠ .vacant ∧ (s.dest d).service = some i
       then [.accessChange change, .parentalChange change] else []) ∧
  (∀ s : State, s.resetPin = false → EventsSound s → s.time.state ≠ .unset →
     1000 ≤ s.time.ms + (if 0 < s.time.slew then 2 else if s.time.slew < 0 then 0 else 1) →
     ∃ t, exec .timebaseTick s = .next t ∧ ∀ i, CurrentEventIs t i (t.guide.current.read i) ∧
       (s.guide.current.read i ≠ t.guide.current.read i → EventChangeTaken s t i)) ∧
  (∀ (s : State) (f : FeedId) (c : Cell) (k : Fin 256) (e : FlowEntry) (checked : State), Taken s f c k e checked → e.kind = .clock →
     EventsSound s → field16 c.payload.rows 4 ≤ 999 → s.time.source = some f →
     let apart := (word c.payload.rows 0 - s.time.sec).toInt
     let d := apart * 1000 + ((field16 c.payload.rows 4 : Int) - s.time.ms)
     s.time.state = .unset ∨ apart < -2000000 ∨ 2000000 < apart ∨ d < -2000 ∨ 2000 < d →
     ∃ t, exec (.feedCellArrival f c) s = .next t ∧ ∀ i, CurrentEventIs t i (t.guide.current.read i) ∧
       (s.guide.current.read i ≠ t.guide.current.read i → EventChangeTaken s t i)) ∧
  (∀ (s : State) (tag n product : Half) (i : Fin 64), LinkAtRest s → EventsSound s → n ≠ 0 →
     (∀ j v, j ≠ i → s.service j = some v → v.number ≠ n) →
     ((∀ d, (s.dest d).state ≠ .vacant → (s.dest d).service ≠ some i) ∧ (∀ e ∈ s.ctl.changes, e.2 ≠ i)) ∨
       (∃ v, s.service i = some v ∧ v.number = n) →
     ∃ t, exec (.setService tag (sourceByte i :: bytes16 n ++ bytes16 product)) s = .next t ∧
       CurrentEventIs t i (t.guide.current.read i) ∧ (s.guide.current.read i ≠ t.guide.current.read i → EventChangeTaken s t i) ∧
       ∀ j, j ≠ i → t.guide.current.read j = s.guide.current.read j) ∧
  (∀ (s : State) (tag n : Half), LinkAtRest s → EventsSound s →
     ∃ t, exec (.purgeGuide tag (bytes16 n)) s = .next t ∧ ∀ i,
       let lost := ∃ v, s.service i = some v ∧ ∃ e ∈ s.guide.events, e.service = v.number ∧ (n = 0 ∨ v.number = n)
       (lost → t.guide.current.read i = none) ∧ (¬ lost → t.guide.current.read i = s.guide.current.read i) ∧
       (s.guide.current.read i ≠ t.guide.current.read i → EventChangeTaken s t i)) ∧
  (∀ w : Applying, EventsSound w.state → ∀ i,
     let touched := ∃ v, w.state.service i = some v ∧ v.number ∈ w.touched
     (touched → CurrentEventIs w.finish i (w.finish.guide.current.read i)) ∧
     (¬ touched → w.finish.guide.current.read i = w.state.guide.current.read i) ∧
     (w.state.guide.current.read i ≠ w.finish.guide.current.read i → EventChangeTaken w.state w.finish i)) ∧
  (∀ (s : State) (c : EventChange),
     let r := (Announcement.parentalChange c).take s
     let t := r.1
     r.2 = [] ∧ Settled s t ∧ t.access = s.access ∧
     ∀ d,
       let viewing := (s.dest d).state ≠ .vacant ∧ (s.dest d).kind = .view
       ((s.dest d).service ≠ some c.index → t.dest d = s.dest d ∧ t.viewer d = s.viewer d) ∧
       ((s.dest d).service = some c.index →
         (viewing → ParentalFormed s t d c.index (s.viewer d).forgetful.periodOnly) ∧
         (¬ viewing → t.dest d = s.dest d ∧ t.viewer d = (s.viewer d).forgetful.periodOnly))) ∧
  ∀ (s : State) (c : EventChange),
    let r := (Announcement.accessChange c).take s
    let named := fun d => (s.dest d).state ≠ .vacant ∧ (s.dest d).service = some c.index
    (∀ a, a ∈ r.2 ↔ ∃ d, named d ∧ s.lastAccess d ≠ some (s.accessVerdict c.index) ∧ a = .accessReport d (s.accessVerdict c.index)) ∧
      r.1 = { s with access := { s.access with last := r.1.access.last } } ∧
      (∀ d, named d → r.1.lastAccess d = some (s.accessVerdict c.index)) ∧
      (∀ d, ¬ named d → r.1.lastAccess d = s.lastAccess d) ∧
      ∀ d v, (Announcement.accessReport d v).take s = (s.takeAccessReport d v, [])
end

