-- ==== Sys2Proof/Laws/Bytes.lean ====
section
/-! SUPPORT. The laws of fields: what a field read from written bytes gives, and the ranges of operands. -/

namespace Sys2Proof.Machine

@[simp] theorem below_lt {n x : Nat} (h : x < n) : below n x = some ⟨x, h⟩ := by simp [below, h]

@[simp] theorem below_ge {n x : Nat} (h : n ≤ x) : below n x = none := by
  simp [below, Nat.not_lt.mpr h]

@[simp] theorem below_val {n : Nat} (i : Fin n) : below n i.val = some i := by simp [below]

@[simp] theorem byteAt_zero (b : Byte) (l : List Byte) : byteAt (b :: l) 0 = b := rfl

@[simp] theorem byteAt_succ (b : Byte) (l : List Byte) (i : Nat) : byteAt (b :: l) (i + 1) = byteAt l i := rfl

@[simp] theorem field8_zero (b : Byte) (l : List Byte) : field8 (b :: l) 0 = b.toNat := rfl

@[simp] theorem field8_succ (b : Byte) (l : List Byte) (i : Nat) : field8 (b :: l) (i + 1) = field8 l i := rfl

@[simp] theorem half_succ (b : Byte) (l : List Byte) (i : Nat) : half (b :: l) (i + 1) = half l i := rfl

@[simp] theorem half_zero (a b : Byte) (l : List Byte) : half (a :: b :: l) 0 = a ++ b := rfl

@[simp] theorem field16_succ (b : Byte) (l : List Byte) (i : Nat) : field16 (b :: l) (i + 1) = field16 l i := rfl

@[simp] theorem word_succ (b : Byte) (l : List Byte) (i : Nat) : word (b :: l) (i + 1) = word l i := rfl

@[simp] theorem field32_succ (b : Byte) (l : List Byte) (i : Nat) : field32 (b :: l) (i + 1) = field32 l i := rfl

/-- The number of an index is read back from its byte. -/
@[simp] theorem toNat_sourceByte {n : Nat} (h : n ≤ 256) (i : Fin n) : (sourceByte i).toNat = i.val := by
  have := i.isLt
  simp only [sourceByte, BitVec.toNat_ofNat]
  omega

@[simp] theorem feed_byte (f : FeedId) : (sourceByte f).toNat = f.val := toNat_sourceByte (by decide) f
@[simp] theorem dest_byte (d : DestId) : (sourceByte d).toNat = d.val := toNat_sourceByte (by decide) d
@[simp] theorem port_byte (p : PortId) : (sourceByte p).toNat = p.val := toNat_sourceByte (by decide) p
@[simp] theorem slot_byte (k : Fin 32) : (sourceByte k).toNat = k.val := toNat_sourceByte (by decide) k
@[simp] theorem place_byte (k : Fin 48) : (sourceByte k).toNat = k.val := toNat_sourceByte (by decide) k
@[simp] theorem service_byte (i : Fin 64) : (sourceByte i).toNat = i.val := toNat_sourceByte (by decide) i
@[simp] theorem group_byte (g : Fin 25) : (sourceByte g).toNat = g.val := toNat_sourceByte (by decide) g

/-- A half is its two bytes. -/
theorem bytes16_join (h : Half) : h.extractLsb' 8 8 ++ h.extractLsb' 0 8 = h := by
  apply BitVec.eq_of_getLsbD_eq
  intro i hi
  simp only [BitVec.getLsbD_append, BitVec.getLsbD_extractLsb']
  split
  · simp [*]
  · next h8 =>
    have h1 : 8 + (i - 8) = i := by omega
    have h2 : i - 8 < 8 := by omega
    simp [h1, h2]

/-- A word is its two halves. -/
theorem word_join (w : Word) : w.extractLsb' 16 16 ++ w.extractLsb' 0 16 = w := by
  apply BitVec.eq_of_getLsbD_eq
  intro i hi
  simp only [BitVec.getLsbD_append, BitVec.getLsbD_extractLsb']
  split
  · simp [*]
  · next h8 =>
    have h1 : 16 + (i - 16) = i := by omega
    have h2 : i - 16 < 16 := by omega
    simp [h1, h2]

@[simp] theorem half_bytes16 (h : Half) (l : List Byte) : half (bytes16 h ++ l) 0 = h := bytes16_join h

@[simp] theorem field16_bytes16 (h : Half) (l : List Byte) : field16 (bytes16 h ++ l) 0 = h.toNat := by
  simp [field16]

@[simp] theorem word_bytes32 (w : Word) (l : List Byte) : word (bytes32 w ++ l) 0 = w := by
  show (w.extractLsb' 16 16).extractLsb' 8 8 ++ (w.extractLsb' 16 16).extractLsb' 0 8 ++
    ((w.extractLsb' 0 16).extractLsb' 8 8 ++ (w.extractLsb' 0 16).extractLsb' 0 8) = w
  rw [bytes16_join, bytes16_join, word_join]

@[simp] theorem field32_bytes32 (w : Word) (l : List Byte) : field32 (bytes32 w ++ l) 0 = w.toNat := by
  simp [field32]

@[simp] theorem bytes16_length (h : Half) : (bytes16 h).length = 2 := rfl

@[simp] theorem bytes32_length (w : Word) : (bytes32 w).length = 4 := rfl

@[simp] theorem num16_length (n : Nat) : (num16 n).length = 2 := rfl

@[simp] theorem num32_length (n : Nat) : (num32 n).length = 4 := rfl

/-- Fields behind the two bytes of a half. -/
@[simp] theorem byteAt_bytes16 (h : Half) (l : List Byte) (i : Nat) : byteAt (bytes16 h ++ l) (i + 2) = byteAt l i := rfl

@[simp] theorem field8_bytes16 (h : Half) (l : List Byte) (i : Nat) : field8 (bytes16 h ++ l) (i + 2) = field8 l i := rfl

@[simp] theorem half_bytes16_behind (h : Half) (l : List Byte) (i : Nat) : half (bytes16 h ++ l) (i + 2) = half l i := rfl

@[simp] theorem word_bytes16_behind (h : Half) (l : List Byte) (i : Nat) : word (bytes16 h ++ l) (i + 2) = word l i := rfl

@[simp] theorem word_bytes32_behind (w : Word) (l : List Byte) (i : Nat) : word (bytes32 w ++ l) (i + 4) = word l i := rfl

end Sys2Proof.Machine
end

