-- ==== Sys2Proof/Laws/Table.lean ====
section
/-! SUPPORT. The laws of tables: reading after writing, reading a filled or mapped table, equality row by row, and the entries. -/

namespace Sys2Proof

variable {α β : Type} {n : Nat}

@[simp] theorem Table.read_write_same (t : Table α n) (i : Fin n) (x : α) : (t.write i x).read i = x := by
  simp [Table.write, Table.read]

theorem Table.read_write_other (t : Table α n) {i j : Fin n} (x : α) (h : j ≠ i) : (t.write i x).read j = t.read j := by
  have h' : i.val ≠ j.val := fun e => h (Fin.ext e.symm)
  simp [Table.write, Table.read, h']

theorem Table.read_write (t : Table α n) (i j : Fin n) (x : α) :
    (t.write i x).read j = if j = i then x else t.read j := by
  split
  · next h => simp [h]
  · next h => exact t.read_write_other x h

@[simp] theorem Table.read_filled (x : α) (i : Fin n) : (Table.filled n x).read i = x := by
  simp [Table.filled, Table.read]

@[simp] theorem Table.read_map (f : α → β) (t : Table α n) (i : Fin n) : (t.map f).read i = f (t.read i) := by
  simp [Table.map, Table.read]

/-- Two tables are equal when every row is. -/
theorem Table.ext_read {t u : Table α n} (h : ∀ i, t.read i = u.read i) : t = u := by
  obtain ⟨r, hr⟩ := t
  obtain ⟨r', hr'⟩ := u
  have : r = r' := by
    apply List.ext_getElem (by rw [hr, hr'])
    intro i h1 _
    exact h ⟨i, hr ▸ h1⟩
  subst this
  rfl

@[simp] theorem Table.write_write (t : Table α n) (i : Fin n) (x y : α) : (t.write i x).write i y = t.write i y := by
  simp [Table.write]

@[simp] theorem Table.write_read_self (t : Table α n) (i : Fin n) : t.write i (t.read i) = t := by
  apply Table.ext_read
  intro j
  rw [Table.read_write]
  split
  · next h => rw [h]
  · rfl

/-- A row is in the list of rows. -/
theorem Table.read_mem (t : Table α n) (i : Fin n) : t.read i ∈ t.rows := List.getElem_mem _

/-- Every member of the rows is some row. -/
theorem Table.exists_read {t : Table α n} {x : α} (h : x ∈ t.rows) : ∃ i, t.read i = x := by
  obtain ⟨i, hi, rfl⟩ := List.getElem_of_mem h
  exact ⟨⟨i, t.size ▸ hi⟩, rfl⟩

/-- The entries are the rows with their indexes, each once. -/
theorem Table.getElem_entries (t : Table α n) (i : Nat) (h : i < t.entries.length) :
    t.entries[i] = (⟨i, by simpa [Table.entries, t.size] using h⟩, t.read ⟨i, by simpa [Table.entries, t.size] using h⟩) := by
  simp [Table.entries, Table.read]

@[simp] theorem Table.entries_length (t : Table α n) : t.entries.length = n := by
  simp [Table.entries, t.size]

theorem Table.mem_entries {t : Table α n} {i : Fin n} {x : α} : (i, x) ∈ t.entries ↔ t.read i = x := by
  constructor
  · intro h
    obtain ⟨k, hk, e⟩ := List.getElem_of_mem h
    rw [Table.getElem_entries] at e
    obtain ⟨rfl, rfl⟩ := Prod.mk.inj e
    rfl
  · rintro rfl
    have h : i.val < t.entries.length := by simp
    have := Table.getElem_entries t i.val h
    exact this ▸ List.getElem_mem h

end Sys2Proof
end

