-- ==== Sys2Proof/Laws/State.lean ====
section
/-! SUPPORT. One lemma per field per update of the state: what each named update leaves, and what a record reads as after it. -/

namespace Sys2Proof.Machine

variable (s : State)

/-! ### setFeed -/

@[simp] theorem setFeed_feeds (f : FeedId) (x : Feed) : (s.setFeed f x).feeds = s.feeds.write f x := rfl
@[simp] theorem setFeed_flows (f : FeedId) (x : Feed) : (s.setFeed f x).flows = s.flows := rfl
@[simp] theorem setFeed_time (f : FeedId) (x : Feed) : (s.setFeed f x).time = s.time := rfl
@[simp] theorem setFeed_ctl (f : FeedId) (x : Feed) : (s.setFeed f x).ctl = s.ctl := rfl
@[simp] theorem setFeed_keys (f : FeedId) (x : Feed) : (s.setFeed f x).keys = s.keys := rfl
@[simp] theorem setFeed_access (f : FeedId) (x : Feed) : (s.setFeed f x).access = s.access := rfl
@[simp] theorem setFeed_guide (f : FeedId) (x : Feed) : (s.setFeed f x).guide = s.guide := rfl
@[simp] theorem setFeed_parental (f : FeedId) (x : Feed) : (s.setFeed f x).parental = s.parental := rfl
@[simp] theorem setFeed_ports (f : FeedId) (x : Feed) : (s.setFeed f x).ports = s.ports := rfl
@[simp] theorem setFeed_link (f : FeedId) (x : Feed) : (s.setFeed f x).link = s.link := rfl
@[simp] theorem setFeed_attention (f : FeedId) (x : Feed) : (s.setFeed f x).attention = s.attention := rfl
@[simp] theorem setFeed_resetPin (f : FeedId) (x : Feed) : (s.setFeed f x).resetPin = s.resetPin := rfl
@[simp] theorem setFeed_sent (f : FeedId) (x : Feed) : (s.setFeed f x).sent = s.sent := rfl
@[simp] theorem setFeed_freeCount (f : FeedId) (x : Feed) : (s.setFeed f x).freeCount = s.freeCount := rfl
@[simp] theorem setFeed_script (f : FeedId) (x : Feed) : (s.setFeed f x).script = s.script := rfl
@[simp] theorem setFeed_pending (f : FeedId) (x : Feed) : (s.setFeed f x).pending = s.pending := rfl

/-! ### setFlow -/

@[simp] theorem setFlow_feeds (k : Fin 256) (x : Option FlowEntry) : (s.setFlow k x).feeds = s.feeds := rfl
@[simp] theorem setFlow_flows (k : Fin 256) (x : Option FlowEntry) : (s.setFlow k x).flows = s.flows.write k x := rfl
@[simp] theorem setFlow_time (k : Fin 256) (x : Option FlowEntry) : (s.setFlow k x).time = s.time := rfl
@[simp] theorem setFlow_ctl (k : Fin 256) (x : Option FlowEntry) : (s.setFlow k x).ctl = s.ctl := rfl
@[simp] theorem setFlow_keys (k : Fin 256) (x : Option FlowEntry) : (s.setFlow k x).keys = s.keys := rfl
@[simp] theorem setFlow_access (k : Fin 256) (x : Option FlowEntry) : (s.setFlow k x).access = s.access := rfl
@[simp] theorem setFlow_guide (k : Fin 256) (x : Option FlowEntry) : (s.setFlow k x).guide = s.guide := rfl
@[simp] theorem setFlow_parental (k : Fin 256) (x : Option FlowEntry) : (s.setFlow k x).parental = s.parental := rfl
@[simp] theorem setFlow_ports (k : Fin 256) (x : Option FlowEntry) : (s.setFlow k x).ports = s.ports := rfl
@[simp] theorem setFlow_link (k : Fin 256) (x : Option FlowEntry) : (s.setFlow k x).link = s.link := rfl
@[simp] theorem setFlow_attention (k : Fin 256) (x : Option FlowEntry) : (s.setFlow k x).attention = s.attention := rfl
@[simp] theorem setFlow_resetPin (k : Fin 256) (x : Option FlowEntry) : (s.setFlow k x).resetPin = s.resetPin := rfl
@[simp] theorem setFlow_sent (k : Fin 256) (x : Option FlowEntry) : (s.setFlow k x).sent = s.sent := rfl
@[simp] theorem setFlow_freeCount (k : Fin 256) (x : Option FlowEntry) : (s.setFlow k x).freeCount = s.freeCount := rfl
@[simp] theorem setFlow_script (k : Fin 256) (x : Option FlowEntry) : (s.setFlow k x).script = s.script := rfl
@[simp] theorem setFlow_pending (k : Fin 256) (x : Option FlowEntry) : (s.setFlow k x).pending = s.pending := rfl

/-! ### setService -/

@[simp] theorem setService_feeds (i : Fin 64) (x : Option Service) : (s.setService i x).feeds = s.feeds := rfl
@[simp] theorem setService_flows (i : Fin 64) (x : Option Service) : (s.setService i x).flows = s.flows := rfl
@[simp] theorem setService_time (i : Fin 64) (x : Option Service) : (s.setService i x).time = s.time := rfl
@[simp] theorem setService_ctl (i : Fin 64) (x : Option Service) : (s.setService i x).ctl = { s.ctl with services := s.ctl.services.write i x } := rfl
@[simp] theorem setService_keys (i : Fin 64) (x : Option Service) : (s.setService i x).keys = s.keys := rfl
@[simp] theorem setService_access (i : Fin 64) (x : Option Service) : (s.setService i x).access = s.access := rfl
@[simp] theorem setService_guide (i : Fin 64) (x : Option Service) : (s.setService i x).guide = s.guide := rfl
@[simp] theorem setService_parental (i : Fin 64) (x : Option Service) : (s.setService i x).parental = s.parental := rfl
@[simp] theorem setService_ports (i : Fin 64) (x : Option Service) : (s.setService i x).ports = s.ports := rfl
@[simp] theorem setService_link (i : Fin 64) (x : Option Service) : (s.setService i x).link = s.link := rfl
@[simp] theorem setService_attention (i : Fin 64) (x : Option Service) : (s.setService i x).attention = s.attention := rfl
@[simp] theorem setService_resetPin (i : Fin 64) (x : Option Service) : (s.setService i x).resetPin = s.resetPin := rfl
@[simp] theorem setService_sent (i : Fin 64) (x : Option Service) : (s.setService i x).sent = s.sent := rfl
@[simp] theorem setService_freeCount (i : Fin 64) (x : Option Service) : (s.setService i x).freeCount = s.freeCount := rfl
@[simp] theorem setService_script (i : Fin 64) (x : Option Service) : (s.setService i x).script = s.script := rfl
@[simp] theorem setService_pending (i : Fin 64) (x : Option Service) : (s.setService i x).pending = s.pending := rfl

/-! ### setDest -/

@[simp] theorem setDest_feeds (d : DestId) (x : Dest) : (s.setDest d x).feeds = s.feeds := rfl
@[simp] theorem setDest_flows (d : DestId) (x : Dest) : (s.setDest d x).flows = s.flows := rfl
@[simp] theorem setDest_time (d : DestId) (x : Dest) : (s.setDest d x).time = s.time := rfl
@[simp] theorem setDest_ctl (d : DestId) (x : Dest) : (s.setDest d x).ctl = { s.ctl with dests := s.ctl.dests.write d x } := rfl
@[simp] theorem setDest_keys (d : DestId) (x : Dest) : (s.setDest d x).keys = s.keys := rfl
@[simp] theorem setDest_access (d : DestId) (x : Dest) : (s.setDest d x).access = s.access := rfl
@[simp] theorem setDest_guide (d : DestId) (x : Dest) : (s.setDest d x).guide = s.guide := rfl
@[simp] theorem setDest_parental (d : DestId) (x : Dest) : (s.setDest d x).parental = s.parental := rfl
@[simp] theorem setDest_ports (d : DestId) (x : Dest) : (s.setDest d x).ports = s.ports := rfl
@[simp] theorem setDest_link (d : DestId) (x : Dest) : (s.setDest d x).link = s.link := rfl
@[simp] theorem setDest_attention (d : DestId) (x : Dest) : (s.setDest d x).attention = s.attention := rfl
@[simp] theorem setDest_resetPin (d : DestId) (x : Dest) : (s.setDest d x).resetPin = s.resetPin := rfl
@[simp] theorem setDest_sent (d : DestId) (x : Dest) : (s.setDest d x).sent = s.sent := rfl
@[simp] theorem setDest_freeCount (d : DestId) (x : Dest) : (s.setDest d x).freeCount = s.freeCount := rfl
@[simp] theorem setDest_script (d : DestId) (x : Dest) : (s.setDest d x).script = s.script := rfl
@[simp] theorem setDest_pending (d : DestId) (x : Dest) : (s.setDest d x).pending = s.pending := rfl

/-! ### setPortHalted -/

@[simp] theorem setPortHalted_feeds (p : PortId) (b : Bool) : (s.setPortHalted p b).feeds = s.feeds := rfl
@[simp] theorem setPortHalted_flows (p : PortId) (b : Bool) : (s.setPortHalted p b).flows = s.flows := rfl
@[simp] theorem setPortHalted_time (p : PortId) (b : Bool) : (s.setPortHalted p b).time = s.time := rfl
@[simp] theorem setPortHalted_ctl (p : PortId) (b : Bool) : (s.setPortHalted p b).ctl = { s.ctl with halted := s.ctl.halted.write p b } := rfl
@[simp] theorem setPortHalted_keys (p : PortId) (b : Bool) : (s.setPortHalted p b).keys = s.keys := rfl
@[simp] theorem setPortHalted_access (p : PortId) (b : Bool) : (s.setPortHalted p b).access = s.access := rfl
@[simp] theorem setPortHalted_guide (p : PortId) (b : Bool) : (s.setPortHalted p b).guide = s.guide := rfl
@[simp] theorem setPortHalted_parental (p : PortId) (b : Bool) : (s.setPortHalted p b).parental = s.parental := rfl
@[simp] theorem setPortHalted_ports (p : PortId) (b : Bool) : (s.setPortHalted p b).ports = s.ports := rfl
@[simp] theorem setPortHalted_link (p : PortId) (b : Bool) : (s.setPortHalted p b).link = s.link := rfl
@[simp] theorem setPortHalted_attention (p : PortId) (b : Bool) : (s.setPortHalted p b).attention = s.attention := rfl
@[simp] theorem setPortHalted_resetPin (p : PortId) (b : Bool) : (s.setPortHalted p b).resetPin = s.resetPin := rfl
@[simp] theorem setPortHalted_sent (p : PortId) (b : Bool) : (s.setPortHalted p b).sent = s.sent := rfl
@[simp] theorem setPortHalted_freeCount (p : PortId) (b : Bool) : (s.setPortHalted p b).freeCount = s.freeCount := rfl
@[simp] theorem setPortHalted_script (p : PortId) (b : Bool) : (s.setPortHalted p b).script = s.script := rfl
@[simp] theorem setPortHalted_pending (p : PortId) (b : Bool) : (s.setPortHalted p b).pending = s.pending := rfl

/-! ### setChanges -/

@[simp] theorem setChanges_feeds (l : List (DestId × Fin 64)) : (s.setChanges l).feeds = s.feeds := rfl
@[simp] theorem setChanges_flows (l : List (DestId × Fin 64)) : (s.setChanges l).flows = s.flows := rfl
@[simp] theorem setChanges_time (l : List (DestId × Fin 64)) : (s.setChanges l).time = s.time := rfl
@[simp] theorem setChanges_ctl (l : List (DestId × Fin 64)) : (s.setChanges l).ctl = { s.ctl with changes := l } := rfl
@[simp] theorem setChanges_keys (l : List (DestId × Fin 64)) : (s.setChanges l).keys = s.keys := rfl
@[simp] theorem setChanges_access (l : List (DestId × Fin 64)) : (s.setChanges l).access = s.access := rfl
@[simp] theorem setChanges_guide (l : List (DestId × Fin 64)) : (s.setChanges l).guide = s.guide := rfl
@[simp] theorem setChanges_parental (l : List (DestId × Fin 64)) : (s.setChanges l).parental = s.parental := rfl
@[simp] theorem setChanges_ports (l : List (DestId × Fin 64)) : (s.setChanges l).ports = s.ports := rfl
@[simp] theorem setChanges_link (l : List (DestId × Fin 64)) : (s.setChanges l).link = s.link := rfl
@[simp] theorem setChanges_attention (l : List (DestId × Fin 64)) : (s.setChanges l).attention = s.attention := rfl
@[simp] theorem setChanges_resetPin (l : List (DestId × Fin 64)) : (s.setChanges l).resetPin = s.resetPin := rfl
@[simp] theorem setChanges_sent (l : List (DestId × Fin 64)) : (s.setChanges l).sent = s.sent := rfl
@[simp] theorem setChanges_freeCount (l : List (DestId × Fin 64)) : (s.setChanges l).freeCount = s.freeCount := rfl
@[simp] theorem setChanges_script (l : List (DestId × Fin 64)) : (s.setChanges l).script = s.script := rfl
@[simp] theorem setChanges_pending (l : List (DestId × Fin 64)) : (s.setChanges l).pending = s.pending := rfl

/-! ### setKeySlot -/

@[simp] theorem setKeySlot_feeds (k : Fin 32) (x : KeySlot) : (s.setKeySlot k x).feeds = s.feeds := rfl
@[simp] theorem setKeySlot_flows (k : Fin 32) (x : KeySlot) : (s.setKeySlot k x).flows = s.flows := rfl
@[simp] theorem setKeySlot_time (k : Fin 32) (x : KeySlot) : (s.setKeySlot k x).time = s.time := rfl
@[simp] theorem setKeySlot_ctl (k : Fin 32) (x : KeySlot) : (s.setKeySlot k x).ctl = s.ctl := rfl
@[simp] theorem setKeySlot_keys (k : Fin 32) (x : KeySlot) : (s.setKeySlot k x).keys = s.keys.write k x := rfl
@[simp] theorem setKeySlot_access (k : Fin 32) (x : KeySlot) : (s.setKeySlot k x).access = s.access := rfl
@[simp] theorem setKeySlot_guide (k : Fin 32) (x : KeySlot) : (s.setKeySlot k x).guide = s.guide := rfl
@[simp] theorem setKeySlot_parental (k : Fin 32) (x : KeySlot) : (s.setKeySlot k x).parental = s.parental := rfl
@[simp] theorem setKeySlot_ports (k : Fin 32) (x : KeySlot) : (s.setKeySlot k x).ports = s.ports := rfl
@[simp] theorem setKeySlot_link (k : Fin 32) (x : KeySlot) : (s.setKeySlot k x).link = s.link := rfl
@[simp] theorem setKeySlot_attention (k : Fin 32) (x : KeySlot) : (s.setKeySlot k x).attention = s.attention := rfl
@[simp] theorem setKeySlot_resetPin (k : Fin 32) (x : KeySlot) : (s.setKeySlot k x).resetPin = s.resetPin := rfl
@[simp] theorem setKeySlot_sent (k : Fin 32) (x : KeySlot) : (s.setKeySlot k x).sent = s.sent := rfl
@[simp] theorem setKeySlot_freeCount (k : Fin 32) (x : KeySlot) : (s.setKeySlot k x).freeCount = s.freeCount := rfl
@[simp] theorem setKeySlot_script (k : Fin 32) (x : KeySlot) : (s.setKeySlot k x).script = s.script := rfl
@[simp] theorem setKeySlot_pending (k : Fin 32) (x : KeySlot) : (s.setKeySlot k x).pending = s.pending := rfl

/-! ### setProfile -/

@[simp] theorem setProfile_feeds (p : Fin 8) (x : Profile) : (s.setProfile p x).feeds = s.feeds := rfl
@[simp] theorem setProfile_flows (p : Fin 8) (x : Profile) : (s.setProfile p x).flows = s.flows := rfl
@[simp] theorem setProfile_time (p : Fin 8) (x : Profile) : (s.setProfile p x).time = s.time := rfl
@[simp] theorem setProfile_ctl (p : Fin 8) (x : Profile) : (s.setProfile p x).ctl = s.ctl := rfl
@[simp] theorem setProfile_keys (p : Fin 8) (x : Profile) : (s.setProfile p x).keys = s.keys := rfl
@[simp] theorem setProfile_access (p : Fin 8) (x : Profile) : (s.setProfile p x).access = s.access := rfl
@[simp] theorem setProfile_guide (p : Fin 8) (x : Profile) : (s.setProfile p x).guide = s.guide := rfl
@[simp] theorem setProfile_parental (p : Fin 8) (x : Profile) : (s.setProfile p x).parental = { s.parental with profiles := s.parental.profiles.write p x } := rfl
@[simp] theorem setProfile_ports (p : Fin 8) (x : Profile) : (s.setProfile p x).ports = s.ports := rfl
@[simp] theorem setProfile_link (p : Fin 8) (x : Profile) : (s.setProfile p x).link = s.link := rfl
@[simp] theorem setProfile_attention (p : Fin 8) (x : Profile) : (s.setProfile p x).attention = s.attention := rfl
@[simp] theorem setProfile_resetPin (p : Fin 8) (x : Profile) : (s.setProfile p x).resetPin = s.resetPin := rfl
@[simp] theorem setProfile_sent (p : Fin 8) (x : Profile) : (s.setProfile p x).sent = s.sent := rfl
@[simp] theorem setProfile_freeCount (p : Fin 8) (x : Profile) : (s.setProfile p x).freeCount = s.freeCount := rfl
@[simp] theorem setProfile_script (p : Fin 8) (x : Profile) : (s.setProfile p x).script = s.script := rfl
@[simp] theorem setProfile_pending (p : Fin 8) (x : Profile) : (s.setProfile p x).pending = s.pending := rfl

/-! ### setViewer -/

@[simp] theorem setViewer_feeds (d : DestId) (x : Viewer) : (s.setViewer d x).feeds = s.feeds := rfl
@[simp] theorem setViewer_flows (d : DestId) (x : Viewer) : (s.setViewer d x).flows = s.flows := rfl
@[simp] theorem setViewer_time (d : DestId) (x : Viewer) : (s.setViewer d x).time = s.time := rfl
@[simp] theorem setViewer_ctl (d : DestId) (x : Viewer) : (s.setViewer d x).ctl = s.ctl := rfl
@[simp] theorem setViewer_keys (d : DestId) (x : Viewer) : (s.setViewer d x).keys = s.keys := rfl
@[simp] theorem setViewer_access (d : DestId) (x : Viewer) : (s.setViewer d x).access = s.access := rfl
@[simp] theorem setViewer_guide (d : DestId) (x : Viewer) : (s.setViewer d x).guide = s.guide := rfl
@[simp] theorem setViewer_parental (d : DestId) (x : Viewer) : (s.setViewer d x).parental = { s.parental with viewers := s.parental.viewers.write d x } := rfl
@[simp] theorem setViewer_ports (d : DestId) (x : Viewer) : (s.setViewer d x).ports = s.ports := rfl
@[simp] theorem setViewer_link (d : DestId) (x : Viewer) : (s.setViewer d x).link = s.link := rfl
@[simp] theorem setViewer_attention (d : DestId) (x : Viewer) : (s.setViewer d x).attention = s.attention := rfl
@[simp] theorem setViewer_resetPin (d : DestId) (x : Viewer) : (s.setViewer d x).resetPin = s.resetPin := rfl
@[simp] theorem setViewer_sent (d : DestId) (x : Viewer) : (s.setViewer d x).sent = s.sent := rfl
@[simp] theorem setViewer_freeCount (d : DestId) (x : Viewer) : (s.setViewer d x).freeCount = s.freeCount := rfl
@[simp] theorem setViewer_script (d : DestId) (x : Viewer) : (s.setViewer d x).script = s.script := rfl
@[simp] theorem setViewer_pending (d : DestId) (x : Viewer) : (s.setViewer d x).pending = s.pending := rfl

/-! ### setPort -/

@[simp] theorem setPort_feeds (p : PortId) (x : Port) : (s.setPort p x).feeds = s.feeds := rfl
@[simp] theorem setPort_flows (p : PortId) (x : Port) : (s.setPort p x).flows = s.flows := rfl
@[simp] theorem setPort_time (p : PortId) (x : Port) : (s.setPort p x).time = s.time := rfl
@[simp] theorem setPort_ctl (p : PortId) (x : Port) : (s.setPort p x).ctl = s.ctl := rfl
@[simp] theorem setPort_keys (p : PortId) (x : Port) : (s.setPort p x).keys = s.keys := rfl
@[simp] theorem setPort_access (p : PortId) (x : Port) : (s.setPort p x).access = s.access := rfl
@[simp] theorem setPort_guide (p : PortId) (x : Port) : (s.setPort p x).guide = s.guide := rfl
@[simp] theorem setPort_parental (p : PortId) (x : Port) : (s.setPort p x).parental = s.parental := rfl
@[simp] theorem setPort_ports (p : PortId) (x : Port) : (s.setPort p x).ports = s.ports.write p x := rfl
@[simp] theorem setPort_link (p : PortId) (x : Port) : (s.setPort p x).link = s.link := rfl
@[simp] theorem setPort_attention (p : PortId) (x : Port) : (s.setPort p x).attention = s.attention := rfl
@[simp] theorem setPort_resetPin (p : PortId) (x : Port) : (s.setPort p x).resetPin = s.resetPin := rfl
@[simp] theorem setPort_sent (p : PortId) (x : Port) : (s.setPort p x).sent = s.sent := rfl
@[simp] theorem setPort_freeCount (p : PortId) (x : Port) : (s.setPort p x).freeCount = s.freeCount := rfl
@[simp] theorem setPort_script (p : PortId) (x : Port) : (s.setPort p x).script = s.script := rfl
@[simp] theorem setPort_pending (p : PortId) (x : Port) : (s.setPort p x).pending = s.pending := rfl

/-! ### setLastAccess -/

@[simp] theorem setLastAccess_feeds (d : DestId) (v : Option AccessVerdict) : (s.setLastAccess d v).feeds = s.feeds := rfl
@[simp] theorem setLastAccess_flows (d : DestId) (v : Option AccessVerdict) : (s.setLastAccess d v).flows = s.flows := rfl
@[simp] theorem setLastAccess_time (d : DestId) (v : Option AccessVerdict) : (s.setLastAccess d v).time = s.time := rfl
@[simp] theorem setLastAccess_ctl (d : DestId) (v : Option AccessVerdict) : (s.setLastAccess d v).ctl = s.ctl := rfl
@[simp] theorem setLastAccess_keys (d : DestId) (v : Option AccessVerdict) : (s.setLastAccess d v).keys = s.keys := rfl
@[simp] theorem setLastAccess_access (d : DestId) (v : Option AccessVerdict) : (s.setLastAccess d v).access = { s.access with last := s.access.last.write d v } := rfl
@[simp] theorem setLastAccess_guide (d : DestId) (v : Option AccessVerdict) : (s.setLastAccess d v).guide = s.guide := rfl
@[simp] theorem setLastAccess_parental (d : DestId) (v : Option AccessVerdict) : (s.setLastAccess d v).parental = s.parental := rfl
@[simp] theorem setLastAccess_ports (d : DestId) (v : Option AccessVerdict) : (s.setLastAccess d v).ports = s.ports := rfl
@[simp] theorem setLastAccess_link (d : DestId) (v : Option AccessVerdict) : (s.setLastAccess d v).link = s.link := rfl
@[simp] theorem setLastAccess_attention (d : DestId) (v : Option AccessVerdict) : (s.setLastAccess d v).attention = s.attention := rfl
@[simp] theorem setLastAccess_resetPin (d : DestId) (v : Option AccessVerdict) : (s.setLastAccess d v).resetPin = s.resetPin := rfl
@[simp] theorem setLastAccess_sent (d : DestId) (v : Option AccessVerdict) : (s.setLastAccess d v).sent = s.sent := rfl
@[simp] theorem setLastAccess_freeCount (d : DestId) (v : Option AccessVerdict) : (s.setLastAccess d v).freeCount = s.freeCount := rfl
@[simp] theorem setLastAccess_script (d : DestId) (v : Option AccessVerdict) : (s.setLastAccess d v).script = s.script := rfl
@[simp] theorem setLastAccess_pending (d : DestId) (v : Option AccessVerdict) : (s.setLastAccess d v).pending = s.pending := rfl

/-! ### setEntitlement -/

@[simp] theorem setEntitlement_feeds (i : Fin 48) (x : Option Entitlement) : (s.setEntitlement i x).feeds = s.feeds := rfl
@[simp] theorem setEntitlement_flows (i : Fin 48) (x : Option Entitlement) : (s.setEntitlement i x).flows = s.flows := rfl
@[simp] theorem setEntitlement_time (i : Fin 48) (x : Option Entitlement) : (s.setEntitlement i x).time = s.time := rfl
@[simp] theorem setEntitlement_ctl (i : Fin 48) (x : Option Entitlement) : (s.setEntitlement i x).ctl = s.ctl := rfl
@[simp] theorem setEntitlement_keys (i : Fin 48) (x : Option Entitlement) : (s.setEntitlement i x).keys = s.keys := rfl
@[simp] theorem setEntitlement_access (i : Fin 48) (x : Option Entitlement) : (s.setEntitlement i x).access = { s.access with table := s.access.table.write i x } := rfl
@[simp] theorem setEntitlement_guide (i : Fin 48) (x : Option Entitlement) : (s.setEntitlement i x).guide = s.guide := rfl
@[simp] theorem setEntitlement_parental (i : Fin 48) (x : Option Entitlement) : (s.setEntitlement i x).parental = s.parental := rfl
@[simp] theorem setEntitlement_ports (i : Fin 48) (x : Option Entitlement) : (s.setEntitlement i x).ports = s.ports := rfl
@[simp] theorem setEntitlement_link (i : Fin 48) (x : Option Entitlement) : (s.setEntitlement i x).link = s.link := rfl
@[simp] theorem setEntitlement_attention (i : Fin 48) (x : Option Entitlement) : (s.setEntitlement i x).attention = s.attention := rfl
@[simp] theorem setEntitlement_resetPin (i : Fin 48) (x : Option Entitlement) : (s.setEntitlement i x).resetPin = s.resetPin := rfl
@[simp] theorem setEntitlement_sent (i : Fin 48) (x : Option Entitlement) : (s.setEntitlement i x).sent = s.sent := rfl
@[simp] theorem setEntitlement_freeCount (i : Fin 48) (x : Option Entitlement) : (s.setEntitlement i x).freeCount = s.freeCount := rfl
@[simp] theorem setEntitlement_script (i : Fin 48) (x : Option Entitlement) : (s.setEntitlement i x).script = s.script := rfl
@[simp] theorem setEntitlement_pending (i : Fin 48) (x : Option Entitlement) : (s.setEntitlement i x).pending = s.pending := rfl

/-! ### send -/

@[simp] theorem send_feeds (c : Sent) : (s.send c).feeds = s.feeds := rfl
@[simp] theorem send_flows (c : Sent) : (s.send c).flows = s.flows := rfl
@[simp] theorem send_time (c : Sent) : (s.send c).time = s.time := rfl
@[simp] theorem send_ctl (c : Sent) : (s.send c).ctl = s.ctl := rfl
@[simp] theorem send_keys (c : Sent) : (s.send c).keys = s.keys := rfl
@[simp] theorem send_access (c : Sent) : (s.send c).access = s.access := rfl
@[simp] theorem send_guide (c : Sent) : (s.send c).guide = s.guide := rfl
@[simp] theorem send_parental (c : Sent) : (s.send c).parental = s.parental := rfl
@[simp] theorem send_ports (c : Sent) : (s.send c).ports = s.ports := rfl
@[simp] theorem send_link (c : Sent) : (s.send c).link = s.link := rfl
@[simp] theorem send_attention (c : Sent) : (s.send c).attention = s.attention := rfl
@[simp] theorem send_resetPin (c : Sent) : (s.send c).resetPin = s.resetPin := rfl
@[simp] theorem send_sent (c : Sent) : (s.send c).sent = s.sent ++ [c] := rfl
@[simp] theorem send_freeCount (c : Sent) : (s.send c).freeCount = s.freeCount := rfl
@[simp] theorem send_script (c : Sent) : (s.send c).script = s.script := rfl
@[simp] theorem send_pending (c : Sent) : (s.send c).pending = s.pending := rfl

/-! ### setEvents -/

@[simp] theorem setEvents_feeds (l : List EventRecord) : (s.setEvents l).feeds = s.feeds := rfl
@[simp] theorem setEvents_flows (l : List EventRecord) : (s.setEvents l).flows = s.flows := rfl
@[simp] theorem setEvents_time (l : List EventRecord) : (s.setEvents l).time = s.time := rfl
@[simp] theorem setEvents_ctl (l : List EventRecord) : (s.setEvents l).ctl = s.ctl := rfl
@[simp] theorem setEvents_keys (l : List EventRecord) : (s.setEvents l).keys = s.keys := rfl
@[simp] theorem setEvents_access (l : List EventRecord) : (s.setEvents l).access = s.access := rfl
@[simp] theorem setEvents_guide (l : List EventRecord) : (s.setEvents l).guide = { s.guide with events := l } := rfl
@[simp] theorem setEvents_parental (l : List EventRecord) : (s.setEvents l).parental = s.parental := rfl
@[simp] theorem setEvents_ports (l : List EventRecord) : (s.setEvents l).ports = s.ports := rfl
@[simp] theorem setEvents_link (l : List EventRecord) : (s.setEvents l).link = s.link := rfl
@[simp] theorem setEvents_attention (l : List EventRecord) : (s.setEvents l).attention = s.attention := rfl
@[simp] theorem setEvents_resetPin (l : List EventRecord) : (s.setEvents l).resetPin = s.resetPin := rfl
@[simp] theorem setEvents_sent (l : List EventRecord) : (s.setEvents l).sent = s.sent := rfl
@[simp] theorem setEvents_freeCount (l : List EventRecord) : (s.setEvents l).freeCount = s.freeCount := rfl
@[simp] theorem setEvents_script (l : List EventRecord) : (s.setEvents l).script = s.script := rfl
@[simp] theorem setEvents_pending (l : List EventRecord) : (s.setEvents l).pending = s.pending := rfl

/-! ### countGuide -/

@[simp] theorem countGuide_feeds (f : GuideCounters → GuideCounters) : (s.countGuide f).feeds = s.feeds := rfl
@[simp] theorem countGuide_flows (f : GuideCounters → GuideCounters) : (s.countGuide f).flows = s.flows := rfl
@[simp] theorem countGuide_time (f : GuideCounters → GuideCounters) : (s.countGuide f).time = s.time := rfl
@[simp] theorem countGuide_ctl (f : GuideCounters → GuideCounters) : (s.countGuide f).ctl = s.ctl := rfl
@[simp] theorem countGuide_keys (f : GuideCounters → GuideCounters) : (s.countGuide f).keys = s.keys := rfl
@[simp] theorem countGuide_access (f : GuideCounters → GuideCounters) : (s.countGuide f).access = s.access := rfl
@[simp] theorem countGuide_guide (f : GuideCounters → GuideCounters) : (s.countGuide f).guide = { s.guide with counters := f s.guide.counters } := rfl
@[simp] theorem countGuide_parental (f : GuideCounters → GuideCounters) : (s.countGuide f).parental = s.parental := rfl
@[simp] theorem countGuide_ports (f : GuideCounters → GuideCounters) : (s.countGuide f).ports = s.ports := rfl
@[simp] theorem countGuide_link (f : GuideCounters → GuideCounters) : (s.countGuide f).link = s.link := rfl
@[simp] theorem countGuide_attention (f : GuideCounters → GuideCounters) : (s.countGuide f).attention = s.attention := rfl
@[simp] theorem countGuide_resetPin (f : GuideCounters → GuideCounters) : (s.countGuide f).resetPin = s.resetPin := rfl
@[simp] theorem countGuide_sent (f : GuideCounters → GuideCounters) : (s.countGuide f).sent = s.sent := rfl
@[simp] theorem countGuide_freeCount (f : GuideCounters → GuideCounters) : (s.countGuide f).freeCount = s.freeCount := rfl
@[simp] theorem countGuide_script (f : GuideCounters → GuideCounters) : (s.countGuide f).script = s.script := rfl
@[simp] theorem countGuide_pending (f : GuideCounters → GuideCounters) : (s.countGuide f).pending = s.pending := rfl

/-! ### setSlot -/

@[simp] theorem setSlot_feeds (i : Fin 4) (x : Option Assembly) : (s.setSlot i x).feeds = s.feeds := rfl
@[simp] theorem setSlot_flows (i : Fin 4) (x : Option Assembly) : (s.setSlot i x).flows = s.flows := rfl
@[simp] theorem setSlot_time (i : Fin 4) (x : Option Assembly) : (s.setSlot i x).time = s.time := rfl
@[simp] theorem setSlot_ctl (i : Fin 4) (x : Option Assembly) : (s.setSlot i x).ctl = s.ctl := rfl
@[simp] theorem setSlot_keys (i : Fin 4) (x : Option Assembly) : (s.setSlot i x).keys = s.keys := rfl
@[simp] theorem setSlot_access (i : Fin 4) (x : Option Assembly) : (s.setSlot i x).access = s.access := rfl
@[simp] theorem setSlot_guide (i : Fin 4) (x : Option Assembly) : (s.setSlot i x).guide = { s.guide with slots := s.guide.slots.write i x } := rfl
@[simp] theorem setSlot_parental (i : Fin 4) (x : Option Assembly) : (s.setSlot i x).parental = s.parental := rfl
@[simp] theorem setSlot_ports (i : Fin 4) (x : Option Assembly) : (s.setSlot i x).ports = s.ports := rfl
@[simp] theorem setSlot_link (i : Fin 4) (x : Option Assembly) : (s.setSlot i x).link = s.link := rfl
@[simp] theorem setSlot_attention (i : Fin 4) (x : Option Assembly) : (s.setSlot i x).attention = s.attention := rfl
@[simp] theorem setSlot_resetPin (i : Fin 4) (x : Option Assembly) : (s.setSlot i x).resetPin = s.resetPin := rfl
@[simp] theorem setSlot_sent (i : Fin 4) (x : Option Assembly) : (s.setSlot i x).sent = s.sent := rfl
@[simp] theorem setSlot_freeCount (i : Fin 4) (x : Option Assembly) : (s.setSlot i x).freeCount = s.freeCount := rfl
@[simp] theorem setSlot_script (i : Fin 4) (x : Option Assembly) : (s.setSlot i x).script = s.script := rfl
@[simp] theorem setSlot_pending (i : Fin 4) (x : Option Assembly) : (s.setSlot i x).pending = s.pending := rfl

/-! ### setRegister -/

@[simp] theorem setRegister_feeds (i : Fin 128) (x : Option RegisterEntry) : (s.setRegister i x).feeds = s.feeds := rfl
@[simp] theorem setRegister_flows (i : Fin 128) (x : Option RegisterEntry) : (s.setRegister i x).flows = s.flows := rfl
@[simp] theorem setRegister_time (i : Fin 128) (x : Option RegisterEntry) : (s.setRegister i x).time = s.time := rfl
@[simp] theorem setRegister_ctl (i : Fin 128) (x : Option RegisterEntry) : (s.setRegister i x).ctl = s.ctl := rfl
@[simp] theorem setRegister_keys (i : Fin 128) (x : Option RegisterEntry) : (s.setRegister i x).keys = s.keys := rfl
@[simp] theorem setRegister_access (i : Fin 128) (x : Option RegisterEntry) : (s.setRegister i x).access = s.access := rfl
@[simp] theorem setRegister_guide (i : Fin 128) (x : Option RegisterEntry) : (s.setRegister i x).guide = { s.guide with register := s.guide.register.write i x } := rfl
@[simp] theorem setRegister_parental (i : Fin 128) (x : Option RegisterEntry) : (s.setRegister i x).parental = s.parental := rfl
@[simp] theorem setRegister_ports (i : Fin 128) (x : Option RegisterEntry) : (s.setRegister i x).ports = s.ports := rfl
@[simp] theorem setRegister_link (i : Fin 128) (x : Option RegisterEntry) : (s.setRegister i x).link = s.link := rfl
@[simp] theorem setRegister_attention (i : Fin 128) (x : Option RegisterEntry) : (s.setRegister i x).attention = s.attention := rfl
@[simp] theorem setRegister_resetPin (i : Fin 128) (x : Option RegisterEntry) : (s.setRegister i x).resetPin = s.resetPin := rfl
@[simp] theorem setRegister_sent (i : Fin 128) (x : Option RegisterEntry) : (s.setRegister i x).sent = s.sent := rfl
@[simp] theorem setRegister_freeCount (i : Fin 128) (x : Option RegisterEntry) : (s.setRegister i x).freeCount = s.freeCount := rfl
@[simp] theorem setRegister_script (i : Fin 128) (x : Option RegisterEntry) : (s.setRegister i x).script = s.script := rfl
@[simp] theorem setRegister_pending (i : Fin 128) (x : Option RegisterEntry) : (s.setRegister i x).pending = s.pending := rfl

/-! ## A record after an update -/

@[simp] theorem setFeed_feed_same (f : FeedId) (x : Feed) : (s.setFeed f x).feed f = x := by
  simp [State.feed]
theorem setFeed_feed (f : FeedId) (x : Feed) (j : FeedId) :
    (s.setFeed f x).feed j = if j = f then x else s.feed j := by
  simp [State.feed, Table.read_write]
@[simp] theorem setFeed_flow (f : FeedId) (x : Feed) (j : Fin 256) : (s.setFeed f x).flow j = s.flow j := rfl
@[simp] theorem setFeed_service (f : FeedId) (x : Feed) (j : Fin 64) : (s.setFeed f x).service j = s.service j := rfl
@[simp] theorem setFeed_dest (f : FeedId) (x : Feed) (j : DestId) : (s.setFeed f x).dest j = s.dest j := rfl
@[simp] theorem setFeed_portHalted (f : FeedId) (x : Feed) (j : PortId) : (s.setFeed f x).portHalted j = s.portHalted j := rfl
@[simp] theorem setFeed_keySlot (f : FeedId) (x : Feed) (j : Fin 32) : (s.setFeed f x).keySlot j = s.keySlot j := rfl
@[simp] theorem setFeed_profile (f : FeedId) (x : Feed) (j : Fin 8) : (s.setFeed f x).profile j = s.profile j := rfl
@[simp] theorem setFeed_viewer (f : FeedId) (x : Feed) (j : DestId) : (s.setFeed f x).viewer j = s.viewer j := rfl
@[simp] theorem setFeed_port (f : FeedId) (x : Feed) (j : PortId) : (s.setFeed f x).port j = s.port j := rfl
@[simp] theorem setFeed_lastAccess (f : FeedId) (x : Feed) (j : DestId) : (s.setFeed f x).lastAccess j = s.lastAccess j := rfl

@[simp] theorem setFlow_feed (k : Fin 256) (x : Option FlowEntry) (j : FeedId) : (s.setFlow k x).feed j = s.feed j := rfl
@[simp] theorem setFlow_flow_same (k : Fin 256) (x : Option FlowEntry) : (s.setFlow k x).flow k = x := by
  simp [State.flow]
theorem setFlow_flow (k : Fin 256) (x : Option FlowEntry) (j : Fin 256) :
    (s.setFlow k x).flow j = if j = k then x else s.flow j := by
  simp [State.flow, Table.read_write]
@[simp] theorem setFlow_service (k : Fin 256) (x : Option FlowEntry) (j : Fin 64) : (s.setFlow k x).service j = s.service j := rfl
@[simp] theorem setFlow_dest (k : Fin 256) (x : Option FlowEntry) (j : DestId) : (s.setFlow k x).dest j = s.dest j := rfl
@[simp] theorem setFlow_portHalted (k : Fin 256) (x : Option FlowEntry) (j : PortId) : (s.setFlow k x).portHalted j = s.portHalted j := rfl
@[simp] theorem setFlow_keySlot (k : Fin 256) (x : Option FlowEntry) (j : Fin 32) : (s.setFlow k x).keySlot j = s.keySlot j := rfl
@[simp] theorem setFlow_profile (k : Fin 256) (x : Option FlowEntry) (j : Fin 8) : (s.setFlow k x).profile j = s.profile j := rfl
@[simp] theorem setFlow_viewer (k : Fin 256) (x : Option FlowEntry) (j : DestId) : (s.setFlow k x).viewer j = s.viewer j := rfl
@[simp] theorem setFlow_port (k : Fin 256) (x : Option FlowEntry) (j : PortId) : (s.setFlow k x).port j = s.port j := rfl
@[simp] theorem setFlow_lastAccess (k : Fin 256) (x : Option FlowEntry) (j : DestId) : (s.setFlow k x).lastAccess j = s.lastAccess j := rfl

@[simp] theorem setService_feed (i : Fin 64) (x : Option Service) (j : FeedId) : (s.setService i x).feed j = s.feed j := rfl
@[simp] theorem setService_flow (i : Fin 64) (x : Option Service) (j : Fin 256) : (s.setService i x).flow j = s.flow j := rfl
@[simp] theorem setService_service_same (i : Fin 64) (x : Option Service) : (s.setService i x).service i = x := by
  simp [State.service]
theorem setService_service (i : Fin 64) (x : Option Service) (j : Fin 64) :
    (s.setService i x).service j = if j = i then x else s.service j := by
  simp [State.service, Table.read_write]
@[simp] theorem setService_dest (i : Fin 64) (x : Option Service) (j : DestId) : (s.setService i x).dest j = s.dest j := rfl
@[simp] theorem setService_portHalted (i : Fin 64) (x : Option Service) (j : PortId) : (s.setService i x).portHalted j = s.portHalted j := rfl
@[simp] theorem setService_keySlot (i : Fin 64) (x : Option Service) (j : Fin 32) : (s.setService i x).keySlot j = s.keySlot j := rfl
@[simp] theorem setService_profile (i : Fin 64) (x : Option Service) (j : Fin 8) : (s.setService i x).profile j = s.profile j := rfl
@[simp] theorem setService_viewer (i : Fin 64) (x : Option Service) (j : DestId) : (s.setService i x).viewer j = s.viewer j := rfl
@[simp] theorem setService_port (i : Fin 64) (x : Option Service) (j : PortId) : (s.setService i x).port j = s.port j := rfl
@[simp] theorem setService_lastAccess (i : Fin 64) (x : Option Service) (j : DestId) : (s.setService i x).lastAccess j = s.lastAccess j := rfl

@[simp] theorem setDest_feed (d : DestId) (x : Dest) (j : FeedId) : (s.setDest d x).feed j = s.feed j := rfl
@[simp] theorem setDest_flow (d : DestId) (x : Dest) (j : Fin 256) : (s.setDest d x).flow j = s.flow j := rfl
@[simp] theorem setDest_service (d : DestId) (x : Dest) (j : Fin 64) : (s.setDest d x).service j = s.service j := rfl
@[simp] theorem setDest_dest_same (d : DestId) (x : Dest) : (s.setDest d x).dest d = x := by
  simp [State.dest]
theorem setDest_dest (d : DestId) (x : Dest) (j : DestId) :
    (s.setDest d x).dest j = if j = d then x else s.dest j := by
  simp [State.dest, Table.read_write]
@[simp] theorem setDest_portHalted (d : DestId) (x : Dest) (j : PortId) : (s.setDest d x).portHalted j = s.portHalted j := rfl
@[simp] theorem setDest_keySlot (d : DestId) (x : Dest) (j : Fin 32) : (s.setDest d x).keySlot j = s.keySlot j := rfl
@[simp] theorem setDest_profile (d : DestId) (x : Dest) (j : Fin 8) : (s.setDest d x).profile j = s.profile j := rfl
@[simp] theorem setDest_viewer (d : DestId) (x : Dest) (j : DestId) : (s.setDest d x).viewer j = s.viewer j := rfl
@[simp] theorem setDest_port (d : DestId) (x : Dest) (j : PortId) : (s.setDest d x).port j = s.port j := rfl
@[simp] theorem setDest_lastAccess (d : DestId) (x : Dest) (j : DestId) : (s.setDest d x).lastAccess j = s.lastAccess j := rfl

@[simp] theorem setPortHalted_feed (p : PortId) (b : Bool) (j : FeedId) : (s.setPortHalted p b).feed j = s.feed j := rfl
@[simp] theorem setPortHalted_flow (p : PortId) (b : Bool) (j : Fin 256) : (s.setPortHalted p b).flow j = s.flow j := rfl
@[simp] theorem setPortHalted_service (p : PortId) (b : Bool) (j : Fin 64) : (s.setPortHalted p b).service j = s.service j := rfl
@[simp] theorem setPortHalted_dest (p : PortId) (b : Bool) (j : DestId) : (s.setPortHalted p b).dest j = s.dest j := rfl
@[simp] theorem setPortHalted_portHalted_same (p : PortId) (b : Bool) : (s.setPortHalted p b).portHalted p = b := by
  simp [State.portHalted]
theorem setPortHalted_portHalted (p : PortId) (b : Bool) (j : PortId) :
    (s.setPortHalted p b).portHalted j = if j = p then b else s.portHalted j := by
  simp [State.portHalted, Table.read_write]
@[simp] theorem setPortHalted_keySlot (p : PortId) (b : Bool) (j : Fin 32) : (s.setPortHalted p b).keySlot j = s.keySlot j := rfl
@[simp] theorem setPortHalted_profile (p : PortId) (b : Bool) (j : Fin 8) : (s.setPortHalted p b).profile j = s.profile j := rfl
@[simp] theorem setPortHalted_viewer (p : PortId) (b : Bool) (j : DestId) : (s.setPortHalted p b).viewer j = s.viewer j := rfl
@[simp] theorem setPortHalted_port (p : PortId) (b : Bool) (j : PortId) : (s.setPortHalted p b).port j = s.port j := rfl
@[simp] theorem setPortHalted_lastAccess (p : PortId) (b : Bool) (j : DestId) : (s.setPortHalted p b).lastAccess j = s.lastAccess j := rfl

@[simp] theorem setChanges_feed (l : List (DestId × Fin 64)) (j : FeedId) : (s.setChanges l).feed j = s.feed j := rfl
@[simp] theorem setChanges_flow (l : List (DestId × Fin 64)) (j : Fin 256) : (s.setChanges l).flow j = s.flow j := rfl
@[simp] theorem setChanges_service (l : List (DestId × Fin 64)) (j : Fin 64) : (s.setChanges l).service j = s.service j := rfl
@[simp] theorem setChanges_dest (l : List (DestId × Fin 64)) (j : DestId) : (s.setChanges l).dest j = s.dest j := rfl
@[simp] theorem setChanges_portHalted (l : List (DestId × Fin 64)) (j : PortId) : (s.setChanges l).portHalted j = s.portHalted j := rfl
@[simp] theorem setChanges_keySlot (l : List (DestId × Fin 64)) (j : Fin 32) : (s.setChanges l).keySlot j = s.keySlot j := rfl
@[simp] theorem setChanges_profile (l : List (DestId × Fin 64)) (j : Fin 8) : (s.setChanges l).profile j = s.profile j := rfl
@[simp] theorem setChanges_viewer (l : List (DestId × Fin 64)) (j : DestId) : (s.setChanges l).viewer j = s.viewer j := rfl
@[simp] theorem setChanges_port (l : List (DestId × Fin 64)) (j : PortId) : (s.setChanges l).port j = s.port j := rfl
@[simp] theorem setChanges_lastAccess (l : List (DestId × Fin 64)) (j : DestId) : (s.setChanges l).lastAccess j = s.lastAccess j := rfl

@[simp] theorem setKeySlot_feed (k : Fin 32) (x : KeySlot) (j : FeedId) : (s.setKeySlot k x).feed j = s.feed j := rfl
@[simp] theorem setKeySlot_flow (k : Fin 32) (x : KeySlot) (j : Fin 256) : (s.setKeySlot k x).flow j = s.flow j := rfl
@[simp] theorem setKeySlot_service (k : Fin 32) (x : KeySlot) (j : Fin 64) : (s.setKeySlot k x).service j = s.service j := rfl
@[simp] theorem setKeySlot_dest (k : Fin 32) (x : KeySlot) (j : DestId) : (s.setKeySlot k x).dest j = s.dest j := rfl
@[simp] theorem setKeySlot_portHalted (k : Fin 32) (x : KeySlot) (j : PortId) : (s.setKeySlot k x).portHalted j = s.portHalted j := rfl
@[simp] theorem setKeySlot_keySlot_same (k : Fin 32) (x : KeySlot) : (s.setKeySlot k x).keySlot k = x := by
  simp [State.keySlot]
theorem setKeySlot_keySlot (k : Fin 32) (x : KeySlot) (j : Fin 32) :
    (s.setKeySlot k x).keySlot j = if j = k then x else s.keySlot j := by
  simp [State.keySlot, Table.read_write]
@[simp] theorem setKeySlot_profile (k : Fin 32) (x : KeySlot) (j : Fin 8) : (s.setKeySlot k x).profile j = s.profile j := rfl
@[simp] theorem setKeySlot_viewer (k : Fin 32) (x : KeySlot) (j : DestId) : (s.setKeySlot k x).viewer j = s.viewer j := rfl
@[simp] theorem setKeySlot_port (k : Fin 32) (x : KeySlot) (j : PortId) : (s.setKeySlot k x).port j = s.port j := rfl
@[simp] theorem setKeySlot_lastAccess (k : Fin 32) (x : KeySlot) (j : DestId) : (s.setKeySlot k x).lastAccess j = s.lastAccess j := rfl

@[simp] theorem setProfile_feed (p : Fin 8) (x : Profile) (j : FeedId) : (s.setProfile p x).feed j = s.feed j := rfl
@[simp] theorem setProfile_flow (p : Fin 8) (x : Profile) (j : Fin 256) : (s.setProfile p x).flow j = s.flow j := rfl
@[simp] theorem setProfile_service (p : Fin 8) (x : Profile) (j : Fin 64) : (s.setProfile p x).service j = s.service j := rfl
@[simp] theorem setProfile_dest (p : Fin 8) (x : Profile) (j : DestId) : (s.setProfile p x).dest j = s.dest j := rfl
@[simp] theorem setProfile_portHalted (p : Fin 8) (x : Profile) (j : PortId) : (s.setProfile p x).portHalted j = s.portHalted j := rfl
@[simp] theorem setProfile_keySlot (p : Fin 8) (x : Profile) (j : Fin 32) : (s.setProfile p x).keySlot j = s.keySlot j := rfl
@[simp] theorem setProfile_profile_same (p : Fin 8) (x : Profile) : (s.setProfile p x).profile p = x := by
  simp [State.profile]
theorem setProfile_profile (p : Fin 8) (x : Profile) (j : Fin 8) :
    (s.setProfile p x).profile j = if j = p then x else s.profile j := by
  simp [State.profile, Table.read_write]
@[simp] theorem setProfile_viewer (p : Fin 8) (x : Profile) (j : DestId) : (s.setProfile p x).viewer j = s.viewer j := rfl
@[simp] theorem setProfile_port (p : Fin 8) (x : Profile) (j : PortId) : (s.setProfile p x).port j = s.port j := rfl
@[simp] theorem setProfile_lastAccess (p : Fin 8) (x : Profile) (j : DestId) : (s.setProfile p x).lastAccess j = s.lastAccess j := rfl

@[simp] theorem setViewer_feed (d : DestId) (x : Viewer) (j : FeedId) : (s.setViewer d x).feed j = s.feed j := rfl
@[simp] theorem setViewer_flow (d : DestId) (x : Viewer) (j : Fin 256) : (s.setViewer d x).flow j = s.flow j := rfl
@[simp] theorem setViewer_service (d : DestId) (x : Viewer) (j : Fin 64) : (s.setViewer d x).service j = s.service j := rfl
@[simp] theorem setViewer_dest (d : DestId) (x : Viewer) (j : DestId) : (s.setViewer d x).dest j = s.dest j := rfl
@[simp] theorem setViewer_portHalted (d : DestId) (x : Viewer) (j : PortId) : (s.setViewer d x).portHalted j = s.portHalted j := rfl
@[simp] theorem setViewer_keySlot (d : DestId) (x : Viewer) (j : Fin 32) : (s.setViewer d x).keySlot j = s.keySlot j := rfl
@[simp] theorem setViewer_profile (d : DestId) (x : Viewer) (j : Fin 8) : (s.setViewer d x).profile j = s.profile j := rfl
@[simp] theorem setViewer_viewer_same (d : DestId) (x : Viewer) : (s.setViewer d x).viewer d = x := by
  simp [State.viewer]
theorem setViewer_viewer (d : DestId) (x : Viewer) (j : DestId) :
    (s.setViewer d x).viewer j = if j = d then x else s.viewer j := by
  simp [State.viewer, Table.read_write]
@[simp] theorem setViewer_port (d : DestId) (x : Viewer) (j : PortId) : (s.setViewer d x).port j = s.port j := rfl
@[simp] theorem setViewer_lastAccess (d : DestId) (x : Viewer) (j : DestId) : (s.setViewer d x).lastAccess j = s.lastAccess j := rfl

@[simp] theorem setPort_feed (p : PortId) (x : Port) (j : FeedId) : (s.setPort p x).feed j = s.feed j := rfl
@[simp] theorem setPort_flow (p : PortId) (x : Port) (j : Fin 256) : (s.setPort p x).flow j = s.flow j := rfl
@[simp] theorem setPort_service (p : PortId) (x : Port) (j : Fin 64) : (s.setPort p x).service j = s.service j := rfl
@[simp] theorem setPort_dest (p : PortId) (x : Port) (j : DestId) : (s.setPort p x).dest j = s.dest j := rfl
@[simp] theorem setPort_portHalted (p : PortId) (x : Port) (j : PortId) : (s.setPort p x).portHalted j = s.portHalted j := rfl
@[simp] theorem setPort_keySlot (p : PortId) (x : Port) (j : Fin 32) : (s.setPort p x).keySlot j = s.keySlot j := rfl
@[simp] theorem setPort_profile (p : PortId) (x : Port) (j : Fin 8) : (s.setPort p x).profile j = s.profile j := rfl
@[simp] theorem setPort_viewer (p : PortId) (x : Port) (j : DestId) : (s.setPort p x).viewer j = s.viewer j := rfl
@[simp] theorem setPort_port_same (p : PortId) (x : Port) : (s.setPort p x).port p = x := by
  simp [State.port]
theorem setPort_port (p : PortId) (x : Port) (j : PortId) :
    (s.setPort p x).port j = if j = p then x else s.port j := by
  simp [State.port, Table.read_write]
@[simp] theorem setPort_lastAccess (p : PortId) (x : Port) (j : DestId) : (s.setPort p x).lastAccess j = s.lastAccess j := rfl

@[simp] theorem setLastAccess_feed (d : DestId) (v : Option AccessVerdict) (j : FeedId) : (s.setLastAccess d v).feed j = s.feed j := rfl
@[simp] theorem setLastAccess_flow (d : DestId) (v : Option AccessVerdict) (j : Fin 256) : (s.setLastAccess d v).flow j = s.flow j := rfl
@[simp] theorem setLastAccess_service (d : DestId) (v : Option AccessVerdict) (j : Fin 64) : (s.setLastAccess d v).service j = s.service j := rfl
@[simp] theorem setLastAccess_dest (d : DestId) (v : Option AccessVerdict) (j : DestId) : (s.setLastAccess d v).dest j = s.dest j := rfl
@[simp] theorem setLastAccess_portHalted (d : DestId) (v : Option AccessVerdict) (j : PortId) : (s.setLastAccess d v).portHalted j = s.portHalted j := rfl
@[simp] theorem setLastAccess_keySlot (d : DestId) (v : Option AccessVerdict) (j : Fin 32) : (s.setLastAccess d v).keySlot j = s.keySlot j := rfl
@[simp] theorem setLastAccess_profile (d : DestId) (v : Option AccessVerdict) (j : Fin 8) : (s.setLastAccess d v).profile j = s.profile j := rfl
@[simp] theorem setLastAccess_viewer (d : DestId) (v : Option AccessVerdict) (j : DestId) : (s.setLastAccess d v).viewer j = s.viewer j := rfl
@[simp] theorem setLastAccess_port (d : DestId) (v : Option AccessVerdict) (j : PortId) : (s.setLastAccess d v).port j = s.port j := rfl
@[simp] theorem setLastAccess_lastAccess_same (d : DestId) (v : Option AccessVerdict) : (s.setLastAccess d v).lastAccess d = v := by
  simp [State.lastAccess]
theorem setLastAccess_lastAccess (d : DestId) (v : Option AccessVerdict) (j : DestId) :
    (s.setLastAccess d v).lastAccess j = if j = d then v else s.lastAccess j := by
  simp [State.lastAccess, Table.read_write]

@[simp] theorem setEntitlement_feed (i : Fin 48) (x : Option Entitlement) (j : FeedId) : (s.setEntitlement i x).feed j = s.feed j := rfl
@[simp] theorem setEntitlement_flow (i : Fin 48) (x : Option Entitlement) (j : Fin 256) : (s.setEntitlement i x).flow j = s.flow j := rfl
@[simp] theorem setEntitlement_service (i : Fin 48) (x : Option Entitlement) (j : Fin 64) : (s.setEntitlement i x).service j = s.service j := rfl
@[simp] theorem setEntitlement_dest (i : Fin 48) (x : Option Entitlement) (j : DestId) : (s.setEntitlement i x).dest j = s.dest j := rfl
@[simp] theorem setEntitlement_portHalted (i : Fin 48) (x : Option Entitlement) (j : PortId) : (s.setEntitlement i x).portHalted j = s.portHalted j := rfl
@[simp] theorem setEntitlement_keySlot (i : Fin 48) (x : Option Entitlement) (j : Fin 32) : (s.setEntitlement i x).keySlot j = s.keySlot j := rfl
@[simp] theorem setEntitlement_profile (i : Fin 48) (x : Option Entitlement) (j : Fin 8) : (s.setEntitlement i x).profile j = s.profile j := rfl
@[simp] theorem setEntitlement_viewer (i : Fin 48) (x : Option Entitlement) (j : DestId) : (s.setEntitlement i x).viewer j = s.viewer j := rfl
@[simp] theorem setEntitlement_port (i : Fin 48) (x : Option Entitlement) (j : PortId) : (s.setEntitlement i x).port j = s.port j := rfl
@[simp] theorem setEntitlement_lastAccess (i : Fin 48) (x : Option Entitlement) (j : DestId) : (s.setEntitlement i x).lastAccess j = s.lastAccess j := rfl

@[simp] theorem send_feed (c : Sent) (j : FeedId) : (s.send c).feed j = s.feed j := rfl
@[simp] theorem send_flow (c : Sent) (j : Fin 256) : (s.send c).flow j = s.flow j := rfl
@[simp] theorem send_service (c : Sent) (j : Fin 64) : (s.send c).service j = s.service j := rfl
@[simp] theorem send_dest (c : Sent) (j : DestId) : (s.send c).dest j = s.dest j := rfl
@[simp] theorem send_portHalted (c : Sent) (j : PortId) : (s.send c).portHalted j = s.portHalted j := rfl
@[simp] theorem send_keySlot (c : Sent) (j : Fin 32) : (s.send c).keySlot j = s.keySlot j := rfl
@[simp] theorem send_profile (c : Sent) (j : Fin 8) : (s.send c).profile j = s.profile j := rfl
@[simp] theorem send_viewer (c : Sent) (j : DestId) : (s.send c).viewer j = s.viewer j := rfl
@[simp] theorem send_port (c : Sent) (j : PortId) : (s.send c).port j = s.port j := rfl
@[simp] theorem send_lastAccess (c : Sent) (j : DestId) : (s.send c).lastAccess j = s.lastAccess j := rfl

@[simp] theorem setEvents_feed (l : List EventRecord) (j : FeedId) : (s.setEvents l).feed j = s.feed j := rfl
@[simp] theorem setEvents_flow (l : List EventRecord) (j : Fin 256) : (s.setEvents l).flow j = s.flow j := rfl
@[simp] theorem setEvents_service (l : List EventRecord) (j : Fin 64) : (s.setEvents l).service j = s.service j := rfl
@[simp] theorem setEvents_dest (l : List EventRecord) (j : DestId) : (s.setEvents l).dest j = s.dest j := rfl
@[simp] theorem setEvents_portHalted (l : List EventRecord) (j : PortId) : (s.setEvents l).portHalted j = s.portHalted j := rfl
@[simp] theorem setEvents_keySlot (l : List EventRecord) (j : Fin 32) : (s.setEvents l).keySlot j = s.keySlot j := rfl
@[simp] theorem setEvents_profile (l : List EventRecord) (j : Fin 8) : (s.setEvents l).profile j = s.profile j := rfl
@[simp] theorem setEvents_viewer (l : List EventRecord) (j : DestId) : (s.setEvents l).viewer j = s.viewer j := rfl
@[simp] theorem setEvents_port (l : List EventRecord) (j : PortId) : (s.setEvents l).port j = s.port j := rfl
@[simp] theorem setEvents_lastAccess (l : List EventRecord) (j : DestId) : (s.setEvents l).lastAccess j = s.lastAccess j := rfl

@[simp] theorem countGuide_feed (f : GuideCounters → GuideCounters) (j : FeedId) : (s.countGuide f).feed j = s.feed j := rfl
@[simp] theorem countGuide_flow (f : GuideCounters → GuideCounters) (j : Fin 256) : (s.countGuide f).flow j = s.flow j := rfl
@[simp] theorem countGuide_service (f : GuideCounters → GuideCounters) (j : Fin 64) : (s.countGuide f).service j = s.service j := rfl
@[simp] theorem countGuide_dest (f : GuideCounters → GuideCounters) (j : DestId) : (s.countGuide f).dest j = s.dest j := rfl
@[simp] theorem countGuide_portHalted (f : GuideCounters → GuideCounters) (j : PortId) : (s.countGuide f).portHalted j = s.portHalted j := rfl
@[simp] theorem countGuide_keySlot (f : GuideCounters → GuideCounters) (j : Fin 32) : (s.countGuide f).keySlot j = s.keySlot j := rfl
@[simp] theorem countGuide_profile (f : GuideCounters → GuideCounters) (j : Fin 8) : (s.countGuide f).profile j = s.profile j := rfl
@[simp] theorem countGuide_viewer (f : GuideCounters → GuideCounters) (j : DestId) : (s.countGuide f).viewer j = s.viewer j := rfl
@[simp] theorem countGuide_port (f : GuideCounters → GuideCounters) (j : PortId) : (s.countGuide f).port j = s.port j := rfl
@[simp] theorem countGuide_lastAccess (f : GuideCounters → GuideCounters) (j : DestId) : (s.countGuide f).lastAccess j = s.lastAccess j := rfl

@[simp] theorem setSlot_feed (i : Fin 4) (x : Option Assembly) (j : FeedId) : (s.setSlot i x).feed j = s.feed j := rfl
@[simp] theorem setSlot_flow (i : Fin 4) (x : Option Assembly) (j : Fin 256) : (s.setSlot i x).flow j = s.flow j := rfl
@[simp] theorem setSlot_service (i : Fin 4) (x : Option Assembly) (j : Fin 64) : (s.setSlot i x).service j = s.service j := rfl
@[simp] theorem setSlot_dest (i : Fin 4) (x : Option Assembly) (j : DestId) : (s.setSlot i x).dest j = s.dest j := rfl
@[simp] theorem setSlot_portHalted (i : Fin 4) (x : Option Assembly) (j : PortId) : (s.setSlot i x).portHalted j = s.portHalted j := rfl
@[simp] theorem setSlot_keySlot (i : Fin 4) (x : Option Assembly) (j : Fin 32) : (s.setSlot i x).keySlot j = s.keySlot j := rfl
@[simp] theorem setSlot_profile (i : Fin 4) (x : Option Assembly) (j : Fin 8) : (s.setSlot i x).profile j = s.profile j := rfl
@[simp] theorem setSlot_viewer (i : Fin 4) (x : Option Assembly) (j : DestId) : (s.setSlot i x).viewer j = s.viewer j := rfl
@[simp] theorem setSlot_port (i : Fin 4) (x : Option Assembly) (j : PortId) : (s.setSlot i x).port j = s.port j := rfl
@[simp] theorem setSlot_lastAccess (i : Fin 4) (x : Option Assembly) (j : DestId) : (s.setSlot i x).lastAccess j = s.lastAccess j := rfl

@[simp] theorem setRegister_feed (i : Fin 128) (x : Option RegisterEntry) (j : FeedId) : (s.setRegister i x).feed j = s.feed j := rfl
@[simp] theorem setRegister_flow (i : Fin 128) (x : Option RegisterEntry) (j : Fin 256) : (s.setRegister i x).flow j = s.flow j := rfl
@[simp] theorem setRegister_service (i : Fin 128) (x : Option RegisterEntry) (j : Fin 64) : (s.setRegister i x).service j = s.service j := rfl
@[simp] theorem setRegister_dest (i : Fin 128) (x : Option RegisterEntry) (j : DestId) : (s.setRegister i x).dest j = s.dest j := rfl
@[simp] theorem setRegister_portHalted (i : Fin 128) (x : Option RegisterEntry) (j : PortId) : (s.setRegister i x).portHalted j = s.portHalted j := rfl
@[simp] theorem setRegister_keySlot (i : Fin 128) (x : Option RegisterEntry) (j : Fin 32) : (s.setRegister i x).keySlot j = s.keySlot j := rfl
@[simp] theorem setRegister_profile (i : Fin 128) (x : Option RegisterEntry) (j : Fin 8) : (s.setRegister i x).profile j = s.profile j := rfl
@[simp] theorem setRegister_viewer (i : Fin 128) (x : Option RegisterEntry) (j : DestId) : (s.setRegister i x).viewer j = s.viewer j := rfl
@[simp] theorem setRegister_port (i : Fin 128) (x : Option RegisterEntry) (j : PortId) : (s.setRegister i x).port j = s.port j := rfl
@[simp] theorem setRegister_lastAccess (i : Fin 128) (x : Option RegisterEntry) (j : DestId) : (s.setRegister i x).lastAccess j = s.lastAccess j := rfl

end Sys2Proof.Machine
end

