-- ==== Sys2Proof/Laws/Frame.lean ====
section
/-! SUPPORT. Frames: for each shared operation, the parts of the state it leaves as they stand, once, as one of a few relations
that chain. A later proof reads a field off, as in `(evaluate_frame d s).keys`. `Settled` and `UnitsKept` (Safety.lean) are two of them. -/

namespace Sys2Proof.Machine

/-- The widest frame: what every operation below the feeds, the time unit, the descrambler and the flow table leaves. -/
structure Frame (s t : State) : Prop where
  feeds : t.feeds = s.feeds
  flows : t.flows = s.flows
  time : t.time = s.time
  keys : t.keys = s.keys
  resetPin : t.resetPin = s.resetPin
  pending : t.pending = s.pending

/-- What every announcement between blocks leaves: beyond `Frame`, the services, the halted flags, the change set, all of the guide builder but the
current events, and what `Settled` says of the host link and the attention unit. -/
structure DeliveryFrame (s t : State) : Prop extends Frame s t where
  services : t.ctl.services = s.ctl.services
  halted : t.ctl.halted = s.ctl.halted
  changes : t.ctl.changes = s.ctl.changes
  acquireTime : t.ctl.acquireTime = s.ctl.acquireTime
  slots : t.guide.slots = s.guide.slots
  register : t.guide.register = s.guide.register
  events : t.guide.events = s.guide.events
  counters : t.guide.counters = s.guide.counters
  command : t.link.command = s.link.command
  arriving : t.link.arriving = s.link.arriving
  forwardDrops : t.link.forwardDrops = s.link.forwardDrops
  enabled : ∀ c, (t.attention.cause c).enabled = (s.attention.cause c).enabled
  snapshots : t.attention.snapshots = s.attention.snapshots

/-- What the handling of cells by the ports leaves: beyond `Frame`, the units, the services, the change set and the free choices. -/
structure OutputFrame (s t : State) : Prop extends Frame s t where
  access : t.access = s.access
  guide : t.guide = s.guide
  parental : t.parental = s.parental
  services : t.ctl.services = s.ctl.services
  changes : t.ctl.changes = s.ctl.changes
  acquireTime : t.ctl.acquireTime = s.ctl.acquireTime
  freeCount : t.freeCount = s.freeCount
  script : t.script = s.script

/-- What the parental unit's operations on destinations leave: beyond `Settled`, the access unit. -/
structure ParentalFrame (s t : State) : Prop extends Settled s t where
  access : t.access = s.access

/-- What raising and withdrawing leave: beyond `UnitsKept`, the controller and the ports. -/
structure AttentionFrame (s t : State) : Prop extends UnitsKept s t where
  ctl : t.ctl = s.ctl
  ports : t.ports = s.ports

/-! ## Chaining -/

theorem Frame.refl (s : State) : Frame s s := ⟨rfl, rfl, rfl, rfl, rfl, rfl⟩

theorem Frame.trans {s t u : State} (a : Frame s t) (b : Frame t u) : Frame s u :=
  ⟨b.feeds.trans a.feeds, b.flows.trans a.flows, b.time.trans a.time, b.keys.trans a.keys,
   b.resetPin.trans a.resetPin, b.pending.trans a.pending⟩

theorem DeliveryFrame.refl (s : State) : DeliveryFrame s s :=
  ⟨.refl s, rfl, rfl, rfl, rfl, rfl, rfl, rfl, rfl, rfl, rfl, rfl, fun _ => rfl, rfl⟩

theorem DeliveryFrame.trans {s t u : State} (a : DeliveryFrame s t) (b : DeliveryFrame t u) : DeliveryFrame s u :=
  ⟨a.toFrame.trans b.toFrame, b.services.trans a.services, b.halted.trans a.halted, b.changes.trans a.changes,
   b.acquireTime.trans a.acquireTime, b.slots.trans a.slots, b.register.trans a.register, b.events.trans a.events,
   b.counters.trans a.counters, b.command.trans a.command, b.arriving.trans a.arriving, b.forwardDrops.trans a.forwardDrops,
   fun c => (b.enabled c).trans (a.enabled c), b.snapshots.trans a.snapshots⟩

theorem OutputFrame.refl (s : State) : OutputFrame s s := ⟨.refl s, rfl, rfl, rfl, rfl, rfl, rfl, rfl, rfl⟩

theorem OutputFrame.trans {s t u : State} (a : OutputFrame s t) (b : OutputFrame t u) : OutputFrame s u :=
  ⟨a.toFrame.trans b.toFrame, b.access.trans a.access, b.guide.trans a.guide, b.parental.trans a.parental,
   b.services.trans a.services, b.changes.trans a.changes, b.acquireTime.trans a.acquireTime,
   b.freeCount.trans a.freeCount, b.script.trans a.script⟩

theorem Settled.refl (s : State) : Settled s s :=
  ⟨rfl, rfl, rfl, rfl, rfl, rfl, rfl, rfl, rfl, rfl, rfl, rfl, rfl, rfl, fun _ => rfl, rfl, rfl, rfl, rfl, rfl, rfl⟩

theorem Settled.trans {s t u : State} (a : Settled s t) (b : Settled t u) : Settled s u :=
  ⟨b.feeds.trans a.feeds, b.flows.trans a.flows, b.time.trans a.time, b.services.trans a.services,
   b.halted.trans a.halted, b.changes.trans a.changes, b.acquireTime.trans a.acquireTime, b.keys.trans a.keys,
   b.table.trans a.table, b.guide.trans a.guide, b.profiles.trans a.profiles, b.command.trans a.command, b.arriving.trans a.arriving,
   b.forwardDrops.trans a.forwardDrops, fun c => (b.enabled c).trans (a.enabled c), b.snapshots.trans a.snapshots,
   b.resetPin.trans a.resetPin, b.sent.trans a.sent, b.freeCount.trans a.freeCount, b.script.trans a.script,
   b.pending.trans a.pending⟩

theorem Settled.toFrame {s t : State} (a : Settled s t) : Frame s t :=
  ⟨a.feeds, a.flows, a.time, a.keys, a.resetPin, a.pending⟩

theorem Settled.toDeliveryFrame {s t : State} (a : Settled s t) : DeliveryFrame s t :=
  ⟨a.toFrame, a.services, a.halted, a.changes, a.acquireTime, by rw [a.guide], by rw [a.guide], by rw [a.guide],
   by rw [a.guide], a.command, a.arriving, a.forwardDrops, a.enabled, a.snapshots⟩

/-- A change of the change set alone carries through a frame. -/
theorem Settled.setChanges {s t : State} (a : Settled s t) (l : List (DestId × Fin 64)) :
    Settled (s.setChanges l) (t.setChanges l) :=
  ⟨a.feeds, a.flows, a.time, a.services, a.halted, rfl, a.acquireTime, a.keys, a.table, a.guide, a.profiles,
   a.command, a.arriving, a.forwardDrops, a.enabled, a.snapshots, a.resetPin, a.sent, a.freeCount, a.script, a.pending⟩

theorem ParentalFrame.refl (s : State) : ParentalFrame s s := ⟨.refl s, rfl⟩

theorem ParentalFrame.trans {s t u : State} (a : ParentalFrame s t) (b : ParentalFrame t u) : ParentalFrame s u :=
  ⟨a.toSettled.trans b.toSettled, b.access.trans a.access⟩

theorem UnitsKept.refl (s : State) : UnitsKept s s := ⟨.refl s, rfl, rfl⟩

theorem UnitsKept.trans {s t u : State} (a : UnitsKept s t) (b : UnitsKept t u) : UnitsKept s u :=
  ⟨a.toSettled.trans b.toSettled, b.access.trans a.access, b.parental.trans a.parental⟩

theorem UnitsKept.toParentalFrame {s t : State} (a : UnitsKept s t) : ParentalFrame s t := ⟨a.toSettled, a.access⟩

theorem UnitsKept.toOutputFrame {s t : State} (a : UnitsKept s t) : OutputFrame s t :=
  ⟨a.toFrame, a.access, a.guide, a.parental, a.services, a.changes, a.acquireTime, a.freeCount, a.script⟩

theorem AttentionFrame.refl (s : State) : AttentionFrame s s := ⟨.refl s, rfl, rfl⟩

theorem AttentionFrame.trans {s t u : State} (a : AttentionFrame s t) (b : AttentionFrame t u) : AttentionFrame s u :=
  ⟨a.toUnitsKept.trans b.toUnitsKept, b.ctl.trans a.ctl, b.ports.trans a.ports⟩

/-- A relation that holds of every single step holds of a run over a list. -/
theorem foldl_chain {α : Type} {R : State → State → Prop} (refl : ∀ s, R s s) (trans : ∀ {s t u}, R s t → R t u → R s u)
    {f : State → α → State} (h : ∀ s a, R s (f s a)) (l : List α) (s : State) : R s (l.foldl f s) := by
  induction l generalizing s with
  | nil => exact refl s
  | cons a l ih => exact trans (h s a) (ih (f s a))

theorem OutputFrame.ite {s t u : State} {c : Prop} [Decidable c] (a : OutputFrame s t) (b : OutputFrame s u) :
    OutputFrame s (if c then t else u) := by
  split
  · exact a
  · exact b

theorem OutputFrame.eachDest {f : DestId → State → State} (h : ∀ d s, OutputFrame s (f d s)) (s : State) :
    OutputFrame s (s.eachDest f) :=
  foldl_chain .refl .trans (fun s d => h d s) _ s

theorem UnitsKept.ite {s t u : State} {c : Prop} [Decidable c] (a : UnitsKept s t) (b : UnitsKept s u) :
    UnitsKept s (if c then t else u) := by
  split
  · exact a
  · exact b

theorem UnitsKept.eachDest {f : DestId → State → State} (h : ∀ d s, UnitsKept s (f d s)) (s : State) :
    UnitsKept s (s.eachDest f) :=
  foldl_chain .refl .trans (fun s d => h d s) _ s

theorem ParentalFrame.eachDest {f : DestId → State → State} (h : ∀ d s, ParentalFrame s (f d s)) (s : State) :
    ParentalFrame s (s.eachDest f) :=
  foldl_chain .refl .trans (fun s d => h d s) _ s

/-! ## Attention and the host link -/

/-- The presentation of a record leaves the command cell in progress and the drops counted. -/
theorem notify_kept (r : Option AttentionRecord) (l : HostLink) :
    (l.notify r).command = l.command ∧ (l.notify r).arriving = l.arriving ∧ (l.notify r).forwardDrops = l.forwardDrops := by
  cases r with
  | none => exact ⟨rfl, rfl, rfl⟩
  | some r =>
    simp only [HostLink.notify, HostLink.placeAttention, HostLink.placeRecord, HostLink.append, HostLink.ownReport,
      HostLink.closeFilling, HostLink.closeRecords]
    repeat' split
    all_goals exact ⟨rfl, rfl, rfl⟩

/-- A reply leaves the command cell in progress and the drops counted. -/
theorem placeRecord_kept (b : List Byte) (l : HostLink) :
    (l.placeRecord b).command = l.command ∧ (l.placeRecord b).arriving = l.arriving ∧ (l.placeRecord b).forwardDrops = l.forwardDrops := by
  simp only [HostLink.placeRecord, HostLink.append, HostLink.closeFilling, HostLink.closeRecords]
  repeat' split
  all_goals exact ⟨rfl, rfl, rfl⟩

/-- A change of the attention unit and the host link alone is in the frame, where the mask flags, the snapshots, the command cell in progress and
the drops counted stay. -/
theorem AttentionFrame.ofBoth (s : State) (a : Attention) (l : HostLink)
    (he : ∀ c, (a.cause c).enabled = (s.attention.cause c).enabled) (hs : a.snapshots = s.attention.snapshots)
    (hl : l.command = s.link.command ∧ l.arriving = s.link.arriving ∧ l.forwardDrops = s.link.forwardDrops) :
    AttentionFrame s { s with attention := a, link := l } :=
  ⟨⟨⟨rfl, rfl, rfl, rfl, rfl, rfl, rfl, rfl, rfl, rfl, rfl, hl.1, hl.2.1, hl.2.2, he, hs, rfl, rfl, rfl, rfl, rfl⟩, rfl, rfl⟩,
   rfl, rfl⟩

/-- Settling an attention unit whose mask flags and snapshots stand is in the frame. -/
theorem settleAttention_frame (a : Attention) (s : State)
    (he : ∀ c, (a.cause c).enabled = (s.attention.cause c).enabled) (hs : a.snapshots = s.attention.snapshots) :
    AttentionFrame s (s.settleAttention a) :=
  .ofBoth s _ _ he hs (notify_kept _ _)

theorem setCause_enabled (a : Attention) (c : Cause) (x : CauseState) (h : x.enabled = (a.cause c).enabled) (e : Cause) :
    ((a.setCause c x).cause e).enabled = (a.cause e).enabled := by
  by_cases he : e.row = c.row
  · simp [Attention.cause, Attention.setCause, he] at h ⊢
    exact h
  · simp only [Attention.cause, Attention.setCause, Table.read_write_other _ _ he]

theorem raise_frame (c : Cause) (x y : Byte) (s : State) : AttentionFrame s (s.raise c x y) :=
  settleAttention_frame _ s (setCause_enabled _ c _ rfl) rfl

theorem withdraw_frame (c : Cause) (x : Byte) (s : State) : AttentionFrame s (s.withdraw c x) :=
  settleAttention_frame _ s (setCause_enabled _ c _ rfl) rfl

theorem reply_frame (c : Byte) (t : Half) (r : Result) (b : List Byte) (s : State) : AttentionFrame s (s.reply c t r b) :=
  .ofBoth s _ _ (fun _ => rfl) rfl (placeRecord_kept _ _)

/-- A forwarded cell is queued, or counted as dropped; the attention unit and the host link alone change. -/
theorem offerForward_frame (c : Cell) (s : State) : OutputFrame s (s.offerForward c) := by
  unfold State.offerForward
  split
  · exact ⟨⟨rfl, rfl, rfl, rfl, rfl, rfl⟩, rfl, rfl, rfl, rfl, rfl, rfl, rfl, rfl⟩
  · refine OutputFrame.trans (t := { s with link := { s.link with forwardDrops := s.link.forwardDrops + 1 } }) ?_
      (raise_frame _ _ _ _).toOutputFrame
    exact ⟨⟨rfl, rfl, rfl, rfl, rfl, rfl⟩, rfl, rfl, rfl, rfl, rfl, rfl, rfl, rfl⟩

theorem settleCommand_frame (s : State) : OutputFrame s s.settleCommand :=
  ⟨⟨rfl, rfl, rfl, rfl, rfl, rfl⟩, rfl, rfl, rfl, rfl, rfl, rfl, rfl, rfl⟩

/-! ## The destination controller and the ports -/

/-- A change of the destinations and the ports is in the frame. -/
theorem UnitsKept.ofPorts (s : State) (x : Table Dest 12) (p : Table Port 4) :
    UnitsKept s { s with ctl := { s.ctl with dests := x }, ports := p } :=
  ⟨⟨rfl, rfl, rfl, rfl, rfl, rfl, rfl, rfl, rfl, rfl, rfl, rfl, rfl, rfl, fun _ => rfl, rfl, rfl, rfl, rfl, rfl, rfl⟩, rfl, rfl⟩

theorem setDest_frame (d : DestId) (x : Dest) (s : State) : UnitsKept s (s.setDest d x) := .ofPorts s _ _

theorem setPort_frame (p : PortId) (x : Port) (s : State) : UnitsKept s (s.setPort p x) := .ofPorts s _ _

theorem setPortHalted_frame (p : PortId) (b : Bool) (s : State) : OutputFrame s (s.setPortHalted p b) :=
  ⟨⟨rfl, rfl, rfl, rfl, rfl, rfl⟩, rfl, rfl, rfl, rfl, rfl, rfl, rfl, rfl⟩

theorem sendPort_frame (p : PortId) (c : Option Cell) (s : State) : OutputFrame s (s.sendPort p c) := by
  cases c
  · exact .refl s
  · exact ⟨⟨rfl, rfl, rfl, rfl, rfl, rfl⟩, rfl, rfl, rfl, rfl, rfl, rfl, rfl, rfl⟩

theorem acceptCell_frame (p : PortId) (c : Cell) (s : State) : OutputFrame s (s.acceptCell p c) :=
  (setPort_frame p _ s).toOutputFrame.trans (sendPort_frame p _ _)

theorem emitPort_frame (p : PortId) (s : State) : OutputFrame s (s.emitPort p) :=
  (setPort_frame p _ s).toOutputFrame.trans (sendPort_frame p _ _)

theorem purgeDest_frame (d : DestId) (n : Bool) (s : State) : UnitsKept s (s.purgeDest d n) :=
  (setPort_frame _ _ s).trans (setDest_frame _ _ _)

theorem withdraw_unitsKept (c : Cause) (x : Byte) (s : State) : UnitsKept s (s.withdraw c x) :=
  (withdraw_frame c x s).toUnitsKept

theorem raise_unitsKept (c : Cause) (x y : Byte) (s : State) : UnitsKept s (s.raise c x y) :=
  (raise_frame c x y s).toUnitsKept

theorem completionTest_frame (d : DestId) (s : State) : UnitsKept s (s.completionTest d) := by
  unfold State.completionTest
  dsimp only
  split
  · exact setDest_frame _ _ s
  · exact (setDest_frame _ _ s).trans (withdraw_unitsKept _ _ _)
  · exact setDest_frame _ _ s
  · exact .refl s

theorem enterAcquiring_frame (d : DestId) (s : State) : UnitsKept s (s.enterAcquiring d) :=
  (setDest_frame _ _ s).trans (completionTest_frame _ _)

theorem leaveDelivering_frame (d : DestId) (n : DestState) (s : State) : UnitsKept s (s.leaveDelivering d n) := by
  unfold State.leaveDelivering
  refine UnitsKept.trans ?_ (purgeDest_frame _ _ _)
  split
  · exact (setDest_frame _ _ s).trans (withdraw_unitsKept _ _ _)
  · exact setDest_frame _ _ s

theorem moveTo_frame (d : DestId) (n : DestState) (s : State) : UnitsKept s (s.moveTo d n) := by
  unfold State.moveTo
  dsimp only
  split
  · exact .refl s
  · split
    · exact enterAcquiring_frame d s
    · split
      · exact leaveDelivering_frame d n s
      · exact setDest_frame _ _ s

theorem evaluate_frame (d : DestId) (s : State) : UnitsKept s (s.evaluate d) := by
  unfold State.evaluate
  dsimp only
  split
  · exact .refl s
  · exact (setDest_frame _ _ s).trans (moveTo_frame _ _ _)

theorem evaluateAfresh_frame (d : DestId) (s : State) : UnitsKept s (s.evaluateAfresh d) :=
  (setDest_frame _ _ s).trans (moveTo_frame _ _ _)

theorem evaluatePort_frame (p : PortId) (s : State) : UnitsKept s (s.evaluatePort p) := by
  apply UnitsKept.eachDest
  intro d s
  split
  · exact evaluate_frame d s
  · exact .refl s

/-- Beyond the flag itself, an announcement of a halt leaves what an evaluation leaves. -/
theorem announceHalt_unitsKept (p : PortId) (b : Bool) (s : State) : UnitsKept (s.setPortHalted p b) (s.announceHalt p b) :=
  evaluatePort_frame p _

theorem announceHalt_frame (p : PortId) (b : Bool) (s : State) : OutputFrame s (s.announceHalt p b) :=
  (setPortHalted_frame p b s).trans (announceHalt_unitsKept p b s).toOutputFrame

theorem keyCommitted_frame (k : Fin 32) (s : State) : UnitsKept s (s.keyCommitted k) := by
  apply UnitsKept.eachDest
  intro d s
  dsimp only
  split
  · exact (setDest_frame _ _ s).trans (evaluate_frame d _)
  · exact .refl s

theorem offerCopy_frame (p : PortId) (c : Cell) (s : State) : OutputFrame s (s.offerCopy p c) := by
  unfold State.offerCopy
  dsimp only
  split
  · exact acceptCell_frame p c s
  · split
    · exact ((setPort_frame p _ s).trans (raise_unitsKept _ _ _ _)).toOutputFrame.trans (announceHalt_frame p true _)
    · exact .refl s

theorem offerNotice_frame (p : PortId) (c : Cell) (s : State) : OutputFrame s (s.offerNotice p c) := by
  unfold State.offerNotice
  split
  · exact acceptCell_frame p c s
  · exact .refl s

theorem countCopy_frame (d : DestId) (b : Bool) (s : State) : UnitsKept s (s.countCopy d b) := setDest_frame _ _ s

theorem fanOne_frame (k : Fin 256) (e : Programme) (c : Cell) (d : DestId) (s : State) :
    OutputFrame s (s.fanOne k e c d) := by
  have offered (x : Dest) (b : Bool) (p : PortId) (r : Cell) :
      OutputFrame s (((s.setDest d x).countCopy d b).offerCopy p r) :=
    ((setDest_frame d x s).trans (countCopy_frame d b _)).toOutputFrame.trans (offerCopy_frame p r _)
  unfold State.fanOne
  dsimp only
  exact .ite (.ite (.ite ((offered _ _ _ _).trans (completionTest_frame _ _).toOutputFrame) (offered _ _ _ _)) (setDest_frame _ _ s).toOutputFrame) (.refl s)

theorem fanOut_frame (k : Fin 256) (e : Programme) (c : Cell) (s : State) : OutputFrame s (s.fanOut k e c) :=
  OutputFrame.eachDest (fun d s => fanOne_frame k e c d s) s

theorem unkeyedOne_frame (e : Programme) (d : DestId) (s : State) : UnitsKept s (s.unkeyedOne e d) := by
  unfold State.unkeyedOne
  exact .ite (.ite ((setDest_frame _ _ s).trans (evaluate_frame d _)) (setDest_frame _ _ s)) (.refl s)

theorem unkeyedCell_frame (e : Programme) (s : State) : UnitsKept s (s.unkeyedCell e) :=
  UnitsKept.eachDest (fun d s => unkeyedOne_frame e d s) s

theorem programmeCell_frame (k : Fin 256) (e : Programme) (c : Cell) (s : State) :
    OutputFrame s (s.programmeCell k e c) := by
  unfold State.programmeCell
  split
  · exact fanOut_frame k e _ s
  · exact fanOut_frame k e _ s
  · exact (unkeyedCell_frame e s).toOutputFrame

theorem entryChanged_frame (k : Fin 256) (s : State) : UnitsKept s (s.entryChanged k) := by
  unfold State.entryChanged
  refine (UnitsKept.ofPorts s _ s.ports).trans (UnitsKept.eachDest ?_ _)
  intro d s
  split
  · exact completionTest_frame d s
  · exact .refl s

theorem noticeOne_frame (d : DestId) (s : State) : OutputFrame s (s.noticeOne d) := by
  unfold State.noticeOne
  dsimp only
  split
  · exact (setDest_frame _ _ s).toOutputFrame.trans (offerNotice_frame _ _ _)
  · exact .refl s

theorem notices_frame (s : State) : OutputFrame s s.notices :=
  OutputFrame.eachDest (fun d s => noticeOne_frame d s) s

/-! ## The parental unit -/

/-- A change of the unit's records of destinations alone is in its frame. -/
theorem ParentalFrame.ofViewers (s : State) (u : Table Viewer 12) :
    ParentalFrame s { s with parental := { s.parental with viewers := u } } :=
  ⟨⟨rfl, rfl, rfl, rfl, rfl, rfl, rfl, rfl, rfl, rfl, rfl, rfl, rfl, rfl, fun _ => rfl, rfl, rfl, rfl, rfl, rfl, rfl⟩, rfl⟩

theorem setViewer_frame (d : DestId) (x : Viewer) (s : State) : ParentalFrame s (s.setViewer d x) := .ofViewers s _

theorem openHold_frame (d : DestId) (s : State) : ParentalFrame s (s.openHold d) :=
  (setViewer_frame _ _ s).trans (raise_unitsKept _ _ _ _).toParentalFrame

theorem endHold_frame (d : DestId) (c : HoldCondition) (s : State) : ParentalFrame s (s.endHold d c) := by
  unfold State.endHold
  dsimp only
  split
  · exact (setViewer_frame _ _ s).trans (withdraw_unitsKept _ _ _).toParentalFrame
  · exact setViewer_frame _ _ s

theorem holdRule_frame (d : DestId) (s : State) : ParentalFrame s (s.holdRule d) := by
  unfold State.holdRule
  dsimp only
  split
  · exact .refl s
  · split
    · split
      · exact endHold_frame d _ s
      · split
        · exact openHold_frame d s
        · exact .refl s
    · exact endHold_frame d _ s

theorem clearMemory_frame (d : DestId) (s : State) : ParentalFrame s (s.clearMemory d) := by
  unfold State.clearMemory
  dsimp only
  split
  · exact setViewer_frame _ _ s
  · exact .refl s

theorem reportStored_frame (d : DestId) (s : State) : ParentalFrame s (s.reportStored d) := by
  unfold State.reportStored
  dsimp only
  split
  · exact .refl s
  · split
    · exact (setViewer_frame _ _ s).trans (setDest_frame _ _ _).toParentalFrame
    · exact setViewer_frame _ _ s

theorem reportHanded_frame (d : DestId) (s : State) : ParentalFrame s (s.reportHanded d) := by
  unfold State.reportHanded
  dsimp only
  split
  · exact (reportStored_frame d s).trans (evaluate_frame d _).toParentalFrame
  · exact reportStored_frame d s

theorem reportIfChanged_frame (d : DestId) (s : State) : ParentalFrame s (s.reportIfChanged d) := by
  unfold State.reportIfChanged
  split
  · exact .refl s
  · exact reportHanded_frame d s

theorem formVerdict_frame (d : DestId) (s : State) : ParentalFrame s (s.formVerdict d) := by
  unfold State.formVerdict
  dsimp only
  split
  · exact .refl s
  · exact (setViewer_frame _ _ s).trans (holdRule_frame d _)

theorem formAndReport_frame (d : DestId) (s : State) : ParentalFrame s (s.formAndReport d) :=
  (formVerdict_frame d s).trans (reportIfChanged_frame d _)

theorem formEach_frame (want : Dest → Bool) (s : State) : ParentalFrame s (s.formEach want) := by
  apply ParentalFrame.eachDest
  intro d s
  split
  · exact formAndReport_frame d s
  · exact .refl s

theorem placeBar_frame (d : DestId) (s : State) : ParentalFrame s (s.placeBar d) :=
  ((endHold_frame d _ s).trans (setViewer_frame _ _ _)).trans (reportStored_frame d _)

theorem liftBar_frame (d : DestId) (s : State) : ParentalFrame s (s.liftBar d) :=
  ((setViewer_frame _ _ s).trans (holdRule_frame d _)).trans (reportStored_frame d _)

theorem parentalChange_frame (d : DestId) (s : State) : ParentalFrame s (s.parentalChange d) :=
  (((endHold_frame d _ s).trans (setViewer_frame _ _ _)).trans (formVerdict_frame d _)).trans (reportStored_frame d _)

theorem parentalRetry_frame (d : DestId) (s : State) : ParentalFrame s (s.parentalRetry d) :=
  ((clearMemory_frame d s).trans (formVerdict_frame d _)).trans (reportStored_frame d _)

theorem parentalRelease_frame (d : DestId) (s : State) : ParentalFrame s (s.parentalRelease d) :=
  (endHold_frame d _ s).trans (setViewer_frame _ _ _)

theorem installUnlock_frame (d : DestId) (u : Unlock) (s : State) : ParentalFrame s (s.installUnlock d u) :=
  setViewer_frame _ _ s

theorem chargeOne_frame (p : Fin 8) (s : State) : DeliveryFrame s (s.chargeOne p) := by
  have h (x : Profile) : DeliveryFrame s (s.setProfile p x) :=
    ⟨⟨rfl, rfl, rfl, rfl, rfl, rfl⟩, rfl, rfl, rfl, rfl, rfl, rfl, rfl, rfl, rfl, rfl, rfl, fun _ => rfl, rfl⟩
  unfold State.chargeOne
  dsimp only
  split
  · exact .refl s
  · split
    · split
      · exact (h _).trans (raise_unitsKept _ _ _ _).toDeliveryFrame
      · exact h _
    · exact .refl s

theorem charge_frame (s : State) : DeliveryFrame s s.charge := by
  unfold State.charge
  refine foldl_chain .refl .trans ?_ _ s
  intro s p
  exact chargeOne_frame p s

theorem refill_frame (t : Word) (s : State) : DeliveryFrame s (s.refill t) := by
  unfold State.refill
  exact ⟨⟨rfl, rfl, rfl, rfl, rfl, rfl⟩, rfl, rfl, rfl, rfl, rfl, rfl, rfl, rfl, rfl, rfl, rfl, fun _ => rfl, rfl⟩

theorem parentalMark_frame (t : Word) (s : State) : DeliveryFrame s (s.parentalMark t) := by
  unfold State.parentalMark
  refine DeliveryFrame.trans ?_ (formEach_frame _ _).toDeliveryFrame
  exact ((refill_frame t s).trans (charge_frame _)).trans (ParentalFrame.ofViewers _ _).toDeliveryFrame

theorem parentalEventChange_frame (i : Fin 64) (s : State) : ParentalFrame s (s.parentalEventChange i) := by
  unfold State.parentalEventChange
  refine ParentalFrame.trans (ParentalFrame.eachDest ?_ s) (formEach_frame _ _)
  intro d s
  split
  · exact (clearMemory_frame d s).trans (setViewer_frame _ _ _)
  · exact .refl s

/-! ## Access reports and selections -/

theorem settleBar_frame (d : DestId) (o : Option AccessVerdict) (v : AccessVerdict) (s : State) :
    ParentalFrame s (s.settleBar d o v) := by
  unfold State.settleBar
  repeat' split
  · exact .refl s
  · exact placeBar_frame d s
  · exact liftBar_frame d s
  · exact .refl s

theorem accessLapse_frame (d : DestId) (o : Option AccessVerdict) (v : AccessVerdict) (s : State) :
    UnitsKept s (s.accessLapse d o v) := by
  unfold State.accessLapse
  split
  · exact raise_unitsKept _ _ _ s
  · exact .refl s

theorem storeAccess_frame (d : DestId) (v : AccessVerdict) (s : State) : UnitsKept s (s.storeAccess d v) :=
  setDest_frame _ _ s

theorem takeAccessReport_frame (d : DestId) (v : AccessVerdict) (s : State) : ParentalFrame s (s.takeAccessReport d v) := by
  unfold State.takeAccessReport
  dsimp only
  split
  · exact .refl s
  · exact (((storeAccess_frame d v s).toParentalFrame.trans (settleBar_frame d _ v _)).trans
      (accessLapse_frame d _ v _).toParentalFrame).trans (evaluate_frame d _).toParentalFrame

theorem barAtChange_frame (d : DestId) (v : AccessVerdict) (s : State) : ParentalFrame s (s.barAtChange d v) := by
  unfold State.barAtChange
  repeat' split
  · exact .refl s
  · exact placeBar_frame d s
  · exact liftBar_frame d s
  · exact .refl s

theorem setLastAccess_frame (d : DestId) (v : Option AccessVerdict) (s : State) : Settled s (s.setLastAccess d v) :=
  ⟨rfl, rfl, rfl, rfl, rfl, rfl, rfl, rfl, rfl, rfl, rfl, rfl, rfl, rfl, fun _ => rfl, rfl, rfl, rfl, rfl, rfl, rfl⟩

theorem storeLast_frame (l : List (DestId × AccessVerdict)) (s : State) : Settled s (s.storeLast l) := by
  unfold State.storeLast
  refine foldl_chain .refl .trans ?_ l s
  intro s r
  exact setLastAccess_frame r.1 _ s

theorem formAccessNow_frame (want : Dest → Bool) (s : State) : Settled s (s.formAccessNow want) := by
  unfold State.formAccessNow
  refine (storeLast_frame _ s).trans (foldl_chain .refl .trans ?_ _ _)
  intro s r
  exact (takeAccessReport_frame r.1 r.2 s).toSettled

theorem tellChange_frame (d : DestId) (s : State) : ParentalFrame s (s.tellChange d) := by
  unfold State.tellChange
  split
  · exact parentalChange_frame d s
  · exact setViewer_frame _ _ s

theorem tellRetry_frame (d : DestId) (s : State) : ParentalFrame s (s.tellRetry d) := by
  unfold State.tellRetry
  split
  · exact parentalRetry_frame d s
  · exact .refl s

theorem withdrawStall_frame (d : DestId) (s : State) : UnitsKept s (s.withdrawStall d) := by
  unfold State.withdrawStall
  split
  · exact withdraw_unitsKept _ _ s
  · exact .refl s

theorem fullPurge_frame (d : DestId) (s : State) : UnitsKept s (s.fullPurge d) := by
  unfold State.fullPurge
  split
  · exact .refl s
  · exact purgeDest_frame d true s

theorem clearAway_frame (d : DestId) (i : Fin 64) (s : State) : UnitsKept s (s.clearAway d i) :=
  ((purgeDest_frame d true s).trans (withdrawStall_frame d _)).trans (setDest_frame _ _ _)

theorem accessAtSelection_frame (d : DestId) (v : AccessVerdict) (s : State) : Settled s (s.accessAtSelection d v) :=
  (setLastAccess_frame d _ s).trans (storeAccess_frame d v _).toSettled

theorem applyChange_frame (d : DestId) (i : Fin 64) (s : State) : Settled s (s.applyChange d i) := by
  unfold State.applyChange
  dsimp only
  refine Settled.trans ?_ (evaluateAfresh_frame d _).toSettled
  refine Settled.trans ?_ (tellChange_frame d _).toSettled
  refine Settled.trans ?_ (barAtChange_frame d _ _).toSettled
  refine Settled.trans ?_ (accessAtSelection_frame d _ _)
  exact ((clearAway_frame d i s).trans (setDest_frame _ _ _)).toSettled

theorem applyRetry_frame (d : DestId) (i : Fin 64) (s : State) : Settled s (s.applyRetry d i) := by
  unfold State.applyRetry
  dsimp only
  refine Settled.trans ?_ (evaluate_frame d _).toSettled
  refine Settled.trans ?_ (tellRetry_frame d _).toSettled
  refine Settled.trans ?_ (settleBar_frame d _ _ _).toSettled
  refine Settled.trans ?_ (accessAtSelection_frame d _ _)
  exact (setDest_frame _ _ s).toSettled

theorem applySelection_frame (d : DestId) (i : Fin 64) (s : State) : Settled s (s.applySelection d i) := by
  unfold State.applySelection
  split
  · exact applyChange_frame d i s
  · exact .refl s
  · exact applyRetry_frame d i s

theorem applyAll_frame (l : List (DestId × Fin 64)) (s : State) : Settled s (s.applyAll l) := by
  unfold State.applyAll
  refine foldl_chain .refl .trans ?_ l s
  intro s e
  exact applySelection_frame e.1 e.2 s

/-- Beyond the change set, from which the destination's entry leaves, a release leaves what a settling leaves. -/
theorem releaseDest_frame (d : DestId) (s : State) :
    Settled (s.setChanges (s.ctl.changes.filter fun e => e.1 != d)) (s.releaseDest d) := by
  unfold State.releaseDest
  dsimp only
  refine Settled.trans ?_ (setDest_frame _ _ _).toSettled
  have h (x : Dest) : Settled s (((((s.fullPurge d).withdrawStall d).setDest d x).setLastAccess d none).parentalRelease d) :=
    ((((fullPurge_frame d s).trans (withdrawStall_frame d _)).trans (setDest_frame d x _)).toSettled.trans
      (setLastAccess_frame d none _)).trans (parentalRelease_frame d _).toSettled
  rw [(h _).changes]
  exact (h _).setChanges _

/-! ## The guide builder and the announcements -/

/-- A change of the guide builder alone is in the frame. -/
theorem Frame.ofGuide (s : State) (g : Guide) : Frame s { s with guide := g } := ⟨rfl, rfl, rfl, rfl, rfl, rfl⟩

theorem abandon_frame (q : Assembly → Bool) (s : State) : Frame s (s.abandon q) := by
  unfold State.abandon
  exact .ofGuide s _

theorem countGuide_frame (f : GuideCounters → GuideCounters) (s : State) : Frame s (s.countGuide f) := .ofGuide s _

theorem insert_frame (w : Applying) (e : EventRecord) : Frame w.state (w.insert e).state := by
  unfold Applying.insert
  dsimp only
  split
  · exact .ofGuide _ _
  · have h := (countGuide_frame (fun c => { c with evictions := c.evictions + 1 }) w.state).trans
      (raise_frame .guideFull 255 0 _).toFrame
    split
    · exact h.trans (.ofGuide _ _)
    · exact h.trans (.ofGuide _ _)

theorem foldInsert_frame (l : List EventRecord) (w : Applying) : Frame w.state (l.foldl Applying.insert w).state := by
  induction l generalizing w with
  | nil => exact .refl _
  | cons e l ih => exact (insert_frame w e).trans (ih _)

theorem applySection_frame (b : List Byte) (s : State) : Frame s (s.applySection b).state := by
  unfold State.applySection
  dsimp only
  refine Frame.trans ?_ (foldInsert_frame _ _)
  exact .ofGuide s _

theorem takeSection_frame (b : List Byte) (s : State) : Frame s (s.takeSection b).state := by
  unfold State.takeSection
  dsimp only
  split
  · split
    · exact .ofGuide s _
    · exact Frame.trans (.ofGuide s _) (applySection_frame b _)
  · split
    · exact Frame.trans (.ofGuide s _) (applySection_frame b _)
    · exact (countGuide_frame _ s).trans (raise_frame _ _ _ _).toFrame

theorem checkSection_frame (b : List Byte) (s : State) : Frame s (s.checkSection b).state := by
  unfold State.checkSection
  dsimp only
  split
  · exact .ofGuide s _
  · split
    · exact .ofGuide s _
    · exact takeSection_frame b s

theorem beginSection_frame (k : Fin 256) (f : FeedId) (c : Cell) (s : State) :
    Frame s (s.beginSection k f c).state := by
  unfold State.beginSection
  dsimp only
  have h : Frame s (s.abandonEntry k) := abandon_frame _ s
  split
  · exact h.trans (.ofGuide _ _)
  · split
    · exact h.trans (checkSection_frame _ _)
    · split
      · exact h.trans (.ofGuide _ _)
      · exact h.trans (.ofGuide _ _)

theorem continueSection_frame (k : Fin 256) (f : FeedId) (c : Cell) (s : State) :
    Frame s (s.continueSection k f c).state := by
  unfold State.continueSection
  dsimp only
  split
  · exact .refl s
  · split
    · exact .refl s
    · split
      · exact abandon_frame _ s
      · split
        · exact .ofGuide s _
        · exact Frame.trans (.ofGuide s _) (checkSection_frame _ _)

theorem guideCell_frame (k : Fin 256) (f : FeedId) (c : Cell) (s : State) : Frame s (s.guideCell k f c).state := by
  unfold State.guideCell
  split
  · exact beginSection_frame k f c s
  · exact continueSection_frame k f c s

theorem sweep_frame (t : Word) (s : State) : DeliveryFrame s (s.sweep t) :=
  ⟨⟨rfl, rfl, rfl, rfl, rfl, rfl⟩, rfl, rfl, rfl, rfl, rfl, rfl, rfl, rfl, rfl, rfl, rfl, fun _ => rfl, rfl⟩

theorem recompute_frame (want : Fin 64 → Bool) (s : State) : DeliveryFrame s (s.recompute want).1 := by
  have h (l : List EventChange) : DeliveryFrame s (s.storeCurrent l) :=
    ⟨⟨rfl, rfl, rfl, rfl, rfl, rfl⟩, rfl, rfl, rfl, rfl, rfl, rfl, rfl, rfl, rfl, rfl, rfl, fun _ => rfl, rfl⟩
  exact h _

theorem formAccess_frame (want : Dest → Bool) (s : State) : Settled s (s.formAccess want).1 := storeLast_frame _ s

theorem notices_deliveryFrame (s : State) : DeliveryFrame s s.notices := by
  have sent (p : PortId) (c : Option Cell) (s : State) : DeliveryFrame s (s.sendPort p c) := by
    cases c
    · exact .refl s
    · exact ⟨⟨rfl, rfl, rfl, rfl, rfl, rfl⟩, rfl, rfl, rfl, rfl, rfl, rfl, rfl, rfl, rfl, rfl, rfl, fun _ => rfl, rfl⟩
  have offered (p : PortId) (c : Cell) (s : State) : DeliveryFrame s (s.offerNotice p c) := by
    unfold State.offerNotice
    split
    · exact (setPort_frame _ _ s).toDeliveryFrame.trans (sent _ _ _)
    · exact .refl s
  have one (d : DestId) (s : State) : DeliveryFrame s (s.noticeOne d) := by
    unfold State.noticeOne
    dsimp only
    split
    · exact (setDest_frame _ _ s).toDeliveryFrame.trans (offered _ _ _)
    · exact .refl s
  exact foldl_chain .refl .trans (fun s d => one d s) _ s

theorem take_frame (a : Announcement) (s : State) : DeliveryFrame s (a.take s).1 := by
  cases a <;> dsimp only [Announcement.take]
  case guideTime => exact recompute_frame _ s
  case guideMark => exact recompute_frame _ s
  case accessTime => exact (formAccess_frame _ s).toDeliveryFrame
  case accessMark t => exact (sweep_frame t s).trans (formAccess_frame _ _).toDeliveryFrame
  case parentalTime => exact (formEach_frame _ s).toDeliveryFrame
  case parentalMark t => exact parentalMark_frame t s
  case controllerMark => exact notices_deliveryFrame s
  case accessChange c => exact (formAccess_frame _ s).toDeliveryFrame
  case parentalChange c => exact (parentalEventChange_frame c.index s).toDeliveryFrame
  case accessReport d v => exact (takeAccessReport_frame d v s).toDeliveryFrame

theorem choose_frame (n : Nat) (s : State) : DeliveryFrame s (s.choose n).2 := by
  unfold State.choose
  repeat' split
  · exact .refl s
  all_goals exact ⟨⟨rfl, rfl, rfl, rfl, rfl, rfl⟩, rfl, rfl, rfl, rfl, rfl, rfl, rfl, rfl, rfl, rfl, rfl, fun _ => rfl, rfl⟩

theorem nextTaker_frame (n : Nat) (s : State) : DeliveryFrame s (s.nextTaker n).2 := by
  unfold State.nextTaker
  split
  · exact .refl s
  · exact choose_frame n s

theorem deliverFor_frame (fuel : Nat) (l : List Announcement) (s : State) : DeliveryFrame s (deliverFor fuel l s) := by
  induction fuel generalizing l s with
  | zero => exact .refl s
  | succ fuel ih =>
    unfold deliverFor
    split
    · exact .refl s
    · exact ((nextTaker_frame _ s).trans (take_frame _ _)).trans (ih _ _)

theorem deliver_frame (l : List Announcement) (s : State) : DeliveryFrame s (s.deliver l) := deliverFor_frame _ l s

theorem finish_frame (w : Applying) : DeliveryFrame w.state w.finish := (recompute_frame _ _).trans (deliver_frame _ _)

end Sys2Proof.Machine
end

