-- ==== Sys2Proof/Laws/Intake.lean ====
section
/-! SUPPORT. The laws of the host link: order records written and read back, and what one order on a link at rest comes to. Statements
about an order rest on `exec_order_answered` (the order raises no attention) or on `takeOrder_atRest`. -/

namespace Sys2Proof

/-! ## Payloads and order records -/

theorem fitted_eq (n : Nat) (l : List Byte) : fitted n l = l.take n ++ List.replicate (n - l.length) 0 := by
  induction n generalizing l with
  | zero => simp [fitted]
  | succ n ih =>
    cases l with
    | nil => simp [fitted, ih, List.replicate_succ]
    | cons b l => simp [fitted, ih]

theorem payloadOf_rows {l : List Byte} (h : l.length ≤ 184) :
    (payloadOf l).rows = l ++ List.replicate (184 - l.length) 0 := by
  show fitted 184 l = _
  rw [fitted_eq, List.take_of_length_le h]

@[simp] theorem OrderRecord.bytes_length (r : OrderRecord) : r.bytes.length = 4 + r.body.length := by
  simp [OrderRecord.bytes]
  omega

theorem halves (h : Half) : h.extractLsb' 8 8 ++ h.extractLsb' 0 8 = h := by
  apply BitVec.eq_of_getLsbD_eq
  intro i hi
  simp only [BitVec.getLsbD_append, BitVec.getLsbD_extractLsb']
  split
  · simp [*]
  · next h8 =>
    have h1 : 8 + (i - 8) = i := by omega
    have h2 : i - 8 < 8 := by omega
    simp [h1, h2]

/-- An order record with a body of at most 180 bytes is read back from a payload that begins with its bytes. -/
theorem readRecord_bytes (r : OrderRecord) (hc : r.code ≠ 0) (h : r.body.length ≤ 180) :
    readRecord (payloadOf r.bytes) 0 = .whole r := by
  have hl : r.bytes.length ≤ 184 := by rw [r.bytes_length]; omega
  have hn : (BitVec.ofNat 8 r.body.length).toNat = r.body.length := by
    rw [BitVec.toNat_ofNat]
    exact Nat.mod_eq_of_lt (by omega)
  unfold readRecord
  rw [payloadOf_rows hl]
  simp [OrderRecord.bytes, hn, halves]
  exact hc

/-- Behind the one record of a payload the cell ends (R162). -/
theorem readRecord_end (r : OrderRecord) (h : r.body.length ≤ 180) :
    readRecord (payloadOf r.bytes) r.bytes.length = .cellEnds := by
  have hl : r.bytes.length ≤ 184 := by rw [r.bytes_length]; omega
  unfold readRecord
  rw [payloadOf_rows hl, List.drop_left]
  match 184 - r.bytes.length with
  | 0 | 1 | 2 | 3 => rfl
  | n + 4 => simp [List.replicate_succ]

end Sys2Proof

namespace Sys2Proof.Machine

/-! ## Orders and codes -/

@[simp] theorem ofCode_code (o : Order) : Order.ofCode o.code = some o := by cases o <;> rfl

theorem code_ne_zero (o : Order) : o.code ≠ 0 := by cases o <;> decide

theorem carryOut_order (o : Order) (tag : Half) {b : List Byte} (h : b.length = o.bodyLength) (s : State) :
    carryOut ⟨o.code, tag, b⟩ s = runOrder o b s := by
  simp [carryOut, h]

/-- An order commanded with the reset pin released is the taking of its record. -/
theorem exec_order (o : Order) (tag : Half) (b : List Byte) {s : State} (h : s.resetPin = false) :
    exec (orderCommand o tag b) s = .next (s.takeOrder ⟨o.code, tag, b⟩) := by
  have g : guarded (State.takeOrder ⟨o.code, tag, b⟩) s = .next (s.takeOrder ⟨o.code, tag, b⟩) := by
    simp [guarded, h]
  cases o <;> exact g

/-! ## One order on a link at rest -/

/-- The command cell of the one record `r`, read up to its end. -/
def lastRecord (r : OrderRecord) : CommandCell := ⟨builtCell 16382 true 0 0 r.bytes, r.bytes.length, false⟩

/-- The state while the one record `r` of its command cell is carried out. -/
def State.during (r : OrderRecord) (s : State) : State := { s with link := { s.link with command := some (lastRecord r) } }

/-! ### The part while an order is carried out: the host link apart, it is the part that the order found -/

@[simp] theorem during_feed (r : OrderRecord) (s : State) (f : FeedId) : (s.during r).feed f = s.feed f := rfl

@[simp] theorem during_flow (r : OrderRecord) (s : State) (k : Fin 256) : (s.during r).flow k = s.flow k := rfl

@[simp] theorem during_service (r : OrderRecord) (s : State) (i : Fin 64) : (s.during r).service i = s.service i := rfl

@[simp] theorem during_dest (r : OrderRecord) (s : State) (d : DestId) : (s.during r).dest d = s.dest d := rfl

@[simp] theorem during_portHalted (r : OrderRecord) (s : State) (p : PortId) : (s.during r).portHalted p = s.portHalted p := rfl

@[simp] theorem during_keySlot (r : OrderRecord) (s : State) (k : Fin 32) : (s.during r).keySlot k = s.keySlot k := rfl

@[simp] theorem during_profile (r : OrderRecord) (s : State) (p : Fin 8) : (s.during r).profile p = s.profile p := rfl

@[simp] theorem during_viewer (r : OrderRecord) (s : State) (d : DestId) : (s.during r).viewer d = s.viewer d := rfl

@[simp] theorem during_port (r : OrderRecord) (s : State) (p : PortId) : (s.during r).port p = s.port p := rfl

@[simp] theorem during_lastAccess (r : OrderRecord) (s : State) (d : DestId) : (s.during r).lastAccess d = s.lastAccess d := rfl

@[simp] theorem during_feeds (r : OrderRecord) (s : State) : (s.during r).feeds = s.feeds := rfl

@[simp] theorem during_flows (r : OrderRecord) (s : State) : (s.during r).flows = s.flows := rfl

@[simp] theorem during_time (r : OrderRecord) (s : State) : (s.during r).time = s.time := rfl

@[simp] theorem during_ctl (r : OrderRecord) (s : State) : (s.during r).ctl = s.ctl := rfl

@[simp] theorem during_keys (r : OrderRecord) (s : State) : (s.during r).keys = s.keys := rfl

@[simp] theorem during_access (r : OrderRecord) (s : State) : (s.during r).access = s.access := rfl

@[simp] theorem during_guide (r : OrderRecord) (s : State) : (s.during r).guide = s.guide := rfl

@[simp] theorem during_parental (r : OrderRecord) (s : State) : (s.during r).parental = s.parental := rfl

@[simp] theorem during_ports (r : OrderRecord) (s : State) : (s.during r).ports = s.ports := rfl

@[simp] theorem during_attention (r : OrderRecord) (s : State) : (s.during r).attention = s.attention := rfl

@[simp] theorem setFeed_during (r : OrderRecord) (s : State) (f : FeedId) (x : Feed) :
    (s.during r).setFeed f x = (s.setFeed f x).during r := rfl

@[simp] theorem setFlow_during (r : OrderRecord) (s : State) (k : Fin 256) (x : Option FlowEntry) :
    (s.during r).setFlow k x = (s.setFlow k x).during r := rfl

@[simp] theorem setService_during (r : OrderRecord) (s : State) (i : Fin 64) (x : Option Service) :
    (s.during r).setService i x = (s.setService i x).during r := rfl

@[simp] theorem setDest_during (r : OrderRecord) (s : State) (d : DestId) (x : Dest) :
    (s.during r).setDest d x = (s.setDest d x).during r := rfl

@[simp] theorem setKeySlot_during (r : OrderRecord) (s : State) (k : Fin 32) (x : KeySlot) :
    (s.during r).setKeySlot k x = (s.setKeySlot k x).during r := rfl

@[simp] theorem setProfile_during (r : OrderRecord) (s : State) (p : Fin 8) (x : Profile) :
    (s.during r).setProfile p x = (s.setProfile p x).during r := rfl

@[simp] theorem setViewer_during (r : OrderRecord) (s : State) (d : DestId) (x : Viewer) :
    (s.during r).setViewer d x = (s.setViewer d x).during r := rfl

@[simp] theorem setPort_during (r : OrderRecord) (s : State) (p : PortId) (x : Port) :
    (s.during r).setPort p x = (s.setPort p x).during r := rfl

@[simp] theorem setChanges_during (r : OrderRecord) (s : State) (l : List (DestId × Fin 64)) :
    (s.during r).setChanges l = (s.setChanges l).during r := rfl

@[simp] theorem abandon_during (r : OrderRecord) (s : State) (q : Assembly → Bool) :
    (s.during r).abandon q = (s.abandon q).during r := rfl

@[simp] theorem abandonFeed_during (r : OrderRecord) (s : State) (f : FeedId) :
    (s.during r).abandonFeed f = (s.abandonFeed f).during r := rfl

/-- With no cell held off there is nothing to take. -/
theorem letIn_none {s : State} (h : s.link.arriving = []) : s.letIn = s := by
  unfold State.letIn
  rw [h]
  unfold HostLink.takeArriving
  rw [← h]

/-- What a reply, the end of a command cell and the taking of cells held off come to: the host link alone changes. -/
theorem replied_blocks (c : Byte) (t : Half) (r : Result) (b : List Byte) (s : State) :
    ∃ l, (s.reply c t r b).settleCommand.letIn = { s with link := l } := by
  unfold State.letIn
  generalize HostLink.takeArriving _ _ = l
  exact ⟨l, rfl⟩

/-- An order commanded at a link at rest is carried out, its reply is placed, and the command cell ends. -/
theorem takeOrder_atRest {s : State} (h : LinkAtRest s) {r : OrderRecord} (hb : r.body.length ≤ 180) :
    s.takeOrder r =
      ((carryOut r (s.during r)).state.reply r.code r.tag (carryOut r (s.during r)).result
        (carryOut r (s.during r)).body).settleCommand.letIn := by
  have hi : s.link.intake = .opened := by
    have hp := h.places
    have hf : 2 ≤ 24 - s.link.outbound.length := by omega
    simp [HostLink.intake, h.command, h.waiting, HostLink.free, hf]
  have hf : bodyFits r.body = true := by simpa [bodyFits] using hb
  unfold State.takeOrder
  rw [h.command]
  simp only [hi, hf, and_self, if_true]
  simp [State.runRecord, HostLink.install, State.during, lastRecord, CommandCell.advance]

/-- With nothing waiting, the command cell whose last record was taken ends at once. -/
theorem settle_last {l : HostLink} {r : OrderRecord} {x : Bool} (hb : r.body.length ≤ 180)
    (hc : l.command = some { lastRecord r with discarding := x }) (hw : l.waiting = []) (n : Nat) :
    l.settle (n + 1) = l.endCell := by
  have hr : CommandCell.read { lastRecord r with discarding := x } = .cellEnds := readRecord_end r hb
  have hs : l.suspended { lastRecord r with discarding := x } = false := by
    simp [HostLink.suspended, hw, HostLink.lacksRoom, CommandCell.largestReply, hr]
  unfold HostLink.settle
  simp only [hc, hs, hr]
  rfl

theorem replyBytes_length (c : Byte) (t : Half) (r : Result) (b : List Byte) :
    (replyBytes c t r b).length = 6 + b.length := by
  simp [replyBytes, bytes16]
  omega

/-- A reply placed into a link that holds no open report cell, and the end of its command cell: one report cell more is queued. -/
theorem settle_reply {l : HostLink} {r : OrderRecord} {x : Bool} (hb : r.body.length ≤ 180)
    (hc : l.command = some { lastRecord r with discarding := x }) (hf : l.filling = none) (hw : l.waiting = [])
    (hp : l.outbound.length ≤ 23) {res : Result} {body : List Byte} (hl : body.length ≤ 178) :
    (l.placeRecord (replyBytes r.code r.tag res body)).settle 47 =
      HostLink.answered r.code r.tag res body { l with command := none } := by
  have hn := replyBytes_length r.code r.tag res body
  have hfit : l.fits (replyBytes r.code r.tag res body).length = true := by
    simp [HostLink.fits, hf, hn]
    omega
  unfold HostLink.placeRecord
  rw [if_pos hfit, settle_last (l := l.append _) (r := r) (x := x) hb hc hw]
  have hfree : 24 - l.outbound.length ≠ 0 := by omega
  simp [HostLink.endCell, HostLink.closeFilling, HostLink.append, hf, HostLink.closeRecords, hw, HostLink.free, hfree,
    HostLink.answered, HostLink.reportCell]

/-- An order record whose effect leaves the host link alone: the effect, and one reply more. -/
theorem takeOrder_answered {s t : State} (h : LinkAtRest s) {r : OrderRecord} (hb : r.body.length ≤ 180)
    {res : Result} {body : List Byte} (hl : body.length ≤ 178)
    (hr : carryOut r (s.during r) = ⟨t.during r, res, body⟩) (ht : t.link = s.link) :
    s.takeOrder r = t.answered r.code r.tag res body := by
  have hp := h.places
  rw [takeOrder_atRest h hb, hr]
  have e := settle_reply (l := (t.during r).link) (r := r) (x := false) hb rfl
    (by simpa [State.during, ht] using h.filling) (by simpa [State.during, ht] using h.waiting)
    (by simp only [State.during, ht]; omega) (res := res) hl
  have ha : (t.during r).link.arriving = [] := by simpa [State.during, ht] using h.arriving
  simp only [State.reply, State.settleCommand, e]
  rw [letIn_none (by simpa [HostLink.answered] using ha)]
  simp [State.during, State.answered, HostLink.answered, ht, h.command]

/-- An order of the right length whose effect leaves the host link alone. -/
theorem exec_order_answered (o : Order) (tag : Half) {b : List Byte} {s t : State} (h : LinkAtRest s)
    (hb : b.length = o.bodyLength) {res : Result} {body : List Byte} (hl : body.length ≤ 178)
    (hr : runOrder o b (s.during ⟨o.code, tag, b⟩) = ⟨t.during ⟨o.code, tag, b⟩, res, body⟩) (ht : t.link = s.link) :
    exec (orderCommand o tag b) s = .next (t.answered o.code tag res body) := by
  have hlen : b.length ≤ 180 := by rw [hb]; cases o <;> decide
  rw [exec_order o tag b h.pin]
  refine congrArg _ (takeOrder_answered h (r := ⟨o.code, tag, b⟩) hlen hl ?_ ht)
  rw [carryOut_order o tag hb]
  exact hr

/-- An order of the right length on a link at rest: every block but the host link is as the order's own effect leaves it. -/
theorem exec_order_blocks (o : Order) (tag : Half) {b : List Byte} {s : State} (h : LinkAtRest s)
    (hb : b.length = o.bodyLength) :
    ∃ l, exec (orderCommand o tag b) s =
      .next { (runOrder o b (s.during ⟨o.code, tag, b⟩)).state with link := l } := by
  have hlen : b.length ≤ 180 := by rw [hb]; cases o <;> decide
  rw [exec_order o tag b h.pin, takeOrder_atRest h (r := ⟨o.code, tag, b⟩) hlen, carryOut_order o tag hb]
  obtain ⟨l, h⟩ := replied_blocks o.code tag (runOrder o b (s.during ⟨o.code, tag, b⟩)).result
    (runOrder o b (s.during ⟨o.code, tag, b⟩)).body (runOrder o b (s.during ⟨o.code, tag, b⟩)).state
  exact ⟨l, congrArg _ h⟩

/-! ## Cells held off and the resuming of a command cell -/

/-- While the intake is not OPEN every cell stays held on the link (R161, R170). -/
theorem takeArriving_held {l : HostLink} (h : l.intake ≠ .opened) (cs : List Cell) :
    l.takeArriving cs = { l with arriving := cs } := by
  cases cs <;> simp [HostLink.takeArriving, h]

/-- While the intake is not OPEN the link takes nothing. -/
theorem letIn_held {s : State} (h : s.link.intake ≠ .opened) : s.letIn = s := by
  simp [State.letIn, takeArriving_held h]

/-- With no command cell in progress there is nothing to resume. -/
@[simp] theorem resume_none {before : HostLink} {s : State} (h : s.link.command = none) : s.resume before = s := by
  simp [State.resume, h]

/-- All that step 2 of R168 does: the command cell goes on, with room made, exactly where it was suspended and is so no longer. -/
theorem resume_cases {s : State} {k : CommandCell} (before : HostLink) (h : s.link.command = some k) :
    (before.suspended k = true ∧ s.link.suspended k = false ∧
      s.resume before = State.takeNext k { s with link := s.link.makeRoom k }) ∨
    ((before.suspended k = false ∨ s.link.suspended k = true) ∧ s.resume before = s) := by
  cases hb : before.suspended k <;> cases hs : s.link.suspended k <;> simp [State.resume, h, hb, hs]

/-- What stands next in a command cell that resumes is taken where it is an order to carry out (R164). -/
theorem takeNext_order {k : CommandCell} {r : OrderRecord} (h : k.read = .whole r) (hd : k.discarding = false) (s : State) :
    State.takeNext k s = s.runRecord r := by
  simp [State.takeNext, h, hd]

/-- A command that is an event, with the reset pin released. -/
theorem guarded_released {f : State → State} {s : State} (h : s.resetPin = false) : guarded f s = .next (f s) := by
  simp [guarded, h]

end Sys2Proof.Machine
end

