-- ==== Sys2Proof/Laws/Verdicts.lean ====
section
/-! SUPPORT. What the parental unit's operations leave of a destination's record, and which reports a trigger brings at the access unit: one
lemma for each, which proofs cite in place of unfolding it. -/

namespace Sys2Proof.Machine

/-! ## A destination's record at the parental unit -/

@[simp] theorem raise_viewer (c : Cause) (x y : Byte) (s : State) (e : DestId) : (s.raise c x y).viewer e = s.viewer e := rfl
@[simp] theorem withdraw_viewer (c : Cause) (x : Byte) (s : State) (e : DestId) : (s.withdraw c x).viewer e = s.viewer e := rfl
@[simp] theorem raise_dest (c : Cause) (x y : Byte) (s : State) (e : DestId) : (s.raise c x y).dest e = s.dest e := rfl
@[simp] theorem withdraw_dest (c : Cause) (x : Byte) (s : State) (e : DestId) : (s.withdraw c x).dest e = s.dest e := rfl

theorem withoutEventUnlock_eq_periodOnly (v : Viewer) : v.withoutEventUnlock = v.periodOnly := by
  obtain ⟨f, u, h, n, t, b, l⟩ := v
  match u with
  | none | some (.event _) | some (.period _) => rfl

/-- An open hold, or a memory, ends with condition `c` (R140). -/
theorem endHold_viewer (d : DestId) (c : HoldCondition) (s : State) :
    (s.endHold d c).viewer d = { s.viewer d with hold := c, timer := none } := by
  unfold State.endHold
  dsimp only
  split <;> simp

theorem endHold_dest (d : DestId) (c : HoldCondition) (s : State) (e : DestId) : (s.endHold d c).dest e = s.dest e := by
  unfold State.endHold
  dsimp only
  split <;> simp

theorem openHold_viewer (d : DestId) (s : State) :
    (s.openHold d).viewer d = { s.viewer d with
      hold := .opened, serial := (s.viewer d).serial + 1, timer := some ((s.profile (s.dest d).profile).askTimeout * 1000) } := by
  simp [State.openHold]

/-- The hold rule leaves of the record what `Viewer.ruled` says (R140). -/
theorem holdRule_viewer (d : DestId) (s : State) (f : Formed) (h : (s.viewer d).formed = some f) :
    (s.holdRule d).viewer d = Viewer.ruled (s.profile (s.dest d).profile) f (s.viewer d) := by
  simp only [State.holdRule, Viewer.ruled, h]
  by_cases hr : f.verdict = .restricted
  · cases hp : (s.profile (s.dest d).profile).policy with
    | blank => simp [hr, h, endHold_viewer]
    | ask =>
      by_cases ho : (s.viewer d).hold = .none ∧ (s.viewer d).barred = false
      · simp [hr, h, ho, openHold_viewer]
      · simp [hr, if_neg ho]
  · simp [hr, h, endHold_viewer]

theorem clearMemory_viewer (d : DestId) (s : State) : (s.clearMemory d).viewer d = (s.viewer d).forgetful := by
  unfold State.clearMemory Viewer.forgetful
  dsimp only
  split
  · simp [*]
  · simp

/-- A verdict formed is the present one, and the hold rule follows it (R136, R140). -/
theorem formVerdict_viewer (d : DestId) (s : State) (i : Fin 64) (h : (s.dest d).service = some i) :
    let p := s.profile (s.dest d).profile
    let f := s.formedFor p i (s.viewer d).unlock
    (s.formVerdict d).viewer d = Viewer.ruled p f { s.viewer d with formed := some f } := by
  simp only [State.formVerdict, h]
  simpa using holdRule_viewer d (s.setViewer d { s.viewer d with
    formed := some (s.formedFor (s.profile (s.dest d).profile) i (s.viewer d).unlock) }) _ (by simp)

/-! ## Reports of the access unit -/

/-- The reports that a trigger brings: one for each destination named that is not VACANT, with the verdict on its index, where that is not the last
report (R103, R104). -/
theorem mem_accessReports {want : Dest → Bool} {s : State} {d : DestId} {v : AccessVerdict} :
    (d, v) ∈ s.accessReports want ↔
      ∃ i, (s.dest d).service = some i ∧ (s.dest d).state ≠ .vacant ∧ want (s.dest d) = true ∧ v = s.accessVerdict i ∧
        s.lastAccess d ≠ some v := by
  simp only [State.accessReports, List.mem_filterMap, Prod.exists, Table.mem_entries]
  constructor
  · rintro ⟨e, x, rfl, h⟩
    split at h
    · split at h
      · simp_all [State.dest]
      · cases h
    · cases h
  · rintro ⟨i, hi, hv, hw, rfl, hl⟩
    refine ⟨d, s.dest d, rfl, ?_⟩
    simp [hi, hv, hw, hl]

/-- Storing a report list changes the last reports of the destinations it names alone. -/
theorem storeLast_lastAccess_other {d : DestId} (l : List (DestId × AccessVerdict)) (s : State) (h : ∀ r ∈ l, r.1 ≠ d) :
    (s.storeLast l).lastAccess d = s.lastAccess d := by
  unfold State.storeLast
  induction l generalizing s with
  | nil => rfl
  | cons r l ih =>
    rw [List.foldl_cons, ih _ fun q hq => h q (List.mem_cons_of_mem _ hq), setLastAccess_lastAccess,
      if_neg (h r List.mem_cons_self).symm]

end Sys2Proof.Machine
end

