-- ==== Sys2Proof/Tests/Slice0.lean ====
section
/-! SUPPORT. Tests: small states, one command each. Where a test follows a worked example of the spec, its comment names the section;
every other expected value is worked by hand from the rule named. The second half shows, for every statement of
Certificates/Slice0/Obligations.lean, a concrete state and operands that meet its hypotheses. -/

namespace Sys2Proof.Tests
set_option Elab.async false
open Sys2Proof Sys2Proof.Machine

/-! ## Small states and views -/

/-- The state after a command; the state itself where the command stops. -/
def after (c : Instr) (s : State) : State :=
  match exec c s with
  | .next t => t
  | _ => s

/-- The state after a step; the state itself where the step stops. -/
def stepped (s : State) : State :=
  match step s with
  | .next t => t
  | _ => s

/-- The result and the body of the reply at the end of the outbound queue, `n` body bytes of it. -/
def lastReply (n : Nat) (s : State) : List Byte :=
  match s.link.outbound.getLast? with
  | some (.report c) => (c.payload.rows.drop 4).take (2 + n)
  | _ => []

/-- The result byte of the reply. -/
def resultOf (s : State) : List Byte := (lastReply 0 s).take 1

/-- A well-formed CLEAR cell with unit-start. -/
def startCell (flow : BitVec 14) (seq : BitVec 5) : Cell := builtCell flow true seq 77 []

/-- A well-formed CLEAR cell without unit-start, with a payload. -/
def midCell (flow : BitVec 14) (seq : BitVec 5) (l : List Byte) : Cell := builtCell flow false seq 77 l

/-- The cell with key phase A. -/
def phaseA (c : Cell) : Cell := Cell.rechecked { c with phaseFlow := c.phaseFlow ||| 0x40 }

/-- A malformed cell: its sync is wrong. -/
def badCell : Cell := { startCell 256 0 with sync := 0 }

/-- Feed F2 in a state, on the reset part. -/
def feedIn (st : FeedState) (settle lapse : Nat) : State :=
  State.reset.setFeed 2 { Feed.reset with state := st, settleRun := settle, lapseRun := lapse, silence := some 0 }

/-- F2 LOCKED, and flow entry 255 with flow id 512. -/
def flowOf (kind : FlowKind) (mask : BitVec 14) (last : Option (BitVec 5)) : State :=
  (feedIn .locked 3 0).setFlow 255 (some ⟨some 2, 512, mask, kind, last⟩)

/-- A required VIDEO entry of service index 63 with key slot 31. -/
def video : Programme := ⟨63, .video, true, some 31⟩

/-- D11 on service index 63 (number 1201), bound to P3. -/
def destIn (kind : DestKind) (st : DestState) (s : State) : State :=
  (s.setService 63 (some ⟨1201, none⟩)).setDest 11
    { Dest.reset with kind := kind, port := 3, profile := 7, state := st, service := some 63, acquisition := some 0,
                      access := some .free, noticeSeq := 31 }

/-- P3 in a state, holding cells. -/
def portIn (st : PortState) (mode : PortMode) (cells : List Cell) (s : State) : State :=
  s.setPort 3 { Port.reset with state := st, mode := mode, queue := cells, slotRunning := st == .running && mode == .paced,
                                watch := if cells.isEmpty then none else some 0 }

/-- Network time in DISCIPLINED with source F2. -/
def timeAt (sec : Word) (ms : Nat) (slew : Int) (s : State) : State :=
  { s with time := { s.time with sec := sec, ms := ms, slew := slew, state := .disciplined, source := some 2, silence := some 0 } }

/-- The event 5001 of service 1201, from 1,000,000,000 for an hour, with rating 9 and product 300, 300 preview seconds. -/
def event5001 : EventRecord :=
  ⟨1201, 5001, 1000000000, 3600, 1000003600, 9, 300, 300, 1, 0⟩

/-- The guide holds event 5001, and it is the current event of index 63. -/
def withEvent (s : State) : State :=
  { s with guide := { s.guide with events := [event5001], current := s.guide.current.write 63 (some 5001) } }

/-- D11's record at the parental unit: restricted for RATING, with a hold. -/
def held (h : HoldCondition) (s : State) : State :=
  s.setViewer 11 { Viewer.reset with formed := some ⟨.restricted, ⟨true, false, false⟩, ⟨true, false, false⟩⟩
                                     hold := h, serial := 255, timer := some 0 }

/-- The host link with `n` cells in its outbound queue. -/
def queued (n : Nat) (s : State) : State :=
  { s with link := { s.link with outbound := List.replicate n (.report fillCell) } }

/-! ## Well-formedness refuses -/

theorem test_wf_long_body : (Instr.readTime 0 (List.replicate 181 0)).wf = false := by decide +kernel
theorem test_wf_long_unknown : (Instr.unknownOrder 0x7E 0 (List.replicate 181 0)).wf = false := by decide +kernel
theorem test_wf_unknown_zero : (Instr.unknownOrder 0 0 []).wf = false := by decide +kernel
theorem test_wf_unknown_known : (Instr.unknownOrder 0x54 0 []).wf = false := by decide +kernel
theorem test_wf_admits : (Instr.unknownOrder 0x7E 0 (List.replicate 180 0)).wf = true := by decide +kernel

/-! ## Cells and feeds (chapter 1) -/

/-- Section 1.2.4, arrival 5: the third well-formed cell locks the feed and is handled as in LOCKED. -/
theorem test_arrival_locks :
    ((after (.feedCellArrival 2 (startCell 256 0))
      ((feedIn .unsettled 2 0).setFlow 0 (some ⟨some 2, 256, 0x3FFF, .programme video, none⟩))).feed 2).state = .locked ∧
    ((after (.feedCellArrival 2 (startCell 256 0))
      ((feedIn .unsettled 2 0).setFlow 0 (some ⟨some 2, 256, 0x3FFF, .programme video, none⟩))).feed 2).tallies.routed = 1 := by
  decide +kernel

/-- Section 1.2.4, arrival 9: the second malformed cell in a row brings LAPSED and FEED_LAPSE for F2. -/
theorem test_arrival_lapses :
    ((after (.feedCellArrival 2 badCell) (feedIn .locked 3 1)).feed 2).state = .lapsed ∧
    (after (.feedCellArrival 2 badCell) (feedIn .locked 3 1)).attention.isPending .feedLapse 2 = true := by decide +kernel

/-- Section 1.3.6: the mask 16128 admits 800 and not 1024; the lower of two entries takes the cell. -/
theorem test_match_mask :
    (FlowEntry.mk none 768 16128 .discard none).matches 1 800 = true ∧
    (FlowEntry.mk none 768 16128 .discard none).matches 1 1024 = false := by decide

/-- Section 1.3.6: sequence 3 after 0 is a gap, 0 after 31 is accepted, 31 after 31 is a duplicate. -/
theorem test_sequence :
    (FlowEntry.mk none 512 16383 .discard (some 0)).sequenceCheck true 3 = .gap ∧
    (FlowEntry.mk none 512 16383 .discard (some 31)).sequenceCheck true 0 = .accepted ∧
    (FlowEntry.mk none 512 16383 .discard (some 31)).sequenceCheck true 31 = .duplicate := by decide

/-- R8: a silence timer that has run out brings LAPSED. -/
theorem test_silence : ((after (.silenceTimerExpiry 2) (feedIn .locked 3 0)).feed 2).state = .lapsed := by decide +kernel

theorem test_feed_enable : ((after (.feedEnable 0 [2]) State.reset).feed 2).state = .unsettled := by decide +kernel
theorem test_feed_disable : ((after (.feedDisable 0 [2]) (feedIn .locked 3 1)).feed 2).settleRun = 0 := by decide +kernel
/-- R12: 300 ms is stored as 200. -/
theorem test_feed_configure : lastReply 3 (after (.feedConfigure 0 [2, 1, 44, 0]) State.reset) = [0, 3, 0, 200, 0] := by
  decide +kernel
theorem test_feed_configure_active : resultOf (after (.feedConfigure 0 [2, 0, 20, 1]) (feedIn .locked 3 0)) = [7] := by
  decide +kernel
theorem test_read_feed : lastReply 6 (after (.readFeed 0 [2]) (feedIn .locked 3 1)) = [0, 6, 2, 3, 1, 0, 20, 1] := by
  decide +kernel

/-- R20: the fields of the body, most significant byte first. -/
theorem test_set_flow :
    (after (.setFlow 0 [0, 4, 1, 2, 0, 0x3F, 0xFF, 0, 7, 1, 1, 2]) State.reset).flow 4 =
      some ⟨some 1, 512, 0x3FFF, .programme ⟨7, .audio, true, some 2⟩, none⟩ := by decide +kernel
theorem test_clear_flow : (after (.clearFlow 0 [0, 255]) (flowOf .discard 0x3FFF none)).flow 255 = none := by decide +kernel
theorem test_read_flow :
    lastReply 21 (after (.readFlow 0 [0, 255]) (flowOf .clock 0x3FFF (some 9))) =
      [0, 21, 1, 1, 2, 1, 2, 0, 1, 0x3F, 0xFF, 1, 3, 0, 0, 0, 0, 0, 0, 0, 0, 1, 9] := by decide +kernel

/-! ## Time (chapter 2) -/

/-- Section 2.3.1, tick 1. -/
theorem test_tick : (after .timebaseTick (timeAt 1000000000 400 750 State.reset)).time.ms = 402 := by decide +kernel

/-- Section 2.3.1, tick 300: M passes 1000, and T rises. -/
theorem test_tick_mark :
    (after .timebaseTick (timeAt 1000000000 998 451 State.reset)).time.sec = 1000000001 ∧
    (after .timebaseTick (timeAt 1000000000 998 451 State.reset)).time.ms = 0 := by decide +kernel

/-- Section 2.3.1: the clock cell's slew is 750. Section 2.3.2, row 3: eleven seconds ahead across the wrap is a forward step. -/
theorem test_clock :
    (timeAt 1000000000 400 0 State.reset).time.compare 1000000001 150 = .slew 750 ∧
    (timeAt 4294967290 0 0 State.reset).time.compare 5 0 = .forwardStep ∧
    (timeAt 1000000000 0 0 State.reset).time.compare 3500000000 0 = .backwardStep := by decide +kernel

/-- Section 2.6.1. -/
theorem test_local_time :
    localDay 1000000001 (-300) = 11573 ∧ minuteOfDay 1000000001 (-300) = 1246 ∧
    localDay 10 (-300) = -1 ∧ minuteOfDay 10 (-300) = 1140 ∧ inQuiet 1260 390 1246 = false ∧ inQuiet 1260 390 1260 = true := by
  decide

/-- R34. -/
theorem test_source_silence :
    (after .sourceSilenceTimerExpiry (timeAt 1000000110 0 0 State.reset)).time.state = .free ∧
    (after .sourceSilenceTimerExpiry (timeAt 1000000110 0 0 State.reset)).attention.isPending .time 255 = true := by
  decide +kernel

/-- R38: −1000 is stored as −840, and another source brings DISCIPLINED to FREE. -/
theorem test_set_time_source :
    lastReply 4 (after (.setTimeSource 0 [3, 0xFC, 0x18]) (timeAt 5 0 0 State.reset)) = [0, 4, 3, 0xFC, 0xB8, 2] := by
  decide +kernel

/-- R39 on the figures of section 2.6.1: local day 11,573 = 0x2D35, minute 1,246 = 0x04DE. -/
theorem test_read_time :
    lastReply 21 (after (.readTime 0 [])
      { timeAt 1000000001 0 450 State.reset with
        time := { (timeAt 1000000001 0 450 State.reset).time with offset := -300 } }) =
      [0, 21, 0x3B, 0x9A, 0xCA, 0x01, 0, 0, 1, 1, 0xC2, 2, 0xFE, 0xD4, 1, 1, 0, 0, 0x2D, 0x35, 1, 0x04, 0xDE] := by
  decide +kernel

/-! ## Services, destinations and channel change (chapters 3 and 4) -/

theorem test_set_service :
    (after (.setService 0 [63, 0x04, 0xB1, 1, 44]) State.reset).service 63 = some ⟨1201, some 300⟩ := by decide +kernel
/-- R41: a number that another valid record holds is refused with IN_USE. -/
theorem test_set_service_taken :
    resultOf (after (.setService 0 [0, 0x04, 0xB1, 0, 0]) (destIn .view .vacant State.reset)) = [5] := by decide +kernel
theorem test_clear_service :
    resultOf (after (.clearService 0 [63]) (destIn .view .held State.reset)) = [5] ∧
    (after (.clearService 0 [63]) (State.reset.setService 63 (some ⟨1201, none⟩))).service 63 = none := by decide +kernel
theorem test_read_service :
    lastReply 9 (after (.readService 0 [63]) (destIn .view .held State.reset)) = [0, 9, 1, 1, 0x04, 0xB1, 0, 0, 0, 1, 1] := by
  decide +kernel
theorem test_bind_destination :
    ((after (.bindDestination 0 [11, 1, 3, 7, 5]) State.reset).dest 11).roles = ⟨true, false, true, false⟩ ∧
    resultOf (after (.bindDestination 0 [11, 1, 3, 7, 5]) (destIn .view .held State.reset)) = [6] := by decide +kernel
theorem test_read_destination :
    (lastReply 34 (after (.readDestination 0 [11]) (destIn .view .stalled State.reset))).take 14 =
      [0, 34, 0, 3, 7, 15, 3, 1, 63, 0, 1, 0, 1, 0] := by decide +kernel

/-- R63 to R66: a SELECT of a service without entries brings a RECORD destination to PRESENTING at once; it loses an EVENT unlock (R139). -/
theorem test_select :
    let s := ((State.reset.setService 63 (some ⟨1201, none⟩)).setDest 11 { Dest.reset with kind := .record }).setViewer 11
      { Viewer.reset with unlock := some (.event 5001) }
    lastReply 3 (after (.select 0 [11, 63, 0]) s) = [0, 3, 0, 2, 0] ∧
      ((after (.select 0 [11, 63, 0]) s).viewer 11).unlock = none := by decide +kernel
/-- R62: the first staged entry: one entry, place 1, not replaced. -/
theorem test_select_staged :
    lastReply 3 (after (.select 0 [11, 63, 1]) (State.reset.setService 63 (some ⟨1201, none⟩))) = [0, 3, 1, 1, 0] := by
  decide +kernel
theorem test_take :
    ((after (.take 0 []) ((State.reset.setService 63 (some ⟨1201, none⟩)).setChanges [(11, 63)])).dest 11).service = some 63 := by
  decide +kernel
theorem test_discard_changes :
    lastReply 1 (after (.discardChanges 0 []) (State.reset.setChanges [(11, 63)])) = [0, 1, 1] := by decide +kernel
theorem test_read_changes :
    lastReply 3 (after (.readChanges 0 []) (State.reset.setChanges [(11, 63)])) = [0, 3, 1, 11, 63] := by decide +kernel
theorem test_release :
    ((after (.release 0 [11]) (destIn .view .stalled State.reset)).dest 11).state = .vacant := by decide +kernel
/-- R71: 6000 is stored as 5000. -/
theorem test_set_acquire_time :
    lastReply 2 (after (.setAcquireTime 0 [0x17, 0x70]) State.reset) = [0, 2, 0x13, 0x88] := by decide +kernel
theorem test_acquisition_expiry :
    ((after (.acquisitionTimerExpiry 11) (destIn .view .acquiring State.reset)).dest 11).state = .stalled ∧
    (after (.acquisitionTimerExpiry 11) (destIn .view .acquiring State.reset)).attention.isPending .stall 11 = true := by
  decide +kernel

/-! ## Keys (chapter 5) -/

/-- Section 5.4.1: the seed number 0x0200035A met by the same KW0 gives 1, and the next two values of x. -/
theorem test_keystream :
    seed 512 3 0x0200035A = 1 ∧ seed 512 4 0x0200035A = 0x700 ∧ generate 1 = 0x00042021 ∧
    generate 0x00042021 = 0x04080601 := by decide

/-- R78, R79: quarter 3 commits under the reset mask. -/
theorem test_load_key_quarter :
    lastReply 2 (after (.loadKeyQuarter 0 [31, 2, 3, 0, 0, 0, 9]) State.reset) = [0, 2, 1, 1] ∧
    ((after (.loadKeyQuarter 0 [31, 2, 3, 0, 0, 0, 9]) State.reset).keySlot 31).b.key = ⟨0, 0, 0, 9⟩ := by decide +kernel
theorem test_load_key_staged :
    lastReply 2 (after (.loadKeyQuarter 0 [31, 1, 0, 0, 0, 0, 9]) State.reset) = [0, 2, 0, 0] := by decide +kernel
theorem test_set_commit_mask : ((after (.setCommitMask 0 [31, 5]) State.reset).keySlot 31).commitMask = 5 := by decide +kernel
theorem test_clear_key : lastReply 1 (after (.clearKey 0 [31, 1]) State.reset) = [0, 1, 0] := by decide +kernel
theorem test_read_key_state : lastReply 3 (after (.readKeyState 0 [31]) State.reset) = [0, 3, 0, 0, 8] := by decide +kernel

/-! ## Entitlements and the access decision (chapter 6) -/

/-- Section 6.6, event 6: the grant fills place 0: DONE, place 0, NEW, 1 record. -/
theorem test_grant_entitlement :
    lastReply 3 (after (.grantEntitlement 0 ([1, 1, 44, 0x12, 0x67] ++ bytes32 1000003600 ++ bytes32 1000009000)) State.reset) =
      [0, 3, 0, 0, 1] := by decide +kernel
theorem test_revoke_entitlement :
    resultOf (after (.revokeEntitlement 0 [0, 1, 44, 0, 0]) State.reset) = [4] := by decide +kernel
theorem test_read_entitlement :
    lastReply 17 (after (.readEntitlement 0 [0]) (timeAt 5 0 0 (State.reset.setEntitlement 0 (some ⟨.subscription 300, 5, 6⟩)))) =
      [0, 17, 1, 0, 1, 44, 0, 0, 0, 0, 0, 0, 5, 0, 0, 0, 6, 1, 1] := by decide +kernel

/-- Section 6.6, events 2 and 5: PREVIEW until the preview seconds have run, then DENIED with NO_PURCHASE. -/
theorem test_access_verdict :
    (withEvent (timeAt 1000000299 0 0 (destIn .view .held State.reset))).accessVerdict 63 = .preview ∧
    (withEvent (timeAt 1000000300 0 0 (destIn .view .held State.reset))).accessVerdict 63 = .denied .noPurchase := by
  decide +kernel

/-! ## The guide (chapter 7) -/

/-- R113: the check value starts at 0xFFFF and takes the bytes most significant bit first with polynomial 0x8005;
one byte 0xFF leaves 0xFF00 (the high byte cancels to zero and eight doublings shift the low byte up). -/
theorem test_check_value : checkValue [0xFF] = 0xFF00 := by decide

theorem test_purge_guide :
    lastReply 4 (after (.purgeGuide 0 [0x04, 0xB1]) (withEvent State.reset)) = [0, 4, 0, 1, 0, 0] := by decide +kernel
theorem test_query_event :
    (lastReply 23 (after (.queryEvent 0 ([0x04, 0xB1] ++ bytes32 1000003599)) (withEvent State.reset))).take 9 =
      [0, 23, 1, 0x13, 0x89, 0x3B, 0x9A, 0xCA, 0] ∧
    (lastReply 23 (after (.queryEvent 0 ([0x04, 0xB1] ++ bytes32 1000003600)) (withEvent State.reset))).take 3 = [0, 23, 0] := by
  decide +kernel
theorem test_query_next :
    (lastReply 23 (after (.queryNext 0 ([0x04, 0xB1] ++ bytes32 999999999)) (withEvent State.reset))).take 5 =
      [0, 23, 1, 0x13, 0x89] := by decide +kernel
theorem test_read_guide :
    ((lastReply 79 (after (.readGuide 0 []) (withEvent State.reset))).drop 42).take 3 = [0, 0, 1] := by decide +kernel

/-! ## Parental limits (chapter 8) -/

/-- R129: an allowance of 2 minutes over UNLIMITED stores 120 remaining seconds, and an ask timeout of 400 is stored as 300. -/
theorem test_set_profile :
    (after (.setProfile 0 [7, 9, 1, 0x04, 0xEC, 1, 0x86, 0, 2, 1, 1, 144]) State.reset).profile 7 =
      ⟨9, true, 1260, 390, some ⟨2, 120⟩, 0, .ask, 300⟩ := by decide +kernel
theorem test_read_profile :
    (lastReply 22 (after (.readProfile 0 [7]) State.reset)) =
      [0, 22, 15, 0, 0, 0, 0, 0, 0xFF, 0xFF, 0xFF, 0xFF, 0xFF, 0xFF, 0, 0, 0, 0, 0, 0, 30, 0, 0, 0] := by decide +kernel
theorem test_add_allowance :
    lastReply 4 (after (.addAllowance 0 [7, 0, 0, 0, 200])
      (State.reset.setProfile 7 { Profile.reset with allowance := some ⟨2, 5⟩ })) = [0, 4, 0, 0, 0, 120] := by decide +kernel
/-- R138: in UNSET, T counts as 0, so the until time is held to 14,400 = 0x3840. -/
theorem test_grant_unlock :
    lastReply 9 (after (.grantUnlock 0 [11, 1, 0, 0, 0xFF, 0xFF, 0xFF, 0xFF]) State.reset) =
      [0, 9, 1, 0, 0, 0, 0, 0x38, 0x40, 0, 0] := by decide +kernel
theorem test_resolve_hold_not_held : resultOf (after (.resolveHold 0 [11, 0, 1, 0]) State.reset) = [9] := by decide +kernel
/-- R141: a DECLINE closes the hold with its memory. -/
theorem test_resolve_hold_decline :
    ((after (.resolveHold 0 [11, 0, 1, 1])
      (State.reset.setViewer 11 { Viewer.reset with hold := .opened, serial := 1, timer := some 9 })).viewer 11).hold =
        .declined := by decide +kernel
theorem test_hold_expiry :
    ((after (.holdTimerExpiry 11)
      (State.reset.setViewer 11 { Viewer.reset with hold := .opened, serial := 1, timer := some 0 })).viewer 11).hold =
        .noAnswer := by decide +kernel
theorem test_read_parental :
    lastReply 21 (after (.readParental 0 [11]) State.reset) = 0 :: 21 :: List.replicate 21 0 := by decide +kernel

/-! ## Delivery ports (chapter 9) -/

theorem test_port_configure :
    lastReply 5 (after (.portConfigure 0 [3, 1, 0, 10, 1, 0]) State.reset) = [0, 5, 1, 0, 20, 1, 0] := by decide +kernel
theorem test_port_start : ((after (.portStart 0 [3]) State.reset).port 3).state = .running := by decide +kernel
theorem test_port_stop :
    lastReply 2 (after (.portStop 0 [3]) (portIn .running .demand [fillCell] State.reset)) = [0, 2, 1, 1] := by decide +kernel
theorem test_port_clear :
    lastReply 2 (after (.portClear 0 [3])
      (State.reset.setPort 3 { Port.reset with state := .halted, overflow := true, unheard := true })) = [0, 2, 3, 1] := by
  decide +kernel
theorem test_read_port :
    lastReply 14 (after (.readPort 0 [3]) State.reset) = [0, 14, 0, 0, 0, 100, 0, 0, 0, 0, 0, 0, 0, 0, 0, 0] := by
  decide +kernel
/-- Section 9.10, slot 1 and slot 4: a ready streamer takes the head cell, one that is not ready takes none. -/
theorem test_slot :
    ((after (.slotTimerExpiry 3 true) (portIn .running .paced [fillCell, fillCell] State.reset)).port 3).watch = some 250 ∧
    (after (.slotTimerExpiry 3 false) (portIn .running .paced [fillCell] State.reset)).sent = [] := by decide +kernel
theorem test_drain :
    (after (.drain 3) (portIn .running .demand [fillCell] State.reset)).sent = [.port 3 fillCell] ∧
    ((after (.drain 3) (portIn .running .demand [fillCell] State.reset)).port 3).watch = none := by decide +kernel
theorem test_drain_watch :
    ((after (.drainWatchExpiry 3) (portIn .running .demand [fillCell] State.reset)).port 3).unheard = true := by decide +kernel

/-! ## The host link, attention, tallies, resets (chapters 10 and 11) -/

/-- Section 10.4.1, record 3: the unknown code is answered UNKNOWN_ORDER with its code and tag. -/
theorem test_unknown_order :
    (after (.unknownOrder 0x7E 0x0103 [1, 2]) State.reset).link.outbound =
      [.report (builtCell 16381 true 0 255 [1, 0x7E, 1, 3, 1, 0])] := by decide +kernel

/-- R161, R162: the first order of a command cell then stands ready, and its reply is placed in the open report cell. -/
theorem test_command_cell :
    (after (.commandCell (builtCell 16382 true 0 0 [0x53, 1, 4, 0])) State.reset).link.intake = .busy ∧
    (after (.commandCell (startCell 256 0)) State.reset).link.intake = .opened := by decide +kernel

/-- Section 10.4.1: with 23 cells queued the intake is HELD; an emission makes room for two. -/
theorem test_emission :
    (queued 23 State.reset).link.intake = .held ∧ (after .emission (queued 23 State.reset)).link.intake = .opened := by
  decide +kernel

/-- R161, R170: a cell sent in HELD is held off on the link, and taken at the emission that leaves two free places. -/
theorem test_held_cell :
    let s := after (.commandCell (builtCell 16382 true 0 0 [0x53, 1, 4, 0])) (queued 23 State.reset)
    s.link.intake = .held ∧ s.link.arriving.length = 1 ∧
      (after .emission s).link.intake = .busy ∧ (after .emission s).link.arriving = [] := by decide +kernel

/-- R164, R168: READ_IDENTITY is suspended behind 170 bytes of records and a full queue; the emission queues those records in the place that
comes free, takes the order, and closes the cell, which then waits. -/
theorem test_resumed_order :
    let k : CommandCell := ⟨builtCell 16382 true 0 0 [0x53, 1, 4, 0], 0, false⟩
    let s := { queued 24 State.reset with link := { (queued 24 State.reset).link with command := some k, filling := some (List.replicate 170 9) } }
    s.link.suspended k = true ∧ (after (.readIdentity 0x0104 []) s) = s ∧
      (after .emission s).link.command = none ∧ (after .emission s).link.outbound.length = 24 ∧
      ((after .emission s).link.waiting.map fun c => c.payload.rows.take 7) = [[1, 0x53, 1, 4, 0, 9, 0x07]] := by decide +kernel

theorem test_ack_attention :
    lastReply 6 (after (.ackAttention 0 [7, 11]) (State.reset.raise .stall 11 0)) = [0, 6, 0, 0, 0, 0, 0, 0] := by decide +kernel
/-- Section 11.2.1, the last row: the mask taken away, FEED_LAPSE for F3 is presented. -/
theorem test_set_attention_mask :
    (after (.setAttentionMask 0 [2, 0]) (State.reset.raise .feedLapse 3 0)).attention.presented = none ∧
    (after (.setAttentionMask 0 [2, 1]) (State.reset.raise .feedLapse 3 0)).attention.presented = some ⟨.feedLapse, 3, 0⟩ := by
  decide +kernel
/-- R177: the first snapshot of a group answers with zeros. -/
theorem test_snapshot_tallies :
    lastReply 5 (after (.snapshotTallies 0 [24]) State.reset) = [0, 5, 24, 0, 0, 0, 0] := by decide +kernel
/-- R178. -/
theorem test_read_identity :
    lastReply 9 (after (.readIdentity 0 []) State.reset) = [0, 9, 0x07, 0x40, 2, 8, 4, 12, 32, 1, 0] := by decide +kernel
theorem test_reset_part :
    (after (.resetPart 0 [1]) (feedIn .locked 3 1)).feed 2 = { Feed.reset with state := .unsettled } ∧
    (after (.resetPart 0 [0]) (feedIn .locked 3 1)).feed 2 = Feed.reset := by decide +kernel
theorem test_reset_pin :
    (after .resetAssert (queued 5 State.reset)).link.outbound = [] ∧
    (after .timebaseTick (after .resetAssert (timeAt 5 5 0 State.reset))).time.ms = 5 := by decide +kernel
theorem test_reset_release : (after .resetRelease (feedIn .locked 3 1)).feed 2 = Feed.reset := by decide +kernel

/-- A step takes the front of the queue; an empty queue idles (log entry 1). -/
theorem test_step :
    (stepped { State.reset with pending := [.feedEnable 0 [2], .feedDisable 0 [2]] }).pending = [.feedDisable 0 [2]] ∧
    ((stepped { State.reset with pending := [.feedEnable 0 [2], .feedDisable 0 [2]] }).feed 2).state = .unsettled ∧
    stepped State.reset = State.reset := by decide +kernel

/-! ## Witnesses: a state and operands that meet the hypotheses of each statement -/

/-- The part with its outbound queue at the last length at which the intake is OPEN. -/
def rest : State := queued 22 State.reset

/-- Every state of this file whose host link is that of `rest` takes an order. -/
theorem atRest {s : State} (hp : s.resetPin = false) (h : s.link = rest.link) : LinkAtRest s :=
  ⟨hp, by rw [h]; rfl, by rw [h]; rfl, by rw [h]; rfl, by rw [h]; rfl, by rw [h]; decide +kernel⟩

theorem witness_StepTakesFront : State.reset.pending = [] := rfl

theorem witness_ResetPinAndRelease :
    ({ State.reset with resetPin := true } : State).resetPin = true ∧
      Instr.timebaseTick ≠ .resetAssert ∧ Instr.timebaseTick ≠ .resetRelease := ⟨rfl, nofun, nofun⟩

theorem witness_RecordsReadBack :
    (∃ r : OrderRecord, r.code ≠ 0 ∧ r.body.length = 180 ∧ ([] ++ r.bytes ++ []).length = 184) ∧
    (∃ (before : List Byte) (r : OrderRecord), r.code ≠ 0 ∧ r.body.length ≤ 180 ∧ before.length = 180 ∧
      (before ++ r.bytes ++ []).length = 184) ∧
    ∃ before : List Byte, before.length = 184 :=
  ⟨⟨⟨0x54, 0, List.replicate 180 0⟩, by decide +kernel⟩,
   ⟨List.replicate 180 0, ⟨0x54, 0, []⟩, by decide +kernel⟩, ⟨List.replicate 184 0, by decide +kernel⟩⟩

theorem witness_RefusedUnread :
    LinkAtRest rest ∧ (List.replicate 180 (0 : Byte)).length ≤ 180 ∧ (0xFF : Byte) ≠ 0 ∧ Order.ofCode 0xFF = none ∧
      (List.replicate 180 (0 : Byte)).length ≠ Order.take.bodyLength ∧ ([] : List Byte).length ≠ Order.resetPart.bodyLength :=
  ⟨atRest rfl rfl, by decide +kernel⟩

theorem witness_FeedLockAndLapse :
    ((feedIn .off 0 0).feed 2).state = .off ∧
    ((feedIn .lapsed 1 0).feed 2).state = .lapsed ∧ badCell.wellFormed = false ∧ (startCell 256 0).wellFormed = true ∧
    ((feedIn .lapsed 1 0).feed 2).settleRun < 2 ∧ 2 ≤ ((feedIn .unsettled 2 0).feed 2).settleRun ∧
    ((feedIn .locked 3 0).feed 2).state = .locked ∧ ((feedIn .locked 3 0).feed 2).lapseRun = 0 ∧
    1 ≤ ((feedIn .locked 3 1).feed 2).lapseRun ∧ (feedIn .locked 3 1).resetPin = false := by decide +kernel

theorem witness_Screening :
    (feedIn .locked 3 0).resetPin = false ∧ ((feedIn .locked 3 0).feed 2).state = .locked ∧
    ∀ n ∈ [16379, 16380, 16382, 16383],
      (startCell (BitVec.ofNat 14 n) 0).wellFormed = true ∧ (startCell (BitVec.ofNat 14 n) 0).flowId.toNat = n := by
  decide +kernel

/-- A cell of flow 512 at the LOCKED feed F2 survives screening. -/
theorem survives_512 (kind : FlowKind) (mask : BitVec 14) (last : Option (BitVec 5)) (seq : BitVec 5) (us : Bool) (l : List Byte)
    (hw : (builtCell 512 us seq 77 l).wellFormed = true) (hf : (builtCell 512 us seq 77 l).flowId.toNat = 512) :
    Survives (flowOf kind mask last) 2 (builtCell 512 us seq 77 l) :=
  ⟨rfl, by rfl, hw, by omega⟩

theorem witness_Matching :
    Survives (feedIn .locked 3 0) 2 (startCell 16379 0) ∧
      (∀ j e, (feedIn .locked 3 0).flow j = some e → e.matches 2 (startCell 16379 0).flowId = false) ∧
      ((flowOf .discard 0x3FFF none).matchEntry 2 512).map (·.1) = some 255 :=
  ⟨⟨rfl, by decide +kernel, by decide +kernel, by decide +kernel⟩,
   by intro j e h; simp [feedIn, State.flow, State.setFeed, State.reset] at h, by decide +kernel⟩

/-- A cell that survives screening and is not sequence checked is taken. -/
theorem taken_unchecked {s : State} {c : Cell} {k : Fin 256} {e : FlowEntry} (h : Survives s 2 c)
    (hm : s.matchEntry 2 c.flowId = some (k, e)) (hc : e.mask ≠ 0x3FFF) : Taken s 2 c k e (s.heard 2) :=
  ⟨h, hm, .unchecked fun x => hc x.2⟩

/-- The entry of flow 512 with mask 0x3FFE takes a cell of flow 512, which is not sequence checked. -/
theorem taken_512 (kind : FlowKind) (c : Cell) (s : State) (hp : s.resetPin = false) (hl : (s.feed 2).state = .locked)
    (hw : c.wellFormed = true) (hf : c.flowId.toNat ≤ 16379)
    (hm : s.matchEntry 2 c.flowId = some (255, ⟨some 2, 512, 0x3FFE, kind, none⟩)) :
    Taken s 2 c 255 ⟨some 2, 512, 0x3FFE, kind, none⟩ (s.heard 2) :=
  taken_unchecked ⟨hp, hl, hw, hf⟩ hm (show (0x3FFE : BitVec 14) ≠ 0x3FFF by decide)

theorem witness_SequenceCheck :
    (let e : FlowEntry := ⟨some 2, 512, 0x3FFF, .guide, some 31⟩
     let s := flowOf .guide 0x3FFF (some 31)
     Taken s 2 (startCell 512 0) 255 e ((s.heard 2).sequenced 255 e (startCell 512 0)) ∧
     Taken s 2 (startCell 512 1) 255 e ((((s.heard 2).countFeed 2 .gap).sequenced 255 e (startCell 512 1)).abandonEntry 255)) ∧
    Taken (flowOf .guide 0x3FFE none) 2 (startCell 512 0) 255 ⟨some 2, 512, 0x3FFE, .guide, none⟩ ((flowOf .guide 0x3FFE none).heard 2) ∧
    Survives (flowOf .discard 0x3FFF none) 2 (startCell 512 0) ∧
    (flowOf .discard 0x3FFF none).matchEntry 2 (startCell 512 0).flowId =
      some (255, ⟨some 2, 512, 0x3FFF, .discard, none⟩) ∧
    ((flowOf .discard 0x3FFF none).feed 2).checking = true ∧
    (flowOf .discard 0x3FFF (some 31)).matchEntry 2 (startCell 512 0).flowId =
      some (255, ⟨some 2, 512, 0x3FFF, .discard, some 31⟩) ∧ (startCell 512 0).seq = 31 + 1 ∧
    (startCell 512 31).seq = 31 ∧ (startCell 512 1).seq ≠ 31 ∧ (startCell 512 1).seq ≠ 31 + 1 ∧
    (flowOf .discard 0x3FFE none).matchEntry 2 (startCell 512 0).flowId =
      some (255, ⟨some 2, 512, 0x3FFE, .discard, none⟩) ∧ (0x3FFE : BitVec 14) ≠ 0x3FFF := by
  refine ⟨⟨⟨⟨rfl, ?_, ?_, ?_⟩, ?_, .accepted ⟨?_, rfl⟩ ?_⟩, ⟨⟨rfl, ?_, ?_, ?_⟩, ?_, .gap 31 ⟨?_, rfl⟩ rfl ?_ ?_⟩⟩,
    taken_512 _ _ _ rfl ?_ ?_ ?_ ?_, ⟨rfl, ?_, ?_, ?_⟩, ?_⟩ <;> decide +kernel

theorem witness_ForwardedAndUnheardCells :
    (let s := queued 23 (flowOf .accessMessage 0x3FFE none)
     Taken s 2 (startCell 512 0) 255 ⟨some 2, 512, 0x3FFE, .accessMessage, none⟩ (s.heard 2)) ∧
    (queued 23 (flowOf .accessMessage 0x3FFE none)).link.forwardedCount < 16 ∧
    (queued 23 (flowOf .accessMessage 0x3FFE none)).link.outbound.length = 23 ∧
    24 ≤ (queued 24 (flowOf .accessMessage 0x3FFE none)).link.outbound.length ∧
    16 ≤ ({ State.reset.link with outbound := List.replicate 16 (.forwarded fillCell) } : HostLink).forwardedCount ∧
    (let s := flowOf (.programme video) 0x3FFE none
     Taken s 2 (startCell 512 0) 255 ⟨some 2, 512, 0x3FFE, .programme video, none⟩ (s.heard 2)) ∧
    ∀ d, ¬ (((flowOf (.programme video) 0x3FFE none).dest d).state.delivering = true ∧
      ((flowOf (.programme video) 0x3FFE none).dest d).service = some video.service ∧
      ((flowOf (.programme video) 0x3FFE none).dest d).roles.has video.role = true) :=
  ⟨taken_512 _ _ _ rfl (by decide +kernel) (by decide +kernel) (by decide +kernel) (by decide +kernel),
   by decide +kernel, by decide +kernel, by decide +kernel, by decide +kernel,
   taken_512 _ _ _ rfl (by decide +kernel) (by decide +kernel) (by decide +kernel) (by decide +kernel), by decide +kernel⟩

theorem witness_FeedEnableDisable :
    LinkAtRest rest ∧ (rest.feed 7).state = .off ∧
    LinkAtRest (queued 22 (feedIn .lapsed 2 0)) ∧ ((queued 22 (feedIn .lapsed 2 0)).feed 2).state ≠ .off ∧
    8 ≤ (8 : Byte).toNat :=
  ⟨atRest rfl rfl, by decide +kernel, atRest rfl rfl, by decide +kernel, by decide⟩

theorem witness_FeedConfigureAndRead :
    LinkAtRest rest ∧ (rest.feed 7).state = .off ∧ LinkAtRest (queued 22 (feedIn .locked 3 0)) ∧
    (1 : Byte).toNat ≤ 1 ∧ ((queued 22 (feedIn .locked 3 0)).feed 2).state ≠ .off ∧ 8 ≤ (8 : Byte).toNat ∧ 2 ≤ (2 : Byte).toNat :=
  ⟨atRest rfl rfl, by decide +kernel, atRest rfl rfl, by decide +kernel⟩

theorem witness_FlowTableOrders :
    LinkAtRest rest ∧ rest.flow 255 = none ∧ 256 ≤ (256 : Half).toNat ∧ 8 ≤ (254 : Byte).toNat ∧ (254 : Byte).toNat ≠ 255 ∧
    16384 ≤ (16384 : Half).toNat ∧ 5 ≤ (5 : Byte).toNat ∧ (0 : Byte).toNat = 0 ∧ 64 ≤ (64 : Byte).toNat ∧ 4 ≤ (4 : Byte).toNat ∧
    32 ≤ (32 : Byte).toNat ∧ (32 : Byte).toNat ≠ 255 ∧
    LinkAtRest (queued 22 (flowOf (.programme video) 0x3FFF (some 31))) ∧
    (queued 22 (flowOf (.programme video) 0x3FFF (some 31))).flow 255 = some ⟨some 2, 512, 0x3FFF, .programme video, some 31⟩ ∧
    LinkAtRest (queued 22 (flowOf .clock 0x3FFF none)) ∧
    (queued 22 (flowOf .clock 0x3FFF none)).flow 255 = some ⟨some 2, 512, 0x3FFF, .clock, none⟩ :=
  ⟨atRest rfl rfl, by decide +kernel, by decide, by decide, by decide, by decide, by decide, by decide, by decide, by decide,
   by decide, by decide, atRest rfl rfl, by decide +kernel, atRest rfl rfl, by decide +kernel⟩

theorem witness_ProgrammeOutcome :
    (startCell 512 0).phase = 0 ∧ (phaseA (startCell 512 0)).phase = 1 ∧
    (Cell.rechecked { startCell 512 0 with phaseFlow := 0x82 }).phase = 2 ∧
    (State.reset.keySlot 31).a.valid = false ∧ (State.reset.keySlot 31).b.valid = false ∧
    ((State.reset.setKeySlot 31 ⟨⟨true, .zero, .zero⟩, ⟨true, .zero, .zero⟩, 0⟩).keySlot 31).a.valid = true ∧
    ((State.reset.setKeySlot 31 ⟨⟨true, .zero, .zero⟩, ⟨true, .zero, .zero⟩, 0⟩).keySlot 31).b.valid = true := by decide +kernel

theorem witness_Descrambling :
    45 < 46 ∧ (startCell 512 0).flowId.toNat * 65536 + (startCell 512 0).seq.toNat * 256 + 90 = 0x0200005A ∧
    0x0200005A ^^^ (0x0200005A : Word).toNat = 0 ∧ 0x0200005A ^^^ (0 : Word).toNat ≠ 0 := by decide +kernel

/-- D11 delivering with a mark, an unkeyed run and its port RUNNING with 63 or 64 cells. -/
def delivering (run : Nat) (marks : List (Fin 256)) (st : PortState) (n : Nat) : State :=
  let s := portIn st .demand (List.replicate n fillCell) (destIn .view .presenting State.reset)
  s.setDest 11 { s.dest 11 with unkeyedRun := run, marks := marks }

/-- `delivering` with a port in DEMAND mode that holds nothing and whose streamer is ready. -/
def readyPort (marks : List (Fin 256)) : State :=
  let s := delivering 0 marks .running 0
  s.setPort 3 { s.port 3 with accept := true }

/-- A flow's cell at a PROGRAMME entry, with key slot 31 holding a key for phase A or none. -/
def keyed (valid : Bool) : State := (flowOf (.programme video) 0x3FFE none).setKeySlot 31 ⟨⟨valid, .zero, .zero⟩, ⟨false, .zero, .zero⟩, 8⟩

theorem witness_ProgrammeCells :
    ((∀ c ∈ [startCell 512 0, phaseA (startCell 512 0)], ∀ valid,
        Taken (keyed valid) 2 c 255 ⟨some 2, 512, 0x3FFE, .programme video, none⟩ ((keyed valid).heard 2)) ∧
      (keyed true).outcome (startCell 512 0) video.keySlot = .clear ∧
      (keyed true).outcome (phaseA (startCell 512 0)) video.keySlot = .descrambled .zero ∧
      (keyed false).outcome (phaseA (startCell 512 0)) video.keySlot = .unkeyed) ∧
    let x := (delivering 23 [255] .running 63).dest 11
    ¬ (State.reset.dest 11).state.delivering = true ∧
    (x.state.delivering = true ∧ x.service = some video.service ∧ x.roles.has video.role = true) ∧
    (255 : Fin 256) ∈ x.marks ∧ (0 : Fin 256) ∉ x.marks ∧ (midCell 512 0 []).unitStart = false ∧ (startCell 512 0).unitStart = true ∧
    ((delivering 23 [255] .running 63).port 3).state = .running ∧ ((delivering 23 [255] .running 63).port 3).queue.length < 64 ∧
    ((delivering 23 [255] .running 63).port 3).accept = false ∧
    (let y := readyPort [255]
     (y.dest 11).state.delivering = true ∧ (y.dest 11).marks = [255] ∧ (y.port 3).state = .running ∧ (y.port 3).queue = [] ∧
       (y.port 3).mode = .demand ∧ (y.port 3).accept = true ∧ ((readyPort []).dest 11).marks = []) ∧
    64 ≤ ((delivering 23 [255] .running 64).port 3).queue.length ∧
    ((delivering 23 [255] .running 64).port 3).overflowHalt = false ∧ ((delivering 23 [] .off 0).port 3).state ≠ .running ∧
    video.required = true ∧ ({ video with required := false } : Programme).required = false ∧
    ((delivering 22 [] .running 0).dest 11).unkeyedRun + 1 < 24 ∧ 24 ≤ x.unkeyedRun + 1 := by
  refine ⟨⟨?_, by decide +kernel⟩, by decide +kernel⟩
  intro c hc valid
  have h : ∀ c ∈ [startCell 512 0, phaseA (startCell 512 0)], ∀ valid,
      ((keyed valid).feed 2).state = .locked ∧ c.wellFormed = true ∧ c.flowId.toNat ≤ 16379 ∧
        (keyed valid).matchEntry 2 c.flowId = some (255, ⟨some 2, 512, 0x3FFE, .programme video, none⟩) := by decide +kernel
  obtain ⟨h1, h2, h3, h4⟩ := h c hc valid
  exact taken_512 _ _ _ rfl h1 h2 h3 h4

/-- In `delivering` no destination but D11 delivers, and D11 holds the verdict FREE. -/
theorem delivering_permitted (run : Nat) (st : PortState) (n : Nat) : DeliveryPermitted (delivering run [] st n) := by
  intro d
  by_cases h : d = 11
  · subst h
    intro _
    exact ⟨nofun, fun _ r hr => nomatch hr⟩
  · intro hd
    simp [delivering, portIn, destIn, State.dest, State.setDest, State.setPort, State.setService, Table.read_write, h,
      State.reset, Controller.reset, Dest.reset, DestState.delivering] at hd

theorem witness_OverflowHalts :
    let s := (portIn .running .demand (List.replicate 64 fillCell) State.reset)
    let t := s.setPort 3 { s.port 3 with overflowHalt := true }
    (t.port 3).state = .running ∧ 64 ≤ (t.port 3).queue.length ∧ (t.port 3).overflowHalt = true := by decide +kernel

theorem witness_TimebaseTick :
    State.reset.resetPin = false ∧ State.reset.time.state = .unset ∧
    (let s := timeAt 5 997 1 State.reset
     s.time.state ≠ .unset ∧ 0 < s.time.slew ∧ s.time.ms + 2 < 1000 ∧ s.resetPin = false) ∧
    (let s := timeAt 5 999 (-1) State.reset
     s.time.state ≠ .unset ∧ s.time.slew < 0 ∧ s.time.ms < 1000) ∧
    (let s := timeAt 5 998 0 State.reset
     s.time.state ≠ .unset ∧ s.time.slew = 0 ∧ s.time.ms + 1 < 1000) ∧
    (let s := timeAt 5 998 1 State.reset
     s.time.state ≠ .unset ∧
       1000 ≤ s.time.ms + (if 0 < s.time.slew then 2 else if s.time.slew < 0 then 0 else 1)) ∧
    (let s := fun n => (delivering 0 [] .running 0).setProfile 7 { Profile.reset with allowance := some ⟨2, n⟩ }
     (∃ d, ((s 1).dest d).kind = .view ∧ ((s 1).dest d).profile = 7 ∧ ((s 1).dest d).state.delivering = true) ∧
       ((s 0).profile 7).allowance = some ⟨2, 0⟩ ∧ ((s 1).profile 7).allowance = some ⟨2, 1⟩ ∧
       ((s 2).profile 7).allowance = some ⟨2, 2⟩ ∧ ((s 1).profile 0).allowance = none ∧
       ((s 1).dest 11).state ≠ .vacant ∧ ((s 1).dest 11).service = some 63) ∧
    (∀ u, ((State.reset.setViewer 11 { Viewer.reset with unlock := u }).viewer 11).unlock = u) ∧
    (∀ st ∈ [DestState.held, .withheld], ((destIn .view st State.reset).dest 11).state = st) ∧
    (let s := portIn .running .demand (List.replicate 63 fillCell) (destIn .view .held State.reset)
     (s.port (s.dest 11).port).state = .running ∧ (s.port 3).queue.length < 64 ∧ (s.port 3).queue ≠ []) ∧
    (let s := portIn .running .demand (List.replicate 64 fillCell) (destIn .view .withheld State.reset)
     64 ≤ (s.port (s.dest 11).port).queue.length) := by
  refine ⟨?_, ?_, ?_, ?_, ?_, ?_, ?_, ?_, ?_, ?_, ?_⟩ <;> first | decide +kernel | simp [State.viewer, State.setViewer]

/-- D11 in a state, with its access report the last one that the access unit holds. -/
def reported (st : DestState) : State := (destIn .view st State.reset).setLastAccess 11 (some .free)

/-- The premises of `VerdictsFormed`, `AccessHanded` and `EventChangeTaken` at D11, for a verdict that is the last report and for one that is not. -/
theorem reported_meets (st : DestState) (h : st ≠ .vacant) :
    ((reported st).dest 11).state ≠ .vacant ∧ ((reported st).dest 11).service = some 63 ∧ ((reported st).dest 11).kind = .view ∧
    (reported st).lastAccess 11 = ((reported st).dest 11).access ∧ (reported st).lastAccess 11 = some ((reported st).accessVerdict 63) ∧
    ((reported st).setService 63 (some ⟨1201, some 300⟩)).lastAccess 11 ≠
      some (((reported st).setService 63 (some ⟨1201, some 300⟩)).accessVerdict 63) := by
  cases st <;> first | exact absurd rfl h | decide +kernel

/-- At a second mark with D11 PRESENTING, whose access report is the last one. -/
theorem witness_TimebaseTick_verdicts :
    let s := timeAt 5 998 1 (reported .presenting)
    s.resetPin = false ∧ s.time.state ≠ .unset ∧
      1000 ≤ s.time.ms + (if 0 < s.time.slew then 2 else if s.time.slew < 0 then 0 else 1) ∧
      (s.dest 11).state ≠ .vacant ∧ (s.dest 11).service = some 63 ∧ (s.dest 11).kind = .view ∧
      s.lastAccess 11 = (s.dest 11).access := by decide +kernel

/-- F2 LOCKED with a CLOCK entry, and network time. -/
def clockState (t : State → State) : State := t (flowOf .clock 0x3FFE none)

/-- A clock cell. -/
def clock (sec : Word) (m : Half) : Cell := midCell 512 0 (bytes32 sec ++ bytes16 m ++ bytes16 0)

theorem witness_ClockCell :
    Taken (clockState (timeAt 1000 0 0)) 2 (clock 1002 0) 255 ⟨some 2, 512, 0x3FFE, .clock, none⟩
      ((clockState (timeAt 1000 0 0)).heard 2) ∧
    999 < field16 (clock 1002 1000).payload.rows 4 ∧ field16 (clock 1002 999).payload.rows 4 ≤ 999 ∧
    (clockState id).time.source ≠ some 2 ∧ (clockState (timeAt 1000 0 0)).time.source = some 2 ∧
    (clockState (timeAt 1000 0 0)).time.state ≠ .unset ∧
    (word (clock 1002 0).payload.rows 0 - (clockState (timeAt 1000 0 0)).time.sec).toInt = 2 ∧
    (word (clock 1003 0).payload.rows 0 - (clockState (timeAt 1000 0 0)).time.sec).toInt = 3 ∧
    (word (clock 997 0).payload.rows 0 - (clockState (timeAt 1000 0 0)).time.sec).toInt = -3 ∧
    (word (clock 2001001 0).payload.rows 0 - (clockState (timeAt 1000 0 0)).time.sec).toInt = 2000001 ∧
    (word (clock 0xFFE17F67 0).payload.rows 0 - (clockState (timeAt 1000 0 0)).time.sec).toInt = -2000001 ∧
    (clockState id).time.state = .unset :=
  ⟨taken_512 _ _ _ rfl (by decide +kernel) (by decide +kernel) (by decide +kernel) (by decide +kernel), by decide +kernel⟩

theorem witness_TimerExpiries :
    ((feedIn .locked 3 0).feed 2).state = .locked ∧ ((feedIn .locked 3 0).feed 2).silence = some 0 ∧
    ((feedIn .lapsed 0 0).feed 2).state ≠ .locked ∧
    (timeAt 5 0 0 State.reset).time.state = .disciplined ∧ (timeAt 5 0 0 State.reset).time.silence = some 0 ∧
    State.reset.time.state ≠ .disciplined ∧
    ((portIn .running .demand [fillCell] State.reset).port 3).state = .running ∧
    ((portIn .running .demand [fillCell] State.reset).port 3).watch = some 0 ∧
    ((portIn .running .demand [] State.reset).port 3).watch ≠ some 0 ∧
    (portIn .running .demand [] State.reset).resetPin = false := by decide +kernel

theorem witness_TimeOrders :
    LinkAtRest rest ∧ none = rest.time.source ∧ some 7 ≠ rest.time.source ∧ rest.time.state = .unset ∧
    LinkAtRest (queued 22 (timeAt 5 0 0 State.reset)) ∧ some 7 ≠ (queued 22 (timeAt 5 0 0 State.reset)).time.source ∧
    (queued 22 (timeAt 5 0 0 State.reset)).time.state = .disciplined ∧ 8 ≤ (8 : Byte).toNat ∧ (254 : Byte).toNat ≠ 255 :=
  ⟨atRest rfl rfl, by decide +kernel, by decide +kernel, by decide +kernel, atRest rfl rfl, by decide +kernel⟩

theorem witness_LocalTimeAndWindows :
    (-840 : Int) ≤ -840 ∧ (840 : Int) ≤ 840 ∧ localDay 0 (-840) = -1 ∧ localDay 4294967295 840 = 49710 ∧
      1260 > 390 ∧ 390 < 1260 := by decide

theorem witness_ServiceOrders :
    let s := queued 22 (destIn .view .held State.reset)
    LinkAtRest s ∧ 64 ≤ (64 : Byte).toNat ∧ (1201 : Half) ≠ 0 ∧
    ((0 : Fin 64) ≠ 63 ∧ s.service 63 = some ⟨1201, none⟩) ∧
    ((s.dest 11).state ≠ .vacant ∧ (s.dest 11).service = some 63) ∧
    (s.setChanges [(11, 5)]).ctl.changes = [(11, 5)] ∧
    s.service 0 = none ∧ (∀ d, ¬ ((s.dest d).state ≠ .vacant ∧ (s.dest d).service = some 0)) ∧
    LinkAtRest (s.setChanges [(11, 5)]) :=
  ⟨atRest rfl rfl, by decide, by decide, by decide +kernel, by decide +kernel, rfl, by decide +kernel, by decide +kernel,
   atRest rfl rfl⟩

theorem witness_DestinationOrders :
    LinkAtRest rest ∧ (rest.dest 11).state = .vacant ∧ LinkAtRest (queued 22 (destIn .view .held State.reset)) ∧
    ((queued 22 (destIn .view .held State.reset)).dest 11).state ≠ .vacant ∧ 12 ≤ (12 : Byte).toNat ∧ 2 ≤ (2 : Byte).toNat ∧
    4 ≤ (4 : Byte).toNat ∧ 8 ≤ (8 : Byte).toNat ∧ 16 ≤ (16 : Byte).toNat :=
  ⟨atRest rfl rfl, by decide +kernel, atRest rfl rfl, by decide +kernel⟩

/-- The restricting report of D11. -/
def restricting (h : HoldCondition) : ParentalReport := ⟨.restricted, ⟨true, false, false⟩, h, 1⟩

theorem witness_EvaluationRows :
    let s := destIn .view .withheld State.reset
    let x := s.dest 11
    x.state ≠ .vacant ∧ x.access = some .free ∧ s.portHalted 3 = false ∧ (s.setPortHalted 3 true).portHalted 3 = true ∧
    ({ x with access := some (.denied .noPurchase) } : Dest).access = some (.denied .noPurchase) ∧
    ({ x with parental := some (restricting .opened) } : Dest).parental = some (restricting .opened) ∧
    (restricting .opened).verdict = .restricted ∧ x.kind = .view ∧ x.parental = none ∧ x.reasons.key = false ∧
    x.state.delivering = false ∧ ((destIn .view .stalled State.reset).dest 11).state.delivering = true ∧
    (∀ st ∈ [DestState.acquiring, .stalled, .presenting],
      let t := destIn .view st State.reset
      let u := t.setFlow 255 (some ⟨none, 512, 0x3FFF, .programme video, none⟩)
      (t.dest 11).state = st ∧ (∀ m ∈ t.requiredSet (t.dest 11), m.1 ∈ (t.dest 11).marks) ∧
        (∀ m ∈ t.requiredSet (t.dest 11), m.1 ∈ (t.dest 11).marks.filter (· ≠ 0)) ∧
        (u.dest 11).state = st ∧ ¬ (∀ m ∈ u.requiredSet (u.dest 11), m.1 ∈ (u.dest 11).marks) ∧
        ¬ (∀ m ∈ u.requiredSet (u.dest 11), m.1 ∈ (u.dest 11).marks.filter (· ≠ 0))) := by decide +kernel

/-- The part with one service record and a change set is sound. -/
theorem selections_sound :
    SelectionsSound ((queued 22 (destIn .view .stalled State.reset)).setChanges [(0, 63)]) := by
  unfold SelectionsSound; decide +kernel

theorem witness_SelectChecks :
    let s := (queued 22 (destIn .view .stalled State.reset)).setChanges [(0, 63)]
    LinkAtRest s ∧ SelectionsSound s ∧ s.service 0 = none ∧ (s.service 63).isSome = true ∧ (∀ j, (11, j) ∉ s.ctl.changes) ∧
    s.ctl.changes = [] ++ (0, 63) :: [] ∧ (s.dest 11).state.delivering = true ∧ (s.dest 11).service = some 63 ∧
    12 ≤ (12 : Byte).toNat ∧ 64 ≤ (64 : Byte).toNat ∧ 2 ≤ (2 : Byte).toNat :=
  ⟨atRest rfl rfl, selections_sound, by decide +kernel, by decide +kernel, by decide +kernel, rfl, by decide +kernel,
   by decide +kernel, by decide⟩

theorem witness_SelectChangeAndRetry :
    let s := queued 22 (destIn .record .withheld State.reset)
    LinkAtRest s ∧ (s.service 63).isSome = true ∧ (s.dest 0).state = .vacant ∧
    ((s.dest 11).state = .withheld ∧ (s.dest 11).service = some 63) ∧ (s.dest 11).kind = .record ∧
    (s.accessVerdict 63).isDenied = false ∧ s.portHalted 3 = false ∧
    (State.accessVerdict (s.setService 63 (some ⟨1201, some 300⟩)) 63).isDenied = true ∧
    ((s.setService 0 (some ⟨7, none⟩)).dest 11).service ≠ some 0 ∧
    ((s.setViewer 0 { Viewer.reset with unlock := some (.event 5001) }).viewer 0).unlock = some (.event 5001) ∧
    ((s.setViewer 0 { Viewer.reset with unlock := some (.period 9) }).viewer 0).unlock = some (.period 9) :=
  ⟨atRest rfl rfl, by decide +kernel⟩

/-- D11 on the host link at rest, with a unit's record that restricts, under policy ASK. -/
def asking (st : DestState) : State :=
  queued 22 ((destIn .view st (State.reset.setProfile 7 { Profile.reset with policy := .ask, restrictUnrated := true })).setService 0 (some ⟨7, some 300⟩))

/-- A VIEW destination, at a change and at a retry, denied and not, restricted under ASK and BLANK and not, a bar that stood and a memory. -/
theorem witness_SelectChangeAndRetry_view :
    let s := asking .stalled
    let r := asking .withheld
    let blank := r.setProfile 7 { Profile.reset with restrictUnrated := true }
    LinkAtRest s ∧ LinkAtRest r ∧ LinkAtRest blank ∧ (s.dest 11).kind = .view ∧ (s.dest 11).state = .stalled ∧ (s.dest 11).service ≠ some 0 ∧
    (s.service 0).isSome = true ∧ (s.accessVerdict 0).isDenied = true ∧ (s.accessVerdict 63).isDenied = false ∧
    (s.dest 0).state = .vacant ∧ (s.dest 0).kind = .view ∧
    ((r.dest 11).state = .withheld ∧ (r.dest 11).service = some 63) ∧
    (r.formedFor (r.profile 7) 63 none).verdict = .restricted ∧ (r.profile 7).policy = .ask ∧
    (blank.formedFor (blank.profile 7) 63 none).verdict = .restricted ∧ (blank.profile 7).policy = .blank ∧
    (s.formedFor (s.profile 0) 63 none).verdict ≠ .restricted ∧
    (r.setPortHalted 3 true).portHalted 3 = true ∧
    ((held .opened s).viewer 11).hold = .opened ∧ ((held .declined r).viewer 11).hold = .declined ∧
    ((r.setDest 11 { r.dest 11 with access := some (.denied .noPurchase) }).dest 11).access = some (.denied .noPurchase) ∧
    ((r.setViewer 11 { Viewer.reset with barred := true }).viewer 11).barred = true :=
  ⟨atRest rfl rfl, atRest rfl rfl, atRest rfl rfl, by decide +kernel⟩

theorem witness_TakeApplies :
    let s := (queued 22 (destIn .view .stalled State.reset)).setChanges [(0, 63)]
    LinkAtRest s ∧ SelectionsSound s ∧ (0, 63) ∈ s.ctl.changes ∧ (∀ i, (11, i) ∉ s.ctl.changes) :=
  ⟨atRest rfl rfl, selections_sound, by decide +kernel, by decide +kernel⟩

theorem witness_DiscardReadChanges :
    let s := (queued 22 (destIn .view .stalled State.reset)).setChanges [(0, 63)]
    LinkAtRest s ∧ SelectionsSound s := ⟨atRest rfl rfl, selections_sound⟩

theorem witness_ReleaseToVacant :
    let s := queued 22 (portIn .running .demand [fillCell] (destIn .view .stalled State.reset))
    LinkAtRest s ∧ (s.dest 11).state ≠ .vacant ∧ (s.dest 0).state = .vacant ∧ 12 ≤ (12 : Byte).toNat :=
  ⟨atRest rfl rfl, by decide +kernel⟩

theorem witness_ReleaseToVacant_sources :
    let s := queued 22 (held .opened (portIn .running .demand [fillCell] (destIn .view .stalled State.reset)))
    LinkAtRest s ∧ (s.viewer 11).hold = .opened ∧ (s.dest 11).state = .stalled ∧ (s.port 3).queue ≠ [] :=
  ⟨atRest rfl rfl, by decide +kernel⟩

theorem witness_AcquisitionTime :
    LinkAtRest rest ∧ ((destIn .view .acquiring State.reset).dest 11).state = .acquiring ∧
    ((destIn .view .acquiring State.reset).dest 11).acquisition = some 0 ∧ (State.reset.dest 11).acquisition ≠ some 0 ∧
    (destIn .view .acquiring State.reset).resetPin = false :=
  ⟨atRest rfl rfl, by decide +kernel⟩

theorem witness_KeyLoadAndCommit :
    LinkAtRest rest ∧ (rest.keySlot 31).commitMask.getLsbD 0 = false ∧ (rest.keySlot 31).commitMask.getLsbD 3 = true ∧
    32 ≤ (32 : Byte).toNat ∧ (0 : Byte).toNat ≠ 1 ∧ (3 : Byte).toNat ≠ 2 ∧ 4 ≤ (4 : Byte).toNat ∧
    (let s := (destIn .view .withheld State.reset).setFlow 255 (some ⟨none, 512, 0x3FFF, .programme video, none⟩)
     (s.dest 11).state ≠ .vacant ∧ ∃ m ∈ s.requiredSet (s.dest 11), m.2.keySlot = some 31) ∧
    (∀ d, (rest.dest d).reasons.key = true → (rest.dest d).state.delivering = false) :=
  ⟨atRest rfl rfl, by decide +kernel⟩

theorem witness_KeySlotOrders :
    LinkAtRest rest ∧ 32 ≤ (32 : Byte).toNat ∧ 16 ≤ (16 : Byte).toNat ∧ (3 : Byte).toNat ≠ 1 ∧ (3 : Byte).toNat ≠ 2 :=
  ⟨atRest rfl rfl, by decide⟩

/-- Every place of the entitlement table holds a record of product 300. -/
def fullTable : State :=
  { rest with access := { rest.access with table := .filled 48 (some ⟨.event 300 1, 5, 6⟩) } }

theorem witness_EntitlementOrders :
    LinkAtRest rest ∧ (EntitlementKey.event 300 1).product ≠ 0 ∧ (6 : Word).toNat ≤ (6 : Word).toNat ∧ (5 : Word).toNat < (6 : Word).toNat ∧
    rest.access.table.read 0 = none ∧ LinkAtRest fullTable ∧
    fullTable.access.table.read 0 = some ⟨.event 300 1, 5, 6⟩ ∧ (∀ j, fullTable.access.table.read j ≠ none) ∧
    (∀ j e, fullTable.access.table.read j = some e → e.key ≠ .subscription 300) ∧
    2 ≤ (2 : Byte).toNat ∧ 48 ≤ (48 : Byte).toNat ∧ (List.replicate 8 (0 : Byte)).length = 8 :=
  ⟨atRest rfl rfl, by decide, by decide, by decide, by decide +kernel, atRest rfl rfl, by decide +kernel, by decide +kernel,
   by intro j e h; simp [fullTable] at h; subst h; decide, by decide⟩

/-- A GRANT and a REVOKE with D11 PRESENTING, whose access report is the last one. -/
theorem witness_EntitlementOrders_verdicts :
    let s := queued 22 (reported .presenting)
    let u := s.setEntitlement 0 (some ⟨.event 300 1, 5, 6⟩)
    LinkAtRest s ∧ LinkAtRest u ∧ (∀ j, s.access.table.read j = none) ∧ u.access.table.read 0 = some ⟨.event 300 1, 5, 6⟩ ∧
    (s.dest 11).state ≠ .vacant ∧ (s.dest 11).service = some 63 ∧ s.lastAccess 11 = (s.dest 11).access ∧ (s.dest 0).state = .vacant :=
  ⟨atRest rfl rfl, atRest rfl rfl, by decide +kernel⟩

/-- The guide of one event has no overlap. -/
theorem events_sound (s : State) : EventsSound (withEvent s) := by
  refine ⟨show [event5001].length ≤ 512 by decide, ?_⟩
  simp [withEvent]

theorem witness_AccessVerdictFormed :
    let s := withEvent (timeAt 1000000299 0 0 (destIn .view .held State.reset))
    EventsSound s ∧ s.service 63 = some ⟨1201, none⟩ ∧ s.time.state ≠ .unset ∧ event5001 ∈ s.guide.events ∧
    event5001.service = 1201 ∧ event5001.start.toNat ≤ s.time.sec.toNat ∧ s.time.sec.toNat < event5001.stop.toNat ∧
    event5001.product ≠ 0 ∧ 0 < event5001.preview ∧
    (∀ k e, s.access.table.read k = some e → e.key ≠ .event 300 5001) ∧
    (withEvent State.reset).time.state = .unset ∧ EventsSound (withEvent State.reset) ∧
    (s.setService 63 (some ⟨1201, some 300⟩)).service 63 = some ⟨1201, some 300⟩ ∧
    EventsSound (s.setService 63 (some ⟨1201, some 300⟩)) ∧
    ((State.reset.dest 11).state = .vacant ∧
     (let t := destIn .view .presenting State.reset
      (t.dest 11).state ≠ .vacant ∧ (t.dest 11).access = some .free ∧ (t.dest 11).state.delivering = true ∧ (t.dest 11).kind = .view) ∧
     (let t := (destIn .view .withheld (State.reset.setProfile 7 { Profile.reset with policy := .ask })).setViewer 11
        { Viewer.reset with formed := some ⟨.restricted, ⟨true, false, false⟩, ⟨true, false, false⟩⟩ }
      let u := t.setDest 11 { t.dest 11 with access := some (.denied .noPurchase) }
      (u.dest 11).access = some (.denied .noPurchase) ∧ (u.dest 11).kind = .view ∧ (u.viewer 11).hold = .none ∧
        (u.viewer 11).formed = some ⟨.restricted, ⟨true, false, false⟩, ⟨true, false, false⟩⟩ ∧ (u.profile (u.dest 11).profile).policy = .ask)) :=
  ⟨events_sound _, by decide +kernel, by decide +kernel, by decide +kernel, by decide, by decide +kernel, by decide +kernel,
   by decide, by decide,
   by intro k e h; simp [withEvent, timeAt, destIn, State.setDest, State.setService, State.reset, AccessUnit.reset] at h,
   rfl, events_sound _, by decide +kernel, events_sound _, by decide +kernel⟩

/-- An assembly of entry 255 that has gathered 184 bytes of `length`. -/
def assembly (length : Nat) : Assembly := ⟨255, 2, 512, 1201, length, List.replicate 184 0⟩

/-- Flow 512 is a GUIDE flow, and guide slots hold assemblies. -/
def slotsAt (slots : Table (Option Assembly) 4) : State :=
  let s := flowOf .guide 0x3FFE none
  { s with guide := { s.guide with slots := slots } }

/-- A section of service `n` with version 0, section 0 and the descriptors given, its check value right. -/
def section_ (n : Half) (descriptors : List Byte) : List Byte :=
  let b := num16 (10 + descriptors.length) ++ bytes16 n ++ [0, 0, 0, BitVec.ofNat 8 (descriptors.length / 16)] ++ descriptors
  b ++ bytes16 (checkValue b)

/-- The part with a section register. -/
def registerOf (r : Table (Option RegisterEntry) 128) : State := { State.reset with guide := { State.reset.guide with register := r } }

/-- 512 events, one of each of the services 1 to 512. -/
def manyEvents : List EventRecord := (List.range 512).map fun n => { event5001 with service := BitVec.ofNat 16 (n + 1) }

/-- A full event table, every record of it past. -/
def fullEvents : State :=
  timeAt 1000003600 0 0 { State.reset with guide := { State.reset.guide with events := manyEvents } }

theorem manyEvents_apart : manyEvents.Pairwise fun a b => a.service = b.service → a.overlaps b = false := by
  refine List.pairwise_map.mpr ((List.pairwise_lt_range (n := 512)).imp_of_mem fun {i j} hi hj h hs => ?_)
  simp only [List.mem_range] at hi hj
  have := congrArg BitVec.toNat hs
  simp only [BitVec.toNat_ofNat] at this
  omega

theorem fullEvents_sound : EventsSound fullEvents := by
  have h : fullEvents.guide.events = manyEvents := by simp only [fullEvents, timeAt]
  refine ⟨by decide +kernel, ?_⟩
  rw [h]
  exact manyEvents_apart

theorem witness_GuideSections :
    let short := builtCell 512 true 0 77 [0, 9]
    let long := builtCell 512 true 0 77 [4, 1]
    let wrong := builtCell 512 true 0 77 [0, 10]
    (Taken (flowOf .guide 0x3FFE none) 2 short 255 ⟨some 2, 512, 0x3FFE, .guide, none⟩ ((flowOf .guide 0x3FFE none).heard 2) ∧
      short.unitStart = true) ∧
    (field16 short.payload.rows 0 < 10 ∧ 1024 < field16 long.payload.rows 0 ∧
      10 ≤ field16 wrong.payload.rows 0 ∧ field16 wrong.payload.rows 0 ≤ 184 ∧
      checkValue (wrong.payload.rows.take 8) ≠ half wrong.payload.rows 8 ∧
      185 ≤ field16 (builtCell 512 true 0 77 [4, 0]).payload.rows 0 ∧ field16 (builtCell 512 true 0 77 [4, 0]).payload.rows 0 ≤ 1024) ∧
    (let c := midCell 512 0 []
     let s := slotsAt ((Table.filled 4 none).write 3 (some (assembly 368)))
     Taken s 2 c 255 ⟨some 2, 512, 0x3FFE, .guide, none⟩ (s.heard 2) ∧ c.unitStart = false ∧
       s.guide.slots.read 3 = some (assembly 368) ∧ (∀ j < 3, ∀ x, s.guide.slots.read j = some x → x.entry ≠ 255) ∧
       (assembly 368).feed = 2 ∧ (assembly 368).flowId = c.flowId ∧ (assembly 368).length ≤ (assembly 368).buffer.length + 184 ∧
       (assembly 369).buffer.length + 184 < (assembly 369).length ∧ ({ assembly 368 with feed := 1 } : Assembly).feed ≠ 2 ∧
       (∀ i, (slotsAt (.filled 4 (some (assembly 368)))).guide.slots.read i ≠ none) ∧ s.guide.slots.read 0 = none) ∧
    (let b := section_ 1201 []
     10 ≤ b.length ∧ checkValue (b.take 8) = half b 8 ∧ checkValue ((b.set 9 0).take 8) ≠ half (b.set 9 0) 8 ∧
       half (section_ 0 []) 2 = 0 ∧ checkValue ((section_ 0 []).take 8) = half (section_ 0 []) 8 ∧
       ¬ (half b 2 = 0 ∨ 31 < (byteAt b 4).toNat ∨ (byteAt b 6).toNat < (byteAt b 5).toNat ∨ 63 < (byteAt b 7).toNat ∨
         b.length ≠ 10 + 16 * (byteAt b 7).toNat) ∧
       (∀ v : Byte, (registerOf ((Table.filled 128 none).write 127 (some ⟨1201, 0, v⟩))).guide.register.read 127 = some ⟨1201, 0, v⟩) ∧
       (registerOf (.filled 128 none)).guide.register.read 0 = none ∧
       (∀ j, (registerOf (.filled 128 (some ⟨7, 0, 0⟩))).guide.register.read j = some ⟨7, 0, 0⟩)) ∧
    (let b := section_ 1201 (List.replicate 16 0)
     (byteAt b 7).toNat = 1 ∧ b.length = 10 + 16 * (byteAt b 7).toNat ∧ ¬ 1 ≤ field8 (b.drop 8) 6 * 65536 + field16 (b.drop 8) 7) ∧
    (EventsSound (withEvent State.reset) ∧ (withEvent State.reset).guide.events.length < 512 ∧
      event5001.stop = eventStop event5001.start event5001.duration) ∧
    EventsSound fullEvents ∧ 512 ≤ fullEvents.guide.events.length ∧
    (∀ r ∈ fullEvents.guide.events, ¬ (r.service = 9999 ∧ r.start.toNat < 2 ∧ 1 < r.stop.toNat)) ∧
    (fullEvents.time.state ≠ .unset ∧ ∀ r ∈ fullEvents.guide.events, r.stop.toNat ≤ fullEvents.time.sec.toNat) ∧
    (∀ r ∈ fullEvents.guide.events, ¬ r.stop.toNat ≤ 1000003599) ∧
    (∃ r ∈ fullEvents.guide.events, (1 : Word).toNat ≤ r.start.toNat) ∧
    ∀ r ∈ fullEvents.guide.events, r.start.toNat < (1000003600 : Word).toNat := by
  refine ⟨⟨taken_512 _ _ _ rfl ?_ ?_ ?_ ?_, ?_⟩, ?_, ⟨taken_512 _ _ _ rfl ?_ ?_ ?_ ?_, ?_⟩,
    ⟨?_, ?_, ?_, ?_, ?_, ?_, fun v => by simp [registerOf], ?_, fun j => by simp [registerOf]⟩, ?_,
    ⟨events_sound _, ?_, ?_⟩, fullEvents_sound, ?_, ?_, ?_, ?_, ?_, ?_⟩
  all_goals decide +kernel

theorem witness_GuideOrders :
    let s := queued 22 (withEvent State.reset)
    LinkAtRest s ∧ EventsSound s ∧ (1201 : Half) ≠ 0 ∧ event5001 ∈ s.guide.events ∧ event5001.service = 1201 ∧
    event5001.start.toNat ≤ (1000003599 : Word).toNat ∧ (1000003599 : Word).toNat < event5001.stop.toNat ∧
    ¬ (1000003600 : Word).toNat < event5001.stop.toNat ∧ (999999999 : Word).toNat < event5001.start.toNat ∧
    event5001.start.toNat ≤ (1000000000 : Word).toNat :=
  ⟨atRest rfl rfl, events_sound (queued 22 State.reset), by decide, by decide +kernel, by decide⟩

theorem witness_ParentalVerdictFormed :
    let s := withEvent (timeAt 1000000299 0 0 (destIn .view .held State.reset))
    s.currentRecord 63 = some event5001 ∧ event5001.rating ≠ 0 ∧
    (let t := { s with guide := { s.guide with events := [{ event5001 with rating := 0 }] } }
     t.currentRecord 63 = some { event5001 with rating := 0 }) ∧
    s.currentRecord 0 = none ∧ s.time.sec.toNat < 1000000300 ∧ 1000000299 ≤ s.time.sec.toNat := by decide +kernel

/-- Two records of service 1201 carry the id 5001, one of which shows at T; and at a later T none does. -/
theorem witness_ParentalVerdictFormed_record :
    let early : EventRecord := { event5001 with start := 999990000, stop := 999993600 }
    let s := fun sec : Word =>
      let u := withEvent (timeAt sec 0 0 (destIn .view .held State.reset))
      { u with guide := { u.guide with events := [early, event5001] } }
    (s 999990000).currentRecord 63 = some early ∧ early.id = 5001 ∧ (s 999990000).service 63 = some ⟨1201, none⟩ ∧
    (s 999990000).guide.current.read 63 = some 5001 ∧ early.start.toNat ≤ (999990000 : Word).toNat ∧
    (999990000 : Word).toNat < early.stop.toNat ∧ (s 1000003600).currentRecord 63 = some event5001 ∧
    ¬ (1000003600 : Word).toNat < event5001.stop.toNat := by decide +kernel

theorem witness_HoldRuleRows :
    let ask := State.reset.setProfile 7 { Profile.reset with policy := .ask }
    let f : Formed := ⟨.restricted, ⟨true, false, false⟩, ⟨true, false, false⟩⟩
    ((held .none (destIn .view .held ask)).viewer 11).formed = some f ∧ f.verdict = .restricted ∧
    ((held .none (destIn .view .held ask)).profile ((held .none (destIn .view .held ask)).dest 11).profile).policy = .ask ∧
    ((held .none (destIn .view .held ask)).viewer 11).hold = .none ∧
    ((held .none (destIn .view .held ask)).viewer 11).barred = false ∧
    ((held .opened (destIn .view .held ask)).viewer 11).hold ≠ .none ∧
    ((held .none State.reset).profile ((held .none State.reset).dest 11).profile).policy = .blank ∧
    (⟨.clear, .empty, .empty⟩ : Formed).verdict ≠ .restricted := by decide +kernel

theorem witness_ProfileAndParentalOrders :
    LinkAtRest rest ∧ 8 ≤ (8 : Byte).toNat ∧ 15 < (16 : Byte).toNat ∧ 1 < (2 : Byte).toNat ∧ 1439 < (1440 : Half).toNat ∧
    (15 : Byte).toNat ≤ 15 ∧ (1439 : Half).toNat ≤ 1439 ∧ (rest.profile 7).allowance = none ∧
    LinkAtRest (rest.setProfile 7 { Profile.reset with allowance := some ⟨1440, 0⟩ }) ∧
    ((rest.setProfile 7 { Profile.reset with allowance := some ⟨1440, 0⟩ }).profile 7).allowance = some ⟨1440, 0⟩ ∧
    12 ≤ (12 : Byte).toNat :=
  ⟨atRest rfl rfl, by decide, by decide, by decide, by decide, by decide, by decide, by decide +kernel, atRest rfl rfl,
   by decide +kernel, by decide⟩

theorem witness_ProfileAndParentalOrders_bound :
    let s := queued 22 ((reported .held).setProfile 7 { Profile.reset with allowance := some ⟨1440, 0⟩ })
    LinkAtRest s ∧ (s.profile 7).allowance = some ⟨1440, 0⟩ ∧ (s.dest 11).state ≠ .vacant ∧ (s.dest 11).kind = .view ∧
    (s.dest 11).profile = 7 ∧ (s.dest 11).service = some 63 ∧ (s.viewer 11).last = (s.dest 11).parental ∧ (s.dest 0).profile ≠ 7 :=
  ⟨atRest rfl rfl, by decide +kernel⟩

theorem witness_GrantUnlock :
    let s := queued 22 (destIn .view .held State.reset)
    LinkAtRest s ∧ 12 ≤ (12 : Byte).toNat ∧ 2 ≤ (2 : Byte).toNat ∧ (0 : Byte) = 0 ∧ (1 : Byte) = 1 ∧ (s.dest 0).state = .vacant ∧
    ((queued 22 (destIn .record .held State.reset)).dest 11).kind = .record ∧
    (s.dest 11).state ≠ .vacant ∧ (s.dest 11).kind = .view ∧ (s.dest 11).service = some 63 :=
  ⟨atRest rfl rfl, by decide +kernel⟩

theorem witness_HoldAnswersAndExpiry :
    let s := queued 22 (held .opened (destIn .view .held (timeAt 1000000299 0 0 State.reset)))
    LinkAtRest s ∧ s.time.sound ∧ 12 ≤ (12 : Byte).toNat ∧ 255 < (256 : Half).toNat ∧ 1 < (2 : Byte).toNat ∧
    (255 : Half).toNat ≤ 255 ∧ (s.viewer 0).hold ≠ .opened ∧ (s.viewer 11).hold = .opened ∧
    (s.viewer 11).serial.toNat ≠ (1 : Half).toNat ∧ (s.viewer 11).serial.toNat = (255 : Half).toNat ∧
    (s.dest 11).service = some 63 ∧ (withEvent s).guide.current.read 63 = some 5001 ∧
    (s.viewer 11).formed.map (·.uncovered) = some ⟨true, false, false⟩ ∧ s.guide.current.read 63 = none ∧
    (s.dest 11).state ≠ .vacant ∧ (s.dest 11).kind = .view ∧ (s.viewer 11).timer = some 0 ∧ (s.viewer 0).timer ≠ some 0 ∧
    (let u := withEvent (s.setViewer 11 { s.viewer 11 with formed := some ⟨.restricted, ⟨true, true, false⟩, ⟨true, true, false⟩⟩ })
     u.currentRecord 63 = some event5001 ∧ (u.viewer 11).formed.map (·.uncovered) ≠ some ⟨true, false, false⟩ ∧
       (u.viewer 11).hold = .opened) :=
  ⟨atRest rfl rfl, by unfold TimeUnit.sound; decide +kernel, by decide +kernel⟩

theorem witness_PortOrders :
    LinkAtRest rest ∧ (rest.port 3).state = .off ∧ LinkAtRest (queued 22 (portIn .running .paced [fillCell] State.reset)) ∧
    ((queued 22 (portIn .running .paced [fillCell] State.reset)).port 3).state = .running ∧
    ((queued 22 (portIn .halted .paced [] State.reset)).port 3).state = .halted ∧
    LinkAtRest (queued 22 (portIn .halted .paced [] State.reset)) ∧
    4 ≤ (4 : Byte).toNat ∧ 2 ≤ (2 : Byte).toNat ∧
    (let s := queued 22 (portIn .halted .paced [] (destIn .view .withheld State.reset))
     (s.dest 11).port = 3 ∧ (s.dest 11).state ≠ .vacant ∧ (s.dest 0).port ≠ 3) :=
  ⟨atRest rfl rfl, by decide +kernel, atRest rfl rfl, by decide +kernel, by decide +kernel, atRest rfl rfl, by decide +kernel⟩

theorem witness_PortEmissions :
    let d := (portIn .running .demand [fillCell] State.reset).port 3
    let p := (portIn .running .paced [fillCell] State.reset).port 3
    let e := (portIn .running .paced [] State.reset).port 3
    d.mode = .demand ∧ d.state = .running ∧ d.queue = fillCell :: [] ∧ (State.reset.port 3).state ≠ .running ∧
    p.mode = .paced ∧ p.state = .running ∧ p.slotRunning = true ∧ p.queue = fillCell :: [] ∧ e.queue = [] ∧
    e.underrunFill = false ∧ ({ e with underrunFill := true } : Port).underrunFill = true ∧ d.slotRunning = false ∧
    (portIn .running .demand [fillCell] State.reset).resetPin = false := by decide +kernel

theorem witness_CommandCellTaken :
    23 ≤ (queued 23 State.reset).link.outbound.length ∧ (queued 23 State.reset).resetPin = false ∧ LinkAtRest rest ∧
    ({ State.reset.link with command := some ⟨fillCell, 0, false⟩ } : HostLink).command.isSome = true ∧
    ({ State.reset.link with waiting := [fillCell] } : HostLink).waiting ≠ [] ∧
    badCell.wellFormed = false ∧ (startCell 16381 0).flowId ≠ 16382 ∧ (phaseA (startCell 16382 0)).phase ≠ 0 ∧
    (let c := builtCell 16382 true 0 0 [0x53, 1, 4, 0]
     c.wellFormed = true ∧ c.flowId = 16382 ∧ c.phase = 0 ∧ readRecord c.payload 0 = .whole ⟨0x53, 0x0104, []⟩) ∧
    readRecord (builtCell 16382 true 0 0 []).payload 0 = .cellEnds ∧
    readRecord (builtCell 16382 true 0 0 [0x53, 1, 4, 181]).payload 0 = .runsPast 0x53 0x0104 :=
  ⟨by decide +kernel, rfl, atRest rfl rfl, by decide +kernel⟩

theorem witness_RepliesInCell :
    let c : CommandCell := ⟨builtCell 16382 true 0 0 [0x53, 1, 4, 0, 0x11, 1, 5, 0], 0, false⟩
    let records : List Byte := List.replicate 169 0
    let s := { queued 23 State.reset with link := { (queued 23 State.reset).link with command := some c, filling := some records } }
    s.resetPin = false ∧ s.link.command = some c ∧ c.discarding = false ∧ s.link.waiting = [] ∧ s.link.filling = some records ∧
    records.length + 6 + largestBody .readIdentity = 184 ∧
    readRecord c.cell.payload c.pos = .whole ⟨Order.readIdentity.code, 0x0104, []⟩ ∧
    ([] : List Byte).length = Order.readIdentity.bodyLength ∧
    readRecord c.cell.payload (c.pos + 4 + 0) = .whole ⟨0x11, 0x0105, []⟩ ∧ s.link.outbound.length < 24 ∧
    (let s1 := { s with link := { s.link with command := some { c with pos := 4 } } }
     (runOrder .readIdentity [] s1).state.link = s1.link ∧
       (runOrder .readIdentity [] s1).body.length ≤ largestBody .readIdentity) ∧
    (let s := (queued 22 (destIn .view .stalled State.reset)).setChanges [(0, 63)]
     LinkAtRest s ∧ SnapshotsSized s ∧ SelectionsSound s) :=
  ⟨rfl, rfl, rfl, rfl, rfl, by decide +kernel, by decide +kernel, rfl, by decide +kernel, by decide +kernel,
   by decide +kernel, atRest rfl rfl, by unfold SnapshotsSized; decide +kernel, selections_sound⟩

/-- READ_IDENTITY stands next in a command cell, with `n` cells queued, `filled` bytes of records, and a closed report cell waiting or none. -/
def taking (n filled : Nat) (waiting : List Cell) : State :=
  { queued n State.reset with link := { (queued n State.reset).link with
      command := some ⟨builtCell 16382 true 0 0 [0x53, 1, 4, 0], 0, false⟩, filling := some (List.replicate filled 0), waiting := waiting } }

theorem witness_HostEmission :
    (State.reset.resetPin = false ∧ State.reset.link.command = none ∧ State.reset.link.outbound = [] ∧
     (let s := queued 24 State.reset
      s.link.command = none ∧ s.link.outbound = .report fillCell :: List.replicate 23 (.report fillCell) ∧
        (List.replicate 23 (OutCell.report fillCell)).length < 24 ∧ s.link.waiting = [] ∧ s.link.waitingRecord = none) ∧
     ({ State.reset.link with waiting := [fillCell] } : HostLink).waiting = fillCell :: [] ∧
     ({ State.reset.link with waitingRecord := some ⟨.stall, 11, 0, 0⟩ } : HostLink).waitingRecord = some ⟨.stall, 11, 0, 0⟩) ∧
    (let c := builtCell 16382 true 0 0 [0x53, 1, 4, 0]
     let s := { queued 23 State.reset with link := { (queued 23 State.reset).link with arriving := [c] } }
     s.link.arriving = [c] ∧ s.link.outbound = .report fillCell :: List.replicate 22 (.report fillCell) ∧
       c.wellFormed = true ∧ c.flowId = 16382 ∧ c.phase = 0 ∧ readRecord c.payload 0 = .whole ⟨Order.readIdentity.code, 0x0104, []⟩) ∧
    (let s := taking 24 170 []
     ∃ k, s.link.command = some k ∧ s.link.suspended k = true ∧ (taking 23 170 []).link.suspended k = false ∧ k.discarding = false ∧
       s.link.outbound = .report fillCell :: List.replicate 23 (.report fillCell) ∧ s.link.arriving = [] ∧ s.link.waiting = [] ∧
       s.link.filling = some (List.replicate 170 0) ∧ 184 < (List.replicate 170 (0 : Byte)).length + 6 + largestBody .readIdentity ∧
       readRecord k.cell.payload k.pos = .whole ⟨Order.readIdentity.code, 0x0104, []⟩ ∧ s.link.waitingRecord = none) ∧
    ((taking 24 169 [fillCell]).link.waiting = [fillCell] ∧
      ((taking 24 169 [fillCell]).link.filling.getD []).length + 6 + largestBody .readIdentity ≤ 184 ∧
      184 < ((taking 24 170 [fillCell]).link.filling.getD []).length + 6 + largestBody .readIdentity ∧
      ((taking 23 178 []).link.filling.getD []).length ≤ 178 ∧ 178 < ((taking 23 179 []).link.filling.getD []).length ∧
      (taking 23 179 []).link.outbound.length < 24 ∧ 24 ≤ (taking 24 179 []).link.outbound.length) := by
  refine ⟨by decide +kernel, by decide +kernel, ⟨_, rfl, by decide +kernel⟩, by decide +kernel⟩

/-- The pending sets after a raise on the reset part are lawful. -/
theorem pending_lawful (s : State) (h : s.attention = (State.reset.raise .feedLapse 3 0).attention) : PendingLawful s := by
  intro c; rw [h]; cases c <;> decide +kernel

theorem witness_AttentionSources :
    let s := queued 22 (State.reset.raise .feedLapse 3 0)
    ((11 : Byte) ≠ 3 ∧ Cause.stall ≠ .feedLapse ∧ s.attention.foremost = some ⟨.feedLapse, 3, 0⟩ ∧ LinkAtRest s ∧ PendingLawful s) ∧
    (9 < (10 : Byte).toNat ∧ 1 < (2 : Byte).toNat ∧ (254 : Byte).toNat ≠ 255 ∧ 8 ≤ (8 : Byte).toNat ∧ 4 ≤ (4 : Byte).toNat ∧
     12 ≤ (12 : Byte).toNat ∧ Cause.feedLapse.admits (7 : Byte).toNat = true ∧ s.attention.isPending .feedLapse 7 = false ∧
     s.attention.isPending .feedLapse 3 = true) ∧
    ((s.raise .feedLapse 2 0).attention.presented = some ⟨.feedLapse, 2, 0⟩ ∧ s.attention.presented = some ⟨.feedLapse, 3, 0⟩ ∧
     (s.raise .stall 11 0).attention.presented = s.attention.presented ∧ (s.withdraw .feedLapse 3).attention.presented = none ∧
     s.link.waitingRecord = none ∧ s.link.command = none ∧ s.link.outbound.length < 24) ∧
    (∀ u ∈ [taking 23 178 [], taking 23 179 [], taking 24 179 [], taking 24 179 [fillCell]],
      (u.raise .feedLapse 2 0).attention.presented = some ⟨.feedLapse, 2, 0⟩ ∧ u.attention.presented = none ∧
        u.link.waitingRecord = none ∧ u.link.command ≠ none) ∧
    ((taking 23 178 []).link.filling.getD []).length ≤ 178 ∧ 178 < ((taking 23 179 []).link.filling.getD []).length ∧
    (taking 24 179 [fillCell]).link.waiting ≠ [] ∧ (taking 24 179 []).link.waiting = [] := by
  refine ⟨⟨by decide, by decide, by decide +kernel, ⟨?_, ?_, ?_, ?_, ?_, ?_⟩, pending_lawful _ rfl⟩, ?_⟩ <;> decide +kernel

theorem witness_SnapshotTallies :
    LinkAtRest rest ∧ SnapshotsSized rest ∧ (7 : Fin 25).val = (7 : FeedId).val ∧ (19 : Fin 25).val = 8 + (11 : DestId).val ∧
    (23 : Fin 25).val = 20 + (3 : PortId).val ∧ 25 ≤ (25 : Byte).toNat :=
  ⟨atRest rfl rfl, by unfold SnapshotsSized; decide +kernel, by decide⟩

theorem witness_ReadIdentity : LinkAtRest rest := atRest rfl rfl

theorem witness_ResetPart :
    (LinkAtRest rest ∧ 2 ≤ (2 : Byte).toNat) ∧
    let later : List OrderRecord := [⟨0x11, 0x0105, []⟩]
    let run : List Byte := 0x53 :: 1 :: 6 :: 200 :: List.replicate 171 0
    ∀ scope ∈ [(0 : Byte), 1],
      let k : CommandCell := ⟨builtCell 16382 true 0 0 ((⟨0x54, 0x0104, [scope]⟩ : OrderRecord).bytes ++ (later.map (·.bytes)).flatten ++ run), 0, false⟩
      let s := { queued 23 State.reset with link := { (queued 23 State.reset).link with command := some k } }
      scope.toNat ≤ 1 ∧ s.link.command = some k ∧ s.link.waiting = [] ∧ s.link.arriving = [] ∧ s.link.outbound.length < 24 ∧
        k.cell.payload.rows = [] ++ (⟨0x54, 0x0104, [scope]⟩ : OrderRecord).bytes ++ (later.map (·.bytes)).flatten ++ run ∧
        (∀ x ∈ later, x.code ≠ 0) ∧ readRecord k.cell.payload (184 - run.length) = .runsPast 0x53 0x0106 :=
  ⟨⟨atRest rfl rfl, by decide⟩, by decide +kernel⟩

/-- A part in use: F2 LOCKED with a tally, D11 PRESENTING on P3, a paced port with a notice for D11, an event, network time, a tick to come. -/
def inUse : State :=
  let s := withEvent (timeAt 1000000299 998 1 (destIn .view .presenting (feedIn .locked 3 0)))
  let n := builtCell 16380 true 0 11 []
  queued 22 { portIn .running .paced [n] s with pending := [.feedCellArrival 2 (startCell 16383 0)] }

/-- A step from `inUse` gives a next state. -/
theorem inUse_steps : ∃ t, step inUse = .next t := ⟨_, rfl⟩

theorem witness_DispositionsKept : DispositionsConserved inUse ∧ ∃ t, step inUse = .next t :=
  ⟨by unfold DispositionsConserved FeedTallies.conserved; decide +kernel, inUse_steps⟩

theorem witness_BoundsKept :
    OutboundBounded inUse ∧ SnapshotsSized inUse ∧ PendingLawful inUse ∧ HeldOffLawful inUse ∧ inUse.time.sound ∧
      ∃ t, step inUse = .next t :=
  ⟨by unfold OutboundBounded; decide +kernel, by unfold SnapshotsSized; decide +kernel,
   by intro c; cases c <;> decide +kernel, fun _ => rfl, by unfold TimeUnit.sound; decide +kernel, inUse_steps⟩

theorem witness_PortsKept : PortsSound inUse ∧ ∃ t, step inUse = .next t :=
  ⟨by unfold PortsSound Port.sound; decide +kernel, inUse_steps⟩

theorem witness_EventsKept : EventsSound inUse ∧ ∃ t, step inUse = .next t :=
  ⟨⟨by decide +kernel, by show List.Pairwise _ [event5001]; exact List.pairwise_singleton ..⟩, inUse_steps⟩

theorem witness_SelectionsKept : SelectionsSound inUse ∧ ∃ t, step inUse = .next t :=
  ⟨by unfold SelectionsSound; decide +kernel, inUse_steps⟩

theorem witness_DeliveryKept :
    let s := { delivering 23 [] .running 64 with pending := [.acquisitionTimerExpiry 11] }
    DeliveryPermitted s ∧ ∃ t, step s = .next t :=
  ⟨delivering_permitted 23 .running 64, _, rfl⟩

/-- D11 STALLED and shown by both units' last reports, and an expiry in the queue. -/
theorem witness_DeliveryKept_reports :
    let s := { reported .stalled with pending := [.acquisitionTimerExpiry 11] }
    ReportsAgreed s ∧ (s.dest 11).state ≠ .vacant ∧ (s.dest 11).kind = .view ∧ ∃ t, step s = .next t :=
  ⟨by unfold ReportsAgreed; decide +kernel, by decide +kernel, by decide +kernel, _, rfl⟩

theorem witness_QueuesKept : QueuesLawful inUse ∧ DeliveryClear inUse ∧ ∃ t, step inUse = .next t :=
  ⟨by unfold QueuesLawful; decide +kernel, ⟨by decide +kernel, fun p c h => nomatch h⟩, inUse_steps⟩

theorem witness_OnlyTheseCommands :
    exec .timebaseTick (timeAt 5 0 0 State.reset) = .next (timeAt 5 0 0 State.reset).tick ∧
    exec .resetRelease (timeAt 5 0 0 State.reset) = .next (timeAt 5 0 0 State.reset).powerOn ∧
    (timeAt 5 0 0 State.reset).time.state ≠ .unset ∧ (timeAt 5 0 0 State.reset).powerOn.time.state = .unset ∧
    (after (.setCommitMask 0 [31, 5]) State.reset).keys ≠ State.reset.keys :=
  ⟨rfl, rfl, by decide +kernel⟩

theorem witness_CurrentEvents :
    (let s := withEvent (timeAt 1000000299 998 1 State.reset)
     EventsSound s ∧ s.resetPin = false ∧ s.time.state ≠ .unset ∧
       1000 ≤ s.time.ms + (if 0 < s.time.slew then 2 else if s.time.slew < 0 then 0 else 1)) ∧
    (let s := clockState fun u => timeAt 1000 0 0 (withEvent u)
     Taken s 2 (clock 1003 0) 255 ⟨some 2, 512, 0x3FFE, .clock, none⟩ (s.heard 2) ∧ EventsSound s ∧
       field16 (clock 1003 0).payload.rows 4 ≤ 999 ∧ s.time.source = some 2 ∧
       2000 < (word (clock 1003 0).payload.rows 0 - s.time.sec).toInt * 1000 + ((field16 (clock 1003 0).payload.rows 4 : Int) - s.time.ms)) ∧
    (let s := queued 22 (withEvent (State.reset.setService 63 (some ⟨1201, none⟩)))
     LinkAtRest s ∧ EventsSound s ∧ (1201 : Half) ≠ 0 ∧ (∀ j v, j ≠ (63 : Fin 64) → s.service j = some v → v.number ≠ 1201) ∧
       s.service 63 = some ⟨1201, none⟩ ∧ (∀ d, (s.dest d).state = .vacant) ∧ s.ctl.changes = [] ∧
       event5001 ∈ s.guide.events ∧ event5001.service = 1201) ∧
    EventsSound (⟨withEvent State.reset, [1201]⟩ : Applying).state ∧ (1201 : Half) ∈ (⟨withEvent State.reset, [1201]⟩ : Applying).touched := by
  refine ⟨⟨events_sound (timeAt 1000000299 998 1 State.reset), ?_⟩,
    ⟨taken_512 _ _ _ rfl ?_ ?_ ?_ ?_, events_sound (clockState (timeAt 1000 0 0)), ?_⟩,
    ⟨atRest rfl rfl, events_sound (queued 22 (State.reset.setService 63 (some ⟨1201, none⟩))), ?_, ?_, ?_⟩, events_sound _, ?_⟩
  case refine_8 =>
    intro j v hj hs
    simp [queued, withEvent, State.service, State.setService, Table.read_write, hj, State.reset, Controller.reset] at hs
  all_goals decide +kernel

/-- D11 on index 63, whose current event ends at the mark, and which holds an EVENT unlock and a decline memory. -/
theorem witness_CurrentEvents_units :
    let u := (held .declined (reported .withheld)).setViewer 11 { (held .declined (reported .withheld)).viewer 11 with unlock := some (.event 5001) }
    let s := withEvent (timeAt 1000003599 998 1 u)
    let c : EventChange := ⟨63, some 5001, none⟩
    EventsSound s ∧ s.resetPin = false ∧ s.time.state ≠ .unset ∧
      1000 ≤ s.time.ms + (if 0 < s.time.slew then 2 else if s.time.slew < 0 then 0 else 1) ∧
      s.guide.current.read 63 = some 5001 ∧ (s.dest 11).state ≠ .vacant ∧ (s.dest 11).service = some c.index ∧ (s.dest 11).kind = .view ∧
      (s.viewer 11).unlock = some (.event 5001) ∧ (s.viewer 11).hold = .declined ∧ s.lastAccess 11 = (s.dest 11).access ∧
      (s.dest 0).service ≠ some c.index ∧ (s.setLastAccess 11 none).lastAccess 11 ≠ some ((s.setLastAccess 11 none).accessVerdict 63) :=
  ⟨events_sound _, by decide +kernel⟩

end Sys2Proof.Tests
end

