-- ==== Sys2Proof/Proofs/Steps.lean ====
section
/-! SUPPORT. How an invariant is shown to be kept by every step: what has to be shown of each event and of each order, for an invariant that does
not speak of the host link; and what an order leaves of the blocks that it does not name. -/

namespace Sys2Proof.Machine

/-! ## One step, command by command -/

/-- What makes `P` an invariant of every step: it speaks neither of the host link nor of the commands that wait, and each event and each
order's own effect keeps it. -/
structure KeptByCommands (P : State → Prop) : Prop where
  link : ∀ s l, P s → P { s with link := l }
  pending : ∀ s l, P s → P { s with pending := l }
  sendHost : ∀ c s, P s → P (s.send (.host c))
  arrival : ∀ f c s, P s → P (State.arrival f c s)
  feedSilence : ∀ f s, P s → P (State.feedSilence f s)
  tick : ∀ s, P s → P s.tick
  sourceSilence : ∀ s, P s → P s.sourceSilence
  acquisitionExpires : ∀ d s, P s → P (State.acquisitionExpires d s)
  holdExpires : ∀ d s, P s → P (State.holdExpires d s)
  drain : ∀ p s, P s → P (State.drain p s)
  slot : ∀ p b s, P s → P (State.slot p b s)
  drainWatch : ∀ p s, P s → P (State.drainWatch p s)
  order : ∀ o b s, P s → P (runOrder o b s).state
  assertReset : ∀ s, P s → P s.assertReset
  powerOn : ∀ s, P s → P s.powerOn

namespace KeptByCommands

variable {P : State → Prop}

theorem carryOut (k : KeptByCommands P) (r : OrderRecord) {s : State} (h : P s) : P (carryOut r s).state := by
  unfold Machine.carryOut
  split
  · exact h
  · split
    · exact h
    · exact k.order _ _ _ h

theorem runRecord (k : KeptByCommands P) (r : OrderRecord) {s : State} (h : P s) : P (s.runRecord r) :=
  k.link _ _ (k.link _ _ (k.carryOut r (k.link s _ h)))

theorem takeOrder (k : KeptByCommands P) (r : OrderRecord) {s : State} (h : P s) : P (s.takeOrder r) := by
  unfold State.takeOrder
  split
  · split
    · exact k.link _ _ (k.runRecord r h)
    · exact h
  · split
    · exact k.link _ _ (k.runRecord r (k.link s _ h))
    · exact h

theorem takeNext (k : KeptByCommands P) (c : CommandCell) {s : State} (h : P s) : P (State.takeNext c s) := by
  unfold State.takeNext
  split
  · exact k.runRecord _ h
  · exact k.link s _ h

theorem resume (k : KeptByCommands P) (before : HostLink) {s : State} (h : P s) : P (s.resume before) := by
  unfold State.resume
  split
  · exact h
  · split
    · exact k.takeNext _ (k.link s _ h)
    · exact h

theorem emission (k : KeptByCommands P) {s : State} (h : P s) : P s.emission := by
  unfold State.emission
  split
  · exact h
  · exact k.link _ _ (k.link _ _ (k.resume _ (k.sendHost _ _ (k.link s _ h))))

end KeptByCommands

/-- A command that stands for an order record is the taking of its record, or has no effect (log entry 26). -/
theorem exec_record {c : Instr} {r : OrderRecord} (h : c.record = some r) (s : State) :
    exec c s = guarded (State.takeOrder r) s ∨ exec c s = .next s := by
  cases c <;> cases h
  case unknownOrder code tag body =>
    cases hu : codeUnknown code
    · exact .inr (by simp [exec, execUnknownOrder, guarded, hu])
    · exact .inl (by simp [exec, execUnknownOrder, guarded, hu])
  all_goals exact .inl rfl

/-- What a command's effect keeps, the command keeps, whether the reset pin is asserted or not. -/
theorem guarded_keeps {P : State → Prop} {f : State → State} {s t : State} (hf : P s → P (f s)) (h : P s)
    (e : guarded f s = .next t) : P t := by
  unfold guarded at e
  split at e <;> cases e
  · exact h
  · exact hf h

theorem KeptByCommands.exec {P : State → Prop} (k : KeptByCommands P) {c : Instr} {s t : State} (h : P s)
    (e : exec c s = .next t) : P t := by
  cases hr : c.record with
  | some r =>
    rcases exec_record hr s with g | g <;> rw [g] at e
    · exact guarded_keeps (k.takeOrder r) h e
    · cases e
      exact h
  | none =>
    cases c with
    | feedCellArrival f c => exact guarded_keeps (k.arrival f c s) h e
    | silenceTimerExpiry f => exact guarded_keeps (k.feedSilence f s) h e
    | timebaseTick => exact guarded_keeps (k.tick s) h e
    | sourceSilenceTimerExpiry => exact guarded_keeps (k.sourceSilence s) h e
    | acquisitionTimerExpiry d => exact guarded_keeps (k.acquisitionExpires d s) h e
    | holdTimerExpiry d => exact guarded_keeps (k.holdExpires d s) h e
    | drain p => exact guarded_keeps (k.drain p s) h e
    | slotTimerExpiry p b => exact guarded_keeps (k.slot p b s) h e
    | drainWatchExpiry p => exact guarded_keeps (k.drainWatch p s) h e
    | commandCell c => exact guarded_keeps (k.link s _) h e
    | emission => exact guarded_keeps k.emission h e
    | resetAssert =>
      cases e
      exact k.assertReset s h
    | resetRelease =>
      cases e
      exact k.powerOn s h
    | _ => cases hr

/-- What every event and every order keeps, every step keeps. -/
theorem KeptByCommands.keptByStep {P : State → Prop} (k : KeptByCommands P) : KeptByStep P := by
  intro s t h e
  unfold step at e
  split at e
  · cases e
    exact h
  · exact k.exec (k.pending s _ h) e

/-! ## What the events and orders leave -/

theorem acquisitionExpires_frame (d : DestId) (s : State) : UnitsKept s (s.acquisitionExpires d) := by
  unfold State.acquisitionExpires
  dsimp only
  split
  · exact (setDest_frame _ _ s).trans (raise_unitsKept _ _ _ _)
  · exact .refl s

theorem holdExpires_frame (d : DestId) (s : State) : ParentalFrame s (s.holdExpires d) := by
  unfold State.holdExpires
  dsimp only
  split
  · exact (endHold_frame d _ s).trans (reportHanded_frame d _)
  · exact .refl s

theorem drain_frame (p : PortId) (s : State) : OutputFrame s (s.drain p) := by
  unfold State.drain
  dsimp only
  split
  · exact .refl s
  · exact .ite (emitPort_frame p s) (setPort_frame p _ s).toOutputFrame

theorem slot_frame (p : PortId) (b : Bool) (s : State) : OutputFrame s (s.slot p b) := by
  unfold State.slot
  dsimp only
  refine .ite ?_ (.refl s)
  split
  · exact emitPort_frame p s
  · exact .ite ((setPort_frame p _ s).toOutputFrame.trans (sendPort_frame p (some fillCell) _)) (.refl s)

theorem drainWatch_frame (p : PortId) (s : State) : UnitsKept s (s.drainWatch p) := by
  unfold State.drainWatch
  dsimp only
  exact .ite ((setPort_frame p _ s).trans (raise_unitsKept _ _ _ _)) (.refl s)

/-! ## What an order leaves -/

/-- The orders that write the feeds, the flow table, the time unit or the key slots: their own, and RESET_PART. -/
def writesBlock : Order → Bool
  | .feedEnable | .feedDisable | .feedConfigure | .setFlow | .clearFlow | .setTimeSource | .loadKeyQuarter | .setCommitMask
  | .clearKey | .resetPart => true
  | _ => false

theorem serviceChanged_frame (i : Fin 64) (s : State) : DeliveryFrame s (s.serviceChanged i) :=
  ((recompute_frame _ s).trans (formAccessNow_frame _ _).toDeliveryFrame).trans (deliver_frame _ _)

/-- A change of the controller, the access unit, the parental unit, the ports, the host link or the attention unit alone is in the frame. -/
theorem Frame.ofRest (s : State) (c : Controller) (a : AccessUnit) (u : ParentalUnit) (p : Table Port 4) (l : HostLink)
    (n : Attention) :
    Frame s { s with ctl := c, access := a, parental := u, ports := p, link := l, attention := n } :=
  ⟨rfl, rfl, rfl, rfl, rfl, rfl⟩

theorem orderSetService_frame (b : List Byte) (s : State) : Frame s (orderSetService b s).state := by
  unfold orderSetService
  dsimp only
  split
  · exact .refl s
  · next i _ =>
    repeat' split
    · exact .refl s
    · exact .refl s
    · exact .refl s
    · exact .trans (t := s.setService i _) (.ofRest s _ _ _ _ _ _) (serviceChanged_frame i _).toFrame

theorem orderClearService_frame (b : List Byte) (s : State) : Frame s (orderClearService b s).state := by
  unfold orderClearService
  split
  · exact .refl s
  · next i _ =>
    split
    · exact .refl s
    · exact .trans (t := s.setService i none) (.ofRest s _ _ _ _ _ _) (serviceChanged_frame i _).toFrame

theorem orderBindDestination_frame (b : List Byte) (s : State) : Frame s (orderBindDestination b s).state := by
  unfold orderBindDestination
  dsimp only
  split
  · split
    · exact .refl s
    · exact .ofRest s _ _ _ _ _ _
  · exact .refl s

theorem orderSelect_frame (b : List Byte) (s : State) : Frame s (orderSelect b s).state := by
  unfold orderSelect
  split
  · repeat' split
    · exact .refl s
    · exact .refl s
    · exact .ofRest s _ _ _ _ _ _
    · exact (applySelection_frame _ _ s).toFrame
  · exact .refl s

theorem orderTake_frame (b : List Byte) (s : State) : Frame s (orderTake b s).state :=
  (applyAll_frame _ s).toFrame.trans (.ofRest _ _ _ _ _ _ _)

theorem orderRelease_frame (b : List Byte) (s : State) : Frame s (orderRelease b s).state := by
  unfold orderRelease
  split
  · exact .refl s
  · exact .trans (.ofRest s _ _ _ _ _ _) (releaseDest_frame _ s).toFrame

theorem formAccessNow_setEntitlement (i : Fin 48) (x : Option Entitlement) (want : Dest → Bool) (s : State) :
    Frame s ((s.setEntitlement i x).formAccessNow want) :=
  .trans (t := s.setEntitlement i x) (.ofRest s _ _ _ _ _ _) (formAccessNow_frame _ _).toFrame

theorem orderGrantEntitlement_frame (b : List Byte) (s : State) : Frame s (orderGrantEntitlement b s).state := by
  unfold orderGrantEntitlement
  dsimp only
  split
  · exact .refl s
  · split
    · exact .refl s
    · split
      · exact formAccessNow_setEntitlement _ _ _ s
      · exact formAccessNow_setEntitlement _ _ _ s
      · exact .refl s

theorem orderRevokeEntitlement_frame (b : List Byte) (s : State) : Frame s (orderRevokeEntitlement b s).state := by
  unfold orderRevokeEntitlement
  split
  · exact .refl s
  · split
    · exact .refl s
    · exact formAccessNow_setEntitlement _ _ _ s

theorem orderPurgeGuide_frame (b : List Byte) (s : State) : Frame s (orderPurgeGuide b s).state := by
  have h : Frame s (s.emptyGuide (half b 0)) := ⟨rfl, rfl, rfl, rfl, rfl, rfl⟩
  exact h.trans ((recompute_frame _ _).trans (deliver_frame _ _)).toFrame

theorem orderQueryEvent_state (b : List Byte) (s : State) : (orderQueryEvent b s).state = s := by
  unfold orderQueryEvent
  dsimp only
  split <;> rfl

theorem orderQueryNext_state (b : List Byte) (s : State) : (orderQueryNext b s).state = s := by
  unfold orderQueryNext
  dsimp only
  split <;> rfl

theorem formProfile_setProfile (p : Fin 8) (x : Profile) (s : State) : Frame s ((s.setProfile p x).formProfile p) :=
  .trans (t := s.setProfile p x) (.ofRest s _ _ _ _ _ _) (formEach_frame _ _).toFrame

theorem orderSetProfile_frame (b : List Byte) (s : State) : Frame s (orderSetProfile b s).state := by
  unfold orderSetProfile
  dsimp only
  split
  · split
    · exact .refl s
    · dsimp only [Answer.done]
      exact formProfile_setProfile _ _ s
  · exact .refl s

theorem orderAddAllowance_frame (b : List Byte) (s : State) : Frame s (orderAddAllowance b s).state := by
  unfold orderAddAllowance
  dsimp only
  split
  · exact .refl s
  · split
    · exact .refl s
    · dsimp only [Answer.done]
      exact formProfile_setProfile _ _ s

theorem orderGrantUnlock_frame (b : List Byte) (s : State) : Frame s (orderGrantUnlock b s).state := by
  unfold orderGrantUnlock
  dsimp only
  split
  · next d u _ _ =>
    have h := installUnlock_frame d u s
    split
    · exact ((h.trans (clearMemory_frame d _)).trans (formAndReport_frame d _)).toFrame
    · exact h.toFrame
  · exact .refl s

theorem orderResolveHold_frame (b : List Byte) (s : State) : Frame s (orderResolveHold b s).state := by
  unfold orderResolveHold
  dsimp only
  split
  · exact .refl s
  · repeat' split
    · exact .refl s
    · exact .refl s
    · exact .refl s
    · exact ((installUnlock_frame _ _ s).trans (formAndReport_frame _ _)).toFrame
    · exact ((endHold_frame _ _ s).trans (reportHanded_frame _ _)).toFrame

theorem announceHalt_setPort (p : PortId) (x : Port) (h : Bool) (s : State) : Frame s ((s.setPort p x).announceHalt p h) :=
  (setPort_frame p x s).toFrame.trans (announceHalt_frame p h _).toFrame

theorem orderPortConfigure_frame (b : List Byte) (s : State) : Frame s (orderPortConfigure b s).state := by
  unfold orderPortConfigure
  dsimp only
  split
  · repeat' split
    · exact .refl s
    · exact .refl s
    · exact .ofRest s _ _ _ _ _ _
  · exact .refl s

theorem orderPortStart_frame (b : List Byte) (s : State) : Frame s (orderPortStart b s).state := by
  unfold orderPortStart
  dsimp only
  split
  · exact .refl s
  · split
    · exact .ofRest s _ _ _ _ _ _
    · exact .refl s

theorem orderPortStop_frame (b : List Byte) (s : State) : Frame s (orderPortStop b s).state := by
  unfold orderPortStop
  dsimp only
  split
  · exact .refl s
  · dsimp only [Answer.done]
    split
    · exact announceHalt_setPort _ _ _ s
    · exact .ofRest s _ _ _ _ _ _

theorem orderPortClear_frame (b : List Byte) (s : State) : Frame s (orderPortClear b s).state := by
  unfold orderPortClear
  dsimp only
  split
  · exact .refl s
  · split <;> dsimp only [Answer.done]
    · exact announceHalt_setPort _ _ _ s
    · exact .ofRest s _ _ _ _ _ _
    · exact .ofRest s _ _ _ _ _ _

theorem orderAckAttention_frame (b : List Byte) (s : State) : Frame s (orderAckAttention b s).state := by
  unfold orderAckAttention
  dsimp only
  split
  · exact .refl s
  · repeat' split
    · exact .refl s
    · exact .refl s
    · exact (withdraw_frame _ _ s).toFrame

theorem orderSetAttentionMask_frame (b : List Byte) (s : State) : Frame s (orderSetAttentionMask b s).state := by
  unfold orderSetAttentionMask
  dsimp only
  split
  · exact .refl s
  · split
    · exact .refl s
    · exact .ofRest s _ _ _ _ _ _

theorem orderSnapshotTallies_frame (b : List Byte) (s : State) : Frame s (orderSnapshotTallies b s).state := by
  unfold orderSnapshotTallies
  split
  · exact .refl s
  · exact .ofRest s _ _ _ _ _ _

/-- An order leaves the feeds, the flow table, the time unit, the key slots, the reset pin and the commands that wait, unless it is one that
writes them. -/
theorem runOrder_frame {o : Order} (h : writesBlock o = false) (b : List Byte) (s : State) : Frame s (runOrder o b s).state := by
  have unchanged {a : Answer} (e : a.state = s) : Frame s a.state := e ▸ .refl s
  cases o with
  | feedEnable | feedDisable | feedConfigure | setFlow | clearFlow | setTimeSource | loadKeyQuarter | setCommitMask | clearKey
  | resetPart => cases h
  | readTime | readChanges | readGuide | readIdentity => exact .refl s
  | discardChanges | setAcquireTime => exact .ofRest s _ _ _ _ _ _
  | readFeed | readFlow | readService | readDestination | readKeyState | readEntitlement | readProfile | readParental | readPort =>
    refine unchanged ?_
    simp only [runOrder, orderReadFeed, orderReadFlow, orderReadService, orderReadDestination, orderReadKeyState,
      orderReadEntitlement, orderReadProfile, orderReadParental, orderReadPort]
    split <;> rfl
  | queryEvent => exact unchanged (orderQueryEvent_state b s)
  | queryNext => exact unchanged (orderQueryNext_state b s)
  | setService => exact orderSetService_frame b s
  | clearService => exact orderClearService_frame b s
  | bindDestination => exact orderBindDestination_frame b s
  | select => exact orderSelect_frame b s
  | take => exact orderTake_frame b s
  | release => exact orderRelease_frame b s
  | grantEntitlement => exact orderGrantEntitlement_frame b s
  | revokeEntitlement => exact orderRevokeEntitlement_frame b s
  | purgeGuide => exact orderPurgeGuide_frame b s
  | setProfile => exact orderSetProfile_frame b s
  | addAllowance => exact orderAddAllowance_frame b s
  | grantUnlock => exact orderGrantUnlock_frame b s
  | resolveHold => exact orderResolveHold_frame b s
  | portConfigure => exact orderPortConfigure_frame b s
  | portStart => exact orderPortStart_frame b s
  | portStop => exact orderPortStop_frame b s
  | portClear => exact orderPortClear_frame b s
  | ackAttention => exact orderAckAttention_frame b s
  | setAttentionMask => exact orderSetAttentionMask_frame b s
  | snapshotTallies => exact orderSnapshotTallies_frame b s

end Sys2Proof.Machine
end

