-- ==== Sys2Proof/Proofs/Dispositions.lean ====
section
/-! SUPPORT. The conservation of dispositions (R23): every cell that a feed counts ARRIVED is counted in one disposition more. The balance
of a feed's tallies says what is owed; a count shifts it by the tally's weight. -/

namespace Sys2Proof.Machine

/-! ## The balance of a feed's tallies -/

/-- ARRIVED less the nine dispositions. -/
def FeedTallies.balance (t : FeedTallies) : Word :=
  t.arrived - (t.settling + t.malformed + t.fill + t.unmatched + t.duplicate + t.routed + t.forwarded + t.consumed + t.discarded)

theorem FeedTallies.conserved_iff (t : FeedTallies) : t.conserved ↔ t.balance = 0 := by
  rw [FeedTallies.conserved, FeedTallies.balance, sub_eq_zero]

/-- What one more in a tally does to the balance: GAP and BAD_CLOCK are no dispositions (1.4). -/
def FeedTally.weight : FeedTally → Word
  | .arrived => 1
  | .gap | .badClock => 0
  | .settling | .malformed | .fill | .unmatched | .duplicate | .routed | .forwarded | .consumed | .discarded => -1

theorem FeedTallies.balance_count (t : FeedTallies) (x : FeedTally) : (t.count x).balance = t.balance + x.weight := by
  cases x <;> simp only [FeedTallies.count, FeedTallies.balance, FeedTally.weight] <;> ring

/-- From `s` to `t` the balance of feed `f` shifts by `w`, and no other feed's shifts. -/
def Shifts (f : FeedId) (w : Word) (s t : State) : Prop :=
  ∀ g, (t.feed g).tallies.balance = (s.feed g).tallies.balance + if g = f then w else 0

variable {f : FeedId} {s t u : State}

theorem Shifts.trans {v w : Word} (a : Shifts f v s t) (b : Shifts f w t u) : Shifts f (v + w) s u := by
  intro g
  rw [b g, a g]
  split <;> ring

/-- What leaves every feed's tallies shifts nothing. -/
theorem Shifts.ofTallies (h : ∀ g, (t.feed g).tallies = (s.feed g).tallies) : Shifts f 0 s t := by
  intro g
  rw [h g]
  simp

theorem Shifts.ofFeeds (h : t.feeds = s.feeds) : Shifts f 0 s t := .ofTallies fun g => by rw [State.feed, h]; rfl

/-- Work behind a count that leaves the feeds does not shift again. -/
theorem Shifts.thenFeeds {w : Word} (a : Shifts f w s t) (h : u.feeds = t.feeds) : Shifts f w s u := by
  simpa using a.trans (.ofFeeds h)

/-- Work before a count that leaves the tallies does not shift. -/
theorem Shifts.after {w : Word} (h : ∀ g, (t.feed g).tallies = (s.feed g).tallies) (a : Shifts f w t u) : Shifts f w s u := by
  simpa using (Shifts.ofTallies (f := f) h).trans a

theorem countFeed_shifts (f : FeedId) (x : FeedTally) (s : State) : Shifts f x.weight s (s.countFeed f x) := by
  intro g
  rw [State.countFeed, setFeed_feed]
  split
  · next h =>
    subst h
    exact FeedTallies.balance_count _ _
  · simp

/-- A feed record replaced by one with the same tallies. -/
theorem setFeed_tallies {f : FeedId} {x : Feed} {s : State} (h : x.tallies = (s.feed f).tallies) (g : FeedId) :
    ((s.setFeed f x).feed g).tallies = (s.feed g).tallies := by
  rw [setFeed_feed]
  split
  · next e => rw [e, h]
  · rfl

/-! ## One arrival -/

theorem clockCell_shifts (f : FeedId) (c : Cell) (s : State) : Shifts f 0 s (s.clockCell f c) := by
  unfold State.clockCell
  dsimp only
  split
  · exact countFeed_shifts f .badClock s
  · split
    · exact .ofFeeds rfl
    · split
      · exact .ofFeeds (deliver_frame _ _).feeds
      · split
        · exact .ofFeeds rfl
        · exact .ofFeeds (deliver_frame _ _).feeds
        · exact .ofFeeds (deliver_frame _ _).feeds

/-- A cell that an entry takes is counted in one disposition, whatever its kind (R18). -/
theorem dispose_shifts (k : Fin 256) (e : FlowEntry) (f : FeedId) (c : Cell) (s : State) : Shifts f (-1) s (s.dispose k e f c) := by
  unfold State.dispose
  split
  · exact (countFeed_shifts f .routed s).thenFeeds (programmeCell_frame k _ c _).feeds
  · exact (countFeed_shifts f .forwarded s).thenFeeds (offerForward_frame _ _).feeds
  · exact (countFeed_shifts f .consumed s).thenFeeds ((guideCell_frame k f c _).trans (finish_frame _).toFrame).feeds
  · simpa [FeedTally.weight] using (countFeed_shifts f .consumed s).trans (clockCell_shifts f c _)
  · exact countFeed_shifts f .discarded s

theorem classify_shifts (f : FeedId) (c : Cell) (s : State) : Shifts f (-1) s (s.classify f c) := by
  unfold State.classify
  split
  · exact countFeed_shifts f .unmatched s
  · next k e _ =>
    split
    · exact dispose_shifts k e f c s
    · exact .after (fun _ => rfl) (dispose_shifts k e f c (s.setLastSeq k e c.seq))
    · exact countFeed_shifts f .duplicate s
    · have h := ((countFeed_shifts f .gap s).thenFeeds
        (u := ((s.countFeed f .gap).setLastSeq k e c.seq).abandonEntry k) rfl).trans (dispose_shifts k e f c _)
      simpa [FeedTally.weight] using h

theorem screen_shifts (f : FeedId) (c : Cell) (s : State) : Shifts f (-1) s (s.screen f c) := by
  unfold State.screen
  split
  · exact countFeed_shifts f .fill s
  · split
    · exact countFeed_shifts f .unmatched s
    · exact classify_shifts f c s

theorem lockedWellFormed_shifts (f : FeedId) (c : Cell) (s : State) : Shifts f (-1) s (s.lockedWellFormed f c) :=
  .after (setFeed_tallies (by rfl)) (screen_shifts f c _)

theorem enterLapsed_tallies (f : FeedId) (s : State) (g : FeedId) : ((s.enterLapsed f).feed g).tallies = (s.feed g).tallies :=
  setFeed_tallies (x := (s.feed f).lapse) rfl g

theorem lockedMalformed_shifts (f : FeedId) (s : State) : Shifts f (-1) s (s.lockedMalformed f) := by
  have h (x : Feed) (hx : x.tallies = (s.feed f).tallies) : Shifts f (-1) s ((s.setFeed f x).countFeed f .malformed) :=
    .after (setFeed_tallies hx) (countFeed_shifts f .malformed _)
  unfold State.lockedMalformed
  dsimp only
  split
  · simpa using (h _ (by rfl)).trans (.ofTallies (enterLapsed_tallies f _))
  · exact h _ rfl

theorem seekingWellFormed_shifts (f : FeedId) (c : Cell) (s : State) : Shifts f (-1) s (s.seekingWellFormed f c) := by
  unfold State.seekingWellFormed
  dsimp only
  split
  · exact .after (setFeed_tallies (by rfl)) (countFeed_shifts f .settling _)
  · exact .after (setFeed_tallies (by rfl)) (lockedWellFormed_shifts f c _)

theorem seekingMalformed_shifts (f : FeedId) (s : State) : Shifts f (-1) s (s.seekingMalformed f) :=
  .after (setFeed_tallies (by rfl)) (countFeed_shifts f .malformed _)

/-- An arrival is counted ARRIVED and in one disposition, or not at all: it leaves the balance of every feed. -/
theorem arrival_shifts (f : FeedId) (c : Cell) (s : State) : Shifts f 0 s (s.arrival f c) := by
  have counted {v : State} (h : Shifts f (-1) (s.countFeed f .arrived) v) : Shifts f 0 s v := by
    simpa [FeedTally.weight] using (countFeed_shifts f .arrived s).trans h
  unfold State.arrival
  split
  · exact .ofFeeds rfl
  all_goals
    dsimp only
    split
  · exact counted (seekingWellFormed_shifts f c _)
  · exact counted (seekingMalformed_shifts f _)
  · exact counted (seekingWellFormed_shifts f c _)
  · exact counted (seekingMalformed_shifts f _)
  · exact counted (lockedWellFormed_shifts f c _)
  · exact counted (lockedMalformed_shifts f _)

/-! ## The invariant -/

theorem Shifts.conserved (h : Shifts f 0 s t) (c : DispositionsConserved s) : DispositionsConserved t := by
  intro g
  have hg := (FeedTallies.conserved_iff _).mp (c g)
  rw [FeedTallies.conserved_iff, h g, hg]
  simp

theorem DispositionsConserved.ofTallies (h : ∀ g, (t.feed g).tallies = (s.feed g).tallies) (c : DispositionsConserved s) :
    DispositionsConserved t := by
  intro g
  rw [h g]
  exact c g

theorem DispositionsConserved.ofFeeds (h : t.feeds = s.feeds) (c : DispositionsConserved s) : DispositionsConserved t :=
  c.ofTallies fun g => by rw [State.feed, h]; rfl

theorem feedSilence_tallies (f : FeedId) (s : State) (g : FeedId) : ((s.feedSilence f).feed g).tallies = (s.feed g).tallies := by
  unfold State.feedSilence
  dsimp only
  split
  · exact enterLapsed_tallies f s g
  · rfl

/-- A tick runs the silence timers on; the announcements of a mark leave the feeds. -/
theorem tick_feeds (s : State) : s.tick.feeds = s.runTimers.feeds := by
  unfold State.tick
  dsimp only
  split
  · rfl
  · split
    · exact (deliver_frame _ _).feeds
    · rfl

theorem tick_tallies (s : State) (g : FeedId) : (s.tick.feed g).tallies = (s.feed g).tallies := by
  rw [State.feed, tick_feeds]
  simp [State.runTimers, State.feed]

theorem sourceSilence_feeds (s : State) : s.sourceSilence.feeds = s.feeds := by
  unfold State.sourceSilence
  split <;> rfl

/-- Full and power-on resets leave every feed's tallies at 0. -/
theorem DispositionsConserved.ofReset (h : s.feeds = .filled 8 .reset) : DispositionsConserved s := by
  intro g
  rw [State.feed, h, Table.read_filled]
  rfl

theorem orderFeedEnable_tallies (b : List Byte) (s : State) (g : FeedId) :
    ((orderFeedEnable b s).state.feed g).tallies = (s.feed g).tallies := by
  unfold orderFeedEnable
  dsimp only
  split
  · rfl
  · split
    · exact setFeed_tallies (by rfl) g
    · rfl

theorem orderFeedDisable_tallies (b : List Byte) (s : State) (g : FeedId) :
    ((orderFeedDisable b s).state.feed g).tallies = (s.feed g).tallies := by
  unfold orderFeedDisable
  dsimp only
  split
  · rfl
  · next f _ =>
    split
    · rfl
    · exact setFeed_tallies (f := f) (x := { s.feed f with state := .off, settleRun := 0, lapseRun := 0, silence := none }) rfl g

theorem orderFeedConfigure_tallies (b : List Byte) (s : State) (g : FeedId) :
    ((orderFeedConfigure b s).state.feed g).tallies = (s.feed g).tallies := by
  unfold orderFeedConfigure
  dsimp only
  split
  · rfl
  · repeat' split
    · rfl
    · rfl
    · exact setFeed_tallies (by rfl) g

theorem announceEntry_unitsKept (k : Fin 256) (s : State) : UnitsKept (s.abandonEntry k) (s.announceEntry k) :=
  entryChanged_frame k _

theorem orderSetFlow_feeds (b : List Byte) (s : State) : (orderSetFlow b s).state.feeds = s.feeds := by
  unfold orderSetFlow
  split
  · next k e _ _ => exact (announceEntry_unitsKept k (s.setFlow k (some e))).feeds
  · rfl

theorem orderClearFlow_feeds (b : List Byte) (s : State) : (orderClearFlow b s).state.feeds = s.feeds := by
  unfold orderClearFlow
  split
  · rfl
  · next k _ => exact (announceEntry_unitsKept k (s.setFlow k none)).feeds

theorem orderSetTimeSource_feeds (b : List Byte) (s : State) : (orderSetTimeSource b s).state.feeds = s.feeds := by
  unfold orderSetTimeSource
  split <;> rfl

theorem orderLoadKeyQuarter_feeds (b : List Byte) (s : State) : (orderLoadKeyQuarter b s).state.feeds = s.feeds := by
  unfold orderLoadKeyQuarter
  dsimp only
  split
  · split
    · dsimp only [Answer.done]
      exact (keyCommitted_frame _ _).feeds
    · rfl
  · rfl

theorem orderSetCommitMask_feeds (b : List Byte) (s : State) : (orderSetCommitMask b s).state.feeds = s.feeds := by
  unfold orderSetCommitMask
  split <;> rfl

theorem orderClearKey_feeds (b : List Byte) (s : State) : (orderClearKey b s).state.feeds = s.feeds := by
  unfold orderClearKey
  split <;> rfl

theorem orderResetPart_conserved (b : List Byte) (s : State) (c : DispositionsConserved s) :
    DispositionsConserved (orderResetPart b s).state := by
  unfold orderResetPart
  split
  · exact .ofReset rfl
  · refine c.ofTallies fun g => ?_
    simp [Answer.done, State.discardRest, State.trafficReset, State.feed, Feed.trafficReset]
  · exact c

/-- No order counts a cell; RESET_PART with scope FULL zeroes the tallies. -/
theorem runOrder_conserved (o : Order) (b : List Byte) (s : State) (c : DispositionsConserved s) :
    DispositionsConserved (runOrder o b s).state := by
  cases h : writesBlock o with
  | false => exact c.ofFeeds (runOrder_frame h b s).feeds
  | true =>
    cases o with
    | feedEnable => exact c.ofTallies (orderFeedEnable_tallies b s)
    | feedDisable => exact c.ofTallies (orderFeedDisable_tallies b s)
    | feedConfigure => exact c.ofTallies (orderFeedConfigure_tallies b s)
    | setFlow => exact c.ofFeeds (orderSetFlow_feeds b s)
    | clearFlow => exact c.ofFeeds (orderClearFlow_feeds b s)
    | setTimeSource => exact c.ofFeeds (orderSetTimeSource_feeds b s)
    | loadKeyQuarter => exact c.ofFeeds (orderLoadKeyQuarter_feeds b s)
    | setCommitMask => exact c.ofFeeds (orderSetCommitMask_feeds b s)
    | clearKey => exact c.ofFeeds (orderClearKey_feeds b s)
    | resetPart => exact orderResetPart_conserved b s c
    | _ => cases h

theorem conserved_keptByCommands : KeptByCommands DispositionsConserved where
  link _ _ c := c.ofFeeds rfl
  pending _ _ c := c.ofFeeds rfl
  sendHost _ _ c := c.ofFeeds rfl
  arrival f x s c := (arrival_shifts f x s).conserved c
  feedSilence f s c := c.ofTallies (feedSilence_tallies f s)
  tick s c := c.ofTallies (tick_tallies s)
  sourceSilence s c := c.ofFeeds (sourceSilence_feeds s)
  acquisitionExpires d s c := c.ofFeeds (acquisitionExpires_frame d s).feeds
  holdExpires d s c := c.ofFeeds (holdExpires_frame d s).feeds
  drain p s c := c.ofFeeds (drain_frame p s).feeds
  slot p b s c := c.ofFeeds (slot_frame p b s).feeds
  drainWatch p s c := c.ofFeeds (drainWatch_frame p s).feeds
  order o b s c := runOrder_conserved o b s c
  assertReset _ c := c.ofFeeds rfl
  powerOn _ _ := .ofReset rfl

/-- Settles O51: no command but an arrival counts a cell, and an arrival shifts the balance of no feed. -/
theorem dispositionsKept : Obligations.DispositionsKept := conserved_keptByCommands.keptByStep

end Sys2Proof.Machine
end

