-- ==== Sys2Proof/Proofs/Cells.lean ====
section
/-! SUPPORT. Cells at the feeds (1.2, 1.3): what an arrival is in each state of its feed, which entry takes a cell, the sequence check, and the
state on which a taken cell is disposed of. -/

namespace Sys2Proof

/-! ## The first index that a search accepts -/

theorem Table.entries_eq_map {α : Type} {n : Nat} (t : Table α n) : t.entries = (List.finRange n).map fun i => (i, t.read i) := by
  apply List.ext_getElem
  · simp
  · intro i h _
    rw [Table.getElem_entries]
    simp

theorem first_of_findSome?_finRange {β : Type} {n : Nat} {g : Fin n → Option β} {b : β}
    (h : (List.finRange n).findSome? g = some b) : ∃ i, g i = some b ∧ ∀ j < i, g j = none := by
  obtain ⟨before, i, after, e, hi, hb⟩ := List.findSome?_eq_some_iff.mp h
  refine ⟨i, hi, fun j hj => hb j ?_⟩
  have sorted : (before ++ i :: after).Pairwise (· < ·) := e ▸ (List.sortedLT_finRange n).pairwise
  have hm : j ∈ before ++ i :: after := e ▸ List.mem_finRange j
  rcases List.mem_append.mp hm with hm | hm
  · exact hm
  · obtain ⟨_, tail, _⟩ := List.pairwise_append.mp sorted
    rcases List.mem_cons.mp hm with rfl | hm
    · exact absurd hj (lt_irrefl _)
    · exact absurd hj ((List.pairwise_cons.mp tail).1 j hm).asymm

theorem findSome?_finRange_eq_some {β : Type} {n : Nat} {g : Fin n → Option β} {b : β} :
    (List.finRange n).findSome? g = some b ↔ ∃ i, g i = some b ∧ ∀ j < i, g j = none := by
  refine ⟨first_of_findSome?_finRange, ?_⟩
  rintro ⟨i, hi, hb⟩
  cases h : (List.finRange n).findSome? g with
  | none => simp [List.findSome?_eq_none_iff.mp h i (List.mem_finRange i)] at hi
  | some c =>
    obtain ⟨j, hj, hc⟩ := first_of_findSome?_finRange h
    rcases lt_trichotomy i j with lt | rfl | lt
    · simp [hc i lt] at hi
    · rw [← hj, hi]
    · simp [hb j lt] at hj

end Sys2Proof

namespace Sys2Proof.Machine

/-! ## A feed record written twice -/

@[simp] theorem setFeed_setFeed (f : FeedId) (x y : Feed) (s : State) : (s.setFeed f x).setFeed f y = s.setFeed f y := by
  simp [State.setFeed]

@[simp] theorem setFlow_setFlow (k : Fin 256) (x y : Option FlowEntry) (s : State) : (s.setFlow k x).setFlow k y = s.setFlow k y := by
  simp [State.setFlow]

/-! ## Arrivals -/

theorem exec_arrival {f : FeedId} {c : Cell} {s : State} (h : s.resetPin = false) :
    exec (.feedCellArrival f c) s = .next (s.arrival f c) := guarded_released h

theorem arrival_off {f : FeedId} {s : State} (h : (s.feed f).state = .off) (c : Cell) : s.arrival f c = s := by
  simp [State.arrival, h]

/-- A feed in UNSETTLED or LAPSED seeks lock (R6). -/
theorem arrival_seeking {f : FeedId} {s : State} (h : (s.feed f).state = .unsettled ∨ (s.feed f).state = .lapsed) (c : Cell) :
    s.arrival f c = if c.wellFormed then (s.countFeed f .arrived).seekingWellFormed f c
      else (s.countFeed f .arrived).seekingMalformed f := by
  rcases h with h | h <;> simp [State.arrival, h]

theorem arrival_locked {f : FeedId} {s : State} (h : (s.feed f).state = .locked) (c : Cell) :
    s.arrival f c = if c.wellFormed then (s.countFeed f .arrived).lockedWellFormed f c
      else (s.countFeed f .arrived).lockedMalformed f := by
  simp [State.arrival, h]

/-- A well-formed cell at a LOCKED feed goes to the screening (R7). -/
theorem arrival_screen {f : FeedId} {c : Cell} {s : State} (h : (s.feed f).state = .locked) (hw : c.wellFormed = true) :
    s.arrival f c = (s.heard f).screen f c := by
  rw [arrival_locked h, if_pos hw]
  simp [State.lockedWellFormed, State.countFeed, State.heard, FeedTallies.count]

theorem seekingMalformed_eq (f : FeedId) (s : State) :
    (s.countFeed f .arrived).seekingMalformed f = s.setFeed f { s.feed f with
      settleRun := 0
      tallies := { (s.feed f).tallies with arrived := (s.feed f).tallies.arrived + 1
                                           malformed := (s.feed f).tallies.malformed + 1 } } := by
  simp [State.seekingMalformed, State.countFeed, FeedTallies.count]

theorem seekingWellFormed_settling {f : FeedId} {s : State} (h : (s.feed f).settleRun < 2) (c : Cell) :
    (s.countFeed f .arrived).seekingWellFormed f c = s.setFeed f { s.feed f with
      settleRun := (s.feed f).settleRun + 1
      tallies := { (s.feed f).tallies with arrived := (s.feed f).tallies.arrived + 1
                                           settling := (s.feed f).tallies.settling + 1 } } := by
  simp [State.seekingWellFormed, State.countFeed, FeedTallies.count, h]

/-- The third well-formed cell of a run is handled as at the feed once it is LOCKED (R6). -/
theorem seekingWellFormed_locks {f : FeedId} {s : State} (h : 2 ≤ (s.feed f).settleRun) (c : Cell) :
    (s.countFeed f .arrived).seekingWellFormed f c =
      ((s.setFeed f { s.feed f with state := .locked, settleRun := 3 }).countFeed f .arrived).lockedWellFormed f c := by
  simp [State.seekingWellFormed, State.countFeed, FeedTallies.count, Nat.not_lt.mpr h]

theorem lockedMalformed_first {f : FeedId} {s : State} (h : (s.feed f).lapseRun = 0) :
    (s.countFeed f .arrived).lockedMalformed f = s.setFeed f { s.feed f with
      silence := some (s.feed f).timeout, lapseRun := 1
      tallies := { (s.feed f).tallies with arrived := (s.feed f).tallies.arrived + 1
                                           malformed := (s.feed f).tallies.malformed + 1 } } := by
  simp [State.lockedMalformed, State.countFeed, FeedTallies.count, h]

theorem lockedMalformed_lapses {f : FeedId} {s : State} (h : 1 ≤ (s.feed f).lapseRun) :
    (s.countFeed f .arrived).lockedMalformed f = ((s.setFeed f { s.feed f with
      state := .lapsed, silence := none, settleRun := 0, lapseRun := 0
      tallies := { (s.feed f).tallies with arrived := (s.feed f).tallies.arrived + 1
                                           malformed := (s.feed f).tallies.malformed + 1 } }).raise
        .feedLapse (sourceByte f) 0).abandonFeed f := by
  simp [State.lockedMalformed, State.countFeed, FeedTallies.count, h, State.enterLapsed, Feed.lapse]

/-- Settles O5, by the state of the feed and the judgment of the cell. -/
theorem feedLockAndLapse : Obligations.FeedLockAndLapse := by
  refine ⟨fun s f c pin => ⟨fun h => ?_, fun h => ⟨fun hw => ?_, fun hw hr => ?_, fun hw hr => ?_⟩⟩,
    fun s f c pin h hw => ⟨fun hr => ?_, fun hr => ?_⟩⟩
  · rw [exec_arrival pin, arrival_off h]
  · rw [exec_arrival pin, arrival_seeking h, hw, seekingMalformed_eq]
    rfl
  · rw [exec_arrival pin, arrival_seeking h, if_pos hw, seekingWellFormed_settling hr]
  · rw [exec_arrival pin, exec_arrival (s := s.setFeed f _) pin, arrival_seeking h, arrival_locked (by simp), if_pos hw, if_pos hw,
      seekingWellFormed_locks hr]
  · rw [exec_arrival pin, arrival_locked h, hw, ← lockedMalformed_first hr]
    rfl
  · rw [exec_arrival pin, arrival_locked h, hw, ← lockedMalformed_lapses hr]
    rfl

/-! ## Screening -/

theorem screen_passes {f : FeedId} {c : Cell} (h : c.flowId.toNat ≤ 16379) (s : State) : s.screen f c = s.classify f c := by
  have fill : c.flowId ≠ 16383 := fun e => by simp [e] at h
  rw [State.screen, if_neg fill, if_neg (by omega)]

/-- Settles O6, by the flow id. -/
theorem screening : Obligations.Screening := by
  refine fun s f c pin hl hw => ⟨fun h => ?_, fun hlo hhi => ?_, fun h => ?_⟩ <;> rw [exec_arrival pin, arrival_screen hl hw]
  · rw [State.screen, if_pos (BitVec.eq_of_toNat_eq h)]
  · have fill : c.flowId ≠ 16383 := fun e => by simp [e] at hhi
    rw [State.screen, if_neg fill, if_pos hlo]
  · rw [screen_passes h]

/-- A cell that survives screening goes to the flow table (R7, R15). -/
theorem Survives.exec {s : State} {f : FeedId} {c : Cell} (h : Survives s f c) :
    exec (.feedCellArrival f c) s = .next ((s.heard f).classify f c) := by
  rw [exec_arrival h.pin, arrival_screen h.locked h.wellFormed, screen_passes h.flow]

/-! ## Matching -/

/-- The flow id is compared in the bit positions of the mask alone (R15). -/
theorem masked_eq_iff (id m flow : BitVec 14) :
    id &&& m = flow &&& m ↔ ∀ i < 14, m.getLsbD i = true → id.getLsbD i = flow.getLsbD i := by
  constructor
  · intro h i _ hm
    have bit := congrArg (·.getLsbD i) h
    simpa [hm] using bit
  · intro h
    apply BitVec.eq_of_getLsbD_eq
    intro i hi
    cases hm : m.getLsbD i with
    | false => simp [hm]
    | true => simp [hm, h i hi hm]

theorem matches_iff (e : FlowEntry) (f : FeedId) (id : BitVec 14) :
    e.matches f id = true ↔ (e.feedMatch = none ∨ e.feedMatch = some f) ∧
      ∀ i < 14, e.mask.getLsbD i = true → id.getLsbD i = e.flowId.getLsbD i := by
  simp only [FlowEntry.matches, Bool.and_eq_true, Bool.or_eq_true, beq_iff_eq, masked_eq_iff]

/-- What entry `i` of the table gives the search for a match. -/
def State.matchAt (f : FeedId) (id : BitVec 14) (s : State) (i : Fin 256) : Option (Fin 256 × FlowEntry) :=
  (s.flow i).bind fun x => if x.matches f id then some (i, x) else none

theorem matchAt_eq_some {f : FeedId} {id : BitVec 14} {s : State} {i k : Fin 256} {e : FlowEntry} :
    s.matchAt f id i = some (k, e) ↔ i = k ∧ s.flow i = some e ∧ e.matches f id = true := by
  cases h : s.flow i with
  | none => simp [State.matchAt, h]
  | some x =>
    simp only [State.matchAt, h, Option.bind_some, Option.some.injEq]
    split
    · next hm =>
      constructor
      · rintro ⟨rfl, rfl⟩
        exact ⟨rfl, rfl, hm⟩
      · rintro ⟨rfl, rfl, _⟩
        rfl
    · next hm =>
      refine ⟨nofun, ?_⟩
      rintro ⟨rfl, rfl, h⟩
      exact absurd h hm

theorem matchAt_eq_none {f : FeedId} {id : BitVec 14} {s : State} {i : Fin 256} :
    s.matchAt f id i = none ↔ ∀ e, s.flow i = some e → e.matches f id = false := by
  cases h : s.flow i with
  | none => simp [State.matchAt, h]
  | some x => simp [State.matchAt, h]

theorem matchEntry_eq_findSome (f : FeedId) (id : BitVec 14) (s : State) :
    s.matchEntry f id = (List.finRange 256).findSome? (s.matchAt f id) := by
  rw [State.matchEntry, Table.entries_eq_map, List.findSome?_map]
  rfl

/-- The entry of lowest index that matches takes the cell (R15). -/
theorem matchEntry_eq_some {f : FeedId} {id : BitVec 14} {s : State} {k : Fin 256} {e : FlowEntry} :
    s.matchEntry f id = some (k, e) ↔
      s.flow k = some e ∧ e.matches f id = true ∧ ∀ j < k, ∀ e', s.flow j = some e' → e'.matches f id = false := by
  simp only [matchEntry_eq_findSome, findSome?_finRange_eq_some, matchAt_eq_some, matchAt_eq_none]
  constructor
  · rintro ⟨i, ⟨rfl, hf, hm⟩, hb⟩
    exact ⟨hf, hm, hb⟩
  · rintro ⟨hf, hm, hb⟩
    exact ⟨k, ⟨rfl, hf, hm⟩, hb⟩

theorem matchEntry_eq_none {f : FeedId} {id : BitVec 14} {s : State} :
    s.matchEntry f id = none ↔ ∀ j e, s.flow j = some e → e.matches f id = false := by
  simp [matchEntry_eq_findSome, matchAt_eq_none]

/-- A match rests on the flow table alone. -/
theorem matchEntry_heard (f g : FeedId) (id : BitVec 14) (s : State) : (s.heard g).matchEntry f id = s.matchEntry f id := rfl

theorem classify_unmatched {f : FeedId} {c : Cell} {s : State} (h : s.matchEntry f c.flowId = none) :
    s.classify f c = s.countFeed f .unmatched := by
  rw [State.classify, h]

/-- Settles O7. -/
theorem matching : Obligations.Matching := by
  refine ⟨matches_iff, fun s f id k e => matchEntry_eq_some, fun s f c h none => ?_⟩
  rw [h.exec, classify_unmatched]
  exact matchEntry_eq_none.mpr none

/-! ## The sequence check -/

theorem sequenceCheck_unchecked {e : FlowEntry} {checking : Bool} (h : ¬ (checking = true ∧ e.mask = 0x3FFF)) (q : BitVec 5) :
    e.sequenceCheck checking q = .unchecked := by
  rw [FlowEntry.sequenceCheck, if_neg]
  simpa using h

/-- With no last sequence the check accepts (R17). -/
theorem sequenceCheck_first {e : FlowEntry} {checking : Bool} (hl : e.lastSeq = none) (h : checking = true ∧ e.mask = 0x3FFF)
    (q : BitVec 5) : e.sequenceCheck checking q = .accepted := by
  simp [FlowEntry.sequenceCheck, h, hl]

/-- With a last sequence the check compares (R17). -/
theorem sequenceCheck_behind {e : FlowEntry} {l : BitVec 5} {checking : Bool} (hl : e.lastSeq = some l)
    (h : checking = true ∧ e.mask = 0x3FFF) (q : BitVec 5) :
    e.sequenceCheck checking q = if q = l then .duplicate else if q = l + 1 then .accepted else .gap := by
  simp [FlowEntry.sequenceCheck, h, hl]

@[simp] theorem heard_checking (f : FeedId) (s : State) : ((s.heard f).feed f).checking = (s.feed f).checking := by
  simp [State.heard]

/-- A cell that the check lets pass is disposed of on the state that the check leaves (R17, R18). -/
theorem classify_passes {s : State} {f : FeedId} {c : Cell} {k : Fin 256} {e : FlowEntry} {t : State}
    (hm : s.matchEntry f c.flowId = some (k, e)) (h : PassesCheck s f c k e t) :
    (s.heard f).classify f c = t.dispose k e f c := by
  rw [State.classify, matchEntry_heard, hm]
  cases h with
  | unchecked hc => simp only [heard_checking, sequenceCheck_unchecked hc]
  | accepted hc hl =>
    have pass : e.sequenceCheck (s.feed f).checking c.seq = .accepted := by
      cases h : e.lastSeq with
      | none => exact sequenceCheck_first h hc _
      | some l => simp [sequenceCheck_behind h hc, hl l h]
    simp only [heard_checking, pass]
    rfl
  | gap l hc hl hne hn =>
    have pass : e.sequenceCheck (s.feed f).checking c.seq = .gap := by
      rw [sequenceCheck_behind hl hc, if_neg hne, if_neg hn]
    simp only [heard_checking, pass]
    rfl

theorem classify_duplicate {s : State} {f : FeedId} {c : Cell} {k : Fin 256} {e : FlowEntry}
    (hm : s.matchEntry f c.flowId = some (k, e)) (hc : Checked s f e) (hl : e.lastSeq = some c.seq) :
    (s.heard f).classify f c = (s.heard f).countFeed f .duplicate := by
  have dup : e.sequenceCheck (s.feed f).checking c.seq = .duplicate := by
    rw [sequenceCheck_behind hl hc, if_pos rfl]
  rw [State.classify, matchEntry_heard, hm]
  simp only [heard_checking, dup]

/-- A taken cell is disposed of by the kind of its entry (R18). -/
theorem Taken.exec {s : State} {f : FeedId} {c : Cell} {k : Fin 256} {e : FlowEntry} {t : State} (h : Taken s f c k e t) :
    exec (.feedCellArrival f c) s = .next (t.dispose k e f c) := by
  rw [h.toSurvives.exec, classify_passes h.matched h.passes]

theorem dispose_discard {e : FlowEntry} (h : e.kind = .discard) (k : Fin 256) (f : FeedId) (c : Cell) (s : State) :
    s.dispose k e f c = s.countFeed f .discarded := by
  rw [State.dispose, h]

/-- Settles O8: each outcome of the check is one way to pass it, but DUPLICATE. -/
theorem sequenceCheck : Obligations.SequenceCheck := by
  refine ⟨fun s f c k e t h => h.exec, fun s f c k e h hm => ⟨fun hc hk => ?_, fun on hmask => ⟨fun hl hk => ?_, fun hl => ?_,
    fun l hl hne hn hk => ?_⟩⟩⟩
  · have off : ¬ Checked s f e := fun x => hc.elim (fun hc => by simp [x.1] at hc) (· x.2)
    rw [h.exec, classify_passes hm (.unchecked off), dispose_discard hk]
  · have next : ∀ l, e.lastSeq = some l → c.seq = l + 1 := by
      rintro l hs
      rcases hl with hl | ⟨m, hl, hq⟩ <;> rw [hs] at hl <;> cases hl
      exact hq
    rw [h.exec, classify_passes hm (.accepted ⟨on, hmask⟩ next), dispose_discard hk]
    rfl
  · rw [h.exec, classify_duplicate hm ⟨on, hmask⟩ hl]
  · rw [h.exec, classify_passes hm (.gap l ⟨on, hmask⟩ hl hne hn), dispose_discard hk]
    rfl

end Sys2Proof.Machine
end

