-- ==== Sys2Proof/Proofs/FeedOrders.lean ====
section
/-! SUPPORT. The feed orders (R10 to R13), and the expiries of the silence timers and the drain watch. -/

namespace Sys2Proof.Machine

/-! ## An order answered or refused on a link at rest -/

/-- An order whose own checks refuse it changes nothing but the reply (R163, R165). -/
theorem exec_order_refused (o : Order) (tag : Half) {b : List Byte} {s : State} (h : LinkAtRest s) (hb : b.length = o.bodyLength)
    {res : Result} (hr : ∀ u, runOrder o b u = .refuse u res) : Refused (orderCommand o tag b) o.code tag res s :=
  exec_order_answered o tag h hb (Nat.zero_le _) (hr _) rfl

/-- An order that reads changes nothing but the reply. -/
theorem exec_order_read (o : Order) (tag : Half) {b body : List Byte} {s : State} (h : LinkAtRest s) (hb : b.length = o.bodyLength)
    (hl : body.length ≤ 178) (hr : runOrder o b (s.during ⟨o.code, tag, b⟩) = .done (s.during ⟨o.code, tag, b⟩) body) :
    exec (orderCommand o tag b) s = .next (s.answered o.code tag .done body) :=
  exec_order_answered o tag h hb hl hr rfl

/-- The one-byte field of an index is read back. -/
@[simp] theorem below_feed (f : FeedId) (l : List Byte) : below 8 (field8 (sourceByte f :: l) 0) = some f := by simp

/-! ## FEED_ENABLE and FEED_DISABLE -/

theorem orderFeedEnable_off {f : FeedId} {s : State} (h : (s.feed f).state = .off) :
    orderFeedEnable [sourceByte f] s =
      .done (s.setFeed f { s.feed f with state := .unsettled, settleRun := 0, lapseRun := 0, silence := none }) [1] := by
  simp [orderFeedEnable, h, FeedState.byte]

theorem orderFeedEnable_on {f : FeedId} {s : State} (h : (s.feed f).state ≠ .off) :
    orderFeedEnable [sourceByte f] s = .done s [(s.feed f).state.byte] := by
  simp [orderFeedEnable, h]

theorem orderFeedDisable_off {f : FeedId} {s : State} (h : (s.feed f).state = .off) :
    orderFeedDisable [sourceByte f] s = .done s [] := by
  simp [orderFeedDisable, h]

theorem orderFeedDisable_on {f : FeedId} {s : State} (h : (s.feed f).state ≠ .off) :
    orderFeedDisable [sourceByte f] s =
      .done ((s.setFeed f { s.feed f with state := .off, settleRun := 0, lapseRun := 0, silence := none }).abandonFeed f) [] := by
  simp [orderFeedDisable, h]

/-- Settles O10, by the state of the feed. -/
theorem feedEnableDisable : Obligations.FeedEnableDisable := by
  refine fun s tag h => ⟨fun f => ⟨fun off => ⟨?_, ?_⟩, fun on => ⟨?_, ?_⟩⟩, fun b hb => ⟨?_, ?_⟩⟩
  · exact exec_order_answered .feedEnable tag h rfl (by simp) (orderFeedEnable_off off) rfl
  · exact exec_order_read .feedDisable tag h rfl (by simp) (orderFeedDisable_off off)
  · exact exec_order_read .feedEnable tag h rfl (by simp) (orderFeedEnable_on on)
  · exact exec_order_answered .feedDisable tag h rfl (by simp) (orderFeedDisable_on on) rfl
  · exact exec_order_refused .feedEnable tag h rfl fun u => by simp [runOrder, orderFeedEnable, hb]
  · exact exec_order_refused .feedDisable tag h rfl fun u => by simp [runOrder, orderFeedDisable, hb]

/-! ## FEED_CONFIGURE and READ_FEED -/

theorem orderFeedConfigure_off {f : FeedId} {s : State} (h : (s.feed f).state = .off) (t : Half) (checking : Bool) :
    orderFeedConfigure ([sourceByte f] ++ bytes16 t ++ [if checking then 1 else 0]) s =
      .done (s.setFeed f { s.feed f with timeout := max 5 (min 200 t.toNat), checking := checking })
        (num16 (max 5 (min 200 t.toNat)) ++ [if checking then 1 else 0]) := by
  cases checking <;> simp [orderFeedConfigure, h, clamp, flag]

theorem orderFeedConfigure_on {f : FeedId} {s : State} (h : (s.feed f).state ≠ .off) (t : Half) {x : Byte} (hx : x.toNat ≤ 1) :
    orderFeedConfigure ([sourceByte f] ++ bytes16 t ++ [x]) s = .refuse s .linkActive := by
  simp [orderFeedConfigure, h, Nat.not_lt.mpr hx]

/-- A feed or a checking field outside its range is refused before the state of the feed is looked at (R12). -/
theorem orderFeedConfigure_range {f x : Byte} (h : 8 ≤ f.toNat ∨ 2 ≤ x.toNat) (t : Half) (s : State) :
    orderFeedConfigure ([f] ++ bytes16 t ++ [x]) s = .refuse s .range := by
  rcases Nat.lt_or_ge f.toNat 8 with hf | hf
  · have hx : 1 < x.toNat := by omega
    simp [orderFeedConfigure, hf, hx]
  · simp [orderFeedConfigure, hf]

theorem orderReadFeed_eq (f : FeedId) (s : State) :
    orderReadFeed [sourceByte f] s = .done s
      ([(s.feed f).state.byte, BitVec.ofNat 8 (s.feed f).settleRun, BitVec.ofNat 8 (s.feed f).lapseRun] ++
        num16 (s.feed f).timeout ++ [if (s.feed f).checking then 1 else 0]) := by
  simp [orderReadFeed, bytes8, flag]

/-- Settles O11. -/
theorem feedConfigureAndRead : Obligations.FeedConfigureAndRead := by
  refine ⟨fun s tag t h => ⟨fun f checking off => ?_, fun f x hx on => ?_, fun f x hr => ?_⟩,
    fun s tag h => ⟨fun f => ?_, fun b hb => ?_⟩⟩
  · exact exec_order_answered .feedConfigure tag h rfl (by simp) (orderFeedConfigure_off (s := s.during _) off t checking) rfl
  · exact exec_order_answered .feedConfigure tag h rfl (Nat.zero_le _) (orderFeedConfigure_on (s := s.during _) on t hx) rfl
  · exact exec_order_refused .feedConfigure tag h rfl (orderFeedConfigure_range hr t)
  · exact exec_order_read .readFeed tag h rfl (by simp) (orderReadFeed_eq f _)
  · exact exec_order_refused .readFeed tag h rfl fun u => by simp [runOrder, orderReadFeed, hb]

/-! ## Expiries -/

theorem due_iff (t : Timer) : Timer.due t = true ↔ t = some 0 := beq_iff_eq

/-- Settles O19: each expiry acts exactly where its timer is due in the state that runs it. -/
theorem timerExpiries : Obligations.TimerExpiries := by
  refine ⟨fun s pin => ⟨fun f hs ht => ?_, fun f h => ?_, fun hs ht => ?_, fun h => ?_⟩, fun s p pin => ⟨fun hs hw => ?_, fun h => ?_⟩⟩
  · refine (guarded_released pin).trans ?_
    rw [State.feedSilence, if_pos ⟨hs, (due_iff _).mpr ht⟩]
    rfl
  · refine (guarded_released pin).trans ?_
    rw [State.feedSilence, if_neg]
    rintro ⟨hs, ht⟩
    exact h.elim (· hs) (· ((due_iff _).mp ht))
  · refine (guarded_released pin).trans ?_
    rw [State.sourceSilence, if_pos ⟨hs, (due_iff _).mpr ht⟩]
  · refine (guarded_released pin).trans ?_
    rw [State.sourceSilence, if_neg]
    rintro ⟨hs, ht⟩
    exact h.elim (· hs) (· ((due_iff _).mp ht))
  · refine (guarded_released pin).trans ?_
    rw [State.drainWatch, if_pos ⟨hs, (due_iff _).mpr hw⟩]
  · refine (guarded_released pin).trans ?_
    rw [State.drainWatch, if_neg]
    rintro ⟨hs, ht⟩
    exact h.elim (· hs) (· ((due_iff _).mp ht))

end Sys2Proof.Machine
end

