-- ==== Sys2Proof/Proofs/Forwarding.lean ====
section
/-! SUPPORT. Cells disposed of (1.3, 3.3): forwarded cells, and programme cells that no destination takes part in. -/

namespace Sys2Proof.Machine

/-! ## The state on which a taken cell is disposed of -/

section
variable {s : State} {f : FeedId} {c : Cell} {k : Fin 256} {e : FlowEntry} {t : State}

theorem PassesCheck.link (h : PassesCheck s f c k e t) : t.link = s.link := by cases h <;> rfl
theorem PassesCheck.ctl (h : PassesCheck s f c k e t) : t.ctl = s.ctl := by cases h <;> rfl
theorem PassesCheck.keys (h : PassesCheck s f c k e t) : t.keys = s.keys := by cases h <;> rfl

end

/-! ## Forwarded cells -/

theorem offerForward_queued {s : State} (hf : s.link.forwardedCount < 16) (ho : s.link.outbound.length < 24) (c : Cell) :
    s.offerForward c = { s with link := { s.link with outbound := s.link.outbound ++ [.forwarded c] } } := by
  have free : 24 - s.link.outbound.length ≠ 0 := by omega
  simp [State.offerForward, HostLink.free, hf, free]

theorem offerForward_dropped {s : State} (h : 16 ≤ s.link.forwardedCount ∨ 24 ≤ s.link.outbound.length) (c : Cell) :
    s.offerForward c =
      State.raise .forwardDrop 255 0 { s with link := { s.link with forwardDrops := s.link.forwardDrops + 1 } } := by
  have full : ¬ (s.link.forwardedCount < 16 ∧ 24 - s.link.outbound.length ≠ 0) := by omega
  rw [State.offerForward, if_neg]
  simpa [HostLink.free] using full

theorem dispose_accessMessage {e : FlowEntry} (h : e.kind = .accessMessage) (k : Fin 256) (f : FeedId) (c : Cell) (s : State) :
    s.dispose k e f c = (s.countFeed f .forwarded).offerForward (c.routed (sourceByte f)) := by
  rw [State.dispose, h]

theorem dispose_programme {e : FlowEntry} {p : Programme} (h : e.kind = .programme p) (k : Fin 256) (f : FeedId) (c : Cell) (s : State) :
    s.dispose k e f c = (s.countFeed f .routed).programmeCell k p c := by
  rw [State.dispose, h]

/-! ## Who takes part in a programme cell -/

theorem takesPart_iff (x : Dest) (e : Programme) :
    x.takesPart e = true ↔ x.state.delivering = true ∧ x.service = some e.service ∧ x.roles.has e.role = true := by
  simp [Dest.takesPart, and_assoc]

theorem fanOne_absent {k : Fin 256} {e : Programme} {c : Cell} {d : DestId} {s : State} (h : ¬ (s.dest d).takesPart e = true) :
    s.fanOne k e c d = s := by
  simp [State.fanOne, h]

theorem unkeyedOne_absent {e : Programme} {d : DestId} {s : State} (h : ¬ (s.dest d).takesPart e = true) : s.unkeyedOne e d = s := by
  simp [State.unkeyedOne, h]

theorem eachDest_self {f : DestId → State → State} {s : State} (h : ∀ d, f d s = s) : s.eachDest f = s := by
  unfold State.eachDest
  induction List.finRange 12 with
  | nil => rfl
  | cons d l ih => rw [List.foldl_cons, h d, ih]

/-- A programme cell that no destination takes part in changes nothing, whatever its outcome (R53, R54). -/
theorem programmeCell_unheard {e : Programme} {s : State} (h : ∀ d, ¬ (s.dest d).takesPart e = true) (k : Fin 256) (c : Cell) :
    s.programmeCell k e c = s := by
  have fanned (cell : Cell) : s.fanOut k e cell = s := eachDest_self fun d => fanOne_absent (h d)
  unfold State.programmeCell
  split
  · exact fanned c
  · exact fanned _
  · exact eachDest_self fun d => unkeyedOne_absent (h d)

/-- Settles O9: the host link and the destinations are the ones that the cell found. -/
theorem forwardedAndUnheardCells : Obligations.ForwardedAndUnheardCells := by
  refine ⟨fun s f c k e t h hk => ⟨fun hf ho => ?_, fun hd => ?_⟩, fun s f c k e p t h hk none => ?_⟩
  · rw [h.exec, dispose_accessMessage hk, ← h.passes.link, offerForward_queued]
    · rfl
    · exact h.passes.link ▸ hf
    · exact h.passes.link ▸ ho
  · rw [h.exec, dispose_accessMessage hk, ← h.passes.link, offerForward_dropped]
    · rfl
    · exact h.passes.link ▸ hd
  · rw [h.exec, dispose_programme hk, programmeCell_unheard]
    intro d hp
    rw [takesPart_iff] at hp
    have same : (t.countFeed f .routed).dest d = s.dest d := congrArg (fun x => x.dests.read d) h.passes.ctl
    exact none d (same ▸ hp)

end Sys2Proof.Machine
end

