-- ==== Sys2Proof/Proofs/Evaluation.lean ====
section
/-! SUPPORT. What an evaluation, a completion test and a purge do: they are of one destination, and leave what binds it and what it has been
told (3.2, 4.6). -/

namespace Sys2Proof.Machine

/-! ## Pending sources -/

theorem ofNumber_row (c : Cause) : Cause.ofNumber (c.row.val + 1) = some c := by cases c <;> rfl

theorem row_inj {c e : Cause} (h : c.row = e.row) : c = e := by
  have := ofNumber_row c
  rw [h, ofNumber_row e] at this
  cases this
  rfl

theorem setCause_cause (a : Attention) (c : Cause) (x : CauseState) (e : Cause) :
    (a.setCause c x).cause e = if e = c then x else a.cause e := by
  split
  · next h => simp [Attention.cause, Attention.setCause, h]
  · next h => exact Table.read_write_other _ _ fun r => h (row_inj r)

/-- A withdrawal leaves whether another source is pending (R173). -/
theorem isPending_withdraw_other {x y : Byte} (h : x ≠ y) (c e : Cause) (s : State) :
    (s.withdraw c y).attention.isPending e x = s.attention.isPending e x := by
  have filtered (l : List Pending) : (l.filter (·.source != y)).any (·.source == x) = l.any (·.source == x) := by
    rw [List.any_filter]
    congr 1
    funext p
    by_cases hp : p.source = x <;> simp [hp, h]
  show (Attention.cause (s.attention.setCause c _) e).pending.any _ = _
  rw [setCause_cause]
  split
  · next he => rw [he, filtered]; rfl
  · rfl

/-! ## Effects on one destination -/

/-- What binds a destination, and what it has been told: everything of its record that an evaluation leaves. -/
structure Dest.Told (x y : Dest) : Prop where
  kind : y.kind = x.kind
  port : y.port = x.port
  profile : y.profile = x.profile
  roles : y.roles = x.roles
  service : y.service = x.service
  access : y.access = x.access
  parental : y.parental = x.parental

theorem Dest.Told.refl (x : Dest) : x.Told x := ⟨rfl, rfl, rfl, rfl, rfl, rfl, rfl⟩

theorem Dest.Told.trans {x y z : Dest} (a : x.Told y) (b : y.Told z) : x.Told z :=
  ⟨b.kind.trans a.kind, b.port.trans a.port, b.profile.trans a.profile, b.roles.trans a.roles, b.service.trans a.service,
   b.access.trans a.access, b.parental.trans a.parental⟩

/-- An effect on destination `d` alone, which leaves what it has been told: beyond `UnitsKept`, the other destinations, the ports but its own, and
the pending sources of another number. -/
structure DestAlone (d : DestId) (s t : State) : Prop extends UnitsKept s t where
  told : (s.dest d).Told (t.dest d)
  dests : ∀ e, e ≠ d → t.dest e = s.dest e
  ports : ∀ p, p ≠ (s.dest d).port → t.port p = s.port p
  sources : ∀ c x, x ≠ sourceByte d → t.attention.isPending c x = s.attention.isPending c x

theorem DestAlone.refl (d : DestId) (s : State) : DestAlone d s s :=
  ⟨.refl s, .refl _, fun _ _ => rfl, fun _ _ => rfl, fun _ _ _ => rfl⟩

theorem DestAlone.trans {d : DestId} {s t u : State} (a : DestAlone d s t) (b : DestAlone d t u) : DestAlone d s u :=
  ⟨a.toUnitsKept.trans b.toUnitsKept, a.told.trans b.told, fun e h => (b.dests e h).trans (a.dests e h),
   fun p h => (b.ports p (a.told.port ▸ h)).trans (a.ports p h), fun c x h => (b.sources c x h).trans (a.sources c x h)⟩

theorem DestAlone.toOthersKept {d : DestId} {s t : State} (a : DestAlone d s t) : OthersKept d s t where
  toSettled := a.toSettled
  dests := a.dests
  viewers e _ := congrArg (fun u : ParentalUnit => u.viewers.read e) a.parental
  lastAccess e _ := congrArg (fun u : AccessUnit => u.last.read e) a.access
  ports := a.ports
  sources := a.sources

theorem DestAlone.ite {d : DestId} {s t u : State} {c : Prop} [Decidable c] (a : DestAlone d s t) (b : DestAlone d s u) :
    DestAlone d s (if c then t else u) := by
  split
  · exact a
  · exact b

theorem setDest_alone {d : DestId} {x : Dest} {s : State} (h : (s.dest d).Told x) : DestAlone d s (s.setDest d x) where
  toUnitsKept := setDest_frame d x s
  told := by simpa using h
  dests e he := by rw [setDest_dest, if_neg he]
  ports _ _ := rfl
  sources _ _ _ := rfl

theorem withdraw_alone (d : DestId) (c : Cause) (s : State) : DestAlone d s (s.withdraw c (sourceByte d)) where
  toUnitsKept := withdraw_unitsKept c _ s
  told := .refl _
  dests _ _ := rfl
  ports _ _ := rfl
  sources e _ h := isPending_withdraw_other h c e s

theorem purgeDest_alone (d : DestId) (n : Bool) (s : State) : DestAlone d s (s.purgeDest d n) where
  toUnitsKept := purgeDest_frame d n s
  told := by simpa [State.purgeDest] using ⟨rfl, rfl, rfl, rfl, rfl, rfl, rfl⟩
  dests e he := by simp [State.purgeDest, setDest_dest, he]
  ports p hp := by simp [State.purgeDest, setPort_port, hp]
  sources _ _ _ := rfl

theorem completionTest_alone (d : DestId) (s : State) : DestAlone d s (s.completionTest d) := by
  unfold State.completionTest
  dsimp only
  split
  · exact setDest_alone (by constructor <;> rfl)
  · exact (setDest_alone (by constructor <;> rfl)).trans (withdraw_alone d _ _)
  · exact setDest_alone (by constructor <;> rfl)
  · exact .refl d s

theorem enterAcquiring_alone (d : DestId) (s : State) : DestAlone d s (s.enterAcquiring d) :=
  (setDest_alone (by constructor <;> rfl)).trans (completionTest_alone d _)

theorem leaveDelivering_alone (d : DestId) (n : DestState) (s : State) : DestAlone d s (s.leaveDelivering d n) := by
  have moved : DestAlone d s (s.setDest d { s.dest d with state := n, marks := [], unkeyedRun := 0, acquisition := none }) :=
    setDest_alone (by constructor <;> rfl)
  exact (DestAlone.ite (moved.trans (withdraw_alone d _ _)) moved).trans (purgeDest_alone d false _)

theorem moveTo_alone (d : DestId) (n : DestState) (s : State) : DestAlone d s (s.moveTo d n) :=
  .ite (.refl d s) (.ite (enterAcquiring_alone d s) (.ite (leaveDelivering_alone d n s)
    (setDest_alone (by constructor <;> rfl))))

/-- An evaluation of `d` is of `d` alone (R46, R47). -/
theorem evaluate_alone (d : DestId) (s : State) : DestAlone d s (s.evaluate d) :=
  .ite (.refl d s) ((setDest_alone (by constructor <;> rfl)).trans (moveTo_alone d _ _))

/-! ## The states that moves lead to -/

theorem purgeDest_dest (d : DestId) (n : Bool) (s : State) :
    ∃ count, (s.purgeDest d n).dest d = { s.dest d with tallies := { (s.dest d).tallies with purged := count } } :=
  ⟨_, setDest_dest_same _ _ _⟩

/-- A destination that has left a delivering state (R47). -/
theorem leaveDelivering_dest (d : DestId) (n : DestState) (s : State) :
    ∃ count, (s.leaveDelivering d n).dest d = { s.dest d with
      state := n, marks := [], unkeyedRun := 0, acquisition := none, tallies := { (s.dest d).tallies with purged := count } } := by
  unfold State.leaveDelivering
  dsimp only
  generalize hu : (if (s.dest d).state = .stalled then _ else _ : State) = u
  have left : u.dest d = { s.dest d with state := n, marks := [], unkeyedRun := 0, acquisition := none } := by
    rw [← hu]
    split <;> simp
  obtain ⟨count, h⟩ := purgeDest_dest d false u
  exact ⟨count, by rw [h, left]⟩

/-- The completion test moves a delivering destination among the delivering states, and no other (R48). -/
theorem completionTest_dest (d : DestId) (s : State) :
    (s.completionTest d).dest d = s.dest d ∨
      (s.dest d).state.delivering = true ∧
        ∃ n a, n.delivering = true ∧ (s.completionTest d).dest d = { s.dest d with state := n, acquisition := a } := by
  unfold State.completionTest
  dsimp only
  split
  · next h _ => exact .inr ⟨by rw [h]; rfl, .presenting, none, rfl, by simp⟩
  · next h _ => exact .inr ⟨by rw [h]; rfl, .presenting, (s.dest d).acquisition, rfl, by simp⟩
  · next h _ => exact .inr ⟨by rw [h]; rfl, .acquiring, some s.ctl.acquireTime, rfl, by simp⟩
  · exact .inl rfl

theorem delivering_ne_vacant {n : DestState} (h : n.delivering = true) : n ≠ .vacant := by
  rintro rfl
  cases h

theorem completionTest_vacant (d : DestId) (s : State) :
    ((s.completionTest d).dest d).state = .vacant ↔ (s.dest d).state = .vacant := by
  rcases completionTest_dest d s with h | ⟨hs, n, a, hn, h⟩
  · rw [h]
  · rw [h]
    exact iff_of_false (delivering_ne_vacant hn) (delivering_ne_vacant hs)

theorem moveTo_vacant {n : DestState} (h : n ≠ .vacant) (d : DestId) (s : State) : ((s.moveTo d n).dest d).state ≠ .vacant := by
  unfold State.moveTo
  dsimp only
  split
  · next e => exact e ▸ h
  · split
    · rw [State.enterAcquiring, ne_eq, completionTest_vacant]
      simp
    · split
      · obtain ⟨_, hd⟩ := leaveDelivering_dest d n s
        rw [hd]
        exact h
      · simpa using h

theorem chosen_ne_vacant {x : Dest} (h : x.state ≠ .vacant) (halted : Bool) : x.chosen halted ≠ .vacant := by
  unfold Dest.chosen
  repeat' split
  all_goals simp [h]

/-- No evaluation brings a destination to VACANT or out of it (R46). -/
theorem evaluate_vacant (d : DestId) (s : State) (e : DestId) :
    ((s.evaluate d).dest e).state = .vacant ↔ (s.dest e).state = .vacant := by
  by_cases he : e = d
  · subst he
    by_cases hv : (s.dest e).state = .vacant
    · simp [State.evaluate, hv]
    · rw [State.evaluate, if_neg hv]
      exact iff_of_false (moveTo_vacant (chosen_ne_vacant hv _) e _) hv
  · rw [(evaluate_alone d s).dests e he]

/-! ## Leaving by KEY -/

theorem restriction_none {x : Dest} (h : x.kind = .view → ∀ r, x.parental = some r → r.verdict ≠ .restricted) : x.restriction = none := by
  unfold Dest.restriction
  split
  · next r hk hr => rw [if_neg (h hk r hr)]
  · rfl

theorem deniedReport_false {r : Option AccessVerdict} (h : ∀ c, r ≠ some (.denied c)) : deniedReport r = false := by
  match r with
  | none | some .free | some .entitled | some .preview => rfl
  | some (.denied c) => exact absurd rfl (h c)

/-- A destination that its verdicts let deliver leaves for WITHHELD where KEY has joined its reasons (R46, R54). -/
theorem evaluate_key {d : DestId} {s : State} (hd : (s.dest d).state.delivering = true) (hk : (s.dest d).reasons.key = true)
    (ha : ∀ c, (s.dest d).access ≠ some (.denied c))
    (hp : (s.dest d).kind = .view → ∀ r, (s.dest d).parental = some r → r.verdict ≠ .restricted) :
    s.evaluate d = (s.setDest d { s.dest d with
      reasons := (s.dest d).reasonsAfresh (s.portHalted (s.dest d).port) }).leaveDelivering d .withheld := by
  have withheld (h : Bool) : (s.dest d).chosen h = .withheld := by
    simp [Dest.chosen, deniedReport_false ha, restriction_none hp, hk]
  have moves : DestState.withheld ≠ (s.dest d).state := fun e => by rw [← e] at hd; cases hd
  simp [State.evaluate, delivering_ne_vacant hd, withheld, State.moveTo, moves, hd]

end Sys2Proof.Machine
end

