-- ==== Sys2Proof/Proofs/ProgrammeCells.lean ====
section
/-! SUPPORT. Programme cells (R53, R54, R85): the offer of a copy to its port, a destination's part in a clear or descrambled cell, and in an
unkeyed one. -/

namespace Sys2Proof.Machine

@[simp] theorem setDest_setDest (d : DestId) (x y : Dest) (s : State) : (s.setDest d x).setDest d y = s.setDest d y := by
  simp [State.setDest]

/-! ## The offer of a copy (R152, R153) -/

theorem hasRoom_iff (p : Port) : p.hasRoom = true ↔ p.state = .running ∧ p.queue.length < 64 := by simp [Port.hasRoom]

/-- The port emits a cell as soon as it accepts it (R154). -/
def Port.emitsAtOnce (p : Port) : Prop := p.mode = .demand ∧ p.accept = true ∧ p.queue = []

section
variable {p : PortId} {s : State} {x : Port}

/-- An accepted cell waits in the queue (R152, R156). -/
theorem offerCopy_queued (hx : s.port p = x) (hr : x.hasRoom = true) (hn : ¬ x.emitsAtOnce) (c : Cell) :
    s.offerCopy p c = s.setPort p { x with queue := x.queue ++ [c], watch := if x.queue = [] then some 250 else x.watch } := by
  subst hx
  have stays : ¬ ((s.port p).mode = .demand ∧ (s.port p).accept = true ∧ (s.port p).queue = []) := hn
  simp [State.offerCopy, hr, State.acceptCell, Port.accepted, Port.join, and_assoc, stays, State.sendPort]

/-- An accepted cell leaves at once (R154). -/
theorem offerCopy_emitted (hx : s.port p = x) (hr : x.hasRoom = true) (hn : x.emitsAtOnce) (c : Cell) :
    s.offerCopy p c =
      (s.setPort p { x with queue := [], emitted := x.emitted + 1, watch := none, accept := false }).send (.port p c) := by
  subst hx
  obtain ⟨hm, ha, hq⟩ := hn
  simp [State.offerCopy, hr, State.acceptCell, Port.accepted, Port.join, Port.emitHead, watchFor, hm, ha, hq, State.sendPort]

/-- A port that is not RUNNING, or is full under DROP, refuses a copy and stays as it is (R152, R153). -/
theorem offerCopy_refused (hx : s.port p = x) (h : x.state ≠ .running ∨ (64 ≤ x.queue.length ∧ x.overflowHalt = false)) (c : Cell) :
    s.offerCopy p c = s := by
  subst hx
  rcases h with h | ⟨hl, ho⟩
  · simp [State.offerCopy, Port.hasRoom, h]
  · simp [State.offerCopy, Port.hasRoom, Nat.not_lt.mpr hl, ho]

end

theorem hasRoom_refused {p : Port} (h : p.state ≠ .running ∨ (64 ≤ p.queue.length ∧ p.overflowHalt = false)) : p.hasRoom = false := by
  rw [Bool.eq_false_iff, ne_eq, hasRoom_iff]
  rintro ⟨hr, hl⟩
  exact h.elim (· hr) (fun h => absurd hl (Nat.not_lt.mpr h.1))

/-! ## A destination's part in a clear or descrambled cell (R53) -/

/-- One more copy DELIVERED where its port takes it, else DROPPED. -/
def DestTallies.copied (t : DestTallies) (taken : Bool) : DestTallies :=
  if taken then { t with delivered := t.delivered + 1 } else { t with dropped := t.dropped + 1 }

section
variable {k : Fin 256} {e : Programme} {c : Cell} {d : DestId} {s : State}

/-- A flow that has not started waits for its unit-start; a required entry's cell ends the unkeyed run all the same. -/
theorem fanOne_waits (hp : (s.dest d).takesPart e = true) (hm : k ∉ (s.dest d).marks) (hu : c.unitStart = false) :
    s.fanOne k e c d = s.setDest d { s.dest d with unkeyedRun := if e.required then 0 else (s.dest d).unkeyedRun } := by
  simp [State.fanOne, hp, hm, hu]

/-- A flow that has started is copied to the port. -/
theorem fanOne_started (hp : (s.dest d).takesPart e = true) (hm : k ∈ (s.dest d).marks) :
    s.fanOne k e c d = (s.setDest d { s.dest d with
      unkeyedRun := if e.required then 0 else (s.dest d).unkeyedRun
      tallies := (s.dest d).tallies.copied (s.port (s.dest d).port).hasRoom }).offerCopy (s.dest d).port (c.routed (sourceByte d)) := by
  simp [State.fanOne, hp, hm, State.countCopy, State.portTakes, DestTallies.copied]

/-- A flow that starts is marked and copied, and the completion test follows where the destination still delivers. -/
theorem fanOne_begins (hp : (s.dest d).takesPart e = true) (hm : k ∉ (s.dest d).marks) (hu : c.unitStart = true) :
    let u := (s.setDest d { s.dest d with
      unkeyedRun := if e.required then 0 else (s.dest d).unkeyedRun, marks := joinMark k (s.dest d).marks
      tallies := (s.dest d).tallies.copied (s.port (s.dest d).port).hasRoom }).offerCopy (s.dest d).port (c.routed (sourceByte d))
    s.fanOne k e c d = if (u.dest d).state.delivering then u.completionTest d else u := by
  simp [State.fanOne, hp, hm, hu, State.countCopy, State.portTakes, DestTallies.copied]

end

/-! ## A destination's part in an unkeyed cell (R54) -/

section
variable {e : Programme} {d : DestId} {s : State}

theorem unkeyedOne_optional (hp : (s.dest d).takesPart e = true) (hr : e.required = false) :
    s.unkeyedOne e d = s.setDest d { s.dest d with
      tallies := { (s.dest d).tallies with unkeyed := (s.dest d).tallies.unkeyed + 1 } } := by
  simp [State.unkeyedOne, hp, hr]

theorem unkeyedOne_counted (hp : (s.dest d).takesPart e = true) (hr : e.required = true) (hn : (s.dest d).unkeyedRun + 1 < 24) :
    s.unkeyedOne e d = s.setDest d { s.dest d with
      unkeyedRun := (s.dest d).unkeyedRun + 1
      tallies := { (s.dest d).tallies with unkeyed := (s.dest d).tallies.unkeyed + 1 } } := by
  simp [State.unkeyedOne, hp, hr, Nat.not_le.mpr hn]

theorem unkeyedOne_keyless (hp : (s.dest d).takesPart e = true) (hr : e.required = true) (hn : 24 ≤ (s.dest d).unkeyedRun + 1) :
    s.unkeyedOne e d = (s.setDest d { s.dest d with
      unkeyedRun := (s.dest d).unkeyedRun + 1
      tallies := { (s.dest d).tallies with unkeyed := (s.dest d).tallies.unkeyed + 1 }
      reasons := { (s.dest d).reasons with key := true } }).evaluate d := by
  simp [State.unkeyedOne, hp, hr, hn]

/-- At the 24th unkeyed cell a destination that its verdicts let deliver is WITHHELD with KEY, and no other destination changes (R47, R54). -/
theorem unkeyedOne_withheld (ok : DeliveryPermitted s) (hp : (s.dest d).takesPart e = true) (hr : e.required = true)
    (hn : 24 ≤ (s.dest d).unkeyedRun + 1) :
    let t := s.unkeyedOne e d
    (t.dest d).state = .withheld ∧ (t.dest d).reasons.key = true ∧ (t.dest d).unkeyedRun = 0 ∧ (t.dest d).marks = [] ∧
      (t.dest d).acquisition = none ∧ OthersKept d s t := by
  obtain ⟨hd, -, -⟩ := (takesPart_iff _ _).mp hp
  obtain ⟨ha, hv⟩ := ok d hd
  dsimp only
  rw [unkeyedOne_keyless hp hr hn]
  generalize hx : ({ s.dest d with
    unkeyedRun := (s.dest d).unkeyedRun + 1
    tallies := { (s.dest d).tallies with unkeyed := (s.dest d).tallies.unkeyed + 1 }
    reasons := { (s.dest d).reasons with key := true } } : Dest) = x
  have told : (s.dest d).Told x := by rw [← hx]; constructor <;> rfl
  have alone := (setDest_alone told).trans (evaluate_alone d _)
  have key : x.reasons.key = true := by rw [← hx]
  have left := evaluate_key (d := d) (s := s.setDest d x) (by simpa [← hx] using hd) (by simpa using key)
    (by simpa [told.access] using ha) (by simpa [told.kind, told.parental] using hv)
  obtain ⟨count, hdest⟩ := leaveDelivering_dest d .withheld ((s.setDest d x).setDest d { (s.setDest d x).dest d with
    reasons := ((s.setDest d x).dest d).reasonsAfresh ((s.setDest d x).portHalted ((s.setDest d x).dest d).port) })
  rw [← left] at hdest
  refine ⟨?_, ?_, ?_, ?_, ?_, alone.toOthersKept⟩ <;> rw [hdest]
  simpa [Dest.reasonsAfresh] using key

end

/-! ## The outcome of a programme cell (R85) -/

/-- The outcome rests on the key slots alone. -/
theorem outcome_of_keys {s t : State} (h : t.keys = s.keys) (c : Cell) (slot : Option (Fin 32)) : t.outcome c slot = s.outcome c slot := by
  unfold State.outcome State.keyedOutcome State.keySlot
  rw [h]

theorem Taken.outcome {s : State} {f : FeedId} {c : Cell} {k : Fin 256} {e : FlowEntry} {t : State} (h : Taken s f c k e t)
    (slot : Option (Fin 32)) : (t.countFeed f .routed).outcome c slot = s.outcome c slot :=
  outcome_of_keys h.passes.keys c slot

section
variable {s : State} {c : Cell} {e : Programme}

theorem programmeCell_clear (h : s.outcome c e.keySlot = .clear) (k : Fin 256) : s.programmeCell k e c = s.fanOut k e c := by
  rw [State.programmeCell, h]

theorem programmeCell_descrambled {key : Quarters} (h : s.outcome c e.keySlot = .descrambled key) (k : Fin 256) :
    s.programmeCell k e c = s.fanOut k e (descrambleCell c key) := by
  rw [State.programmeCell, h]

theorem programmeCell_unkeyed (h : s.outcome c e.keySlot = .unkeyed) (k : Fin 256) : s.programmeCell k e c = s.unkeyedCell e := by
  rw [State.programmeCell, h]

end

/-- Settles O15: by the outcome; then by who takes part, the mark, and what the port does with the copy; then by the unkeyed run. -/
theorem programmeCells : Obligations.ProgrammeCells := by
  refine ⟨fun s f c k e p t h hk => ⟨fun ho => ?_, fun key ho => ?_, fun ho => ?_⟩, fun s k e c d => ⟨fun h => ?_, fun hd hs hr => ?_⟩,
    fun s e d ok hd hs hr => ?_⟩
  · rw [h.exec, dispose_programme hk, programmeCell_clear ((h.outcome _).trans ho)]
    rfl
  · rw [h.exec, dispose_programme hk, programmeCell_descrambled ((h.outcome _).trans ho)]
    rfl
  · rw [h.exec, dispose_programme hk, programmeCell_unkeyed ((h.outcome _).trans ho)]
    rfl
  · exact fanOne_absent (mt (takesPart_iff _ _).mp h)
  · have hp := (takesPart_iff _ _).mpr ⟨hd, hs, hr⟩
    refine ⟨fanOne_waits hp, fun hrun hlen => ?_, fun hm ref => ?_, fun hm hu ref => ?_⟩
    · have room := (hasRoom_iff _).mpr ⟨hrun, hlen⟩
      refine ⟨fun hm hn => ?_, fun hm hn => ?_, fun hm hu hn => ?_, fun hm hu hn => ?_⟩
      · rw [fanOne_started hp hm, offerCopy_queued (setDest_port _ _ _ _) room hn, room]
        rfl
      · rw [fanOne_started hp hm, offerCopy_emitted (setDest_port _ _ _ _) room hn, room]
        rfl
      · rw [fanOne_begins hp hm hu, offerCopy_queued (setDest_port _ _ _ _) room hn, room, if_pos (by simpa using hd)]
        rfl
      · rw [fanOne_begins hp hm hu, offerCopy_emitted (setDest_port _ _ _ _) room hn, room, if_pos (by simpa using hd)]
        rfl
    · rw [fanOne_started hp hm, offerCopy_refused (setDest_port _ _ _ _) ref, hasRoom_refused ref]
      rfl
    · rw [fanOne_begins hp hm hu, offerCopy_refused (setDest_port _ _ _ _) ref, hasRoom_refused ref, if_pos (by simpa using hd)]
      rfl
  · have hp := (takesPart_iff _ _).mpr ⟨hd, hs, hr⟩
    exact ⟨unkeyedOne_optional hp, unkeyedOne_counted hp, unkeyedOne_withheld ok hp⟩

end Sys2Proof.Machine
end

