-- ==== Sys2Proof/Proofs/OrderRoom.lean ====
section
/-! SUPPORT. Orders that bring attention records: what a few records leave of the open report cell, and what the order then comes to on a link at
rest (R164 to R167). -/

namespace Sys2Proof.Machine

/-! ## Room in the open report cell -/

/-- The report cell in hand has room for `n` bytes more, and places are free behind it. -/
structure LinkRoom (n : Nat) (l : HostLink) : Prop where
  waiting : l.waiting = []
  places : l.outbound.length ≤ 22
  room : (l.filling.getD []).length + n ≤ 184

theorem LinkRoom.mono {m n : Nat} {l : HostLink} (h : LinkRoom n l) (le : m ≤ n) : LinkRoom m l :=
  ⟨h.waiting, h.places, (Nat.add_le_add_left le _).trans h.room⟩

theorem LinkRoom.fits {n m : Nat} {l : HostLink} (h : LinkRoom (n + m) l) : l.fits n = true := by
  have := h.room
  simp only [HostLink.fits, decide_eq_true_eq]
  omega

theorem placeRecord_room {m : Nat} {b : List Byte} {l : HostLink} (h : LinkRoom (b.length + m) l) :
    l.placeRecord b = l.append b ∧ LinkRoom m (l.append b) := by
  have room := h.room
  refine ⟨by rw [HostLink.placeRecord, if_pos h.fits], h.waiting, h.places, ?_⟩
  simp only [HostLink.append, Option.getD_some, List.length_append]
  omega

/-- Within a command cell an attention record takes six bytes of the open report cell, or waits (R167). -/
theorem notify_room {m : Nat} {l : HostLink} (r : Option AttentionRecord) (hc : l.command.isSome = true) (h : LinkRoom (6 + m) l) :
    LinkRoom m (l.notify r) := by
  have less : LinkRoom m l := h.mono (Nat.le_add_left _ _)
  cases r with
  | none => exact less
  | some r =>
    obtain ⟨placed, room⟩ := placeRecord_room (b := r.bytes) (m := m) h
    have fits : l.fits r.bytes.length = true := LinkRoom.fits (m := m) h
    simp only [HostLink.notify, HostLink.placeAttention, hc, fits, Bool.true_or, if_true]
    split
    · exact ⟨less.waiting, less.places, less.room⟩
    · exact placed ▸ room

/-! ## Operations that announce a few records -/

/-- From `s` to `t` at most `n` attention records are placed; the command cell goes on. -/
structure Announces (n : Nat) (s t : State) : Prop where
  command : t.link.command = s.link.command
  room : ∀ m, s.link.command.isSome = true → LinkRoom (6 * n + m) s.link → LinkRoom m t.link

theorem Announces.ofLink {s t : State} (h : t.link = s.link) : Announces 0 s t :=
  ⟨by rw [h], fun m _ r => by simpa [h] using r⟩

theorem Announces.trans {a b : Nat} {s t u : State} (h : Announces a s t) (k : Announces b t u) : Announces (a + b) s u :=
  ⟨k.command.trans h.command, fun m c r =>
    k.room m (h.command ▸ c) (h.room (6 * b + m) c (r.mono (by omega)))⟩

theorem Announces.mono {a b : Nat} {s t : State} (h : Announces a s t) (le : a ≤ b) : Announces b s t :=
  ⟨h.command, fun m c r => h.room m c (r.mono (by omega))⟩

theorem Announces.before {n : Nat} {s t u : State} (h : t.link = s.link) (k : Announces n t u) : Announces n s u :=
  ((Announces.ofLink h).trans k).mono (by omega)

theorem withdraw_announces (c : Cause) (x : Byte) (s : State) : Announces 1 s (s.withdraw c x) :=
  ⟨(withdraw_frame c x s).command, fun m h r => notify_room (m := m) _ h r⟩

theorem foldl_announces {α : Type} {n : Nat} {f : State → α → State} (h : ∀ s a, Announces n s (f s a)) (l : List α) (s : State) :
    Announces (l.length * n) s (l.foldl f s) := by
  induction l generalizing s with
  | nil => exact (Announces.ofLink rfl).mono (Nat.zero_le _)
  | cons a l ih => exact ((h s a).trans (ih _)).mono (by rw [List.length_cons, Nat.succ_mul]; omega)

theorem eachDest_announces {n : Nat} {f : DestId → State → State} (h : ∀ d s, Announces n s (f d s)) (s : State) :
    Announces (12 * n) s (s.eachDest f) :=
  (foldl_announces (fun s d => h d s) (List.finRange 12) s).mono (by simp)

theorem completionTest_announces (d : DestId) (s : State) : Announces 1 s (s.completionTest d) := by
  have still {t : State} (h : t.link = s.link) : Announces 1 s t := (Announces.ofLink h).mono (Nat.zero_le _)
  unfold State.completionTest
  dsimp only
  split
  · exact still rfl
  · exact .before (by rfl) (withdraw_announces .stall (sourceByte d) _)
  · exact still rfl
  · exact still rfl

/-! ## The order on a link at rest -/

/-- With room for the reply, the order's command cell ends with it, and the link is at rest again. -/
theorem reply_ends {r : OrderRecord} {u : State} {body : List Byte} (hb : r.body.length ≤ 180)
    (hc : u.link.command = some (lastRecord r)) (ha : u.link.arriving = []) (hr : LinkRoom (6 + body.length) u.link) (res : Result) :
    ∃ l, (u.reply r.code r.tag res body).settleCommand.letIn = { u with link := l } ∧
      l.command = none ∧ l.arriving = [] ∧ l.forwardDrops = u.link.forwardDrops := by
  have len := replyBytes_length r.code r.tag res body
  obtain ⟨placed, room⟩ := placeRecord_room (b := replyBytes r.code r.tag res body) (m := 0) (l := u.link) (by rw [len]; exact hr)
  have ended := settle_last (l := u.link.append (replyBytes r.code r.tag res body)) (r := r) (x := false) hb hc room.waiting 46
  refine ⟨(u.link.append (replyBytes r.code r.tag res body)).endCell, ?_, ?_⟩
  · have settled : (u.reply r.code r.tag res body).settleCommand =
        { u with link := (u.link.append (replyBytes r.code r.tag res body)).endCell } := by
      rw [← ended, ← placed]
      rfl
    rw [settled, letIn_none]
    simp [HostLink.endCell, HostLink.closeFilling, HostLink.append, HostLink.closeRecords, apply_ite HostLink.arriving, ha]
  · simp [HostLink.endCell, HostLink.closeFilling, HostLink.append, HostLink.closeRecords, apply_ite HostLink.arriving,
      apply_ite HostLink.command, apply_ite HostLink.forwardDrops, ha]

/-- What an order's effect keeps of the part, it keeps with the reply placed and the link at rest again. -/
theorem UnitsKept.atRest {r : OrderRecord} {v u : State} {l : HostLink} (h : UnitsKept (v.during r) u) (hc : l.command = v.link.command)
    (ha : l.arriving = v.link.arriving) (hd : l.forwardDrops = u.link.forwardDrops) : UnitsKept v { u with link := l } :=
  { h with command := hc, arriving := ha, forwardDrops := hd.trans h.forwardDrops }

/-- An order on a link at rest whose effect places at most `n` attention records, and is one that keeps the units of `v`. -/
theorem exec_order_unitsKept (o : Order) (tag : Half) {b : List Byte} {s v u : State} {n : Nat} {res : Result} {body : List Byte}
    (h : LinkAtRest s) (hb : b.length = o.bodyLength) (hr : runOrder o b (s.during ⟨o.code, tag, b⟩) = ⟨u, res, body⟩)
    (hk : UnitsKept (v.during ⟨o.code, tag, b⟩) u) (hv : v.link = s.link) (hn : Announces n (s.during ⟨o.code, tag, b⟩) u)
    (hl : 6 * n + (6 + body.length) ≤ 184) :
    ∃ l, exec (orderCommand o tag b) s = .next { u with link := l } ∧ UnitsKept v { u with link := l } := by
  have short : b.length ≤ 180 := by rw [hb]; cases o <;> decide
  have room : LinkRoom (6 + body.length) u.link :=
    hn.room _ rfl ⟨h.waiting, h.places, by simpa [State.during, h.filling] using hl⟩
  have arriving : u.link.arriving = [] := by rw [hk.arriving]; exact (congrArg _ hv).trans h.arriving
  obtain ⟨l, ends, command, rest, drops⟩ := reply_ends (r := ⟨o.code, tag, b⟩) short hn.command arriving room res
  refine ⟨l, ?_, hk.atRest ?_ ?_ drops⟩
  · rw [exec_order o tag b h.pin, takeOrder_atRest h (r := ⟨o.code, tag, b⟩) short, carryOut_order o tag hb, hr, ends]
  · rw [command, hv, h.command]
  · rw [rest, hv, h.arriving]

end Sys2Proof.Machine
end

