-- ==== Sys2Proof/Proofs/FlowOrders.lean ====
section
/-! SUPPORT. The flow table orders (R19 to R22): the fields of a SET_FLOW body, what an entry change leaves, and the reply of READ_FLOW. -/

namespace Sys2Proof.Machine

/-! ## The fields of a SET_FLOW body -/

@[simp] theorem half_num16 (n : Nat) (l : List Byte) : half (num16 n ++ l) 0 = BitVec.ofNat 16 n := half_bytes16 _ l

theorem field16_num16 {n : Nat} (h : n < 65536) (l : List Byte) : field16 (num16 n ++ l) 0 = n := by
  simp [field16, Nat.mod_eq_of_lt h]

@[simp] theorem byteAt_num16 (n : Nat) (l : List Byte) (i : Nat) : byteAt (num16 n ++ l) (i + 2) = byteAt l i := rfl

@[simp] theorem field8_num16 (n : Nat) (l : List Byte) (i : Nat) : field8 (num16 n ++ l) (i + 2) = field8 l i := rfl

@[simp] theorem field16_num16_behind (n : Nat) (l : List Byte) (i : Nat) : field16 (num16 n ++ l) (i + 2) = field16 l i := rfl

/-- The index of an entry is read back. -/
@[simp] theorem below_num16 (k : Fin 256) (l : List Byte) : below 256 (field16 (num16 k.val ++ l) 0) = some k := by
  rw [field16_num16 (by omega), below_val]

theorem feedChoice_feedByte (fm : Option FeedId) : feedChoice (feedByte fm).toNat = some fm := by
  cases fm with
  | none => rfl
  | some f =>
    have byte : (feedByte (some f)).toNat = f.val := feed_byte f
    have ne : f.val ≠ 255 := by omega
    simp [feedChoice, byte, ne]

theorem flowField_toNat (x : BitVec 14) : flowField x.toNat = some x := by
  simp [flowField, below_lt x.isLt]

theorem roleOfCode_byte (r : Role) : Role.ofCode r.byte.toNat = some r := by cases r <;> rfl

/-- The key slot field of a SET_FLOW body. -/
def slotByte : Option (Fin 32) → Byte
  | none => 255
  | some k => sourceByte k

theorem slotChoice_slotByte (k : Option (Fin 32)) : slotChoice (slotByte k).toNat = some k := by
  cases k with
  | none => rfl
  | some k =>
    have ne : k.val ≠ 255 := by omega
    simp [slotByte, slotChoice, ne]

/-- The programme fields of a SET_FLOW body, zero for the other kinds. -/
def programmeBytes : FlowKind → List Byte
  | .programme p => [BitVec.ofNat 8 p.service.val, p.role.byte, if p.required then 1 else 0, slotByte p.keySlot]
  | _ => [0, 0, 0, 0]

section
variable (k : Fin 256) (fm : Option FeedId) (id mask : BitVec 14) (kind : FlowKind)

theorem flowBody_eq : flowBody k fm id mask kind =
    num16 k.val ++ (feedByte fm :: (num16 id.toNat ++ (num16 mask.toNat ++ (kind.byte :: programmeBytes kind)))) := by
  cases kind with
  | programme p =>
    obtain ⟨i, r, q, slot⟩ := p
    cases slot <;> simp [flowBody, programmeBytes, slotByte, sourceByte]
  | accessMessage | guide | clock | discard => simp [flowBody, programmeBytes]

theorem flowBody_length : (flowBody k fm id mask kind).length = 12 := by
  rw [flowBody_eq]
  cases kind <;> rfl

theorem flowField_num16 (x : BitVec 14) (l : List Byte) : flowField (field16 (num16 x.toNat ++ l) 0) = some x := by
  rw [field16_num16 (by omega), flowField_toNat]

theorem flowBody_index : below 256 (field16 (flowBody k fm id mask kind) 0) = some k := by
  rw [flowBody_eq, below_num16]

theorem flowBody_feed : feedChoice (field8 (flowBody k fm id mask kind) 2) = some fm := by
  rw [flowBody_eq]
  exact feedChoice_feedByte fm

theorem flowBody_flowId : flowField (field16 (flowBody k fm id mask kind) 3) = some id := by
  rw [flowBody_eq, field16_num16_behind, field16_succ, flowField_num16]

theorem flowBody_mask : flowField (field16 (flowBody k fm id mask kind) 5) = some mask := by
  rw [flowBody_eq, field16_num16_behind, field16_succ, field16_num16_behind, flowField_num16]

/-- From byte 7 on the kind and the programme fields stand. -/
theorem flowBody_field8 (i : Nat) : field8 (flowBody k fm id mask kind) (i + 7) = field8 (kind.byte :: programmeBytes kind) i := by
  rw [flowBody_eq]
  rfl

theorem flowBody_programme (p : Programme) : programmeFields (flowBody k fm id mask (.programme p)) = some p := by
  have service : field8 (flowBody k fm id mask (.programme p)) 8 = p.service.val :=
    (flowBody_field8 k fm id mask _ 1).trans (service_byte p.service)
  have role : Role.ofCode (field8 (flowBody k fm id mask (.programme p)) 9) = some p.role :=
    (congrArg _ (flowBody_field8 k fm id mask _ 2)).trans (roleOfCode_byte p.role)
  have required : (field8 (flowBody k fm id mask (.programme p)) 10 != 0) = p.required := by
    rw [flowBody_field8 k fm id mask _ 3]
    show (BitVec.toNat (if p.required then (1 : Byte) else 0) != 0) = p.required
    cases p.required <;> rfl
  have slot : slotChoice (field8 (flowBody k fm id mask (.programme p)) 11) = some p.keySlot :=
    (congrArg _ (flowBody_field8 k fm id mask _ 4)).trans (slotChoice_slotByte p.keySlot)
  simp [programmeFields, service, role, required, slot]

theorem flowBody_kind : kindFields (flowBody k fm id mask kind) = some kind := by
  have code : field8 (flowBody k fm id mask kind) 7 = kind.byte.toNat := flowBody_field8 k fm id mask kind 0
  cases kind <;> simp [kindFields, code, FlowKind.byte, flowBody_programme]

/-- A SET_FLOW body gives the entry that it was written from, its last sequence absent (R20). -/
theorem entryFields_flowBody : entryFields (flowBody k fm id mask kind) = some ⟨fm, id, mask, kind, none⟩ := by
  simp [entryFields, flowBody_feed, flowBody_flowId, flowBody_mask, flowBody_kind]

theorem orderSetFlow_flowBody (s : State) :
    orderSetFlow (flowBody k fm id mask kind) s = .done ((s.setFlow k (some ⟨fm, id, mask, kind, none⟩)).announceEntry k) [] := by
  simp [orderSetFlow, flowBody_index, entryFields_flowBody]

end

theorem orderClearFlow_index (k : Fin 256) (s : State) : orderClearFlow (num16 k.val) s = .done ((s.setFlow k none).announceEntry k) [] := by
  have index : below 256 (field16 (num16 k.val) 0) = some k := by simpa using below_num16 k []
  simp [orderClearFlow, index]

/-! ## Entry changes -/

theorem completionTest_marks (d : DestId) (s : State) (e : DestId) : ((s.completionTest d).dest e).marks = (s.dest e).marks := by
  by_cases he : e = d
  · subst he
    rcases completionTest_dest e s with h | ⟨-, n, a, -, h⟩ <;> rw [h]
  · rw [(completionTest_alone d s).dests e he]

theorem completionTest_ports (d : DestId) (s : State) : (s.completionTest d).ports = s.ports := by
  unfold State.completionTest
  dsimp only
  split <;> rfl

/-- Behind the marks, an entry change is completion tests alone (R49). -/
theorem entryChanged_tests {R : State → State → Prop} (refl : ∀ s, R s s) (trans : ∀ {s t u}, R s t → R t u → R s u)
    (test : ∀ d s, R s (s.completionTest d)) (k : Fin 256) (s : State) :
    R { s with ctl := { s.ctl with dests := s.ctl.dests.map fun (x : Dest) => { x with marks := x.marks.filter (· != k) } } }
      (s.entryChanged k) := by
  refine foldl_chain refl trans (fun s d => ?_) _ _
  dsimp only
  split
  · exact test d s
  · exact refl s

/-- The entry's marks leave every destination, and no others do (R49). -/
theorem entryChanged_marks (k : Fin 256) (s : State) (d : DestId) :
    ((s.entryChanged k).dest d).marks = (s.dest d).marks.filter (· != k) := by
  rw [entryChanged_tests (R := fun s t => (t.dest d).marks = (s.dest d).marks) (fun _ => rfl) (fun a b => b.trans a)
    (fun e s => completionTest_marks e s d) k s]
  simp [State.dest]

theorem entryChanged_ports (k : Fin 256) (s : State) : (s.entryChanged k).ports = s.ports :=
  entryChanged_tests (R := fun s t => t.ports = s.ports) (fun _ => rfl) (fun a b => b.trans a) completionTest_ports k s

theorem entryChanged_announces (k : Fin 256) (s : State) : Announces 12 s (s.entryChanged k) := by
  unfold State.entryChanged
  refine .before (by rfl) (eachDest_announces (n := 1) (fun d s => ?_) _)
  split
  · exact completionTest_announces d s
  · exact (Announces.ofLink rfl).mono (Nat.zero_le _)

/-- An order that replaces entry `k`, on a link at rest: the entry is changed, its marks leave every destination (R19). -/
theorem exec_entry_order (o : Order) (tag : Half) {b : List Byte} {s : State} (h : LinkAtRest s) (hb : b.length = o.bodyLength)
    {k : Fin 256} {e : Option FlowEntry} (hr : ∀ u, runOrder o b u = .done ((u.setFlow k e).announceEntry k) []) :
    ∃ t, exec (orderCommand o tag b) s = .next t ∧ (∀ d, k ∉ (t.dest d).marks) ∧ t.ports = s.ports ∧
      UnitsKept ((s.abandonEntry k).setFlow k e) t := by
  let r : OrderRecord := ⟨o.code, tag, b⟩
  let v := (s.abandonEntry k).setFlow k e
  have run : runOrder o b (s.during r) = ⟨(v.during r).entryChanged k, .done, []⟩ := hr _
  have placed : Announces 12 (s.during r) ((v.during r).entryChanged k) := .before (by rfl) (entryChanged_announces k _)
  obtain ⟨l, next, kept⟩ := exec_order_unitsKept o tag (v := v) h hb run (entryChanged_frame k _) rfl placed (by simp)
  have ports : ((v.during r).entryChanged k).ports = s.ports := entryChanged_ports k _
  have marks (d : DestId) : k ∉ (((v.during r).entryChanged k).dest d).marks := by
    rw [entryChanged_marks]
    simp
  generalize (v.during r).entryChanged k = u at *
  exact ⟨_, next, marks, ports, kept⟩

/-! ## Fields outside their ranges -/

theorem feedChoice_none {x : Nat} (h : 8 ≤ x) (hn : x ≠ 255) : feedChoice x = none := by simp [feedChoice, hn, h]

theorem slotChoice_none {x : Nat} (h : 32 ≤ x) (hn : x ≠ 255) : slotChoice x = none := by simp [slotChoice, hn, h]

theorem flowField_none {x : Nat} (h : 16384 ≤ x) : flowField x = none := by simp [flowField, h]

theorem roleOfCode_none {x : Nat} (h : 4 ≤ x) : Role.ofCode x = none := by
  match x with
  | x + 4 => rfl

theorem programmeFields_none {b : List Byte}
    (h : 64 ≤ field8 b 8 ∨ 4 ≤ field8 b 9 ∨ (32 ≤ field8 b 11 ∧ field8 b 11 ≠ 255)) : programmeFields b = none := by
  unfold programmeFields
  split
  · next hs hr hk =>
    rcases h with h | h | ⟨h, hn⟩
    · simp [below_ge h] at hs
    · simp [roleOfCode_none h] at hr
    · simp [slotChoice_none h hn] at hk
  · rfl

theorem kindFields_none {b : List Byte} (h : 5 ≤ field8 b 7 ∨ (field8 b 7 = 0 ∧ programmeFields b = none)) : kindFields b = none := by
  rcases h with h | ⟨h0, h⟩
  · unfold kindFields
    split
    case h_6 => rfl
    all_goals omega
  · simp [kindFields, h0, h]

/-- A SET_FLOW body with a field outside its range gives no entry. -/
theorem orderSetFlow_range {b : List Byte}
    (h : 256 ≤ field16 b 0 ∨ (8 ≤ field8 b 2 ∧ field8 b 2 ≠ 255) ∨ 16384 ≤ field16 b 3 ∨ 16384 ≤ field16 b 5 ∨ kindFields b = none)
    (s : State) : orderSetFlow b s = .refuse s .range := by
  unfold orderSetFlow
  split
  · next hi he =>
    exfalso
    unfold entryFields at he
    split at he
    · next hf hd hm hk =>
      rcases h with h | ⟨h, hn⟩ | h | h | h
      · simp [below_ge h] at hi
      · simp [feedChoice_none h hn] at hf
      · simp [flowField_none h] at hd
      · simp [flowField_none h] at hm
      · simp [h] at hk
    · cases he
  · rfl

/-- The same of a body whose fields are written out. -/
theorem orderSetFlow_fields_range {k id mask : Half} {fm kind service role required slot : Byte}
    (h : 256 ≤ k.toNat ∨ (8 ≤ fm.toNat ∧ fm.toNat ≠ 255) ∨ 16384 ≤ id.toNat ∨ 16384 ≤ mask.toNat ∨ 5 ≤ kind.toNat ∨
      (kind.toNat = 0 ∧ (64 ≤ service.toNat ∨ 4 ≤ role.toNat ∨ (32 ≤ slot.toNat ∧ slot.toNat ≠ 255)))) (s : State) :
    orderSetFlow (bytes16 k ++ [fm] ++ bytes16 id ++ bytes16 mask ++ [kind, service, role, required, slot]) s = .refuse s .range := by
  generalize hb : bytes16 k ++ [fm] ++ bytes16 id ++ bytes16 mask ++ [kind, service, role, required, slot] = b
  have h0 : field16 b 0 = k.toNat := by rw [← hb]; exact congrArg BitVec.toNat (bytes16_join k)
  have h2 : field8 b 2 = fm.toNat := by rw [← hb]; rfl
  have h3 : field16 b 3 = id.toNat := by rw [← hb]; exact congrArg BitVec.toNat (bytes16_join id)
  have h5 : field16 b 5 = mask.toNat := by rw [← hb]; exact congrArg BitVec.toNat (bytes16_join mask)
  have h7 : field8 b 7 = kind.toNat := by rw [← hb]; rfl
  have h8 : field8 b 8 = service.toNat := by rw [← hb]; rfl
  have h9 : field8 b 9 = role.toNat := by rw [← hb]; rfl
  have h11 : field8 b 11 = slot.toNat := by rw [← hb]; rfl
  rw [← h0, ← h2, ← h3, ← h5, ← h7, ← h8, ← h9, ← h11] at h
  have kinds : 5 ≤ field8 b 7 ∨ (field8 b 7 = 0 ∧
      (64 ≤ field8 b 8 ∨ 4 ≤ field8 b 9 ∨ (32 ≤ field8 b 11 ∧ field8 b 11 ≠ 255))) → kindFields b = none :=
    fun h => kindFields_none (h.imp_right fun ⟨h0, h⟩ => ⟨h0, programmeFields_none h⟩)
  exact orderSetFlow_range (h.imp_right <| .imp_right <| .imp_right <| .imp_right kinds) s

/-! ## READ_FLOW -/

theorem orderReadFlow_index (k : Fin 256) (s : State) : orderReadFlow (num16 k.val) s = .done s (flowReply (s.flow k)) := by
  have index : below 256 (field16 (num16 k.val) 0) = some k := by simpa using below_num16 k []
  simp [orderReadFlow, index]

theorem shown_length {α : Type} {n : Nat} {f : α → List Byte} (h : ∀ x, (f x).length = n) (o : Option α) :
    (shown n f o).length = n + 1 := by
  cases o <;> simp [shown, h]

theorem flowReply_length (e : Option FlowEntry) : (flowReply e).length = 21 := by
  have wide (x : Option (BitVec 14)) : (shown 2 (fun x => num16 x.toNat) x).length = 3 :=
    shown_length (f := fun y : BitVec 14 => num16 y.toNat) (fun _ => num16_length _) x
  simp [flowReply, shown_length, wide, flag, bytes8]

theorem flowReply_programme {e : FlowEntry} {p : Programme} (h : e.kind = .programme p) :
    flowReply (some e) =
      [1, 1, feedByte e.feedMatch, 1] ++ num16 e.flowId.toNat ++ [1] ++ num16 e.mask.toNat ++ [1, e.kind.byte] ++
        [1, BitVec.ofNat 8 p.service.val, 1, p.role.byte, 1, if p.required then 1 else 0] ++
        shown 1 (fun x => bytes8 x.val) p.keySlot ++ shown 1 (fun x => bytes8 x.toNat) e.lastSeq := by
  simp [flowReply, FlowEntry.programme?, h, shown, flag, bytes8]

theorem flowReply_other {e : FlowEntry} (h : ∀ p, e.kind ≠ .programme p) :
    flowReply (some e) =
      [1, 1, feedByte e.feedMatch, 1] ++ num16 e.flowId.toNat ++ [1] ++ num16 e.mask.toNat ++ [1, e.kind.byte] ++
        [0, 0, 0, 0, 0, 0, 0, 0] ++ shown 1 (fun x => bytes8 x.toNat) e.lastSeq := by
  have none : e.programme? = none := by
    cases hk : e.kind with
    | programme p => exact absurd hk (h p)
    | accessMessage | guide | clock | discard => simp [FlowEntry.programme?, hk]
  simp [flowReply, none, shown, flag]

theorem exec_readFlow (tag : Half) {k : Fin 256} {s : State} (h : LinkAtRest s) :
    exec (.readFlow tag (num16 k.val)) s = .next (s.answered 0x0A tag .done (flowReply (s.flow k))) :=
  exec_order_read .readFlow tag h rfl (by rw [flowReply_length]; decide) (orderReadFlow_index k _)

/-- Settles O12. -/
theorem flowTableOrders : Obligations.FlowTableOrders := by
  refine ⟨fun s tag h => ⟨fun k fm id mask kind => ⟨?_, ?_⟩, fun k => ⟨?_, ?_⟩, fun x hx => ?_, fun k id mask fm kind service role required slot hr => ?_⟩,
    fun s tag h => ⟨fun k hk => ?_, fun k e hk => ⟨fun p hp => ?_, fun hp => ?_⟩, fun x hx => ?_⟩⟩
  · simp [Replies, runOrder, orderSetFlow_flowBody, Answer.done]
  · exact exec_entry_order .setFlow tag h (flowBody_length k fm id mask kind) (orderSetFlow_flowBody k fm id mask kind)
  · simp [Replies, runOrder, orderClearFlow_index, Answer.done]
  · exact exec_entry_order .clearFlow tag h rfl (orderClearFlow_index k)
  · exact exec_order_refused .clearFlow tag h rfl fun u => by
      have index : field16 (bytes16 x) 0 = x.toNat := by simpa using field16_bytes16 x []
      simp [runOrder, orderClearFlow, index, hx]
  · exact exec_order_refused .setFlow tag h rfl (orderSetFlow_fields_range hr)
  · rw [exec_readFlow tag h, hk]
    rfl
  · rw [exec_readFlow tag h, hk, flowReply_programme hp]
    cases p.keySlot <;> cases e.lastSeq <;> rfl
  · rw [exec_readFlow tag h, hk, flowReply_other hp]
    cases e.lastSeq <;> rfl
  · exact exec_order_refused .readFlow tag h rfl fun u => by
      have index : field16 (bytes16 x) 0 = x.toNat := by simpa using field16_bytes16 x []
      simp [runOrder, orderReadFlow, index, hx]

end Sys2Proof.Machine
end

