-- ==== Sys2Proof/Proofs/Announcements.lean ====
section
/-! SUPPORT. Announcements between blocks (R35, R52, R57): whatever the order in which they are taken, each is taken once, one path in order, until
none is left. What holds of the announcements that wait and of the state, and is kept at every taking, holds at the end. -/

namespace Sys2Proof.Machine

/-! ## Which announcement may be taken next -/

/-- An announcement that may be taken next stands behind none of its own path; the rest keep their order. -/
theorem mem_heads {l before : List Announcement} {paths : List Nat} {p : Announcement × List Announcement}
    (h : p ∈ heads paths before l) :
    ∃ b rest, l = b ++ p.1 :: rest ∧ p.2 = before ++ b ++ rest ∧ p.1.path ∉ paths ∧ ∀ x ∈ b, x.path ≠ p.1.path := by
  induction l generalizing paths before with
  | nil => cases h
  | cons a l ih =>
    have behind (h : p ∈ heads (a.path :: paths) (before ++ [a]) l) :
        ∃ b rest, a :: l = b ++ p.1 :: rest ∧ p.2 = before ++ b ++ rest ∧ p.1.path ∉ paths ∧ ∀ x ∈ b, x.path ≠ p.1.path := by
      obtain ⟨b, rest, hl, hr, hp, hb⟩ := ih h
      obtain ⟨ne, hp⟩ := not_or.mp (fun h => hp (List.mem_cons.mpr h))
      exact ⟨a :: b, rest, by rw [hl]; rfl, by rw [hr]; simp, hp, List.forall_mem_cons.mpr ⟨Ne.symm ne, hb⟩⟩
    rw [heads] at h
    split at h
    · exact behind h
    · next free =>
      rcases List.mem_cons.mp h with rfl | h
      · exact ⟨[], l, rfl, by simp, by simpa using free, by simp⟩
      · exact behind h

theorem heads_cons_ne_nil (a : Announcement) (l : List Announcement) : heads [] [] (a :: l) ≠ [] := by simp [heads]

theorem getD_mem {α : Type} {a : α} {l : List α} (h : a ∈ l) (n : Nat) : l.getD n a ∈ l := by
  rw [List.getD_eq_getElem?_getD]
  cases hn : l[n]? with
  | none => exact h
  | some b => exact List.mem_of_getElem? hn

/-- A free choice changes the model's own fields alone. -/
theorem nextTaker_eq (n : Nat) (s : State) : ∃ c x, (s.nextTaker n).2 = { s with freeCount := c, script := x } := by
  unfold State.nextTaker State.choose
  repeat' split
  all_goals exact ⟨_, _, rfl⟩

/-! ## How many announcements one brings -/

theorem eventChanges_length (want : Fin 64 → Bool) (s : State) : (s.eventChanges want).length ≤ 64 :=
  (List.length_filterMap_le _ _).trans (by simp)

theorem accessReports_length (want : Dest → Bool) (s : State) : (s.accessReports want).length ≤ 12 :=
  (List.length_filterMap_le _ _).trans (by simp)

theorem announceChanges_weight (l : List EventChange) (s : State) :
    ((s.announceChanges l).map Announcement.weight).sum ≤ 14 * l.length := by
  have pairs (l : List EventChange) :
      ((l.flatMap fun c => [Announcement.accessChange c, .parentalChange c]).map Announcement.weight).sum = 14 * l.length := by
    induction l with
    | nil => rfl
    | cons c l ih =>
      simp only [List.flatMap_cons, List.map_append, List.sum_append, ih, List.length_cons]
      simp [Announcement.weight]
      omega
  rw [State.announceChanges, pairs]
  exact Nat.mul_le_mul_left 14 (List.length_filter_le _ _)

theorem formAccess_weight (want : Dest → Bool) (s : State) : ((s.formAccess want).2.map Announcement.weight).sum ≤ 12 := by
  have each (l : List (DestId × AccessVerdict)) :
      ((l.map fun r => Announcement.accessReport r.1 r.2).map Announcement.weight).sum = l.length := by
    induction l with
    | nil => rfl
    | cons r l ih =>
      simp [Announcement.weight] at ih ⊢
      omega
  exact (each _).trans_le (accessReports_length want s)

theorem recompute_weight (want : Fin 64 → Bool) (s : State) : ((s.recompute want).2.map Announcement.weight).sum ≤ 14 * 64 :=
  (announceChanges_weight _ s).trans (Nat.mul_le_mul_left 14 (eventChanges_length want s))

/-- What an announcement brings weighs less than itself. -/
theorem take_weight (a : Announcement) (s : State) : ((a.take s).2.map Announcement.weight).sum < a.weight := by
  cases a with
  | guideTime | guideMark => exact Nat.lt_of_le_of_lt (recompute_weight _ s) (by decide)
  | accessTime | accessChange _ => exact Nat.lt_of_le_of_lt (formAccess_weight _ s) (by simp [Announcement.weight])
  | accessMark t => exact Nat.lt_of_le_of_lt (formAccess_weight _ (s.sweep t)) (by simp [Announcement.weight])
  | parentalTime | parentalMark _ | controllerMark | parentalChange _ | accessReport _ _ => exact Nat.zero_lt_one

/-! ## The induction over a delivery -/

/-- What every free choice and every taking keeps. -/
structure KeptByTaking (Inv : List Announcement → State → Prop) : Prop where
  choice : ∀ l s c x, Inv l s → Inv l { s with freeCount := c, script := x }
  taking : ∀ before a rest s, (∀ b ∈ before, b.path ≠ a.path) → Inv (before ++ a :: rest) s →
    Inv (before ++ rest ++ (a.take s).2) (a.take s).1

theorem deliverFor_induct {Inv : List Announcement → State → Prop} (k : KeptByTaking Inv) (fuel : Nat) (l : List Announcement) (s : State)
    (hf : (l.map Announcement.weight).sum ≤ fuel) (h : Inv l s) : Inv [] (deliverFor fuel l s) := by
  induction fuel generalizing l s with
  | zero =>
    match l with
    | [] => exact h
    | a :: l =>
      have positive := take_weight a s
      simp only [List.map_cons, List.sum_cons] at hf
      omega
  | succ fuel ih =>
    match l with
    | [] => exact h
    | a :: l =>
      unfold deliverFor
      split
      · next empty => exact absurd empty (heads_cons_ne_nil a l)
      · next choice others free =>
        dsimp only
        obtain ⟨c, x, chosen⟩ := nextTaker_eq (others.length + 1) s
        generalize hp : (choice :: others).getD _ choice = p
        have mem : p ∈ heads [] [] (a :: l) := by
          rw [free, ← hp]
          exact getD_mem List.mem_cons_self _
        obtain ⟨before, rest, hl, hr, -, hb⟩ := mem_heads mem
        rw [hl] at hf h
        rw [List.nil_append] at hr
        rw [hr, chosen]
        refine ih _ _ ?_ (k.taking before p.1 rest _ hb (k.choice _ s c x h))
        have less := take_weight p.1 { s with freeCount := c, script := x }
        simp only [List.map_append, List.map_cons, List.sum_append, List.sum_cons] at hf ⊢
        omega

/-- What holds of the announcements sent and of the state holds with none left of the state in which all are taken. -/
theorem deliver_induct {Inv : List Announcement → State → Prop} (k : KeptByTaking Inv) {l : List Announcement} {s : State} (h : Inv l s) :
    Inv [] (s.deliver l) :=
  deliverFor_induct k _ l s le_rfl h

end Sys2Proof.Machine
end

