-- ==== Sys2Proof/Proofs/Forming.lean ====
section
/-! SUPPORT. Forming at a trigger (R103, R104, R137): what the two units' operations leave of one destination, and the verdicts that
a time announcement leaves standing. -/

namespace Sys2Proof.Machine

/-! ## What binds a destination, and its verdicts -/

/-- What binds a destination at the two units, and the access report that the controller holds, stand. -/
structure Dest.Bound (x y : Dest) : Prop where
  kind : y.kind = x.kind
  profile : y.profile = x.profile
  service : y.service = x.service
  vacant : y.state = .vacant ↔ x.state = .vacant
  access : y.access = x.access

theorem Dest.Bound.refl (x : Dest) : x.Bound x := ⟨rfl, rfl, rfl, .rfl, rfl⟩

theorem Dest.Bound.trans {x y z : Dest} (a : x.Bound y) (b : y.Bound z) : x.Bound z :=
  ⟨b.kind.trans a.kind, b.profile.trans a.profile, b.service.trans a.service, b.vacant.trans a.vacant, b.access.trans a.access⟩

/-- Beyond what binds destination `d`, the verdict formed for it and its unlock stand. -/
structure Stands (d : DestId) (s t : State) : Prop where
  bound : (s.dest d).Bound (t.dest d)
  formed : (t.viewer d).formed = (s.viewer d).formed
  unlock : (t.viewer d).unlock = (s.viewer d).unlock

theorem Stands.same {d : DestId} {s t : State} (hd : t.dest d = s.dest d) (hv : t.viewer d = s.viewer d) : Stands d s t where
  bound := hd ▸ .refl _
  formed := by rw [hv]
  unlock := by rw [hv]

theorem Stands.refl (d : DestId) (s : State) : Stands d s s := .same rfl rfl

theorem Stands.trans {d : DestId} {s t u : State} (a : Stands d s t) (b : Stands d t u) : Stands d s u :=
  ⟨a.bound.trans b.bound, b.formed.trans a.formed, b.unlock.trans a.unlock⟩

theorem Stands.ite {d : DestId} {s t u : State} {c : Prop} [Decidable c] (a : Stands d s t) (b : Stands d s u) :
    Stands d s (if c then t else u) := by
  split
  · exact a
  · exact b

theorem setDest_stands {d e : DestId} {x : Dest} {s : State} (h : (s.dest e).Bound x) : Stands d s (s.setDest e x) where
  bound := by
    rw [setDest_dest]
    split
    · next he => exact he ▸ h
    · exact .refl _
  formed := rfl
  unlock := rfl

theorem setViewer_stands {d e : DestId} {v : Viewer} {s : State} (hf : v.formed = (s.viewer e).formed)
    (hu : v.unlock = (s.viewer e).unlock) : Stands d s (s.setViewer e v) where
  bound := .refl _
  formed := by
    rw [setViewer_viewer]
    split
    · next he => rw [hf, he]
    · rfl
  unlock := by
    rw [setViewer_viewer]
    split
    · next he => rw [hu, he]
    · rfl

theorem setViewer_stands_other {d e : DestId} (h : d ≠ e) (v : Viewer) (s : State) : Stands d s (s.setViewer e v) :=
  .same rfl (by rw [setViewer_viewer, if_neg h])

theorem evaluate_stands (d e : DestId) (s : State) : Stands d s (s.evaluate e) where
  bound := by
    have told : (s.dest d).Told ((s.evaluate e).dest d) := by
      by_cases h : d = e
      · exact h ▸ (evaluate_alone e s).told
      · exact (evaluate_alone e s).dests d h ▸ .refl _
    exact ⟨told.kind, told.profile, told.service, evaluate_vacant e s d, told.access⟩
  formed := congrArg (fun u : ParentalUnit => (u.viewers.read d).formed) (evaluate_frame e s).parental
  unlock := congrArg (fun u : ParentalUnit => (u.viewers.read d).unlock) (evaluate_frame e s).parental

/-! ## The parental unit's operations -/

theorem raise_stands (d : DestId) (c : Cause) (x y : Byte) (s : State) : Stands d s (s.raise c x y) := .same rfl rfl

theorem withdraw_stands (d : DestId) (c : Cause) (x : Byte) (s : State) : Stands d s (s.withdraw c x) := .same rfl rfl

theorem openHold_stands (d e : DestId) (s : State) : Stands d s (s.openHold e) :=
  (setViewer_stands (by rfl) (by rfl)).trans (raise_stands d _ _ _ _)

theorem endHold_stands (d e : DestId) (c : HoldCondition) (s : State) : Stands d s (s.endHold e c) :=
  .ite ((setViewer_stands (by rfl) (by rfl)).trans (withdraw_stands d _ _ _)) (setViewer_stands (by rfl) (by rfl))

theorem holdRule_stands (d e : DestId) (s : State) : Stands d s (s.holdRule e) := by
  unfold State.holdRule
  dsimp only
  split
  · exact .refl d s
  · split
    · split
      · exact endHold_stands d e _ s
      · exact .ite (openHold_stands d e s) (.refl d s)
    · exact endHold_stands d e _ s

theorem clearMemory_stands (d e : DestId) (s : State) : Stands d s (s.clearMemory e) :=
  .ite (setViewer_stands (by rfl) (by rfl)) (.refl d s)

theorem reportStored_stands (d e : DestId) (s : State) : Stands d s (s.reportStored e) := by
  unfold State.reportStored
  dsimp only
  split
  · exact .refl d s
  · exact .ite ((setViewer_stands (by rfl) (by rfl)).trans (setDest_stands (by constructor <;> rfl))) (setViewer_stands (by rfl) (by rfl))

theorem reportHanded_stands (d e : DestId) (s : State) : Stands d s (s.reportHanded e) :=
  .ite ((reportStored_stands d e s).trans (evaluate_stands d e _)) (reportStored_stands d e s)

theorem reportIfChanged_stands (d e : DestId) (s : State) : Stands d s (s.reportIfChanged e) :=
  .ite (.refl d s) (reportHanded_stands d e s)

theorem placeBar_stands (d e : DestId) (s : State) : Stands d s (s.placeBar e) :=
  ((endHold_stands d e _ s).trans (setViewer_stands (by rfl) (by rfl))).trans (reportStored_stands d e _)

theorem liftBar_stands (d e : DestId) (s : State) : Stands d s (s.liftBar e) :=
  ((setViewer_stands (by rfl) (by rfl)).trans (holdRule_stands d e _)).trans (reportStored_stands d e _)

/-- Forming for `e` and reporting it stores the present verdict, and nothing else that stands of a destination changes (R136, R137). -/
theorem formAndReport_stands (d : DestId) {e : DestId} {i : Fin 64} {s : State} (h : (s.dest e).service = some i) :
    Stands d (s.setViewer e { s.viewer e with formed := some (s.formedFor (s.profile (s.dest e).profile) i (s.viewer e).unlock) })
      (s.formAndReport e) := by
  have formed : s.formVerdict e = (s.setViewer e { s.viewer e with
      formed := some (s.formedFor (s.profile (s.dest e).profile) i (s.viewer e).unlock) }).holdRule e := by
    rw [State.formVerdict, h]
  rw [State.formAndReport, formed]
  exact (holdRule_stands d e _).trans (reportIfChanged_stands d e _)

theorem formAndReport_unbound {e : DestId} {s : State} (h : (s.dest e).service = none) : s.formAndReport e = s.reportIfChanged e := by
  rw [State.formAndReport, State.formVerdict, h]

theorem formAndReport_bound (d e : DestId) (s : State) : (s.dest d).Bound ((s.formAndReport e).dest d) := by
  cases h : (s.dest e).service with
  | none => exact formAndReport_unbound h ▸ (reportIfChanged_stands d e s).bound
  | some i => exact (formAndReport_stands d h).bound

theorem formAndReport_stands_other {d e : DestId} (hd : d ≠ e) (s : State) : Stands d s (s.formAndReport e) := by
  cases h : (s.dest e).service with
  | none => exact formAndReport_unbound h ▸ reportIfChanged_stands d e s
  | some i => exact (setViewer_stands_other hd _ s).trans (formAndReport_stands d h)

/-! ## The controller's operations -/

theorem settleBar_stands (d e : DestId) (o : Option AccessVerdict) (v : AccessVerdict) (s : State) : Stands d s (s.settleBar e o v) :=
  .ite (.refl d s) (.ite (placeBar_stands d e s) (.ite (liftBar_stands d e s) (.refl d s)))

theorem accessLapse_stands (d e : DestId) (o : Option AccessVerdict) (v : AccessVerdict) (s : State) :
    Stands d s (s.accessLapse e o v) :=
  .ite (raise_stands d _ _ _ s) (.refl d s)

/-- A report taken is stored; nothing else that stands of a destination changes (R50, R104). -/
theorem takeAccessReport_stands (d : DestId) {e : DestId} (v : AccessVerdict) {s : State} (h : (s.dest e).state ≠ .vacant) :
    Stands d (s.storeAccess e v) (s.takeAccessReport e v) := by
  unfold State.takeAccessReport
  dsimp only
  rw [if_neg h]
  exact ((settleBar_stands d e _ v _).trans (accessLapse_stands d e _ v _)).trans (evaluate_stands d e _)

theorem takeAccessReport_stands_other {d e : DestId} (hd : d ≠ e) (v : AccessVerdict) (s : State) :
    Stands d s (s.takeAccessReport e v) := by
  by_cases h : (s.dest e).state = .vacant
  · rw [State.takeAccessReport, if_pos h]
    exact .refl d s
  · have stored : Stands d s (s.storeAccess e v) := .same (by rw [State.storeAccess, setDest_dest, if_neg hd]) rfl
    exact stored.trans (takeAccessReport_stands d v h)

theorem noticeOne_stands (d e : DestId) (s : State) : Stands d s (s.noticeOne e) := by
  have sent (p : PortId) (c : Option Cell) (s : State) : Stands d s (s.sendPort p c) := by
    cases c <;> exact .same rfl rfl
  have offered (p : PortId) (c : Cell) (s : State) : Stands d s (s.offerNotice p c) := by
    unfold State.offerNotice
    split
    · exact Stands.trans (.same (by rfl) (by rfl)) (sent _ _ _)
    · exact .refl d s
  exact .ite (Stands.trans (setDest_stands (by constructor <;> rfl)) (offered _ _ _)) (.refl d s)

theorem notices_stands (d : DestId) (s : State) : Stands d s s.notices :=
  foldl_chain (.refl d) .trans (fun s e => noticeOne_stands d e s) _ s

theorem storeLast_stands (d : DestId) (l : List (DestId × AccessVerdict)) (s : State) : Stands d s (s.storeLast l) :=
  foldl_chain (.refl d) .trans (fun _ _ => .same rfl rfl) l s

/-! ## Each destination in turn -/

theorem eachDest_keeps {P : State → Prop} {f : DestId → State → State} (h : ∀ e s, P s → P (f e s)) {s : State} (hs : P s) :
    P (s.eachDest f) :=
  List.foldlRecOn _ _ hs fun s hs e _ => h e s hs

/-- What the turn of `d` brings about, and every turn keeps, holds at the end. -/
theorem eachDest_brings {P Q : State → Prop} {f : DestId → State → State} (d : DestId) (kept : ∀ e s, P s → P (f e s))
    (brought : ∀ s, P s → Q (f d s)) (keeps : ∀ e s, P s → Q s → Q (f e s)) {s : State} (hs : P s) : Q (s.eachDest f) := by
  have later (l : List DestId) (s : State) (hp : P s) (hq : Q s) : Q (l.foldl (fun s e => f e s) s) := by
    induction l generalizing s with
    | nil => exact hq
    | cons e l ih => exact ih _ (kept e s hp) (keeps e s hp hq)
  have within (l : List DestId) (s : State) (hd : d ∈ l) (hp : P s) : Q (l.foldl (fun s e => f e s) s) := by
    induction l generalizing s with
    | nil => cases hd
    | cons e l ih =>
      rcases List.mem_cons.mp hd with rfl | hd
      · exact later l _ (kept _ s hp) (brought s hp)
      · exact ih _ hd (kept e s hp)
  exact within _ s (List.mem_finRange d) hs

/-! ## Forming for each destination -/

/-- What a formed verdict rests on, beside the profile and the unlock (R135, R136). -/
theorem formedFor_congr {s t : State} {i : Fin 64} (hs : t.ctl.services = s.ctl.services) (he : t.guide.events = s.guide.events)
    (hc : t.guide.current.read i = s.guide.current.read i) (ht : t.time = s.time) (p : Profile) (u : Option Unlock) :
    t.formedFor p i u = s.formedFor p i u := by
  simp only [State.formedFor, State.presentReasons, State.coveredBy, State.ratingPresent, State.quietPresent, State.currentRecord,
    State.eventRecord, State.service, hs, he, hc, ht]

theorem profile_congr {s t : State} (h : t.parental.profiles = s.parental.profiles) (p : Fin 8) : t.profile p = s.profile p :=
  congrArg (fun x : Table Profile 8 => x.read p) h

/-- A verdict that stands goes on standing while what it rests on does. -/
theorem ParentalStands.kept {s t : State} {d : DestId} {i : Fin 64} (h : ParentalStands s d i) (stands : Stands d s t)
    (frame : DeliveryFrame s t) (hp : t.parental.profiles = s.parental.profiles)
    (hc : t.guide.current.read i = s.guide.current.read i) : ParentalStands t d i := by
  rw [ParentalStands, stands.formed, stands.bound.profile, stands.unlock, profile_congr hp,
    formedFor_congr frame.services frame.events hc frame.time]
  exact h

theorem formAndReport_parentalStands {d : DestId} {i : Fin 64} {s : State} (h : (s.dest d).service = some i) :
    ParentalStands (s.formAndReport d) d i := by
  have frame := (formAndReport_frame d s).toSettled
  have stands := formAndReport_stands d h
  rw [ParentalStands, stands.formed, stands.bound.profile, stands.unlock, profile_congr frame.profiles,
    formedFor_congr frame.services (by rw [frame.guide]) (by rw [frame.guide]) frame.time]
  simp

/-- Where `d` is among those named, its verdict stands once they are formed (R137). -/
theorem formEach_parentalStands {want : Dest → Bool} {d : DestId} {i : Fin 64} (named : ∀ x : Dest, x.service = some i → want x = true)
    {s : State} (hs : (s.dest d).service = some i) (hk : (s.dest d).kind = .view) (hv : (s.dest d).state ≠ .vacant) :
    ParentalStands (s.formEach want) d i := by
  have formed (u : State) (h : (s.dest d).Bound (u.dest d)) : ParentalStands (u.formAndReport d) d i :=
    formAndReport_parentalStands (h.service.trans hs)
  have viewing (u : State) (h : (s.dest d).Bound (u.dest d)) : ((u.dest d).isViewing && want (u.dest d)) = true := by
    simp [Dest.isViewing, h.kind, hk, h.vacant, hv, named _ (h.service.trans hs)]
  unfold State.formEach
  refine eachDest_brings (P := fun u => (s.dest d).Bound (u.dest d)) (Q := fun u => ParentalStands u d i) d ?_ ?_ ?_ (.refl _)
  · intro e u h
    split
    · exact h.trans (formAndReport_bound d e u)
    · exact h
  · intro u h
    rw [if_pos (viewing u h)]
    exact formed u h
  · intro e u h stands
    split
    · by_cases he : d = e
      · exact he ▸ formed u h
      · have frame := (formAndReport_frame e u).toSettled
        exact stands.kept (formAndReport_stands_other he u) frame.toDeliveryFrame frame.profiles (by rw [frame.guide])
    · exact stands

/-- A forming that does not name `d` leaves what stands of it. -/
theorem formEach_stands {want : Dest → Bool} {d : DestId} {i : Fin 64} (unnamed : ∀ x : Dest, x.service = some i → want x = false)
    {s : State} (hs : (s.dest d).service = some i) : Stands d s (s.formEach want) := by
  unfold State.formEach
  refine eachDest_keeps (P := Stands d s) ?_ (.refl d s)
  intro e u h
  split
  · next wanted =>
    have he : d ≠ e := by
      rintro rfl
      simp [unnamed _ (h.bound.service.trans hs)] at wanted
    exact h.trans (formAndReport_stands_other he u)
  · exact h

theorem formEach_bound (want : Dest → Bool) (d : DestId) (s : State) : (s.dest d).Bound ((s.formEach want).dest d) := by
  unfold State.formEach
  refine eachDest_keeps (P := fun u => (s.dest d).Bound (u.dest d)) ?_ (.refl _)
  intro e u h
  split
  · exact h.trans (formAndReport_bound d e u)
  · exact h

/-! ## Second marks and event changes at the parental unit -/

theorem chargeOne_keeps (p : Fin 8) (s : State) : (s.chargeOne p).ctl = s.ctl ∧ (s.chargeOne p).access = s.access := by
  unfold State.chargeOne
  dsimp only
  split
  · exact ⟨rfl, rfl⟩
  · split
    · split <;> exact ⟨rfl, rfl⟩
    · exact ⟨rfl, rfl⟩

theorem charge_keeps (s : State) : s.charge.ctl = s.ctl ∧ s.charge.access = s.access :=
  foldl_chain (R := fun s t => t.ctl = s.ctl ∧ t.access = s.access) (fun _ => ⟨rfl, rfl⟩)
    (fun a b => ⟨b.1.trans a.1, b.2.trans a.2⟩) (fun s p => chargeOne_keeps p s) _ s

/-- The spent PERIOD unlocks are removed (R139). -/
def State.spendUnlocks (t : Word) (s : State) : State :=
  { s with parental := { s.parental with viewers := s.parental.viewers.map (Viewer.withoutSpentUnlock t) } }

theorem parentalMark_eq (t : Word) (s : State) : s.parentalMark t = ((s.refill t).charge.spendUnlocks t).formEach fun _ => true := by
  unfold State.parentalMark State.spendUnlocks
  rfl

/-- What a second mark does at the parental unit before it forms leaves the destinations and the access unit. -/
theorem spent_keeps (t : Word) (s : State) :
    ((s.refill t).charge.spendUnlocks t).ctl = s.ctl ∧ ((s.refill t).charge.spendUnlocks t).access = s.access := by
  obtain ⟨hc, ha⟩ := charge_keeps (s.refill t)
  exact ⟨Eq.trans (by rw [State.spendUnlocks]) hc, Eq.trans (by rw [State.spendUnlocks]) ha⟩

theorem spent_dest (t : Word) (s : State) (d : DestId) : ((s.refill t).charge.spendUnlocks t).dest d = s.dest d := by
  rw [State.dest, (spent_keeps t s).1, State.dest]

theorem parentalMark_access (t : Word) (s : State) : (s.parentalMark t).access = s.access := by
  rw [parentalMark_eq, (formEach_frame _ _).access, (spent_keeps t s).2]

/-- What an event change has done at the parental unit before it forms (R139, R143). -/
def State.eventForgotten (i : Fin 64) (s : State) : State :=
  s.eachDest fun d s =>
    if (s.dest d).service = some i then
      (s.clearMemory d).setViewer d ((s.clearMemory d).viewer d).withoutEventUnlock
    else s

theorem parentalEventChange_eq (i : Fin 64) (s : State) :
    s.parentalEventChange i = (s.eventForgotten i).formEach fun x => x.service == some i := rfl

theorem clearMemory_dest (d e : DestId) (s : State) : (s.clearMemory e).dest d = s.dest d := by
  unfold State.clearMemory
  dsimp only
  split <;> rfl

theorem eventForgotten_dest (i : Fin 64) (s : State) (d : DestId) : (s.eventForgotten i).dest d = s.dest d := by
  refine eachDest_keeps (P := fun u => u.dest d = s.dest d) ?_ rfl
  intro e u h
  split
  · rw [setViewer_dest, clearMemory_dest, h]
  · exact h

theorem eventForgotten_stands {i j : Fin 64} (hij : j ≠ i) {d : DestId} {s : State} (hs : (s.dest d).service = some j) :
    Stands d s (s.eventForgotten i) := by
  refine eachDest_keeps (P := Stands d s) ?_ (.refl d s)
  intro e u h
  split
  · next he =>
    have hd : d ≠ e := by
      rintro rfl
      exact hij (Option.some.inj ((h.bound.service.trans hs).symm.trans he))
    exact (h.trans (clearMemory_stands d e u)).trans (setViewer_stands_other hd _ _)
  · exact h

end Sys2Proof.Machine
end

