-- ==== Sys2Proof/Proofs/Deliveries.lean ====
section
/-! SUPPORT. What each announcement leaves standing of a destination's verdicts (R103, R104, R119, R137), and so what a delivery forms. -/

namespace Sys2Proof.Machine

/-! ## Reports on their way -/

/-- The report that the controller holds for `d` once the announcement is taken, where it held `x` (R104). -/
def Announcement.hands (d : DestId) (x : Option AccessVerdict) : Announcement → Option AccessVerdict
  | .accessReport e v => if e = d then some v else x
  | _ => x

/-- The report that the controller holds for `d` once all are taken. -/
def handed (d : DestId) (l : List Announcement) (x : Option AccessVerdict) : Option AccessVerdict :=
  l.foldl (fun x a => a.hands d x) x

/-- The announcement is an access report. -/
def Announcement.reports : Announcement → Bool
  | .accessReport _ _ => true
  | _ => false

theorem hands_unreported {a : Announcement} (h : a.reports = false) (d : DestId) (x : Option AccessVerdict) : a.hands d x = x := by
  cases a with
  | accessReport e v => cases h
  | _ => rfl

theorem handed_append (d : DestId) (l m : List Announcement) (x : Option AccessVerdict) :
    handed d (l ++ m) x = handed d m (handed d l x) := List.foldl_append

theorem handed_unreported {l : List Announcement} (h : ∀ a ∈ l, a.reports = false) (d : DestId) (x : Option AccessVerdict) :
    handed d l x = x := by
  induction l generalizing x with
  | nil => rfl
  | cons a l ih =>
    obtain ⟨ha, hl⟩ := List.forall_mem_cons.mp h
    exact (ih hl _).trans (hands_unreported ha d x)

theorem reports_path {a : Announcement} : a.reports = true ↔ a.path = 6 := by cases a <;> simp [Announcement.reports, Announcement.path]

/-- An announcement taken early hands what it would have handed in its turn, as reports are taken in order. -/
theorem handed_taken {before rest : List Announcement} {a : Announcement} (h : ∀ b ∈ before, b.path ≠ a.path) (d : DestId)
    (x : Option AccessVerdict) : handed d (before ++ a :: rest) x = handed d (before ++ rest) (a.hands d x) := by
  have first : a.hands d (handed d before x) = handed d before (a.hands d x) := by
    cases ha : a.reports with
    | false => rw [hands_unreported ha, hands_unreported ha]
    | true =>
      have unreported : ∀ b ∈ before, b.reports = false := fun b hb => by
        rw [Bool.eq_false_iff, ne_eq, reports_path]
        exact reports_path.mp ha ▸ h b hb
      rw [handed_unreported unreported, handed_unreported unreported]
  rw [handed_append, handed_append, ← first]
  rfl

/-- The reports of a trigger hand each destination its last report (R104). -/
theorem handed_reports (d : DestId) (l : List (DestId × AccessVerdict)) (s : State) :
    handed d (l.map fun r => .accessReport r.1 r.2) (s.lastAccess d) = (s.storeLast l).lastAccess d := by
  induction l generalizing s with
  | nil => rfl
  | cons r l ih =>
    have first : (Announcement.accessReport r.1 r.2).hands d (s.lastAccess d) = (s.setLastAccess r.1 (some r.2)).lastAccess d := by
      rw [setLastAccess_lastAccess, Announcement.hands]
      simp only [eq_comm]
    exact (congrArg (handed d _) first).trans (ih _)

/-! ## Access verdicts -/

/-- What an access verdict rests on (R100, R101). -/
theorem accessVerdict_congr {s t : State} (frame : DeliveryFrame s t) (ht : t.access.table = s.access.table) (i : Fin 64) :
    t.accessVerdict i = s.accessVerdict i := by
  have service : t.service i = s.service i := congrArg (fun x : Table (Option Service) 64 => x.read i) frame.services
  have weighed (n : Half) : t.eventWeighed n = s.eventWeighed n := by
    rw [State.eventWeighed, State.eventWeighed, frame.time, frame.events]
  have entitled (k : EntitlementKey) : t.entitled k = s.entitled k := by
    rw [State.entitled, State.entitled, frame.time, ht]
  have verdict (p : Bool) (e : Option EventRecord) : t.eventVerdict p e = s.eventVerdict p e := by
    unfold State.eventVerdict
    simp only [entitled, frame.time]
  unfold State.accessVerdict
  simp only [service, weighed, entitled, verdict, frame.time]

theorem storeLast_lastAccess_named {d : DestId} {v : AccessVerdict} (l : List (DestId × AccessVerdict)) (s : State) (mem : (d, v) ∈ l)
    (only : ∀ w, (d, w) ∈ l → w = v) : (s.storeLast l).lastAccess d = some v := by
  induction l generalizing s with
  | nil => cases mem
  | cons r l ih =>
    by_cases later : (d, v) ∈ l
    · exact ih _ later fun w hw => only w (List.mem_cons_of_mem _ hw)
    · have unnamed : ∀ q ∈ l, q.1 ≠ d := fun q hq he =>
        later (only q.2 (he ▸ List.mem_cons_of_mem _ hq) ▸ he ▸ hq)
      obtain rfl := (List.mem_cons.mp mem).resolve_right later
      exact (storeLast_lastAccess_other l _ unnamed).trans (by simp)

/-- A forming leaves the verdict of a destination named as its last report, and the last report of another (R103, R104). -/
theorem formAccess_lastAccess (want : Dest → Bool) {d : DestId} {i : Fin 64} {s : State} (hs : (s.dest d).service = some i)
    (hv : (s.dest d).state ≠ .vacant) :
    ((s.formAccess want).1.lastAccess d = s.lastAccess d ∧ want (s.dest d) = false) ∨
      (s.formAccess want).1.lastAccess d = some ((s.formAccess want).1.accessVerdict i) := by
  have frame := formAccess_frame want s
  rw [accessVerdict_congr frame.toDeliveryFrame frame.table]
  have only (w : AccessVerdict) (h : (d, w) ∈ s.accessReports want) : w = s.accessVerdict i := by
    obtain ⟨j, hj, -, -, hw, -⟩ := mem_accessReports.mp h
    rw [hw, Option.some.inj (hj.symm.trans hs)]
  have unnamed (h : (d, s.accessVerdict i) ∉ s.accessReports want) : (s.formAccess want).1.lastAccess d = s.lastAccess d :=
    storeLast_lastAccess_other _ s fun r hr he => h (only r.2 (he ▸ hr) ▸ he ▸ hr)
  cases hw : want (s.dest d) with
  | false =>
    refine .inl ⟨unnamed fun h => ?_, rfl⟩
    obtain ⟨-, -, -, named, -⟩ := mem_accessReports.mp h
    rw [hw] at named
    cases named
  | true =>
    right
    by_cases last : s.lastAccess d = some (s.accessVerdict i)
    · rw [← last]
      refine unnamed fun h => ?_
      obtain ⟨-, -, -, -, -, differs⟩ := mem_accessReports.mp h
      exact differs last
    · exact storeLast_lastAccess_named _ s (mem_accessReports.mpr ⟨i, hs, hv, hw, rfl, last⟩) only

/-! ## What an announcement does at the access unit -/

/-- At this announcement the access unit forms every verdict afresh (R103). -/
def Announcement.formsAccess : Announcement → Bool
  | .accessTime | .accessMark _ => true
  | _ => false

/-- The state in which the access unit forms: after the expiry sweep of a second mark (R98). -/
def Announcement.swept (s : State) : Announcement → State
  | .accessMark t => s.sweep t
  | _ => s

theorem recompute_unreported (want : Fin 64 → Bool) (s : State) : ∀ a ∈ (s.recompute want).2, a.reports = false := by
  intro a ha
  obtain ⟨c, -, ha⟩ := List.mem_flatMap.mp ha
  simp only [List.mem_cons, List.not_mem_nil, or_false] at ha
  rcases ha with rfl | rfl <;> rfl

/-- An announcement has the access unit form verdicts, or leaves the access unit and brings no report. -/
theorem take_access (a : Announcement) (s : State) :
    (a.formsAccess = false ∧ (a.take s).1.access = s.access ∧ ∀ b ∈ (a.take s).2, b.reports = false) ∨
      ∃ want, a.take s = (a.swept s).formAccess want ∧ a.reports = false ∧ (a.formsAccess = true → ∀ x, want x = true) := by
  have silent : ∀ b ∈ ([] : List Announcement), b.reports = false := fun _ h => by cases h
  cases a <;> dsimp only [Announcement.take]
  case guideTime | guideMark => exact .inl ⟨rfl, rfl, recompute_unreported _ s⟩
  case parentalTime => exact .inl ⟨rfl, (formEach_frame _ s).access, silent⟩
  case parentalMark t => exact .inl ⟨rfl, parentalMark_access t s, silent⟩
  case controllerMark => exact .inl ⟨rfl, (notices_frame s).access, silent⟩
  case parentalChange c => exact .inl ⟨rfl, (parentalEventChange_frame c.index s).access, silent⟩
  case accessReport d v => exact .inl ⟨rfl, (takeAccessReport_frame d v s).access, silent⟩
  case accessTime | accessMark t => exact .inr ⟨_, rfl, rfl, fun _ _ => rfl⟩
  case accessChange c => exact .inr ⟨_, rfl, rfl, fun h => by cases h⟩

theorem swept_dest (a : Announcement) (s : State) (d : DestId) : (a.swept s).dest d = s.dest d := by cases a <;> rfl

theorem swept_lastAccess (a : Announcement) (s : State) (d : DestId) : (a.swept s).lastAccess d = s.lastAccess d := by cases a <;> rfl

theorem swept_unformed {a : Announcement} (h : a.formsAccess = false) (s : State) : a.swept s = s := by
  cases a with
  | accessMark t => cases h
  | _ => rfl

/-- The verdict that is the last report, or will be once a forming under way is done, is so after an announcement. -/
theorem take_lastAccess (a : Announcement) {d : DestId} {i : Fin 64} {s : State} (hs : (s.dest d).service = some i)
    (hv : (s.dest d).state ≠ .vacant) (h : a.formsAccess = true ∨ s.lastAccess d = some (s.accessVerdict i)) :
    (a.take s).1.lastAccess d = some ((a.take s).1.accessVerdict i) := by
  have frame := take_frame a s
  rcases take_access a s with ⟨unformed, kept, -⟩ | ⟨want, taken, -, all⟩
  · rw [accessVerdict_congr frame (by rw [kept]), State.lastAccess, kept]
    exact h.resolve_left (by rw [unformed]; decide)
  · have formed := formAccess_lastAccess want (i := i) (by rw [swept_dest a s d, hs]) (by rwa [swept_dest a s d])
    rw [taken] at frame ⊢
    refine formed.elim (fun ⟨unchanged, unnamed⟩ => ?_) id
    have unformed : a.formsAccess = false := by
      by_contra forms
      rw [all (Bool.eq_true_of_not_eq_false forms)] at unnamed
      cases unnamed
    rw [swept_unformed unformed] at frame unchanged ⊢
    rw [unchanged, accessVerdict_congr frame (formAccess_frame want s).table]
    exact h.resolve_left (by rw [unformed]; decide)

/-- What an announcement brings hands each destination its last report. -/
theorem take_handed (a : Announcement) (d : DestId) (s : State) : handed d (a.take s).2 (s.lastAccess d) = (a.take s).1.lastAccess d := by
  rcases take_access a s with ⟨-, kept, unreported⟩ | ⟨want, taken, -, -⟩
  · rw [handed_unreported unreported, State.lastAccess, State.lastAccess, kept]
  · rw [taken, ← swept_lastAccess a s d]
    exact handed_reports d _ _

/-! ## What an announcement leaves of a destination -/

theorem take_unreported_bound {a : Announcement} (h : a.reports = false) (d : DestId) (s : State) :
    (s.dest d).Bound ((a.take s).1.dest d) := by
  cases a <;> dsimp only [Announcement.take]
  case guideTime | guideMark => exact .refl _
  case accessTime | accessChange c => exact (storeLast_stands d _ s).bound
  case accessMark t => exact (storeLast_stands d _ (s.sweep t)).bound
  case parentalTime => exact formEach_bound _ d s
  case parentalMark t =>
    rw [parentalMark_eq, ← spent_dest t s d]
    exact formEach_bound _ d _
  case controllerMark => exact (notices_stands d s).bound
  case parentalChange c =>
    rw [parentalEventChange_eq, ← eventForgotten_dest c.index s d]
    exact formEach_bound _ d _
  case accessReport e v => cases h

/-- What binds a destination stands; its report is the one handed. -/
theorem take_bound (a : Announcement) {d : DestId} {s : State} (hv : (s.dest d).state ≠ .vacant) :
    Dest.Bound { s.dest d with access := a.hands d (s.dest d).access } ((a.take s).1.dest d) := by
  cases ha : a.reports with
  | false => exact (hands_unreported ha d _).symm ▸ take_unreported_bound ha d s
  | true =>
    cases a with
    | accessReport e v =>
      dsimp only [Announcement.take, Announcement.hands]
      split
      · next he =>
        subst he
        have bound := (takeAccessReport_stands e v hv).bound
        rw [State.storeAccess, setDest_dest_same] at bound
        exact bound
      · next he => exact (takeAccessReport_stands_other (Ne.symm he) v s).bound
    | _ => cases ha

/-! ## Current events and parental verdicts -/

/-- At this announcement the parental unit forms the verdicts of index `i` afresh (R137). -/
def Announcement.formsParental (i : Fin 64) : Announcement → Bool
  | .parentalTime | .parentalMark _ => true
  | .parentalChange c => c.index == i
  | _ => false

theorem showsIndex_of_dest {d : DestId} {i : Fin 64} {s : State} (hs : (s.dest d).service = some i)
    (hv : (s.dest d).state ≠ .vacant) : s.showsIndex i = true :=
  List.any_eq_true.mpr ⟨s.dest d, Table.read_mem _ d, by simp [hs, hv]⟩

theorem storeCurrent_current (l : List EventChange) {i : Fin 64} (h : ∀ c ∈ l, c.index ≠ i) (s : State) :
    (s.storeCurrent l).guide.current.read i = s.guide.current.read i := by
  unfold State.storeCurrent
  dsimp only
  generalize s.guide.current = t
  induction l generalizing t with
  | nil => rfl
  | cons c l ih =>
    obtain ⟨hc, hl⟩ := List.forall_mem_cons.mp h
    rw [List.foldl_cons, ih hl, Table.read_write_other _ _ hc.symm]

/-- A recomputation that changes the current event of an index shown announces it (R119, R120). -/
theorem recompute_current (want : Fin 64 → Bool) {i : Fin 64} {s : State} (shown : s.showsIndex i = true) :
    (∃ a ∈ (s.recompute want).2, a.formsParental i = true) ∨
      (s.recompute want).1.guide.current.read i = s.guide.current.read i := by
  by_cases h : ∃ c ∈ s.eventChanges want, c.index = i
  · obtain ⟨c, mem, rfl⟩ := h
    refine .inl ⟨.parentalChange c, ?_, by simp [Announcement.formsParental]⟩
    exact List.mem_flatMap.mpr ⟨c, List.mem_filter.mpr ⟨mem, shown⟩, by simp⟩
  · push Not at h
    exact .inr (storeCurrent_current _ h s)

/-- At a forming announcement the verdict of `d` comes to stand (R137). -/
theorem take_parental_forms {a : Announcement} {d : DestId} {i : Fin 64} {s : State} (ha : a.formsParental i = true)
    (hs : (s.dest d).service = some i) (hk : (s.dest d).kind = .view) (hv : (s.dest d).state ≠ .vacant) :
    ParentalStands (a.take s).1 d i := by
  cases a <;> dsimp only [Announcement.take]
  case parentalTime => exact formEach_parentalStands (fun _ _ => rfl) hs hk hv
  case parentalMark t =>
    rw [← spent_dest t s d] at hs hk hv
    rw [parentalMark_eq]
    exact formEach_parentalStands (fun _ _ => rfl) hs hk hv
  case parentalChange c =>
    have index : c.index = i := by simpa [Announcement.formsParental] using ha
    rw [← eventForgotten_dest c.index s d] at hs hk hv
    rw [parentalEventChange_eq]
    exact formEach_parentalStands (fun x hx => by simp [hx, index]) hs hk hv
  all_goals cases ha

theorem storeLast_parentalStands {d : DestId} {i : Fin 64} {s : State} (h : ParentalStands s d i)
    (l : List (DestId × AccessVerdict)) : ParentalStands (s.storeLast l) d i := by
  have settled := storeLast_frame l s
  exact h.kept (storeLast_stands d l s) settled.toDeliveryFrame settled.profiles (by rw [settled.guide])

/-- The change for another index leaves what stands of a destination. -/
theorem parentalEventChange_stands {i j : Fin 64} (hij : j ≠ i) {d : DestId} {s : State} (hs : (s.dest d).service = some j) :
    Stands d s (s.parentalEventChange i) := by
  have forgotten : Stands d s (s.eventForgotten i) := eventForgotten_stands hij hs
  rw [parentalEventChange_eq]
  exact forgotten.trans (formEach_stands (i := j) (fun x hx => by simp [hx, hij]) (forgotten.bound.service.trans hs))

theorem takeAccessReport_parentalStands {d e : DestId} {i : Fin 64} {s : State} (h : ParentalStands s d i)
    (v : AccessVerdict) : ParentalStands (s.takeAccessReport e v) d i := by
  by_cases vacant : (s.dest e).state = .vacant
  · rwa [State.takeAccessReport, if_pos vacant]
  · have profile : ((s.storeAccess e v).dest d).profile = (s.dest d).profile := by
      rw [State.storeAccess, setDest_dest]
      split
      · next he => rw [he]
      · rfl
    have settled := (takeAccessReport_frame e v s).toSettled
    have stands := takeAccessReport_stands d v vacant
    rw [ParentalStands, stands.formed, stands.bound.profile, profile, stands.unlock, profile_congr settled.profiles,
      formedFor_congr settled.services (by rw [settled.guide]) (by rw [settled.guide]) settled.time]
    exact h

/-- Another announcement leaves the verdict of `d` standing, or brings a forming one (R119, R137). -/
theorem take_parental_keeps {a : Announcement} {d : DestId} {i : Fin 64} {s : State} (ha : a.formsParental i = false)
    (hs : (s.dest d).service = some i) (hv : (s.dest d).state ≠ .vacant) (h : ParentalStands s d i) :
    (∃ b ∈ (a.take s).2, b.formsParental i = true) ∨ ParentalStands (a.take s).1 d i := by
  have frame := take_frame a s
  cases a <;> dsimp only [Announcement.take] at frame ⊢
  case guideTime | guideMark =>
    refine (recompute_current (fun _ => true) (showsIndex_of_dest hs hv)).imp_right fun same => ?_
    exact h.kept (.same rfl rfl) frame rfl same
  case accessTime | accessChange c => exact .inr (storeLast_parentalStands h _)
  case accessMark t =>
    have swept : ParentalStands (s.sweep t) d i := h.kept (.same rfl rfl) (sweep_frame t s) rfl rfl
    exact .inr (storeLast_parentalStands swept _)
  case controllerMark =>
    have kept := notices_frame s
    exact .inr (h.kept (notices_stands d s) frame (by rw [kept.parental]) (by rw [kept.guide]))
  case parentalChange c =>
    have index : i ≠ c.index := (beq_eq_false_iff_ne.mp ha).symm
    have settled := (parentalEventChange_frame c.index s).toSettled
    exact .inr (h.kept (parentalEventChange_stands index hs) frame settled.profiles (by rw [settled.guide]))
  case accessReport e v => exact .inr (takeAccessReport_parentalStands h v)
  all_goals cases ha

/-! ## What a delivery forms -/

/-- What holds of destination `d` on index `i`, of kind `k`, while announcements wait: its access verdict is the last report, or a forming waits; the reports
that wait hand the controller the last report, where the two agreed before; and the verdict of a VIEW destination stands, or a
forming waits. -/
structure Forming (d : DestId) (i : Fin 64) (k : DestKind) (agreed : Prop) (l : List Announcement) (s : State) : Prop where
  kind : (s.dest d).kind = k
  service : (s.dest d).service = some i
  live : (s.dest d).state ≠ .vacant
  access : (∃ a ∈ l, a.formsAccess = true) ∨ s.lastAccess d = some (s.accessVerdict i)
  report : agreed → handed d l (s.dest d).access = s.lastAccess d
  parental : k = .view → (∃ a ∈ l, a.formsParental i = true) ∨ ParentalStands s d i

/-- An announcement of a list split at another is that one, or among the rest. -/
theorem exists_mem_split {p : Announcement → Bool} {before rest : List Announcement} {a : Announcement}
    (h : ∃ b ∈ before ++ a :: rest, p b = true) (ha : p a = false) : ∃ b ∈ before ++ rest, p b = true := by
  obtain ⟨b, hb, hp⟩ := h
  refine ⟨b, ?_, hp⟩
  rcases List.mem_append.mp hb with hb | hb
  · exact List.mem_append_left _ hb
  · rcases List.mem_cons.mp hb with rfl | hb
    · rw [ha] at hp
      cases hp
    · exact List.mem_append_right _ hb

theorem exists_mem_append_left {p : Announcement → Bool} {l m : List Announcement} (h : ∃ b ∈ l, p b = true) :
    ∃ b ∈ l ++ m, p b = true := by
  obtain ⟨b, hb, hp⟩ := h
  exact ⟨b, List.mem_append_left _ hb, hp⟩

theorem forming_kept (d : DestId) (i : Fin 64) (k : DestKind) (agreed : Prop) : KeptByTaking (Forming d i k agreed) where
  choice _ _ _ _ h := ⟨h.kind, h.service, h.live, h.access, h.report, h.parental⟩
  taking before a rest s order h := by
    have bound := take_bound a h.live
    refine ⟨bound.kind.trans h.kind, bound.service.trans h.service, (not_congr bound.vacant).mpr h.live, ?_, ?_, ?_⟩
    · cases ha : a.formsAccess with
      | true => exact .inr (take_lastAccess a h.service h.live (.inl ha))
      | false =>
        rcases h.access with waits | stands
        · exact .inl (exists_mem_append_left (exists_mem_split waits ha))
        · exact .inr (take_lastAccess a h.service h.live (.inr stands))
    · intro agree
      have report := h.report agree
      rw [handed_taken order] at report
      rw [handed_append, bound.access, report, take_handed]
    · intro view
      have hk := h.kind.trans view
      cases ha : a.formsParental i with
      | true => exact .inr (take_parental_forms ha h.service hk h.live)
      | false =>
        rcases h.parental view with waits | stands
        · exact .inl (exists_mem_append_left (exists_mem_split waits ha))
        · rcases take_parental_keeps ha h.service h.live stands with ⟨b, hb, hp⟩ | stands
          · exact .inl ⟨b, List.mem_append_right _ hb, hp⟩
          · exact .inr stands

/-- A delivery with a forming announcement to each unit leaves the verdicts of both units formed (R103, R104, R137). -/
theorem deliver_verdictsFormed {l : List Announcement} {s : State} (access : ∃ a ∈ l, a.formsAccess = true)
    (parental : ∀ i, ∃ a ∈ l, a.formsParental i = true) (unreported : ∀ a ∈ l, a.reports = false) :
    VerdictsFormed s (s.deliver l) := by
  intro d i live service
  have start : Forming d i (s.dest d).kind (s.lastAccess d = (s.dest d).access) l s :=
    ⟨rfl, service, live, .inl access, fun agree => by rw [handed_unreported unreported, agree], fun _ => .inl (parental i)⟩
  have formed := deliver_induct (forming_kept d i _ _) start
  have last := formed.access.resolve_left (by simp)
  exact ⟨⟨last, fun agree => (formed.report agree).trans last⟩, fun view => (formed.parental view).resolve_left (by simp)⟩

/-! ## What a delivery leaves of the tables and of the cells sent -/

/-- The announcement is a second mark. -/
def Announcement.marks : Announcement → Bool
  | .guideMark | .accessMark _ | .parentalMark _ | .controllerMark => true
  | _ => false

/-- Entitlements, profiles and the cells sent are as they were. -/
structure TablesKept (s t : State) : Prop where
  table : t.access.table = s.access.table
  profiles : t.parental.profiles = s.parental.profiles
  sent : t.sent = s.sent

theorem Settled.tablesKept {s t : State} (h : Settled s t) : TablesKept s t := ⟨h.table, h.profiles, h.sent⟩

theorem take_tablesKept {a : Announcement} (h : a.marks = false) (s : State) : TablesKept s (a.take s).1 := by
  cases a <;> dsimp only [Announcement.take]
  case guideTime => exact ⟨rfl, rfl, rfl⟩
  case accessTime | accessChange c => exact (formAccess_frame _ s).tablesKept
  case parentalTime => exact (formEach_frame _ s).toSettled.tablesKept
  case parentalChange c => exact (parentalEventChange_frame c.index s).toSettled.tablesKept
  case accessReport d v => exact (takeAccessReport_frame d v s).toSettled.tablesKept
  all_goals cases h

/-- No announcement brings a second mark. -/
theorem take_unmarked (a : Announcement) (s : State) : ∀ b ∈ (a.take s).2, b.marks = false := by
  have changes (want : Fin 64 → Bool) : ∀ b ∈ (s.recompute want).2, b.marks = false := by
    intro b hb
    obtain ⟨c, -, hb⟩ := List.mem_flatMap.mp hb
    simp only [List.mem_cons, List.not_mem_nil, or_false] at hb
    rcases hb with rfl | rfl <;> rfl
  have reports (want : Dest → Bool) (u : State) : ∀ b ∈ (u.formAccess want).2, b.marks = false := by
    intro b hb
    obtain ⟨r, -, rfl⟩ := List.mem_map.mp hb
    rfl
  have silent : ∀ b ∈ ([] : List Announcement), b.marks = false := fun _ h => by cases h
  cases a <;> dsimp only [Announcement.take]
  case guideTime | guideMark => exact changes _
  case accessTime | accessMark t | accessChange c => exact reports _ _
  all_goals exact silent

/-- A delivery without a second mark leaves entitlements, profiles and the cells sent. -/
theorem deliver_tablesKept {l : List Announcement} (h : ∀ a ∈ l, a.marks = false) (s : State) : TablesKept s (s.deliver l) := by
  have kept : KeptByTaking fun l t => (∀ a ∈ l, a.marks = false) ∧ TablesKept s t := {
    choice := fun _ _ _ _ h => ⟨h.1, h.2.table, h.2.profiles, h.2.sent⟩
    taking := by
      rintro before a rest t - ⟨unmarked, tables⟩
      obtain ⟨hb, ha, hr⟩ : (∀ b ∈ before, b.marks = false) ∧ a.marks = false ∧ ∀ b ∈ rest, b.marks = false := by
        simpa [or_imp, forall_and] using unmarked
      have taken := take_tablesKept ha t
      refine ⟨?_, taken.table.trans tables.table, taken.profiles.trans tables.profiles, taken.sent.trans tables.sent⟩
      intro b hb'
      rcases List.mem_append.mp hb' with hb' | hb'
      · exact (List.mem_append.mp hb').elim (hb b) (hr b)
      · exact take_unmarked a t b hb' }
  exact (deliver_induct kept ⟨h, rfl, rfl, rfl⟩).2

/-- Table `y` is `x` after an expiry sweep at `t` (R98): the records of `x` that end above `t`. -/
def SweptAt (t : Word) (x y : Table (Option Entitlement) 48) : Prop :=
  ∀ i e, y.read i = some e ↔ x.read i = some e ∧ t.toNat < e.stop.toNat

theorem sweep_sweptAt (t : Word) (s : State) : SweptAt t s.access.table (s.sweep t).access.table := by
  intro i e
  rw [State.sweep, Table.read_map]
  cases s.access.table.read i with
  | none => simp
  | some r =>
    by_cases h : r.stop.toNat ≤ t.toNat
    · simp only [h, if_true, reduceCtorEq, Option.some.injEq, false_iff, not_and, Nat.not_lt]
      rintro rfl
      exact h
    · simp only [h, if_false, Option.some.injEq, iff_self_and]
      rintro rfl
      exact Nat.lt_of_not_le h

theorem SweptAt.again {t : Word} {x y z : Table (Option Entitlement) 48} (a : SweptAt t x y) (b : SweptAt t y z) : SweptAt t x z := by
  intro i e
  rw [b, a, and_assoc, and_self]

/-- Beyond its sweep, an announcement leaves the entitlements. -/
theorem take_table (a : Announcement) (s : State) : (a.take s).1.access.table = (a.swept s).access.table := by
  rcases take_access a s with ⟨unformed, kept, -⟩ | ⟨want, taken, -⟩
  · rw [kept, swept_unformed unformed]
  · rw [taken]
    exact (formAccess_frame want _).table

theorem accessMark_not_brought (a : Announcement) (s : State) (t : Word) : .accessMark t ∉ (a.take s).2 := fun h =>
  Bool.noConfusion (take_unmarked a s _ h)

/-- The expiry sweep at `t` waits, or has been made of table `x`; no other waits. -/
structure Sweeping (t : Word) (x : Table (Option Entitlement) 48) (l : List Announcement) (s : State) : Prop where
  only : ∀ u, .accessMark u ∈ l → u = t
  table : (.accessMark t ∈ l ∧ s.access.table = x) ∨ SweptAt t x s.access.table

theorem sweeping_kept (t : Word) (x : Table (Option Entitlement) 48) : KeptByTaking (Sweeping t x) where
  choice _ _ _ _ h := ⟨h.only, h.table⟩
  taking before a rest s _ h := by
    have stay {b : Announcement} (hb : b ∈ before ++ rest) : b ∈ before ++ a :: rest :=
      (List.mem_append.mp hb).elim (List.mem_append_left _) fun hb => List.mem_append_right _ (List.mem_cons_of_mem _ hb)
    have only (u : Word) (hu : .accessMark u ∈ before ++ rest ++ (a.take s).2) : u = t := by
      rcases List.mem_append.mp hu with hu | hu
      · exact h.only u (stay hu)
      · exact (accessMark_not_brought a s u hu).elim
    refine ⟨only, ?_⟩
    rw [take_table]
    by_cases ha : a = .accessMark t
    · subst ha
      right
      rcases h.table with ⟨-, rfl⟩ | swept
      · exact sweep_sweptAt t s
      · exact swept.again (sweep_sweptAt t s)
    · have unswept : a.swept s = s := by
        cases a with
        | accessMark u =>
          have mem : .accessMark u ∈ before ++ .accessMark u :: rest := List.mem_append_right _ List.mem_cons_self
          exact absurd (h.only u mem ▸ rfl) ha
        | _ => rfl
      rw [unswept]
      refine h.table.imp_left fun ⟨waits, same⟩ => ⟨List.mem_append_left _ ?_, same⟩
      rcases List.mem_append.mp waits with hb | hb
      · exact List.mem_append_left _ hb
      · exact List.mem_append_right _ ((List.mem_cons.mp hb).resolve_left (Ne.symm ha))

/-- A delivery with one second mark sweeps the entitlements once, at its T (R98). -/
theorem deliver_sweptAt {t : Word} {l : List Announcement} (waits : .accessMark t ∈ l) (only : ∀ u, .accessMark u ∈ l → u = t)
    (s : State) : SweptAt t s.access.table (s.deliver l).access.table := by
  have done : Sweeping t s.access.table [] (s.deliver l) := deliver_induct (sweeping_kept t _) ⟨only, .inl ⟨waits, rfl⟩⟩
  exact done.table.resolve_left fun ⟨left, _⟩ => List.not_mem_nil left

end Sys2Proof.Machine
end

