-- ==== Sys2Proof/Proofs/ClockCell.lean ====
section
/-! SUPPORT. Clock cells (R27 to R32). -/

namespace Sys2Proof.Machine

/-! ## The branches of a clock cell -/

theorem dispose_clock {e : FlowEntry} (h : e.kind = .clock) (k : Fin 256) (f : FeedId) (c : Cell) (s : State) :
    s.dispose k e f c = (s.countFeed f .consumed).clockCell f c := by
  rw [State.dispose, h]

section
variable {s : State} {f : FeedId} {c : Cell}

theorem clockCell_bad (h : 999 < field16 c.payload.rows 4) : s.clockCell f c = s.countFeed f .badClock := if_pos h

theorem clockCell_unused (h : field16 c.payload.rows 4 ≤ 999) (hs : s.time.source ≠ some f) : s.clockCell f c = s := by
  simp [State.clockCell, Nat.not_lt.mpr h, hs]

/-- The offset that a clock cell gives, held to 840 minutes either way (R29). -/
def clockOffset (c : Cell) : Int := max (-840) (min 840 (half c.payload.rows 6).toInt)

/-- The time unit once it is set, or has stepped, by a clock cell (R29, R32). -/
def State.timeSet (c : Cell) (s : State) : State :=
  { s with time := { s.time with
    offset := clockOffset c, sec := word c.payload.rows 0, ms := field16 c.payload.rows 4, slew := 0, state := .disciplined,
    silence := some 10000 } }

theorem clockCell_unset (h : field16 c.payload.rows 4 ≤ 999) (hs : s.time.source = some f) (hu : s.time.state = .unset) :
    s.clockCell f c = (s.timeSet c).deliver timeNews := by
  unfold State.clockCell
  dsimp only
  rw [if_neg (Nat.not_lt.mpr h), if_neg (by simp [hs]), if_pos hu]
  rfl

/-- What a comparison does in DISCIPLINED or FREE (R30 to R32). -/
def State.timeAct (c : Cell) (s : State) : ClockAct → State
  | .slew d => { s with time := { s.time with offset := clockOffset c, slew := d, state := .disciplined, silence := some 10000 } }
  | .forwardStep => (s.timeSet c).deliver (timeNews ++ markNews (word c.payload.rows 0))
  | .backwardStep => (s.timeSet c).deliver timeNews

theorem clockCell_compared (h : field16 c.payload.rows 4 ≤ 999) (hs : s.time.source = some f) (hu : s.time.state ≠ .unset) :
    s.clockCell f c = s.timeAct c (s.time.compare (word c.payload.rows 0) (field16 c.payload.rows 4)) := by
  have same : TimeUnit.compare { s.time with offset := clockOffset c } (word c.payload.rows 0) (field16 c.payload.rows 4) =
      s.time.compare (word c.payload.rows 0) (field16 c.payload.rows 4) := rfl
  rw [← same]
  unfold State.clockCell
  dsimp only
  rw [if_neg (Nat.not_lt.mpr h), if_neg (by simp [hs]), if_neg hu]
  show _ = s.timeAct c (TimeUnit.compare { s.time with offset := clampOffset _ } _ _)
  generalize TimeUnit.compare _ _ _ = act
  cases act <;> rfl

end

/-! ## The comparison (R30) -/

section
variable {t : TimeUnit} {sec : Word} {m : Nat}

/-- The milliseconds between a clock cell and network time. -/
def TimeUnit.apart (t : TimeUnit) (sec : Word) (m : Nat) : Int := secondsApart sec t.sec * 1000 + ((m : Int) - t.ms)

theorem compare_forward (h : 2000000 < secondsApart sec t.sec ∨ -2000000 ≤ secondsApart sec t.sec ∧ 2000 < t.apart sec m) :
    t.compare sec m = .forwardStep := by
  unfold TimeUnit.apart at h
  unfold TimeUnit.compare
  dsimp only
  split
  · rfl
  · rw [if_neg (by omega), if_pos (by omega)]

theorem compare_backward
    (h : secondsApart sec t.sec < -2000000 ∨ secondsApart sec t.sec ≤ 2000000 ∧ t.apart sec m < -2000) :
    t.compare sec m = .backwardStep := by
  unfold TimeUnit.apart at h
  unfold TimeUnit.compare
  dsimp only
  rw [if_neg (by omega)]
  split
  · rfl
  · rw [if_neg (by omega), if_pos (by omega)]

theorem compare_slew (h : -2000000 ≤ secondsApart sec t.sec ∧ secondsApart sec t.sec ≤ 2000000 ∧
    -2000 ≤ t.apart sec m ∧ t.apart sec m ≤ 2000) : t.compare sec m = .slew (t.apart sec m) := by
  unfold TimeUnit.apart at h ⊢
  unfold TimeUnit.compare
  dsimp only
  rw [if_neg (by omega), if_neg (by omega), if_neg (by omega), if_neg (by omega)]

end

/-! ## The state after a delivery -/

/-- A delivery leaves all but what its takers hold: the entitlements, the current events, the profiles, and the cells sent and free choices made. -/
theorem DeliveryFrame.settled {s t : State} (h : DeliveryFrame s t) (access : AccessUnit) (table : access.table = t.access.table)
    (parental : ParentalUnit) (profiles : parental.profiles = t.parental.profiles) :
    Settled { s with
      access := access, guide := { s.guide with current := t.guide.current }, parental := parental
      sent := t.sent, freeCount := t.freeCount, script := t.script } t where
  feeds := h.feeds
  flows := h.flows
  time := h.time
  services := h.services
  halted := h.halted
  changes := h.changes
  acquireTime := h.acquireTime
  keys := h.keys
  table := table.symm
  guide := by
    dsimp only
    rw [← h.events, ← h.slots, ← h.register, ← h.counters]
  profiles := profiles.symm
  command := h.command
  arriving := h.arriving
  forwardDrops := h.forwardDrops
  enabled := h.enabled
  snapshots := h.snapshots
  resetPin := h.resetPin
  sent := rfl
  freeCount := rfl
  script := rfl
  pending := h.pending

/-- Verdicts formed from a state are formed from another with the same destinations and last reports. -/
theorem VerdictsFormed.of_same {s u t : State} (h : VerdictsFormed u t) (ctl : u.ctl = s.ctl) (access : u.access = s.access) :
    VerdictsFormed s t := by
  have dest (d : DestId) : u.dest d = s.dest d := congrArg (fun x : Controller => x.dests.read d) ctl
  have last (d : DestId) : u.lastAccess d = s.lastAccess d := congrArg (fun x : AccessUnit => x.last.read d) access
  intro d i live service
  obtain ⟨formed, stands⟩ := h d i (dest d ▸ live) (dest d ▸ service)
  exact ⟨⟨formed.last, fun agree => formed.report (last d ▸ dest d ▸ agree)⟩, fun view => stands (dest d ▸ view)⟩

/-- What time set and a step in either direction both do. -/
theorem deliver_timeNews_verdictsFormed (more : List Announcement) (h : ∀ a ∈ more, a.reports = false) (s : State) :
    VerdictsFormed s (s.deliver (timeNews ++ more)) := by
  refine deliver_verdictsFormed ⟨.accessTime, by simp [timeNews], rfl⟩ (fun _ => ⟨.parentalTime, by simp [timeNews], rfl⟩) fun a ha => ?_
  rcases List.mem_append.mp ha with ha | ha
  · simp only [timeNews, List.mem_cons, List.not_mem_nil, or_false] at ha
    rcases ha with rfl | rfl | rfl <;> rfl
  · exact h a ha

theorem timeNews_unmarked : ∀ a ∈ timeNews, a.marks = false := by decide

theorem markNews_unreported (t : Word) : ∀ a ∈ markNews t, a.reports = false := by simp [markNews, Announcement.reports]

/-- The expiry sweep is one of the announcements of a forward step. -/
theorem forwardStep_sweptAt (t : Word) (s : State) : SweptAt t s.access.table (s.deliver (timeNews ++ markNews t)).access.table :=
  deliver_sweptAt (by simp [timeNews, markNews]) (by simp [timeNews, markNews]) s

section
variable {s : State} {f : FeedId} {c : Cell} {k : Fin 256} {e : FlowEntry} {t : State}

theorem PassesCheck.time (h : PassesCheck s f c k e t) : t.time = s.time := by cases h <;> rfl
theorem PassesCheck.access (h : PassesCheck s f c k e t) : t.access = s.access := by cases h <;> rfl
theorem PassesCheck.parental (h : PassesCheck s f c k e t) : t.parental = s.parental := by cases h <;> rfl
theorem PassesCheck.sent (h : PassesCheck s f c k e t) : t.sent = s.sent := by cases h <;> rfl

end

/-- Settles O18: the comparison chooses the announcements, and a delivery of them forms the verdicts in whatever order they are taken. -/
theorem clockCell : Obligations.ClockCell := by
  intro s f c k e checked taken kind
  extract_lets b sec m offset apart d counted small
  have run : exec (.feedCellArrival f c) s = .next (counted.clockCell f c) := by rw [taken.exec, dispose_clock kind]
  have time : counted.time = s.time := taken.passes.time
  have access : counted.access = s.access := taken.passes.access
  have parental : counted.parental = s.parental := taken.passes.parental
  have sent : counted.sent = s.sent := taken.passes.sent
  have ctl : counted.ctl = s.ctl := taken.passes.ctl
  clear_value counted
  refine ⟨fun bad => ?_, fun good unused => ?_, fun good source set close => ?_, fun good source stepped => ?_⟩
  · rw [run, clockCell_bad bad]
  · rw [run, clockCell_unused good (time ▸ unused)]
  · rw [run, clockCell_compared good (time ▸ source) (time ▸ set), compare_slew (time ▸ close), State.timeAct, time]
    rfl
  · have unit : counted.timeSet c = { counted with time := { s.time with
        offset := offset, sec := sec, ms := m, slew := 0, state := .disciplined, silence := some 10000 } } := by
      rw [State.timeSet, time]
      rfl
    have formed (more : List Announcement) (h : ∀ a ∈ more, a.reports = false) :
        VerdictsFormed s ((counted.timeSet c).deliver (timeNews ++ more)) :=
      (deliver_timeNews_verdictsFormed more h _).of_same ctl access
    by_cases forward : s.time.state ≠ .unset ∧ (2000000 < apart ∨ -2000000 ≤ apart ∧ 2000 < d)
    · obtain ⟨set, ahead⟩ := forward
      refine ⟨(counted.timeSet c).deliver (timeNews ++ markNews sec), ?_, formed _ (markNews_unreported sec), ?_, ?_, ?_⟩
      · rw [run, clockCell_compared good (time ▸ source) (time ▸ set), compare_forward (time ▸ ahead)]
        rfl
      · rintro (unset | behind)
        · exact absurd unset set
        · omega
      · intro _ _
        have swept := forwardStep_sweptAt sec (counted.timeSet c)
        rw [← access]
        exact swept
      · have settled := (deliver_frame (timeNews ++ markNews sec) (counted.timeSet c)).settled
        rw [unit] at settled ⊢
        exact settled { s.access with table := _ } rfl { s.parental with profiles := _ } rfl
    · have tables := deliver_tablesKept timeNews_unmarked (counted.timeSet c)
      refine ⟨(counted.timeSet c).deliver timeNews, ?_, formed [] (by simp), ?_, ?_, ?_⟩
      · rw [run]
        by_cases set : s.time.state = .unset
        · rw [clockCell_unset good (time ▸ source) (time ▸ set)]
        · have behind : apart < -2000000 ∨ apart ≤ 2000000 ∧ d < -2000 := by
            have far := stepped.resolve_left set
            have short := not_and.mp forward set
            dsimp only [small] at far
            omega
          rw [clockCell_compared good (time ▸ source) (time ▸ set), compare_backward (time ▸ behind)]
          rfl
      · intro _
        exact ⟨tables.table.trans (access ▸ rfl), tables.profiles.trans (parental ▸ rfl), tables.sent.trans sent⟩
      · intro set ahead
        exact absurd ⟨set, ahead⟩ forward
      · have settled := (deliver_frame timeNews (counted.timeSet c)).settled
        rw [unit] at settled ⊢
        exact settled { s.access with table := _ } rfl { s.parental with profiles := _ } rfl

end Sys2Proof.Machine
end

