-- ==== Sys2Proof/Proofs/Signals.lean ====
section
/-! SUPPORT. What the blocks do at the attention unit and the outbound queue: they raise sources of their cause, withdraw sources and
offer forwarded cells, and touch neither otherwise (R169, R173). Stated once for every event, and for every order but the three that write the
attention unit themselves; an invariant of the attention unit and the host link then needs one case for each of these moves. -/

namespace Sys2Proof.Machine

/-! ## The moves -/

/-- From `s` to `t` the attention unit and the host link have seen nothing but sources raised and withdrawn, and cells forwarded. -/
inductive Signals (s : State) : State → Prop where
  | refl : Signals s s
  | raise {t : State} (h : Signals s t) {c : Cause} {x : Byte} (admitted : c.admits x.toNat = true) (y : Byte) : Signals s (t.raise c x y)
  | withdraw {t : State} (h : Signals s t) (c : Cause) (x : Byte) : Signals s (t.withdraw c x)
  | forward {t : State} (h : Signals s t) (c : Cell) : Signals s (t.offerForward c)
  | elsewhere {t u : State} (h : Signals s t) (attention : u.attention = t.attention) (link : u.link = t.link) : Signals s u

namespace Signals

variable {s t u : State}

/-- Work that leaves the attention unit and the host link. -/
theorem still (attention : t.attention = s.attention) (link : t.link = s.link) : Signals s t :=
  .elsewhere .refl attention link

/-- Work before that leaves the attention unit and the host link. -/
theorem behind (h : Signals t u) (attention : t.attention = s.attention) (link : t.link = s.link) : Signals s u := by
  have before : Signals s t := .still attention link
  induction h with
  | refl => exact before
  | raise _ admitted y ih => exact ih.raise admitted y
  | withdraw _ c x ih => exact ih.withdraw c x
  | forward _ c ih => exact ih.forward c
  | elsewhere _ attention link ih => exact ih.elsewhere attention link

theorem trans (a : Signals s t) (b : Signals t u) : Signals s u := by
  induction b with
  | refl => exact a
  | raise _ admitted y ih => exact ih.raise admitted y
  | withdraw _ c x ih => exact ih.withdraw c x
  | forward _ c ih => exact ih.forward c
  | elsewhere _ attention link ih => exact ih.elsewhere attention link

theorem ite {c : Prop} [Decidable c] (a : Signals s t) (b : Signals s u) : Signals s (if c then t else u) := by
  split
  · exact a
  · exact b

theorem eachDest {f : DestId → State → State} (h : ∀ d s, Signals s (f d s)) (s : State) : Signals s (s.eachDest f) :=
  foldl_chain (R := Signals) (fun _ => .refl) trans (fun s d => h d s) _ s

end Signals

theorem admits_dest {c : Cause} (h : c = .hold ∨ c = .accessLapse ∨ c = .stall) (d : DestId) : c.admits (sourceByte d).toNat = true := by
  rcases h with rfl | rfl | rfl <;> simp [Cause.admits]

theorem admits_port (p : PortId) : Cause.port.admits (sourceByte p).toNat = true := by simp [Cause.admits]

theorem admits_eight {c : Cause} (h : c = .feedLapse ∨ c = .allowance) (x : Fin 8) : c.admits (sourceByte x).toNat = true := by
  rcases h with rfl | rfl <;> simp [Cause.admits]

/-! ## The destination controller and the ports -/

theorem setDest_signals (d : DestId) (x : Dest) (s : State) : Signals s (s.setDest d x) := .still rfl rfl

theorem setPort_signals (p : PortId) (x : Port) (s : State) : Signals s (s.setPort p x) := .still rfl rfl

theorem completionTest_signals (d : DestId) (s : State) : Signals s (s.completionTest d) := by
  unfold State.completionTest
  dsimp only
  split
  · exact .still rfl rfl
  · exact .withdraw (setDest_signals d _ s) _ _
  · exact .still rfl rfl
  · exact .refl

theorem enterAcquiring_signals (d : DestId) (s : State) : Signals s (s.enterAcquiring d) :=
  .behind (completionTest_signals d _) rfl rfl

theorem purgeDest_signals (d : DestId) (n : Bool) (s : State) : Signals s (s.purgeDest d n) := .still rfl rfl

theorem leaveDelivering_signals (d : DestId) (n : DestState) (s : State) : Signals s (s.leaveDelivering d n) :=
  .trans (.ite (.withdraw (setDest_signals d _ s) _ _) (setDest_signals d _ s)) (purgeDest_signals d false _)

theorem moveTo_signals (d : DestId) (n : DestState) (s : State) : Signals s (s.moveTo d n) :=
  .ite .refl (.ite (enterAcquiring_signals d s) (.ite (leaveDelivering_signals d n s) (.still rfl rfl)))

theorem evaluate_signals (d : DestId) (s : State) : Signals s (s.evaluate d) :=
  .ite .refl (.behind (moveTo_signals d _ _) rfl rfl)

theorem evaluateAfresh_signals (d : DestId) (s : State) : Signals s (s.evaluateAfresh d) := .behind (moveTo_signals d _ _) rfl rfl

theorem evaluatePort_signals (p : PortId) (s : State) : Signals s (s.evaluatePort p) :=
  .eachDest (fun d u => .ite (evaluate_signals d u) .refl) s

theorem announceHalt_signals (p : PortId) (b : Bool) (s : State) : Signals s (s.announceHalt p b) :=
  .behind (evaluatePort_signals p _) rfl rfl

theorem keyCommitted_signals (k : Fin 32) (s : State) : Signals s (s.keyCommitted k) :=
  .eachDest (fun d u => .ite ((setDest_signals d _ u).trans (evaluate_signals d _)) .refl) s

theorem sendPort_signals (p : PortId) (c : Option Cell) (s : State) : Signals s (s.sendPort p c) := by
  cases c <;> exact .still rfl rfl

theorem acceptCell_signals (p : PortId) (c : Cell) (s : State) : Signals s (s.acceptCell p c) := .behind (sendPort_signals p _ _) rfl rfl

theorem emitPort_signals (p : PortId) (s : State) : Signals s (s.emitPort p) := .behind (sendPort_signals p _ _) rfl rfl

theorem offerCopy_signals (p : PortId) (c : Cell) (s : State) : Signals s (s.offerCopy p c) :=
  .ite (acceptCell_signals p c s) (.ite (.trans (.raise (setPort_signals p _ s) (admits_port p) 0) (announceHalt_signals p true _)) .refl)

theorem offerNotice_signals (p : PortId) (c : Cell) (s : State) : Signals s (s.offerNotice p c) := .ite (acceptCell_signals p c s) .refl

theorem fanOne_signals (k : Fin 256) (e : Programme) (c : Cell) (d : DestId) (s : State) : Signals s (s.fanOne k e c d) := by
  have offered (x : Dest) (b : Bool) (p : PortId) (r : Cell) : Signals s (((s.setDest d x).countCopy d b).offerCopy p r) :=
    .behind (offerCopy_signals p r _) rfl rfl
  unfold State.fanOne
  exact .ite (.ite (.ite ((offered _ _ _ _).trans (completionTest_signals _ _)) (offered _ _ _ _)) (.still rfl rfl)) .refl

theorem unkeyedOne_signals (e : Programme) (d : DestId) (s : State) : Signals s (s.unkeyedOne e d) :=
  .ite (.ite (.behind (evaluate_signals d _) rfl rfl) (.still rfl rfl)) .refl

theorem programmeCell_signals (k : Fin 256) (e : Programme) (c : Cell) (s : State) : Signals s (s.programmeCell k e c) := by
  unfold State.programmeCell
  split
  · exact .eachDest (fun d u => fanOne_signals k e c d u) s
  · exact .eachDest (fun d u => fanOne_signals k e _ d u) s
  · exact .eachDest (fun d u => unkeyedOne_signals e d u) s

theorem entryChanged_signals (k : Fin 256) (s : State) : Signals s (s.entryChanged k) := by
  unfold State.entryChanged
  exact .behind (.eachDest (fun d u => .ite (completionTest_signals d u) .refl) _) rfl rfl

theorem announceEntry_signals (k : Fin 256) (s : State) : Signals s (s.announceEntry k) :=
  .behind (entryChanged_signals k _) rfl rfl

theorem notices_signals (s : State) : Signals s s.notices :=
  .eachDest (fun d u => .ite ((setDest_signals d _ u).trans (offerNotice_signals _ _ _)) .refl) s

/-! ## The parental unit -/

theorem setViewer_signals (d : DestId) (x : Viewer) (s : State) : Signals s (s.setViewer d x) := .still rfl rfl

theorem openHold_signals (d : DestId) (s : State) : Signals s (s.openHold d) := .raise (setViewer_signals d _ s) (admits_dest (.inl rfl) d) _

theorem endHold_signals (d : DestId) (c : HoldCondition) (s : State) : Signals s (s.endHold d c) :=
  .ite (.withdraw (setViewer_signals d _ s) _ _) (setViewer_signals d _ s)

theorem holdRule_signals (d : DestId) (s : State) : Signals s (s.holdRule d) := by
  unfold State.holdRule
  dsimp only
  split
  · exact .refl
  · split
    · split
      · exact endHold_signals d _ s
      · exact .ite (openHold_signals d s) .refl
    · exact endHold_signals d _ s

theorem clearMemory_signals (d : DestId) (s : State) : Signals s (s.clearMemory d) := .ite (.still rfl rfl) .refl

theorem reportStored_signals (d : DestId) (s : State) : Signals s (s.reportStored d) := by
  unfold State.reportStored
  dsimp only
  split
  · exact .refl
  · exact .ite (.still rfl rfl) (.still rfl rfl)

theorem reportHanded_signals (d : DestId) (s : State) : Signals s (s.reportHanded d) :=
  .ite ((reportStored_signals d s).trans (evaluate_signals d _)) (reportStored_signals d s)

theorem formVerdict_signals (d : DestId) (s : State) : Signals s (s.formVerdict d) := by
  unfold State.formVerdict
  dsimp only
  split
  · exact .refl
  · exact .behind (holdRule_signals d _) rfl rfl

theorem formAndReport_signals (d : DestId) (s : State) : Signals s (s.formAndReport d) :=
  (formVerdict_signals d s).trans (.ite .refl (reportHanded_signals d _))

theorem formEach_signals (want : Dest → Bool) (s : State) : Signals s (s.formEach want) :=
  .eachDest (fun d u => .ite (formAndReport_signals d u) .refl) s

theorem placeBar_signals (d : DestId) (s : State) : Signals s (s.placeBar d) :=
  ((endHold_signals d _ s).trans (setViewer_signals d _ _)).trans (reportStored_signals d _)

theorem liftBar_signals (d : DestId) (s : State) : Signals s (s.liftBar d) :=
  ((setViewer_signals d _ s).trans (holdRule_signals d _)).trans (reportStored_signals d _)

theorem parentalChange_signals (d : DestId) (s : State) : Signals s (s.parentalChange d) :=
  (((endHold_signals d _ s).trans (setViewer_signals d _ _)).trans (formVerdict_signals d _)).trans (reportStored_signals d _)

theorem parentalRetry_signals (d : DestId) (s : State) : Signals s (s.parentalRetry d) :=
  ((clearMemory_signals d s).trans (formVerdict_signals d _)).trans (reportStored_signals d _)

theorem setProfile_signals (p : Fin 8) (x : Profile) (s : State) : Signals s (s.setProfile p x) := .still rfl rfl

theorem chargeOne_signals (p : Fin 8) (s : State) : Signals s (s.chargeOne p) := by
  unfold State.chargeOne
  dsimp only
  split
  · exact .refl
  · exact .ite (.ite (.raise (setProfile_signals p _ s) (admits_eight (.inr rfl) p) 0) (.still rfl rfl)) .refl

theorem charge_signals (s : State) : Signals s s.charge :=
  foldl_chain (R := Signals) (fun _ => .refl) Signals.trans (fun s p => chargeOne_signals p s) _ s

theorem parentalMark_signals (t : Word) (s : State) : Signals s (s.parentalMark t) := by
  have refilled : Signals s (s.refill t) := .still rfl rfl
  have spent (u : State) : Signals u (u.spendUnlocks t) := .still rfl rfl
  rw [parentalMark_eq]
  exact ((refilled.trans (charge_signals _)).trans (spent _)).trans (formEach_signals _ _)

theorem eventForgotten_signals (i : Fin 64) (s : State) : Signals s (s.eventForgotten i) :=
  .eachDest (fun d u => .ite ((clearMemory_signals d u).trans (setViewer_signals d _ _)) .refl) s

theorem parentalEventChange_signals (i : Fin 64) (s : State) : Signals s (s.parentalEventChange i) :=
  parentalEventChange_eq i s ▸ (eventForgotten_signals i s).trans (formEach_signals _ _)

/-! ## Access reports and selections -/

theorem settleBar_signals (d : DestId) (o : Option AccessVerdict) (v : AccessVerdict) (s : State) : Signals s (s.settleBar d o v) :=
  .ite .refl (.ite (placeBar_signals d s) (.ite (liftBar_signals d s) .refl))

theorem accessLapse_signals (d : DestId) (o : Option AccessVerdict) (v : AccessVerdict) (s : State) : Signals s (s.accessLapse d o v) :=
  .ite (.raise .refl (admits_dest (.inr (.inl rfl)) d) 0) .refl

theorem takeAccessReport_signals (d : DestId) (v : AccessVerdict) (s : State) : Signals s (s.takeAccessReport d v) :=
  .ite .refl ((((setDest_signals d _ s).trans (settleBar_signals d _ v _)).trans (accessLapse_signals d _ v _)).trans (evaluate_signals d _))

theorem setLastAccess_signals (d : DestId) (v : Option AccessVerdict) (s : State) : Signals s (s.setLastAccess d v) := .still rfl rfl

theorem storeLast_signals (l : List (DestId × AccessVerdict)) (s : State) : Signals s (s.storeLast l) :=
  foldl_chain (R := Signals) (fun _ => .refl) Signals.trans (fun u (r : DestId × AccessVerdict) => setLastAccess_signals r.1 _ u) l s

theorem formAccessNow_signals (want : Dest → Bool) (s : State) : Signals s (s.formAccessNow want) :=
  (storeLast_signals _ s).trans
    (foldl_chain (R := Signals) (fun _ => .refl) Signals.trans (fun s (r : DestId × AccessVerdict) => takeAccessReport_signals r.1 r.2 s) _ _)

theorem barAtChange_signals (d : DestId) (v : AccessVerdict) (s : State) : Signals s (s.barAtChange d v) :=
  .ite .refl (.ite (placeBar_signals d s) (.ite (liftBar_signals d s) .refl))

theorem tellChange_signals (d : DestId) (s : State) : Signals s (s.tellChange d) := by
  unfold State.tellChange
  split
  · exact parentalChange_signals d s
  · exact .still rfl rfl

theorem tellRetry_signals (d : DestId) (s : State) : Signals s (s.tellRetry d) := by
  unfold State.tellRetry
  split
  · exact parentalRetry_signals d s
  · exact .refl

theorem withdrawStall_signals (d : DestId) (s : State) : Signals s (s.withdrawStall d) := .ite (.withdraw .refl _ _) .refl

theorem applyChange_signals (d : DestId) (i : Fin 64) (s : State) : Signals s (s.applyChange d i) := by
  have cleared : Signals s ((s.clearAway d i).markSelected d) :=
    .trans ((purgeDest_signals d true s).trans (withdrawStall_signals d _)) (.still rfl rfl)
  unfold State.applyChange
  dsimp only
  refine Signals.trans ?_ (evaluateAfresh_signals d _)
  refine Signals.trans ?_ (tellChange_signals d _)
  exact cleared.trans (.behind (barAtChange_signals d _ _) rfl rfl)

theorem applyRetry_signals (d : DestId) (i : Fin 64) (s : State) : Signals s (s.applyRetry d i) := by
  unfold State.applyRetry
  dsimp only
  refine Signals.trans ?_ (evaluate_signals d _)
  refine Signals.trans ?_ (tellRetry_signals d _)
  exact .behind (settleBar_signals d _ _ _) rfl rfl

theorem applySelection_signals (d : DestId) (i : Fin 64) (s : State) : Signals s (s.applySelection d i) := by
  unfold State.applySelection
  split
  · exact applyChange_signals d i s
  · exact .refl
  · exact applyRetry_signals d i s

theorem applyAll_signals (l : List (DestId × Fin 64)) (s : State) : Signals s (s.applyAll l) :=
  foldl_chain (R := Signals) (fun _ => .refl) Signals.trans (fun s (e : DestId × Fin 64) => applySelection_signals e.1 e.2 s) l s

theorem releaseDest_signals (d : DestId) (s : State) : Signals s (s.releaseDest d) := by
  have purged : Signals s (s.fullPurge d) := .ite .refl (purgeDest_signals d true s)
  have told (x : Dest) : Signals s (((((s.fullPurge d).withdrawStall d).setDest d x).setLastAccess d none).parentalRelease d) :=
    ((((purged.trans (withdrawStall_signals d _)).trans (setDest_signals d x _)).trans (setLastAccess_signals d none _)).trans
      (endHold_signals d .none _)).trans (setViewer_signals d _ _)
  have vacated (u : State) (l : List (DestId × Fin 64)) (x : Dest) : Signals u ((u.setChanges l).setDest d x) := .still rfl rfl
  unfold State.releaseDest
  exact (told _).trans (vacated _ _ _)

/-! ## The guide builder and the announcements -/

theorem countGuide_signals (f : GuideCounters → GuideCounters) (s : State) : Signals s (s.countGuide f) := .still rfl rfl

theorem insert_signals (w : Applying) (e : EventRecord) : Signals w.state (w.insert e).state := by
  unfold Applying.insert
  dsimp only
  split
  · exact .still rfl rfl
  · have full : Signals w.state ((w.state.countGuide fun c => { c with evictions := c.evictions + 1 }).raise .guideFull 255 0) :=
      .raise (countGuide_signals _ _) rfl 0
    split <;> exact full.trans (.still rfl rfl)

theorem applySection_signals (b : List Byte) (s : State) : Signals s (s.applySection b).state := by
  have inserted (l : List EventRecord) (w : Applying) (h : Signals s w.state) : Signals s (l.foldl Applying.insert w).state :=
    List.foldlRecOn (motive := fun w : Applying => Signals s w.state) _ _ h fun w h e _ => h.trans (insert_signals w e)
  exact inserted _ _ (.still rfl rfl)

theorem takeSection_signals (b : List Byte) (s : State) : Signals s (s.takeSection b).state := by
  unfold State.takeSection
  dsimp only
  split
  · split
    · exact .still rfl rfl
    · exact .behind (applySection_signals b _) rfl rfl
  · split
    · exact .behind (applySection_signals b _) rfl rfl
    · exact .raise (countGuide_signals _ s) rfl 0

theorem checkSection_signals (b : List Byte) (s : State) : Signals s (s.checkSection b).state := by
  unfold State.checkSection
  dsimp only
  split
  · exact .still rfl rfl
  · split
    · exact .still rfl rfl
    · exact takeSection_signals b s

theorem guideCell_signals (k : Fin 256) (f : FeedId) (c : Cell) (s : State) : Signals s (s.guideCell k f c).state := by
  unfold State.guideCell State.beginSection State.continueSection
  dsimp only
  split
  · split
    · exact .still rfl rfl
    · split
      · exact .behind (checkSection_signals _ _) rfl rfl
      · split <;> exact .still rfl rfl
  · split
    · exact .refl
    · split
      · exact .refl
      · split
        · exact .still rfl rfl
        · split
          · exact .still rfl rfl
          · exact .behind (checkSection_signals _ _) rfl rfl

theorem take_signals (a : Announcement) (s : State) : Signals s (a.take s).1 := by
  cases a <;> dsimp only [Announcement.take]
  case guideTime | guideMark => exact .still rfl rfl
  case accessTime | accessChange c => exact storeLast_signals _ s
  case accessMark t => exact .behind (storeLast_signals _ (s.sweep t)) rfl rfl
  case parentalTime => exact formEach_signals _ s
  case parentalMark t => exact parentalMark_signals t s
  case controllerMark => exact notices_signals s
  case parentalChange c => exact parentalEventChange_signals c.index s
  case accessReport d v => exact takeAccessReport_signals d v s

theorem deliver_signals (l : List Announcement) (s : State) : Signals s (s.deliver l) :=
  deliver_induct (Inv := fun _ t => Signals s t)
    ⟨fun _ _ _ _ h => h.elsewhere rfl rfl, fun _ a _ t _ h => h.trans (take_signals a t)⟩ .refl

theorem finish_signals (w : Applying) : Signals w.state w.finish := .behind (deliver_signals _ _) rfl rfl

/-! ## The events -/

theorem clockCell_signals (f : FeedId) (c : Cell) (s : State) : Signals s (s.clockCell f c) := by
  unfold State.clockCell
  dsimp only
  refine .ite (.still rfl rfl) (.ite .refl (.ite (.behind (deliver_signals _ _) rfl rfl) ?_))
  split
  · exact .still rfl rfl
  · exact .behind (deliver_signals _ _) rfl rfl
  · exact .behind (deliver_signals _ _) rfl rfl

theorem countFeed_signals (f : FeedId) (x : FeedTally) (s : State) : Signals s (s.countFeed f x) := .still rfl rfl

theorem dispose_signals (k : Fin 256) (e : FlowEntry) (f : FeedId) (c : Cell) (s : State) : Signals s (s.dispose k e f c) := by
  unfold State.dispose
  split
  · exact .behind (programmeCell_signals k _ c _) rfl rfl
  · exact .forward (countFeed_signals f .forwarded s) _
  · exact ((countFeed_signals f .consumed s).trans (guideCell_signals k f c _)).trans (finish_signals _)
  · exact .behind (clockCell_signals f c _) rfl rfl
  · exact .still rfl rfl

theorem screen_signals (f : FeedId) (c : Cell) (s : State) : Signals s (s.screen f c) := by
  unfold State.screen State.classify
  refine .ite (.still rfl rfl) (.ite (.still rfl rfl) ?_)
  split
  · exact .still rfl rfl
  · split
    · exact dispose_signals _ _ f c s
    · exact .behind (dispose_signals _ _ f c _) rfl rfl
    · exact .still rfl rfl
    · exact .behind (dispose_signals _ _ f c _) rfl rfl

theorem setFeed_signals (f : FeedId) (x : Feed) (s : State) : Signals s (s.setFeed f x) := .still rfl rfl

theorem enterLapsed_signals (f : FeedId) (s : State) : Signals s (s.enterLapsed f) :=
  .elsewhere (.raise (setFeed_signals f _ s) (admits_eight (.inl rfl) f) 0) rfl rfl

theorem lockedWellFormed_signals (f : FeedId) (c : Cell) (s : State) : Signals s (s.lockedWellFormed f c) :=
  .behind (screen_signals f c _) rfl rfl

theorem seekingWellFormed_signals (f : FeedId) (c : Cell) (s : State) : Signals s (s.seekingWellFormed f c) :=
  .ite (.still rfl rfl) (.behind (lockedWellFormed_signals f c _) rfl rfl)

theorem arrival_signals (f : FeedId) (c : Cell) (s : State) : Signals s (s.arrival f c) := by
  have malformed : Signals s ((s.countFeed f .arrived).lockedMalformed f) := .ite (.behind (enterLapsed_signals f _) rfl rfl) (.still rfl rfl)
  unfold State.arrival
  split
  · exact .refl
  · exact .ite (.behind (seekingWellFormed_signals f c _) rfl rfl) (.still rfl rfl)
  · exact .ite (.behind (seekingWellFormed_signals f c _) rfl rfl) (.still rfl rfl)
  · exact .ite (.behind (lockedWellFormed_signals f c _) rfl rfl) malformed

theorem tick_signals (s : State) : Signals s s.tick :=
  .ite (.still rfl rfl) (.ite (.behind (deliver_signals _ _) rfl rfl) (.still rfl rfl))

/-! ## The orders -/

/-- The orders that write the attention unit's masks, snapshots or pending sets themselves. -/
def writesAttention : Order → Bool
  | .setAttentionMask | .snapshotTallies | .resetPart => true
  | _ => false

theorem serviceChanged_signals (i : Fin 64) (s : State) : Signals s (s.serviceChanged i) :=
  have recomputed : Signals s (s.recompute fun j => j == i).1 := .still rfl rfl
  (recomputed.trans (formAccessNow_signals _ _)).trans (deliver_signals _ _)

theorem setFlow_announceEntry_signals (k : Fin 256) (e : Option FlowEntry) (s : State) : Signals s ((s.setFlow k e).announceEntry k) :=
  .behind (announceEntry_signals k _) rfl rfl

theorem orderSetFlow_signals (b : List Byte) (s : State) : Signals s (orderSetFlow b s).state := by
  unfold orderSetFlow
  split
  · dsimp only [Answer.done]
    exact setFlow_announceEntry_signals _ _ s
  · exact .refl

theorem orderClearFlow_signals (b : List Byte) (s : State) : Signals s (orderClearFlow b s).state := by
  unfold orderClearFlow
  split
  · exact .refl
  · dsimp only [Answer.done]
    exact setFlow_announceEntry_signals _ _ s

theorem orderSetService_signals (b : List Byte) (s : State) : Signals s (orderSetService b s).state := by
  have changed (i : Fin 64) (v : Option Service) : Signals s ((s.setService i v).serviceChanged i) :=
    .behind (serviceChanged_signals i _) rfl rfl
  unfold orderSetService
  dsimp only
  repeat' split
  · exact .refl
  · exact .refl
  · exact .refl
  · exact .refl
  · exact changed _ _

theorem orderClearService_signals (b : List Byte) (s : State) : Signals s (orderClearService b s).state := by
  unfold orderClearService
  repeat' split
  · exact .refl
  · exact .refl
  · next i _ _ => exact .behind (serviceChanged_signals i _) rfl rfl

theorem orderSelect_signals (b : List Byte) (s : State) : Signals s (orderSelect b s).state := by
  unfold orderSelect
  repeat' split
  · exact .refl
  · exact .refl
  · exact .still rfl rfl
  · exact applySelection_signals _ _ s
  · exact .refl

theorem orderTake_signals (b : List Byte) (s : State) : Signals s (orderTake b s).state :=
  (applyAll_signals _ s).elsewhere rfl rfl

theorem orderRelease_signals (b : List Byte) (s : State) : Signals s (orderRelease b s).state := by
  unfold orderRelease
  split
  · exact .refl
  · exact releaseDest_signals _ s

theorem orderLoadKeyQuarter_signals (b : List Byte) (s : State) : Signals s (orderLoadKeyQuarter b s).state := by
  have committed (k : Fin 32) (x : KeySlot) : Signals s ((s.setKeySlot k x).keyCommitted k) :=
    .behind (keyCommitted_signals k _) rfl rfl
  unfold orderLoadKeyQuarter
  dsimp only
  repeat' split
  · dsimp only [Answer.done]
    exact committed _ _
  · exact .still rfl rfl
  · exact .refl

theorem orderGrantEntitlement_signals (b : List Byte) (s : State) : Signals s (orderGrantEntitlement b s).state := by
  have stored (i : Fin 48) (e : Entitlement) (x : Byte) : Signals s (storeEntitlement i e x s).state :=
    .behind (formAccessNow_signals _ _) rfl rfl
  unfold orderGrantEntitlement
  dsimp only
  repeat' split
  · exact .refl
  · exact .refl
  · exact stored _ _ _
  · exact stored _ _ _
  · exact .refl

theorem orderRevokeEntitlement_signals (b : List Byte) (s : State) : Signals s (orderRevokeEntitlement b s).state := by
  unfold orderRevokeEntitlement
  repeat' split
  · exact .refl
  · exact .refl
  · next i _ => exact .behind (formAccessNow_signals _ _) rfl rfl

theorem orderPurgeGuide_signals (b : List Byte) (s : State) : Signals s (orderPurgeGuide b s).state :=
  .behind (.behind (deliver_signals _ _) rfl rfl) rfl rfl

theorem formProfile_signals (p : Fin 8) (x : Profile) (s : State) : Signals s ((s.setProfile p x).formProfile p) :=
  .behind (formEach_signals _ _) rfl rfl

theorem orderSetProfile_signals (b : List Byte) (s : State) : Signals s (orderSetProfile b s).state := by
  unfold orderSetProfile
  dsimp only
  repeat' split
  · exact .refl
  · dsimp only [Answer.done]
    exact formProfile_signals _ _ s
  · exact .refl

theorem orderAddAllowance_signals (b : List Byte) (s : State) : Signals s (orderAddAllowance b s).state := by
  unfold orderAddAllowance
  dsimp only
  repeat' split
  · exact .refl
  · exact .refl
  · dsimp only [Answer.done]
    exact formProfile_signals _ _ s

theorem orderGrantUnlock_signals (b : List Byte) (s : State) : Signals s (orderGrantUnlock b s).state := by
  unfold orderGrantUnlock
  dsimp only
  split
  · next d u _ _ =>
    have installed : Signals s (s.installUnlock d u) := setViewer_signals d _ s
    exact .ite ((installed.trans (clearMemory_signals d _)).trans (formAndReport_signals d _)) installed
  · exact .refl

theorem orderResolveHold_signals (b : List Byte) (s : State) : Signals s (orderResolveHold b s).state := by
  unfold orderResolveHold
  dsimp only
  repeat' split
  · exact .refl
  · exact .refl
  · exact .refl
  · exact .refl
  · exact (setViewer_signals _ _ s).trans (formAndReport_signals _ _)
  · exact (endHold_signals _ _ s).trans (reportHanded_signals _ _)

theorem setPort_announceHalt_signals (p : PortId) (x : Port) (h : Bool) (s : State) : Signals s ((s.setPort p x).announceHalt p h) :=
  .behind (announceHalt_signals p h _) rfl rfl

theorem orderPortStop_signals (b : List Byte) (s : State) : Signals s (orderPortStop b s).state := by
  unfold orderPortStop
  dsimp only
  split
  · exact .refl
  · exact .ite (setPort_announceHalt_signals _ _ _ s) (.still rfl rfl)

theorem orderPortClear_signals (b : List Byte) (s : State) : Signals s (orderPortClear b s).state := by
  unfold orderPortClear
  dsimp only
  split
  · exact .refl
  · split
    · dsimp only [Answer.done]
      exact setPort_announceHalt_signals _ _ _ s
    · exact .still rfl rfl
    · exact .still rfl rfl

theorem orderAckAttention_signals (b : List Byte) (s : State) : Signals s (orderAckAttention b s).state := by
  unfold orderAckAttention
  dsimp only
  repeat' split
  · exact .refl
  · exact .refl
  · exact .refl
  · exact .withdraw .refl _ _

/-- An order does nothing else at the attention unit and the host link, unless it is one that writes the attention unit. -/
theorem runOrder_signals {o : Order} (h : writesAttention o = false) (b : List Byte) (s : State) : Signals s (runOrder o b s).state := by
  cases o with
  | setAttentionMask | snapshotTallies | resetPart => cases h
  | readTime | readChanges | readGuide | readIdentity => exact .refl
  | discardChanges | setAcquireTime => exact .still rfl rfl
  | readFeed | readFlow | readService | readDestination | readKeyState | readEntitlement | readProfile | readParental | readPort =>
    simp only [runOrder, orderReadFeed, orderReadFlow, orderReadService, orderReadDestination, orderReadKeyState, orderReadEntitlement,
      orderReadProfile, orderReadParental, orderReadPort]
    split <;> exact .refl
  | queryEvent => exact .still (by rw [runOrder, orderQueryEvent_state]) (by rw [runOrder, orderQueryEvent_state])
  | queryNext => exact .still (by rw [runOrder, orderQueryNext_state]) (by rw [runOrder, orderQueryNext_state])
  | feedEnable | feedDisable | feedConfigure | setTimeSource | bindDestination | setCommitMask | clearKey | portConfigure | portStart =>
    simp only [runOrder, orderFeedEnable, orderFeedDisable, orderFeedConfigure, orderSetTimeSource, orderBindDestination, orderSetCommitMask,
      orderClearKey, orderPortConfigure, orderPortStart]
    repeat' split
    all_goals exact .still rfl rfl
  | setFlow => exact orderSetFlow_signals b s
  | clearFlow => exact orderClearFlow_signals b s
  | setService => exact orderSetService_signals b s
  | clearService => exact orderClearService_signals b s
  | select => exact orderSelect_signals b s
  | take => exact orderTake_signals b s
  | release => exact orderRelease_signals b s
  | loadKeyQuarter => exact orderLoadKeyQuarter_signals b s
  | grantEntitlement => exact orderGrantEntitlement_signals b s
  | revokeEntitlement => exact orderRevokeEntitlement_signals b s
  | purgeGuide => exact orderPurgeGuide_signals b s
  | setProfile => exact orderSetProfile_signals b s
  | addAllowance => exact orderAddAllowance_signals b s
  | grantUnlock => exact orderGrantUnlock_signals b s
  | resolveHold => exact orderResolveHold_signals b s
  | portStop => exact orderPortStop_signals b s
  | portClear => exact orderPortClear_signals b s
  | ackAttention => exact orderAckAttention_signals b s

end Sys2Proof.Machine
end

