-- ==== Sys2Proof/Proofs/Bounds.lean ====
section
/-! SUPPORT. The bounds that every step keeps of the attention unit, the outbound queue and the cells held off (R161, R168, R170, R173, R177): what each
command signals, and one case for each kind of command. -/

namespace Sys2Proof.Machine

/-! ## What each event signals -/

theorem feedSilence_signals (f : FeedId) (s : State) : Signals s (s.feedSilence f) := .ite (enterLapsed_signals f s) .refl

theorem sourceSilence_signals (s : State) : Signals s s.sourceSilence := by
  have freed : Signals s { s with time := { s.time with state := .free, silence := none } } := .still rfl rfl
  exact .ite (.raise freed rfl 0) .refl

theorem acquisitionExpires_signals (d : DestId) (s : State) : Signals s (s.acquisitionExpires d) :=
  .ite (.raise (setDest_signals d _ s) (admits_dest (.inr (.inr rfl)) d) 0) .refl

theorem holdExpires_signals (d : DestId) (s : State) : Signals s (s.holdExpires d) :=
  .ite ((endHold_signals d _ s).trans (reportHanded_signals d _)) .refl

theorem drain_signals (p : PortId) (s : State) : Signals s (s.drain p) := by
  unfold State.drain
  dsimp only
  split
  · exact .refl
  · exact .ite (emitPort_signals p s) (setPort_signals p _ s)

theorem slot_signals (p : PortId) (b : Bool) (s : State) : Signals s (s.slot p b) := by
  unfold State.slot
  dsimp only
  refine .ite ?_ .refl
  split
  · exact emitPort_signals p s
  · exact .ite ((setPort_signals p _ s).trans (sendPort_signals p (some fillCell) _)) .refl

theorem drainWatch_signals (p : PortId) (s : State) : Signals s (s.drainWatch p) := .ite (.raise (setPort_signals p _ s) (admits_port p) 0) .refl

/-- Every command does one of these things to the part. -/
inductive Moved (s : State) : State → Prop where
  | signals {t : State} (h : Signals s t) : Moved s t
  | commandCell (c : Cell) : Moved s (s.commandCell c)
  | emission : Moved s s.emission
  | order (r : OrderRecord) : Moved s (s.takeOrder r)
  | asserted : Moved s s.assertReset
  | released : Moved s s.powerOn

theorem guarded_moved {f : State → State} {s t : State} (h : Moved s (f s)) (e : guarded f s = .next t) : Moved s t := by
  unfold guarded at e
  split at e <;> cases e
  · exact .signals .refl
  · exact h

theorem exec_moved {c : Instr} {s t : State} (e : exec c s = .next t) : Moved s t := by
  cases hr : c.record with
  | some r =>
    rcases exec_record hr s with g | g <;> rw [g] at e
    · exact guarded_moved (.order r) e
    · cases e
      exact .signals .refl
  | none =>
    cases c with
    | feedCellArrival f c => exact guarded_moved (.signals (arrival_signals f c s)) e
    | silenceTimerExpiry f => exact guarded_moved (.signals (feedSilence_signals f s)) e
    | timebaseTick => exact guarded_moved (.signals (tick_signals s)) e
    | sourceSilenceTimerExpiry => exact guarded_moved (.signals (sourceSilence_signals s)) e
    | acquisitionTimerExpiry d => exact guarded_moved (.signals (acquisitionExpires_signals d s)) e
    | holdTimerExpiry d => exact guarded_moved (.signals (holdExpires_signals d s)) e
    | drain p => exact guarded_moved (.signals (drain_signals p s)) e
    | slotTimerExpiry p b => exact guarded_moved (.signals (slot_signals p b s)) e
    | drainWatchExpiry p => exact guarded_moved (.signals (drainWatch_signals p s)) e
    | commandCell c => exact guarded_moved (.commandCell c) e
    | emission => exact guarded_moved .emission e
    | resetAssert =>
      cases e
      exact .asserted
    | resetRelease =>
      cases e
      exact .released
    | _ => cases hr

/-- What each command keeps, and what does not speak of the commands that wait, every step keeps. -/
theorem keptByStep_of_moved {P : State → Prop} (pending : ∀ s l, P s → P { s with pending := l })
    (moved : ∀ {s t}, Moved s t → P s → P t) : KeptByStep P := by
  intro s t h e
  unfold step at e
  split at e
  · cases e
    exact h
  · exact moved (exec_moved e) (pending s _ h)

/-! ## Invariants of the attention unit -/

/-- The attention unit after a source has joined a pending set (R173). -/
def Attention.joined (c : Cause) (p : Pending) (a : Attention) : Attention :=
  a.setCause c { a.cause c with pending := joinPending p (a.cause c).pending }

/-- The attention unit after a source has left a pending set (R173). -/
def Attention.left (c : Cause) (x : Byte) (a : Attention) : Attention :=
  a.setCause c { a.cause c with pending := (a.cause c).pending.filter (·.source != x) }

/-- What makes `Q` an invariant of the attention unit: each move of the blocks keeps it, and so does each order that writes the unit. -/
structure KeptByAttention (Q : Attention → Prop) : Prop where
  presented : ∀ {a} p, Q a → Q { a with presented := p }
  joined : ∀ {a c x} y, c.admits x.toNat = true → Q a → Q (a.joined c ⟨x, y⟩)
  left : ∀ {a} c x, Q a → Q (a.left c x)
  masked : ∀ {a} c e, Q a → Q (a.setCause c { a.cause c with enabled := e })
  latched : ∀ {s : State} g, Q s.attention → Q { s.attention with snapshots := s.attention.snapshots.write g (s.groupTallies g) }
  traffic : ∀ {a}, Q a → Q a.trafficReset
  reset : Q .reset

namespace KeptByAttention

variable {Q : Attention → Prop} {s t : State}

theorem signals (k : KeptByAttention Q) (h : Signals s t) (q : Q s.attention) : Q t.attention := by
  induction h with
  | refl => exact q
  | raise _ admitted y ih => exact k.presented _ (k.joined y admitted ih)
  | withdraw _ c x ih => exact k.presented _ (k.left c x ih)
  | forward _ c ih =>
    unfold State.offerForward
    split
    · exact ih
    · exact k.presented _ (k.joined 0 (c := .forwardDrop) rfl ih)
  | elsewhere _ attention _ ih => exact attention ▸ ih

theorem order (k : KeptByAttention Q) (o : Order) (b : List Byte) (q : Q s.attention) : Q (runOrder o b s).state.attention := by
  cases h : writesAttention o with
  | false => exact k.signals (runOrder_signals h b s) q
  | true =>
    cases o with
    | setAttentionMask =>
      simp only [runOrder, orderSetAttentionMask]
      repeat' split
      · exact q
      · exact q
      · exact k.presented _ (k.masked _ _ q)
    | snapshotTallies =>
      simp only [runOrder, orderSnapshotTallies]
      split
      · exact q
      · exact k.latched _ q
    | resetPart =>
      simp only [runOrder, orderResetPart]
      split
      · exact k.reset
      · exact k.traffic q
      · exact q
    | _ => cases h

theorem keptByCommands (k : KeptByAttention Q) : KeptByCommands fun s => Q s.attention where
  link _ _ q := q
  pending _ _ q := q
  sendHost _ _ q := q
  arrival f c s := k.signals (arrival_signals f c s)
  feedSilence f s := k.signals (feedSilence_signals f s)
  tick s := k.signals (tick_signals s)
  sourceSilence s := k.signals (sourceSilence_signals s)
  acquisitionExpires d s := k.signals (acquisitionExpires_signals d s)
  holdExpires d s := k.signals (holdExpires_signals d s)
  drain p s := k.signals (drain_signals p s)
  slot p b s := k.signals (slot_signals p b s)
  drainWatch p s := k.signals (drainWatch_signals p s)
  order o b _ := k.order o b
  assertReset _ q := q
  powerOn _ _ := k.reset

end KeptByAttention

/-! ### The snapshots (R177) -/

/-- As many tallies stand in a group as its snapshot holds after a reset (11.3). -/
theorem groupTallies_length (s : State) (g : Fin 25) : (s.groupTallies g).length = (zeroSnapshot g.val).length := by
  rcases Nat.lt_or_ge g.val 8 with feed | feed
  · simp [State.groupTallies, zeroSnapshot, feed, FeedTallies.list]
  · rcases Nat.lt_or_ge g.val 20 with dest | dest
    · have place : g.val - 8 < 12 := by omega
      simp [State.groupTallies, zeroSnapshot, feed, place, dest, DestTallies.list, Nat.not_lt.mpr feed]
    · have past : 12 ≤ g.val - 8 := by omega
      rcases Nat.lt_or_ge g.val 24 with port | port
      · have place : g.val - 20 < 4 := by omega
        simp [State.groupTallies, zeroSnapshot, feed, past, place, port, Nat.not_lt.mpr feed, Nat.not_lt.mpr dest]
      · have beyond : 4 ≤ g.val - 20 := by omega
        simp [State.groupTallies, zeroSnapshot, feed, past, beyond, Nat.not_lt.mpr feed, Nat.not_lt.mpr dest, Nat.not_lt.mpr port]

theorem snapshotsReset_read (g : Fin 25) : snapshotsReset.read g = zeroSnapshot g.val := by simp [snapshotsReset, Table.read]

theorem snapshots_kept : KeptByAttention fun a => ∀ g : Fin 25, (a.snapshots.read g).length = (zeroSnapshot g.val).length where
  presented _ q := q
  joined _ _ q := q
  left _ _ q := q
  masked _ _ q := q
  latched {s} g q i := by
    rw [Table.read_write]
    split
    · next h => rw [h, groupTallies_length]
    · exact q i
  traffic q := q
  reset g := by rw [Attention.reset, snapshotsReset_read]

/-! ### The pending sets (R173) -/

/-- A pending set in order, of sources of cause `c` alone. -/
def PendingOrdered (c : Cause) (l : List Pending) : Prop :=
  l.Pairwise (fun p q => p.source.toNat < q.source.toNat) ∧ ∀ p ∈ l, c.admits p.source.toNat = true

theorem mem_joinPending {p q : Pending} {l : List Pending} (h : q ∈ joinPending p l) : q = p ∨ q ∈ l := by
  induction l with
  | nil => exact .inl (List.mem_singleton.mp h)
  | cons r l ih =>
    unfold joinPending at h
    split at h
    · exact List.mem_cons.mp h
    · split at h
      · exact (List.mem_cons.mp h).imp_right (List.mem_cons_of_mem r)
      · rcases List.mem_cons.mp h with rfl | h
        · exact .inr List.mem_cons_self
        · exact (ih h).imp_right (List.mem_cons_of_mem r)

/-- A source joins in its place (R173). -/
theorem joinPending_pairwise (p : Pending) {l : List Pending} (h : l.Pairwise fun p q => p.source.toNat < q.source.toNat) :
    (joinPending p l).Pairwise fun p q => p.source.toNat < q.source.toNat := by
  induction l with
  | nil => exact List.pairwise_singleton _ _
  | cons r l ih =>
    obtain ⟨behind, rest⟩ := List.pairwise_cons.mp h
    unfold joinPending
    split
    · next before =>
      refine List.pairwise_cons.mpr ⟨?_, h⟩
      intro q hq
      rcases List.mem_cons.mp hq with rfl | hq
      · exact before
      · exact before.trans (behind q hq)
    · split
      · next same => exact List.pairwise_cons.mpr ⟨fun q hq => same ▸ behind q hq, rest⟩
      · next after differs =>
        refine List.pairwise_cons.mpr ⟨?_, ih rest⟩
        intro q hq
        rcases mem_joinPending hq with rfl | hq
        · have apart : r.source.toNat ≠ q.source.toNat := fun e => differs (BitVec.eq_of_toNat_eq e.symm)
          omega
        · exact behind q hq

/-- One cause's set replaced by a lawful one. -/
theorem setCause_ordered {a : Attention} {c : Cause} {x : CauseState} (h : ∀ e, PendingOrdered e (a.cause e).pending)
    (hx : PendingOrdered c x.pending) (e : Cause) : PendingOrdered e ((a.setCause c x).cause e).pending := by
  rw [setCause_cause]
  split
  · next he => exact he ▸ hx
  · exact h e

theorem pendingOrdered_nil (c : Cause) : PendingOrdered c [] := ⟨.nil, fun _ h => by cases h⟩

theorem pending_kept : KeptByAttention fun a => ∀ c, PendingOrdered c (a.cause c).pending where
  presented _ q := q
  joined {a c x} y admitted q := by
    refine setCause_ordered q ⟨joinPending_pairwise _ (q c).1, fun p hp => ?_⟩
    rcases mem_joinPending hp with rfl | hp
    · exact admitted
    · exact (q c).2 p hp
  left c x q := setCause_ordered q ⟨(q c).1.filter _, fun p hp => (q c).2 p (List.mem_filter.mp hp).1⟩
  masked c _ q := setCause_ordered q (q c)
  latched _ q := q
  traffic {a} _ c := by
    rw [Attention.trafficReset, Attention.cause, Table.read_map]
    exact pendingOrdered_nil c
  reset c := by
    rw [Attention.reset, Attention.cause, Table.read_filled]
    exact pendingOrdered_nil c

/-! ## The outbound queue (R168) -/

/-- The outbound queue keeps its bounds. -/
def HostLink.Bounded (l : HostLink) : Prop := l.outbound.length ≤ 24 ∧ l.forwardedCount ≤ 16

section
variable {l m : HostLink} {c : Cell}

theorem forwardedCount_report (e : m.outbound = l.outbound ++ [.report c]) : m.forwardedCount = l.forwardedCount := by
  rw [HostLink.forwardedCount, e, List.countP_append]
  rfl

theorem forwardedCount_forwarded (e : m.outbound = l.outbound ++ [.forwarded c]) : m.forwardedCount = l.forwardedCount + 1 := by
  rw [HostLink.forwardedCount, e, List.countP_append]
  rfl

end

namespace HostLink.Bounded

variable {l m : HostLink}

/-- A report cell takes a free place. -/
theorem report (h : l.Bounded) (free : l.free ≠ 0) {c : Cell} (e : m.outbound = l.outbound ++ [.report c]) : m.Bounded := by
  refine ⟨?_, (forwardedCount_report e).trans_le h.2⟩
  rw [e, List.length_append, List.length_singleton]
  unfold HostLink.free at free
  omega

/-- Cells leave. -/
theorem sublist (h : l.Bounded) (e : m.outbound.Sublist l.outbound) : m.Bounded := ⟨e.length_le.trans h.1, e.countP_le.trans h.2⟩

theorem ite {c : Prop} [Decidable c] (a : l.Bounded) (b : m.Bounded) : (if c then l else m).Bounded := by
  split
  · exact a
  · exact b

theorem closeRecords (h : l.Bounded) (b : List Byte) : (l.closeRecords b).Bounded := by
  unfold HostLink.closeRecords
  dsimp only
  split
  · next free => exact h.report (by simpa using (Bool.and_eq_true_iff.mp free).2) rfl
  · exact h

theorem closeFilling (h : l.Bounded) : l.closeFilling.Bounded := by
  unfold HostLink.closeFilling
  split
  · exact h
  · exact (show HostLink.Bounded { l with filling := none } from h).closeRecords _

theorem placeRecord (h : l.Bounded) (b : List Byte) : (l.placeRecord b).Bounded := .ite h h.closeFilling

theorem notify (h : l.Bounded) (r : Option AttentionRecord) : (l.notify r).Bounded := by
  cases r with
  | none => exact h
  | some r =>
    unfold HostLink.notify HostLink.placeAttention
    dsimp only
    split
    · exact h
    · split
      · exact .ite (h.placeRecord _) h
      · split
        · next free => exact h.report (by simpa using free) rfl
        · exact h

theorem endCell (h : l.Bounded) : l.endCell.Bounded := HostLink.Bounded.closeFilling (l := { l with command := none }) h

theorem settle (h : l.Bounded) (n : Nat) : (l.settle n).Bounded := by
  induction n generalizing l with
  | zero => exact h
  | succ n ih =>
    unfold HostLink.settle
    split
    · exact h
    · next c _ =>
      refine .ite h ?_
      split
      · exact h.endCell
      · exact (h.placeRecord _).endCell
      · next r _ => exact .ite (ih (HostLink.Bounded.placeRecord (l := { l with command := some (c.advance r) }) h _)) h

theorem takeArriving (h : l.Bounded) (cs : List Cell) : (l.takeArriving cs).Bounded := by
  induction cs generalizing l with
  | nil => exact h
  | cons c cs ih => exact .ite (ih (.ite (HostLink.Bounded.settle (l := l.install c) h 47) h)) h

theorem queueWaiting (h : l.Bounded) : l.queueWaiting.Bounded := by
  unfold HostLink.queueWaiting
  split
  · exact h
  · split
    · exact h
    · next free => exact h.report free rfl

theorem makeRoom (h : l.Bounded) (c : CommandCell) : (l.makeRoom c).Bounded := .ite h.closeFilling h

theorem placeWaiting (h : l.Bounded) : l.placeWaiting.Bounded := by
  unfold HostLink.placeWaiting
  split
  · exact h
  · refine .ite h ?_
    split
    · next free => exact h.report (by simpa using free) rfl
    · exact h

end HostLink.Bounded

theorem Signals.bounded {s t : State} (h : Signals s t) (b : s.link.Bounded) : t.link.Bounded := by
  induction h with
  | refl => exact b
  | raise _ _ _ ih | withdraw _ _ _ ih => exact ih.notify _
  | forward _ c ih =>
    unfold State.offerForward
    split
    · next room =>
      simp only [Bool.and_eq_true, decide_eq_true_eq, bne_iff_ne, ne_eq, HostLink.free] at room
      obtain ⟨few, free⟩ := room
      refine ⟨?_, (forwardedCount_forwarded rfl).trans_le few⟩
      rw [List.length_append, List.length_singleton]
      omega
    · next t _ _ => exact HostLink.Bounded.notify (l := { t.link with forwardDrops := t.link.forwardDrops + 1 }) ih _
  | elsewhere _ _ link ih => exact link ▸ ih

theorem runOrder_bounded (o : Order) (b : List Byte) {s : State} (h : s.link.Bounded) : (runOrder o b s).state.link.Bounded := by
  cases w : writesAttention o with
  | false => exact (runOrder_signals w b s).bounded h
  | true =>
    cases o with
    | setAttentionMask =>
      simp only [runOrder, orderSetAttentionMask]
      repeat' split
      · exact h
      · exact h
      · exact h.notify _
    | snapshotTallies =>
      simp only [runOrder, orderSnapshotTallies]
      split <;> exact h
    | resetPart =>
      simp only [runOrder, orderResetPart]
      split
      · exact h.sublist List.filter_sublist
      · exact h
      · exact h
    | _ => cases w

theorem runRecord_bounded (r : OrderRecord) {s : State} (h : s.link.Bounded) : (s.runRecord r).link.Bounded := by
  have carried (u : State) (h : u.link.Bounded) : (carryOut r u).state.link.Bounded := by
    unfold carryOut
    split
    · exact h
    · split
      · exact h
      · exact runOrder_bounded _ _ h
  have answered := (carried { s with link := { s.link with command := s.link.command.map (CommandCell.advance r) } } h).placeRecord
  exact HostLink.Bounded.settle (answered _) 47

theorem takeOrder_bounded (r : OrderRecord) {s : State} (h : s.link.Bounded) : (s.takeOrder r).link.Bounded := by
  unfold State.takeOrder
  split
  · split
    · exact (runRecord_bounded r h).takeArriving _
    · exact h
  · split
    · exact (runRecord_bounded r (s := { s with link := s.link.install (builtCell 16382 true 0 0 r.bytes) }) h).takeArriving _
    · exact h

theorem resume_bounded (before : HostLink) {s : State} (h : s.link.Bounded) : (s.resume before).link.Bounded := by
  unfold State.resume
  split
  · exact h
  · next c _ =>
    split
    · have room := h.makeRoom c
      unfold State.takeNext
      split
      · exact runRecord_bounded _ room
      · exact room.settle 47
    · exact h

theorem emission_bounded {s : State} (h : s.link.Bounded) : s.emission.link.Bounded := by
  unfold State.emission
  split
  · exact h
  · next c rest out =>
    have left : HostLink.Bounded { s.link with outbound := rest } := h.sublist (out ▸ List.sublist_cons_self c rest)
    exact ((resume_bounded s.link (s := State.send _ { s with link := _ }) left.queueWaiting).placeWaiting).takeArriving _

theorem Moved.bounded {s t : State} (m : Moved s t) (h : s.link.Bounded) : t.link.Bounded := by
  cases m with
  | signals m => exact m.bounded h
  | commandCell c => exact HostLink.Bounded.takeArriving (l := { s.link with arriving := s.link.arriving ++ [c] }) h _
  | emission => exact emission_bounded h
  | order r => exact takeOrder_bounded r h
  | asserted | released => exact ⟨Nat.zero_le _, Nat.zero_le _⟩

/-! ## Cells held off (R161, R170) -/

/-- What the link takes, it takes until the intake is not OPEN or no cell is held off. -/
theorem takeArriving_lawful (cs : List Cell) (l : HostLink) : (l.takeArriving cs).intake = .opened → (l.takeArriving cs).arriving = [] := by
  induction cs generalizing l with
  | nil => exact fun _ => rfl
  | cons c cs ih =>
    unfold HostLink.takeArriving
    split
    · exact ih _
    · next shut => exact fun h => absurd h shut

theorem letIn_lawful (s : State) : HeldOffLawful s.letIn := takeArriving_lawful _ _

theorem intake_opened {l : HostLink} : l.intake = .opened ↔ l.command = none ∧ l.waiting = [] ∧ l.outbound.length ≤ 22 := by
  unfold HostLink.intake HostLink.free
  cases hc : l.command <;> cases hw : l.waiting <;> simp
  omega

/-- No attention record opens the intake. -/
theorem notify_opened {r : Option AttentionRecord} {l : HostLink} (h : (l.notify r).intake = .opened) : l.intake = .opened := by
  cases r with
  | none => exact h
  | some r =>
    have command := (notify_kept (some r) l).1
    rw [intake_opened] at h ⊢
    obtain ⟨idle, waiting, places⟩ := h
    rw [command] at idle
    unfold HostLink.notify HostLink.placeAttention at waiting places
    simp only [idle, Option.isSome_none, Bool.false_eq_true, if_false] at waiting places
    refine ⟨idle, ?_⟩
    split at waiting
    · exact ⟨waiting, by simp_all⟩
    · split at waiting <;> simp_all [HostLink.ownReport]
      omega

theorem raise_opened {c : Cause} {x y : Byte} {s : State} (h : (s.raise c x y).link.intake = .opened) : s.link.intake = .opened :=
  notify_opened h

theorem Signals.heldOff {s t : State} (h : Signals s t) (b : HeldOffLawful s) : HeldOffLawful t := by
  induction h with
  | refl => exact b
  | raise _ _ _ ih | withdraw _ _ _ ih => exact fun opened => (notify_kept _ _).2.1.trans (ih (notify_opened opened))
  | forward _ c ih =>
    unfold State.offerForward
    split
    · intro opened
      refine ih (intake_opened.mpr ?_)
      obtain ⟨command, waiting, places⟩ := intake_opened.mp opened
      refine ⟨command, waiting, ?_⟩
      simp only [List.length_append, List.length_singleton] at places
      omega
    · next t _ _ =>
      intro opened
      exact (notify_kept _ _).2.1.trans
        (ih (raise_opened (s := { t with link := { t.link with forwardDrops := t.link.forwardDrops + 1 } }) opened))
  | elsewhere _ _ link ih =>
    unfold HeldOffLawful at *
    rw [link]
    exact ih

theorem Moved.heldOff {s t : State} (m : Moved s t) (h : HeldOffLawful s) : HeldOffLawful t := by
  cases m with
  | signals m => exact m.heldOff h
  | commandCell c => exact letIn_lawful _
  | emission =>
    unfold State.emission
    split
    · exact h
    · exact letIn_lawful _
  | order r =>
    unfold State.takeOrder
    split
    · split
      · exact letIn_lawful _
      · exact h
    · split
      · exact letIn_lawful _
      · exact h
  | asserted | released => exact fun _ => rfl

end Sys2Proof.Machine
end

