-- ==== Sys2Proof/Proofs/TimeUnit.lean ====
section
/-! SUPPORT. The time unit (R24, R25): its ranges, and which commands write it or the key slots. -/

namespace Sys2Proof.Machine

/-! ## The ranges of the time unit -/

section
variable {t : TimeUnit}

theorem compare_slew_bounds {sec : Word} {m : Nat} {d : Int} (h : t.compare sec m = .slew d) : -2000 ≤ d ∧ d ≤ 2000 := by
  unfold TimeUnit.compare at h
  dsimp only at h
  split at h
  · cases h
  · split at h
    · cases h
    · split at h
      · cases h
      · split at h
        · cases h
        · cases h
          omega

theorem clampOffset_bounds (x : Int) : -840 ≤ clampOffset x ∧ clampOffset x ≤ 840 := by
  unfold clampOffset
  omega

/-- Another offset in its range. -/
theorem sound_offset (h : t.sound) (x : Int) : TimeUnit.sound { t with offset := clampOffset x } := by
  obtain ⟨ms, low, high, -, -, unset, runs⟩ := h
  exact ⟨ms, low, high, (clampOffset_bounds x).1, (clampOffset_bounds x).2, unset, runs⟩

theorem sound_setTo (h : t.sound) {m : Nat} (hm : m ≤ 999) (sec : Word) : (t.setTo sec m).sound := by
  obtain ⟨-, -, -, west, east, -, -⟩ := h
  exact ⟨hm, by simp [TimeUnit.setTo], by simp [TimeUnit.setTo], west, east, nofun, iff_of_true rfl rfl⟩

theorem sound_slew (h : t.sound) {d : Int} (low : -2000 ≤ d) (high : d ≤ 2000) :
    TimeUnit.sound { t with slew := d, state := .disciplined, silence := some 10000 } := by
  obtain ⟨ms, -, -, west, east, -, -⟩ := h
  exact ⟨ms, low, high, west, east, nofun, iff_of_true rfl rfl⟩

theorem sound_free (h : t.sound) : TimeUnit.sound { t with state := .free, silence := none } := by
  obtain ⟨ms, low, high, west, east, -, -⟩ := h
  exact ⟨ms, low, high, west, east, nofun, iff_of_false nofun nofun⟩

theorem sound_source (h : t.sound) (f : Option FeedId) : TimeUnit.sound { t with source := f } := h

theorem sound_nameSource (h : t.sound) (f : Option FeedId) : (t.nameSource f).sound := by
  unfold TimeUnit.nameSource
  split
  · exact h
  · split
    · exact sound_free (sound_source h f)
    · exact sound_source h f

theorem sound_ticked (h : t.sound) : TimeUnit.sound { t with silence := Timer.tick t.silence } := by
  obtain ⟨ms, low, high, west, east, unset, runs⟩ := h
  refine ⟨ms, low, high, west, east, unset, ?_⟩
  rw [← runs]
  simp [Timer.tick]

theorem slewAfter_bounds {p : Int} (low : -2000 ≤ p) (high : p ≤ 2000) : -2000 ≤ slewAfter p ∧ slewAfter p ≤ 2000 := by
  unfold slewAfter
  repeat' split
  all_goals omega

theorem slewStep_le (p : Int) : slewStep p ≤ 2 := by
  unfold slewStep
  repeat' split
  all_goals decide

theorem sound_advance (h : t.sound) (set : t.state ≠ .unset) : t.advance.sound := by
  obtain ⟨ms, low, high, west, east, -, runs⟩ := h
  obtain ⟨low, high⟩ := slewAfter_bounds low high
  have step := slewStep_le t.slew
  unfold TimeUnit.advance
  dsimp only
  split
  · exact ⟨by dsimp only; omega, low, high, west, east, fun unset => absurd unset set, runs⟩
  · exact ⟨by dsimp only; omega, low, high, west, east, fun unset => absurd unset set, runs⟩

end

/-! ## The events -/

theorem tick_sound {s : State} (h : s.time.sound) : s.tick.time.sound := by
  have ticked : s.runTimers.time.sound := sound_ticked h
  unfold State.tick
  dsimp only
  split
  · exact ticked
  · next set =>
    have advanced := sound_advance ticked set
    split
    · rw [(deliver_frame _ _).time]
      exact advanced
    · exact advanced

theorem clockCell_sound (f : FeedId) (c : Cell) {s : State} (h : s.time.sound) : (s.clockCell f c).time.sound := by
  have offset := sound_offset h (half c.payload.rows 6).toInt
  unfold State.clockCell
  dsimp only
  split
  · exact h
  · next good =>
    have set := sound_setTo offset (Nat.not_lt.mp good) (word c.payload.rows 0)
    split
    · exact h
    · split
      · rwa [(deliver_frame _ _).time]
      · split
        · next slewed => exact sound_slew offset (compare_slew_bounds slewed).1 (compare_slew_bounds slewed).2
        · rwa [(deliver_frame _ _).time]
        · rwa [(deliver_frame _ _).time]

/-- From `s` to `t` the key slots stand, and the time unit stands or takes this clock cell. -/
structure ClockAlone (f : FeedId) (c : Cell) (s t : State) : Prop where
  keys : t.keys = s.keys
  time : t.time = s.time ∨ ∃ u : State, u.time = s.time ∧ t.time = (u.clockCell f c).time

section
variable {f : FeedId} {c : Cell} {s t u : State}

theorem ClockAlone.kept (keys : t.keys = s.keys) (time : t.time = s.time) : ClockAlone f c s t := ⟨keys, .inl time⟩

theorem Frame.clockAlone (h : Frame s t) : ClockAlone f c s t := .kept h.keys h.time

theorem ClockAlone.behind (h : ClockAlone f c u t) (keys : u.keys = s.keys) (time : u.time = s.time) : ClockAlone f c s t :=
  ⟨h.keys.trans keys, by rw [← time]; exact h.time⟩

theorem ClockAlone.ite {p : Prop} [Decidable p] (a : ClockAlone f c s t) (b : ClockAlone f c s u) :
    ClockAlone f c s (if p then t else u) := by
  split
  · exact a
  · exact b

end

theorem clockCell_keys (f : FeedId) (c : Cell) (s : State) : (s.clockCell f c).keys = s.keys := by
  unfold State.clockCell
  dsimp only
  split
  · rfl
  · split
    · rfl
    · split
      · rw [(deliver_frame _ _).keys]
      · split
        · rfl
        · rw [(deliver_frame _ _).keys]
        · rw [(deliver_frame _ _).keys]

theorem dispose_clockAlone (k : Fin 256) (e : FlowEntry) (f : FeedId) (c : Cell) (s : State) : ClockAlone f c s (s.dispose k e f c) := by
  unfold State.dispose
  split
  · exact (programmeCell_frame k _ c _).clockAlone.behind (u := s.countFeed f .routed) rfl rfl
  · exact (offerForward_frame _ _).clockAlone.behind (u := s.countFeed f .forwarded) rfl rfl
  · exact ((guideCell_frame k f c _).trans (finish_frame _).toFrame).clockAlone.behind (u := s.countFeed f .consumed) rfl rfl
  · exact ⟨clockCell_keys f c (s.countFeed f .consumed), .inr ⟨s.countFeed f .consumed, rfl, rfl⟩⟩
  · exact .kept rfl rfl

theorem screen_clockAlone (f : FeedId) (c : Cell) (s : State) : ClockAlone f c s (s.screen f c) := by
  unfold State.screen State.classify
  refine .ite (.kept rfl rfl) (.ite (.kept rfl rfl) ?_)
  split
  · exact .kept rfl rfl
  · next k e _ =>
    split
    · exact dispose_clockAlone k e f c s
    · exact (dispose_clockAlone k e f c (s.setLastSeq k e c.seq)).behind rfl rfl
    · exact .kept rfl rfl
    · exact (dispose_clockAlone k e f c (((s.countFeed f .gap).setLastSeq k e c.seq).abandonEntry k)).behind rfl rfl

/-- An arrival leaves the key slots, and the time unit unless it is a clock cell. -/
theorem arrival_clockAlone (f : FeedId) (c : Cell) (s : State) : ClockAlone f c s (s.arrival f c) := by
  have locked (u : State) : ClockAlone f c u (u.lockedWellFormed f c) := (screen_clockAlone f c (u.setFeed f _)).behind rfl rfl
  have seeking (u : State) : ClockAlone f c u (u.seekingWellFormed f c) := .ite (.kept rfl rfl) ((locked (u.setFeed f _)).behind rfl rfl)
  have malformed (u : State) : ClockAlone f c u (u.lockedMalformed f) := .ite (.kept rfl rfl) (.kept rfl rfl)
  unfold State.arrival
  split
  · exact .kept rfl rfl
  · exact .ite ((seeking (s.countFeed f .arrived)).behind rfl rfl) (.kept rfl rfl)
  · exact .ite ((seeking (s.countFeed f .arrived)).behind rfl rfl) (.kept rfl rfl)
  · exact .ite ((locked (s.countFeed f .arrived)).behind rfl rfl) ((malformed (s.countFeed f .arrived)).behind rfl rfl)

theorem ClockAlone.sound {f : FeedId} {c : Cell} {s t : State} (h : ClockAlone f c s t) (q : s.time.sound) : t.time.sound := by
  rcases h.time with same | ⟨u, same, clock⟩
  · rwa [same]
  · rw [clock]
    exact clockCell_sound f c (same ▸ q)

/-! ## The orders -/

theorem reset_sound : TimeUnit.reset.sound := by
  refine ⟨?_, ?_, ?_, ?_, ?_, fun _ => ⟨rfl, rfl⟩, iff_of_false nofun nofun⟩ <;> decide

theorem setFlow_announceEntry_kept (k : Fin 256) (e : Option FlowEntry) (s : State) :
    ((s.setFlow k e).announceEntry k).time = s.time ∧ ((s.setFlow k e).announceEntry k).keys = s.keys :=
  have kept := announceEntry_unitsKept k (s.setFlow k e)
  ⟨kept.time, kept.keys⟩

theorem orderSetFlow_kept (b : List Byte) (s : State) : (orderSetFlow b s).state.time = s.time ∧ (orderSetFlow b s).state.keys = s.keys := by
  unfold orderSetFlow
  split
  · dsimp only [Answer.done]
    exact setFlow_announceEntry_kept _ _ s
  · exact ⟨rfl, rfl⟩

theorem orderClearFlow_kept (b : List Byte) (s : State) :
    (orderClearFlow b s).state.time = s.time ∧ (orderClearFlow b s).state.keys = s.keys := by
  unfold orderClearFlow
  split
  · exact ⟨rfl, rfl⟩
  · dsimp only [Answer.done]
    exact setFlow_announceEntry_kept _ _ s

theorem orderFeed_kept {o : Order} (h : o = .feedEnable ∨ o = .feedDisable ∨ o = .feedConfigure) (b : List Byte) (s : State) :
    (runOrder o b s).state.time = s.time ∧ (runOrder o b s).state.keys = s.keys := by
  rcases h with rfl | rfl | rfl <;> simp only [runOrder, orderFeedEnable, orderFeedDisable, orderFeedConfigure] <;> repeat' split
  all_goals exact ⟨rfl, rfl⟩

theorem orderLoadKeyQuarter_time (b : List Byte) (s : State) : (orderLoadKeyQuarter b s).state.time = s.time := by
  unfold orderLoadKeyQuarter
  dsimp only
  split
  · split
    · dsimp only [Answer.done]
      rw [(keyCommitted_frame _ _).time, setKeySlot_time]
    · rfl
  · rfl

theorem orderSetTimeSource_keys (b : List Byte) (s : State) : (orderSetTimeSource b s).state.keys = s.keys := by
  unfold orderSetTimeSource
  split <;> rfl

/-- Only SET_TIME_SOURCE and RESET_PART write the time unit. -/
theorem runOrder_time {o : Order} (source : o ≠ .setTimeSource) (reset : o ≠ .resetPart) (b : List Byte) (s : State) :
    (runOrder o b s).state.time = s.time := by
  cases w : writesBlock o with
  | false => exact (runOrder_frame w b s).time
  | true =>
    cases o with
    | setTimeSource => exact absurd rfl source
    | resetPart => exact absurd rfl reset
    | feedEnable | feedDisable | feedConfigure => exact (orderFeed_kept (by simp) b s).1
    | setFlow => exact (orderSetFlow_kept b s).1
    | clearFlow => exact (orderClearFlow_kept b s).1
    | loadKeyQuarter => exact orderLoadKeyQuarter_time b s
    | setCommitMask | clearKey =>
      simp only [runOrder, orderSetCommitMask, orderClearKey]
      split <;> rfl
    | _ => cases w

/-- Only the key orders and RESET_PART write the key slots. -/
theorem runOrder_keys {o : Order} (key : o ≠ .loadKeyQuarter ∧ o ≠ .setCommitMask ∧ o ≠ .clearKey) (reset : o ≠ .resetPart) (b : List Byte)
    (s : State) : (runOrder o b s).state.keys = s.keys := by
  obtain ⟨load, mask, clear⟩ := key
  cases w : writesBlock o with
  | false => exact (runOrder_frame w b s).keys
  | true =>
    cases o with
    | loadKeyQuarter => exact absurd rfl load
    | setCommitMask => exact absurd rfl mask
    | clearKey => exact absurd rfl clear
    | resetPart => exact absurd rfl reset
    | feedEnable | feedDisable | feedConfigure => exact (orderFeed_kept (by simp) b s).2
    | setFlow => exact (orderSetFlow_kept b s).2
    | clearFlow => exact (orderClearFlow_kept b s).2
    | setTimeSource => exact orderSetTimeSource_keys b s
    | _ => cases w

theorem runOrder_sound (o : Order) (b : List Byte) {s : State} (h : s.time.sound) : (runOrder o b s).state.time.sound := by
  by_cases source : o = .setTimeSource
  · subst source
    simp only [runOrder, orderSetTimeSource]
    split
    · exact h
    · exact sound_nameSource (sound_offset h _) _
  · by_cases reset : o = .resetPart
    · subst reset
      simp only [runOrder, orderResetPart]
      split
      · exact reset_sound
      · exact h
      · exact h
    · rwa [runOrder_time source reset]

/-! ## The invariants -/

theorem time_sound_keptByCommands : KeptByCommands fun s => s.time.sound where
  link _ _ q := q
  pending _ _ q := q
  sendHost _ _ q := q
  arrival f c s q := (arrival_clockAlone f c s).sound q
  feedSilence f s q := by
    unfold State.feedSilence
    dsimp only
    split <;> exact q
  tick s q := tick_sound q
  sourceSilence s q := by
    unfold State.sourceSilence
    split
    · exact sound_free q
    · exact q
  acquisitionExpires d s q := (acquisitionExpires_frame d s).time ▸ q
  holdExpires d s q := (holdExpires_frame d s).time ▸ q
  drain p s q := (drain_frame p s).time ▸ q
  slot p b s q := (slot_frame p b s).time ▸ q
  drainWatch p s q := (drainWatch_frame p s).time ▸ q
  order o b s := runOrder_sound o b
  assertReset _ q := q
  powerOn _ _ := reset_sound

/-- Settles O52: the attention unit's invariants need its own moves alone; the outbound queue and the cells held off need those of the link; and the
time unit is written by ticks, clock cells, the silence timer and SET_TIME_SOURCE. -/
theorem boundsKept : Obligations.BoundsKept :=
  ⟨⟨keptByStep_of_moved (fun _ _ h => h) fun m => m.bounded, snapshots_kept.keptByCommands.keptByStep,
    pending_kept.keptByCommands.keptByStep, keptByStep_of_moved (fun _ _ h => h) fun m => m.heldOff⟩,
   time_sound_keptByCommands.keptByStep⟩

end Sys2Proof.Machine
end

