-- ==== Sys2Proof/Proofs/Commands.lean ====
section
/-! SUPPORT. Which commands carry out an order, and which of them can bring time back to UNSET or change the key slots (R25, R76, R164, R168). -/

namespace Sys2Proof.Machine

/-! ## Orders carried out -/

/-- From `s` to `t` the time unit and the key slots stand. -/
def TimeAndKeysKept (s t : State) : Prop := t.time = s.time ∧ t.keys = s.keys

/-- Record `r` is that of an order, and `t` has the time unit and the key slots that the order's effect leaves of those of `s` (R163). -/
def CarriedOut (r : OrderRecord) (s t : State) : Prop :=
  ∃ o u, r.code = Order.code o ∧ r.body.length = o.bodyLength ∧ TimeAndKeysKept s u ∧ TimeAndKeysKept (runOrder o r.body u).state t

section
variable {r : OrderRecord} {s t u : State}

theorem CarriedOut.of_same (h : CarriedOut r u t) (same : TimeAndKeysKept s u) : CarriedOut r s t := by
  obtain ⟨o, v, code, length, kept, effect⟩ := h
  exact ⟨o, v, code, length, ⟨kept.1.trans same.1, kept.2.trans same.2⟩, effect⟩

theorem code_of_ofCode {c : Byte} {o : Order} (h : Order.ofCode c = some o) : c = o.code := by
  have found := List.find?_some h
  exact (beq_iff_eq.mp found).symm

/-- A record taken is an order carried out, or changes neither. -/
theorem runRecord_effect (r : OrderRecord) (s : State) : TimeAndKeysKept s (s.runRecord r) ∨ CarriedOut r s (s.runRecord r) := by
  have effect (u : State) : TimeAndKeysKept u (carryOut r u).state ∨ CarriedOut r u (carryOut r u).state := by
    unfold carryOut
    split
    · exact .inl ⟨rfl, rfl⟩
    · next o code =>
      split
      · exact .inl ⟨rfl, rfl⟩
      · next length => exact .inr ⟨o, u, code_of_ofCode code, not_not.mp length, ⟨rfl, rfl⟩, rfl, rfl⟩
  exact effect { s with link := { s.link with command := s.link.command.map (CommandCell.advance r) } }

/-- So is an order commanded. -/
theorem takeOrder_effect (r : OrderRecord) (s : State) : TimeAndKeysKept s (s.takeOrder r) ∨ CarriedOut r s (s.takeOrder r) := by
  unfold State.takeOrder
  split
  · split
    · exact runRecord_effect r s
    · exact .inl ⟨rfl, rfl⟩
  · split
    · exact runRecord_effect r { s with link := s.link.install (builtCell 16382 true 0 0 r.bytes) }
    · exact .inl ⟨rfl, rfl⟩

/-- A command cell that resumes carries out the order that stands next in it, or changes neither (R164). -/
theorem resume_effect (before : HostLink) (s : State) :
    TimeAndKeysKept s (s.resume before) ∨
      ∃ k r, s.link.command = some k ∧ readRecord k.cell.payload k.pos = .whole r ∧ CarriedOut r s (s.resume before) := by
  cases command : s.link.command with
  | none =>
    rw [resume_none command]
    exact .inl ⟨rfl, rfl⟩
  | some k =>
    rcases resume_cases before command with ⟨-, -, taken⟩ | ⟨-, same⟩
    · rw [taken]
      unfold State.takeNext
      split
      · next r read _ =>
        exact (runRecord_effect r { s with link := s.link.makeRoom k }).imp_right fun effect => ⟨k, r, rfl, read, effect⟩
      · exact .inl ⟨rfl, rfl⟩
    · rw [same]
      exact .inl ⟨rfl, rfl⟩

theorem queueWaiting_command (l : HostLink) : l.queueWaiting.command = l.command := by
  unfold HostLink.queueWaiting
  repeat' split
  all_goals rfl

/-- An emission carries out the order with which a suspended command cell resumes, or changes neither (R168). -/
theorem emission_effect (s : State) :
    TimeAndKeysKept s s.emission ∨
      ∃ k r, s.link.command = some k ∧ readRecord k.cell.payload k.pos = .whole r ∧ CarriedOut r s s.emission := by
  unfold State.emission
  split
  · exact .inl ⟨rfl, rfl⟩
  · next c rest _ =>
    refine (resume_effect s.link (State.send (.host c.cell) { s with link := HostLink.queueWaiting { s.link with outbound := rest } })).imp_right ?_
    rintro ⟨k, r, command, read, effect⟩
    exact ⟨k, r, (queueWaiting_command { s.link with outbound := rest }).symm.trans command, read, effect⟩

/-! ## Commands -/

/-- A command with a record is of a code that is no order's, or the own command of the order that the code names. -/
theorem order_of_record {c : Instr} (h : c.record = some r) :
    (∃ code tag body, c = .unknownOrder code tag body) ∨ ∀ o, r.code = Order.code o → c = orderCommand o r.tag r.body := by
  cases c <;> cases h
  case unknownOrder code tag body => exact .inl ⟨code, tag, body, rfl⟩
  all_goals
    refine .inr fun o code => ?_
    have named := congrArg Order.ofCode code
    simp only [ofCode_code, Option.some.injEq] at named
    subst named
    rfl

theorem codeUnknown_code (o : Order) : codeUnknown o.code = false := by simp [codeUnknown]

/-- A command of a code that is no order's changes neither. -/
theorem exec_unknownOrder_kept {code : Byte} {tag : Half} {body : List Byte} (e : exec (.unknownOrder code tag body) s = .next t) :
    TimeAndKeysKept s t := by
  refine guarded_keeps (P := TimeAndKeysKept s) (fun _ => ?_) ⟨rfl, rfl⟩ e
  split
  · next unknown =>
    refine (takeOrder_effect ⟨code, tag, body⟩ s).resolve_right ?_
    rintro ⟨o, -, known, -⟩
    have : code = o.code := known
    rw [this, codeUnknown_code] at unknown
    cases unknown
  · exact ⟨rfl, rfl⟩

/-- From `s` to `t` the key slots stand, and time does not go back to UNSET. -/
structure SetAndKeysKept (s t : State) : Prop where
  set : s.time.state ≠ .unset → t.time.state ≠ .unset
  keys : t.keys = s.keys

theorem TimeAndKeysKept.set (h : TimeAndKeysKept s t) : SetAndKeysKept s t := ⟨fun set => h.1 ▸ set, h.2⟩

theorem Frame.set (h : Frame s t) : SetAndKeysKept s t := ⟨fun set => h.time ▸ set, h.keys⟩

theorem timeAct_set (c : Cell) (act : ClockAct) (s : State) : (s.timeAct c act).time.state ≠ .unset := by
  unfold State.timeAct
  split
  · nofun
  · rw [(deliver_frame _ _).time]
    nofun
  · rw [(deliver_frame _ _).time]
    nofun

theorem clockCell_set (f : FeedId) (c : Cell) (s : State) : SetAndKeysKept s (s.clockCell f c) := by
  refine ⟨fun set => ?_, clockCell_keys f c s⟩
  by_cases good : field16 c.payload.rows 4 ≤ 999
  · by_cases source : s.time.source = some f
    · rw [clockCell_compared good source set]
      exact timeAct_set c _ s
    · rwa [clockCell_unused good source]
  · rwa [clockCell_bad (by omega)]

theorem arrival_set (f : FeedId) (c : Cell) (s : State) : SetAndKeysKept s (s.arrival f c) := by
  have alone := arrival_clockAlone f c s
  refine ⟨fun set => ?_, alone.keys⟩
  rcases alone.time with same | ⟨u, same, clock⟩
  · rwa [same]
  · rw [clock]
    exact (clockCell_set f c u).set (same ▸ set)

theorem tick_set (s : State) : SetAndKeysKept s s.tick := by
  unfold State.tick
  dsimp only
  split
  · exact ⟨id, rfl⟩
  · have advanced : SetAndKeysKept s { s.runTimers with time := s.runTimers.time.advance } := by
      refine ⟨fun set => ?_, rfl⟩
      unfold TimeUnit.advance
      dsimp only
      split <;> exact set
    split
    · have frame := (deliver_frame (markNews s.runTimers.time.advance.sec) { s.runTimers with time := s.runTimers.time.advance }).toFrame
      exact ⟨fun set => frame.time ▸ advanced.set set, frame.keys.trans advanced.keys⟩
    · exact advanced

theorem feedSilence_kept (f : FeedId) (s : State) : TimeAndKeysKept s (s.feedSilence f) := by
  unfold State.feedSilence
  dsimp only
  split <;> exact ⟨rfl, rfl⟩

theorem sourceSilence_set (s : State) : SetAndKeysKept s s.sourceSilence := by
  unfold State.sourceSilence
  split
  · exact ⟨fun _ => nofun, rfl⟩
  · exact ⟨id, rfl⟩

/-- No command but RESET_RELEASE and the orders brings time back to UNSET or changes a key slot. -/
theorem exec_set_or_order {c : Instr} (e : exec c s = .next t) :
    SetAndKeysKept s t ∨ c = .resetRelease ∨ ∃ r, TakesOrder c s r ∧ CarriedOut r s t := by
  have event {f : State → State} (h : SetAndKeysKept s (f s)) (e : guarded f s = .next t) : SetAndKeysKept s t :=
    guarded_keeps (P := SetAndKeysKept s) (fun _ => h) ⟨id, rfl⟩ e
  cases hr : c.record with
  | some r =>
    rcases order_of_record hr with ⟨code, tag, body, rfl⟩ | own
    · exact .inl (exec_unknownOrder_kept e).set
    · rcases exec_record hr s with taken | idle
      · rw [taken] at e
        refine guarded_keeps (P := fun t => SetAndKeysKept s t ∨ _ ∨ ∃ r, TakesOrder c s r ∧ CarriedOut r s t) (fun _ => ?_)
          (.inl ⟨id, rfl⟩) e
        refine (takeOrder_effect r s).imp TimeAndKeysKept.set fun effect => .inr ⟨r, .inl ?_, effect⟩
        obtain ⟨o, -, code, -⟩ := effect
        exact ⟨o, own o code, code⟩
      · rw [idle] at e
        cases e
        exact .inl ⟨id, rfl⟩
  | none =>
    cases c with
    | feedCellArrival f c => exact .inl (event (arrival_set f c s) e)
    | silenceTimerExpiry f => exact .inl (event (feedSilence_kept f s).set e)
    | timebaseTick => exact .inl (event (tick_set s) e)
    | sourceSilenceTimerExpiry => exact .inl (event (sourceSilence_set s) e)
    | acquisitionTimerExpiry d => exact .inl (event (acquisitionExpires_frame d s).toFrame.set e)
    | holdTimerExpiry d => exact .inl (event (holdExpires_frame d s).toFrame.set e)
    | drain p => exact .inl (event (drain_frame p s).toFrame.set e)
    | slotTimerExpiry p b => exact .inl (event (slot_frame p b s).toFrame.set e)
    | drainWatchExpiry p => exact .inl (event (drainWatch_frame p s).toFrame.set e)
    | commandCell c => exact .inl (event (f := State.commandCell c) ⟨id, rfl⟩ e)
    | emission =>
      refine guarded_keeps (P := fun t => SetAndKeysKept s t ∨ _ ∨ ∃ r, TakesOrder _ s r ∧ CarriedOut r s t) (fun _ => ?_)
        (.inl ⟨id, rfl⟩) e
      refine (emission_effect s).imp TimeAndKeysKept.set ?_
      rintro ⟨k, r, command, read, effect⟩
      exact .inr ⟨r, .inr ⟨rfl, k, command, read⟩, effect⟩
    | resetAssert =>
      cases e
      exact .inl ⟨id, rfl⟩
    | resetRelease => exact .inr (.inl rfl)
    | _ => cases hr

/-! ## Orders -/

/-- The record of a RESET_PART of scope FULL. -/
theorem fullReset_record {o : Order} (reset : o = .resetPart) (code : r.code = o.code) (length : r.body.length = o.bodyLength)
    (full : field8 r.body 0 = 0) : r = ⟨0x54, r.tag, [0]⟩ := by
  subst reset
  obtain ⟨c, tag, body⟩ := r
  obtain ⟨b, rfl⟩ := List.length_eq_one_iff.mp length
  have zero : b = 0 := BitVec.eq_of_toNat_eq full
  rw [zero, show c = 0x54 from code]

theorem nameSource_unset {u : TimeUnit} {f : Option FeedId} (h : (u.nameSource f).state = .unset) : u.state = .unset := by
  unfold TimeUnit.nameSource at h
  split at h
  · exact h
  · split at h
    · cases h
    · exact h

theorem runOrder_unset {o : Order} {b : List Byte} (set : u.time.state ≠ .unset) (unset : (runOrder o b u).state.time.state = .unset) :
    o = .resetPart ∧ field8 b 0 = 0 := by
  by_cases source : o = .setTimeSource
  · subst source
    simp only [runOrder, orderSetTimeSource] at unset
    split at unset
    · exact absurd unset set
    · exact absurd (nameSource_unset unset) set
  · by_cases reset : o = .resetPart
    · subst reset
      simp only [runOrder, orderResetPart] at unset
      split at unset
      · next full => exact ⟨rfl, full⟩
      · exact absurd unset set
      · exact absurd unset set
    · rw [runOrder_time source reset] at unset
      exact absurd unset set

theorem runOrder_keys_changed {o : Order} {b : List Byte} (changed : (runOrder o b u).state.keys ≠ u.keys) :
    (o = .resetPart ∧ field8 b 0 = 0) ∨ o = .loadKeyQuarter ∨ o = .setCommitMask ∨ o = .clearKey := by
  by_cases key : o ≠ .loadKeyQuarter ∧ o ≠ .setCommitMask ∧ o ≠ .clearKey
  · by_cases reset : o = .resetPart
    · subst reset
      simp only [runOrder, orderResetPart] at changed
      split at changed
      · next full => exact .inl ⟨rfl, full⟩
      · exact absurd rfl changed
      · exact absurd rfl changed
    · exact absurd (runOrder_keys key reset b u) changed
  · simp only [not_and_or, not_not] at key
    exact .inr key

end

/-- Settles O59: beside RESET_RELEASE an order alone can do either, taken at its command or at the emission that resumes its cell; and of the orders
RESET_PART with scope FULL alone unsets time, and it and the key orders alone write the key slots. -/
theorem onlyTheseCommands : Obligations.OnlyTheseCommands := by
  intro c s t e
  rcases exec_set_or_order e with kept | release | ⟨r, takes, o, u, code, length, before, after⟩
  · exact ⟨fun set unset => absurd unset (kept.set set), fun changed => absurd kept.keys changed⟩
  · exact ⟨fun _ _ => .inl release, fun _ => .inl release⟩
  · have full (reset : o = .resetPart) (scope : field8 r.body 0 = 0) : ∃ tag, TakesOrder c s ⟨0x54, tag, [0]⟩ :=
      ⟨r.tag, fullReset_record reset code length scope ▸ takes⟩
    refine ⟨fun set unset => .inr ?_, fun changed => .inr ?_⟩
    · rw [after.1] at unset
      obtain ⟨reset, scope⟩ := runOrder_unset (before.1 ▸ set) unset
      exact full reset scope
    · rw [after.2, ← before.2] at changed
      rcases runOrder_keys_changed changed with ⟨reset, scope⟩ | key
      · exact .inl (full reset scope)
      · exact .inr ⟨o, r.tag, r.body, code ▸ takes, key⟩

end Sys2Proof.Machine
end

