-- ==== Sys2Proof/Proofs/LocalTime.lean ====
section
/-! SUPPORT. The local quantities, the time windows, and the orders of the time unit (R36 to R39). -/

namespace Sys2Proof.Machine

/-! ## The local quantities (R36) -/

section
variable {sec : Word} {offset : Int}

theorem localDay_eq_floor (sec : Word) (offset : Int) : localDay sec offset = Int.floor ((localSeconds sec offset : ℚ) / 86400) :=
  (Rat.floor_intCast_div_natCast _ 86400).symm

theorem secondOfDay_nonneg (sec : Word) (offset : Int) : 0 ≤ secondOfDay sec offset := Int.emod_nonneg _ (by decide)

theorem secondOfDay_le (sec : Word) (offset : Int) : secondOfDay sec offset ≤ 86399 :=
  Int.le_of_lt_add_one (Int.emod_lt_of_pos _ (by decide))

theorem minuteOfDay_eq (sec : Word) (offset : Int) : (minuteOfDay sec offset : Int) = secondOfDay sec offset / 60 := by
  simp [minuteOfDay, Int.toNat_of_nonneg (secondOfDay_nonneg sec offset)]

theorem minuteOfDay_eq_floor (sec : Word) (offset : Int) :
    (minuteOfDay sec offset : Int) = Int.floor ((secondOfDay sec offset : ℚ) / 60) :=
  (minuteOfDay_eq sec offset).trans (Rat.floor_intCast_div_natCast _ 60).symm

theorem minuteOfDay_le (sec : Word) (offset : Int) : minuteOfDay sec offset ≤ 1439 := by
  have minute := minuteOfDay_eq sec offset
  have := secondOfDay_le sec offset
  omega

/-- The local seconds stay within a day of the range of network time. -/
theorem localSeconds_range (low : -840 ≤ offset) (high : offset ≤ 840) :
    -50400 ≤ localSeconds sec offset ∧ localSeconds sec offset ≤ 4295017695 := by
  have := sec.isLt
  simp only [localSeconds]
  omega

theorem localDay_range (low : -840 ≤ offset) (high : offset ≤ 840) : -1 ≤ localDay sec offset ∧ localDay sec offset ≤ 49710 := by
  have range := localSeconds_range (sec := sec) low high
  simp only [localDay]
  omega

end

/-! ## Time windows (R37) -/

theorem inWindow_iff {start stop t : Word} : inWindow start stop t = true ↔ start.toNat ≤ t.toNat ∧ t.toNat < stop.toNat := by
  simp [inWindow]

theorem eventStop_toNat (start : Word) (duration : Nat) : (eventStop start duration).toNat = min 4294967295 (start.toNat + duration) := by
  rw [eventStop, BitVec.toNat_ofNat, Nat.mod_eq_of_lt (by omega)]

section
variable {start stop minute : Nat}

theorem inQuiet_within (h : start < stop) : inQuiet start stop minute = true ↔ start ≤ minute ∧ minute < stop := by simp [inQuiet, h]

theorem inQuiet_wrapped (h : stop < start) : inQuiet start stop minute = true ↔ start ≤ minute ∨ minute < stop := by
  simp [inQuiet, h, Nat.not_lt.mpr h.le]

theorem inQuiet_empty (h : start = stop) : inQuiet start stop minute = false := by simp [inQuiet, h]

end

/-- Settles O21. -/
theorem localTimeAndWindows : Obligations.LocalTimeAndWindows := by
  refine ⟨fun sec offset low high => ?_, fun _ _ _ => inWindow_iff, eventStop_toNat,
    fun _ _ _ => ⟨inQuiet_within, inQuiet_wrapped, inQuiet_empty⟩⟩
  have seconds := localSeconds_range (sec := sec) low high
  have day := localDay_range (sec := sec) low high
  exact ⟨rfl, seconds.1, seconds.2, localDay_eq_floor sec offset, day.1, day.2, Int.emod_def _ _, secondOfDay_nonneg sec offset,
    secondOfDay_le sec offset, minuteOfDay_eq_floor sec offset, minuteOfDay_le sec offset⟩

/-! ## SET_TIME_SOURCE and READ_TIME (R38, R39) -/

section
variable {u : TimeUnit} {source : Option FeedId}

theorem nameSource_same (h : source = u.source) : u.nameSource source = u := if_pos h

theorem nameSource_disciplined (h : source ≠ u.source) (state : u.state = .disciplined) :
    u.nameSource source = { u with source := source, state := .free, silence := none } := by simp [TimeUnit.nameSource, h, state]

theorem nameSource_other (h : source ≠ u.source) (state : u.state ≠ .disciplined) : u.nameSource source = { u with source := source } := by
  simp [TimeUnit.nameSource, h, state]

end

/-- The reply of SET_TIME_SOURCE: the source, the local offset and the state that it leaves (R38). -/
def sourceReply (u : TimeUnit) : List Byte := [feedByte u.source] ++ bytes16 (BitVec.ofInt 16 u.offset) ++ [u.state.byte]

/-- SET_TIME_SOURCE stores the held offset and names the source. -/
theorem exec_setTimeSource {s : State} (rest : LinkAtRest s) (tag o : Half) {source : Option FeedId} {u : TimeUnit}
    (named : TimeUnit.nameSource { s.time with offset := clampOffset o.toInt } source = u) :
    exec (.setTimeSource tag (feedByte source :: bytes16 o)) s =
      .next (State.answered 0x10 tag .done (sourceReply u) { s with time := u }) := by
  have offset : half (feedByte source :: bytes16 o) 1 = o := bytes16_join o
  refine exec_order_answered .setTimeSource tag (t := { s with time := u }) rest rfl (by simp [sourceReply]) ?_ rfl
  have choice : feedChoice (field8 (feedByte source :: bytes16 o) 0) = some source := feedChoice_feedByte source
  simp only [runOrder, orderSetTimeSource, choice, offset]
  rw [← named]
  rfl

theorem orderSetTimeSource_range {b : Byte} (low : 8 ≤ b.toNat) (other : b.toNat ≠ 255) (o : Half) (s : State) :
    orderSetTimeSource (b :: bytes16 o) s = .refuse s .range := by
  have choice : feedChoice (field8 (b :: bytes16 o) 0) = none := feedChoice_none low other
  simp only [orderSetTimeSource, choice]

/-- The items of READ_TIME before the local quantities. -/
def timeItems (t : TimeUnit) : List Byte :=
  bytes32 t.sec ++ num16 t.ms ++ [t.state.byte] ++ bytes16 (BitVec.ofInt 16 t.slew) ++ [feedByte t.source] ++
    bytes16 (BitVec.ofInt 16 t.offset) ++ [if t.silence.isSome then 1 else 0]

theorem timeReply_unset {t : TimeUnit} (h : t.state = .unset) : timeReply t = timeItems t ++ [0, 0, 0, 0, 0, 0, 0, 0] := by
  simp [timeReply, timeItems, h, shown, flag]

theorem timeReply_set {t : TimeUnit} (h : t.state ≠ .unset) : timeReply t =
    timeItems t ++ [1] ++ bytes32 (BitVec.ofInt 32 (localDay t.sec t.offset)) ++ [1] ++ num16 (minuteOfDay t.sec t.offset) := by
  simp [timeReply, timeItems, h, shown, flag]

theorem exec_readTime {s : State} (rest : LinkAtRest s) (tag : Half) {body : List Byte} (reply : timeReply s.time = body)
    (short : body.length ≤ 178) : exec (.readTime tag []) s = .next (s.answered 0x11 tag .done body) :=
  exec_order_read .readTime tag rest rfl short (by rw [← reply]; rfl)

/-- Settles O20: SET_TIME_SOURCE by the source it names, READ_TIME by the state of the time unit. -/
theorem timeOrders : Obligations.TimeOrders := by
  refine ⟨fun s tag o rest => ⟨fun source => ⟨fun same => ?_, fun other state => ?_, fun other state => ?_⟩, fun b low high => ?_⟩,
    fun s tag rest => ⟨fun unset => ?_, fun set => ?_⟩⟩
  · subst same
    exact exec_setTimeSource rest tag o (nameSource_same rfl)
  · exact exec_setTimeSource rest tag o (nameSource_disciplined other state)
  · exact exec_setTimeSource rest tag o (nameSource_other other state)
  · exact exec_order_refused .setTimeSource tag rest rfl (orderSetTimeSource_range low high o)
  · exact exec_readTime rest tag (timeReply_unset unset) (by simp)
  · exact exec_readTime rest tag (timeReply_set set) (by simp)

end Sys2Proof.Machine
end

