-- ==== Sys2Proof/Proofs/Ticks.lean ====
section
/-! SUPPORT. The timebase tick (R25, R26): the timers, the advance of network time, and the notices of a second mark (R57, R58). -/

namespace Sys2Proof.Machine

/-! ## The timers of the 1 ms timebase -/

section
variable (s : State)

theorem runTimers_feed (f : FeedId) : s.runTimers.feed f = { s.feed f with silence := (s.feed f).silence.map (· - 1) } :=
  Table.read_map _ _ _

theorem runTimers_dest (d : DestId) : s.runTimers.dest d = { s.dest d with acquisition := (s.dest d).acquisition.map (· - 1) } :=
  Table.read_map _ _ _

theorem runTimers_viewer (d : DestId) : s.runTimers.viewer d = { s.viewer d with timer := (s.viewer d).timer.map (· - 1) } :=
  Table.read_map _ _ _

theorem runTimers_port (p : PortId) : s.runTimers.port p = { s.port p with watch := (s.port p).watch.map (· - 1) } :=
  Table.read_map _ _ _

theorem runTimers_time : s.runTimers.time = { s.time with silence := s.time.silence.map (· - 1) } := rfl

end

/-! ## The advance of network time -/

section
variable {u : TimeUnit}

/-- M before a second mark takes 1000 off it (R26). -/
def TimeUnit.stepped (u : TimeUnit) : Nat := u.ms + if 0 < u.slew then 2 else if u.slew < 0 then 0 else 1

/-- The pending slew after the tick (R26). -/
def TimeUnit.slewed (u : TimeUnit) : Int := if 0 < u.slew then u.slew - 1 else if u.slew < 0 then u.slew + 1 else 0

theorem advance_within (h : u.stepped < 1000) : u.advance = { u with ms := u.stepped, slew := u.slewed } :=
  if_neg (Nat.not_le.mpr h)

theorem advance_over (h : 1000 ≤ u.stepped) :
    u.advance = { u with ms := u.stepped - 1000, sec := u.sec + 1, slew := u.slewed } := if_pos h

theorem stepped_forward (h : 0 < u.slew) : u.stepped = u.ms + 2 ∧ u.slewed = u.slew - 1 := by
  simp [TimeUnit.stepped, TimeUnit.slewed, h]

theorem stepped_back (h : u.slew < 0) : u.stepped = u.ms ∧ u.slewed = u.slew + 1 := by
  simp [TimeUnit.stepped, TimeUnit.slewed, h, Int.not_lt.mpr (Int.le_of_lt h)]

theorem stepped_even (h : u.slew = 0) : u.stepped = u.ms + 1 ∧ u.slewed = u.slew := by
  simp [TimeUnit.stepped, TimeUnit.slewed, h]

end

section
variable {s : State}

theorem exec_tick (running : s.resetPin = false) : exec .timebaseTick s = .next s.tick := guarded_released running

theorem tick_unset (unset : s.time.state = .unset) : s.tick = s.runTimers := if_pos unset

theorem tick_within (set : s.time.state ≠ .unset) (h : s.time.stepped < 1000) :
    s.tick = { s.runTimers with time := { s.runTimers.time with ms := s.time.stepped, slew := s.time.slewed } } := by
  have unmarked : s.runTimers.time.marks = false := by
    rw [TimeUnit.marks, Bool.and_eq_false_iff]
    exact .inr (decide_eq_false (Nat.not_le.mpr h))
  have advanced : s.runTimers.time.advance = { s.runTimers.time with ms := s.time.stepped, slew := s.time.slewed } :=
    advance_within h
  unfold State.tick
  dsimp only
  rw [if_neg (show s.runTimers.time.state ≠ .unset from set), unmarked, advanced]
  rfl

/-- The state in which a tick announces its second mark. -/
def State.marked (s : State) : State :=
  { s.runTimers with time := { s.runTimers.time with
    ms := s.time.stepped - 1000, sec := s.time.sec + 1, slew := s.time.slewed } }

theorem tick_over (set : s.time.state ≠ .unset) (h : 1000 ≤ s.time.stepped) :
    s.tick = s.marked.deliver (markNews (s.time.sec + 1)) := by
  have marks : s.runTimers.time.marks = true := by
    rw [TimeUnit.marks, Bool.and_eq_true]
    exact ⟨bne_iff_ne.mpr set, decide_eq_true h⟩
  have advanced : s.runTimers.time.advance = s.marked.time := advance_over h
  unfold State.tick
  dsimp only
  rw [if_neg (show s.runTimers.time.state ≠ .unset from set), marks, advanced]
  rfl

end

/-! ## Notices (R57, R58) -/

section
variable {s : State} {p : PortId} {x : Port}

/-- A notice that is accepted, and not emitted at once, waits in the queue (R152, R156). -/
theorem offerNotice_queued (hx : s.port p = x) (room : x.hasRoom = true) (waits : ¬ x.emitsAtOnce) (c : Cell) :
    s.offerNotice p c = s.setPort p { x with queue := x.queue ++ [c], watch := if x.queue = [] then some 250 else x.watch } := by
  have copied := offerCopy_queued hx room waits c
  subst hx
  rw [State.offerNotice, State.portTakes, if_pos room]
  rwa [State.offerCopy, if_pos room] at copied

theorem offerNotice_refused (full : (s.port p).hasRoom = false) (c : Cell) : s.offerNotice p c = s := by
  simp [State.offerNotice, State.portTakes, full]

end

/-- The notice cell of `d` (R58). -/
def State.noticeCell (s : State) (d : DestId) : Cell := builtCell 16380 true (s.dest d).noticeSeq (sourceByte d) (s.noticePayload d)

section
variable {s : State} {d : DestId}

theorem blocked_iff {n : DestState} : n.blocked = true ↔ n = .held ∨ n = .withheld := by cases n <;> decide

theorem noticeOne_unblocked (held : (s.dest d).state ≠ .held) (withheld : (s.dest d).state ≠ .withheld) : s.noticeOne d = s := by
  have unblocked : ¬ (s.dest d).state.blocked = true := by simp [blocked_iff, held, withheld]
  exact if_neg unblocked

/-- A notice that its port accepts (R57). -/
theorem noticeOne_taken (blocked : (s.dest d).state = .held ∨ (s.dest d).state = .withheld)
    (room : (s.port (s.dest d).port).hasRoom = true) (waits : ¬ (s.port (s.dest d).port).emitsAtOnce) :
    s.noticeOne d = (s.setDest d { s.dest d with
        noticeSeq := (s.dest d).noticeSeq + 1
        tallies := { (s.dest d).tallies with notices := (s.dest d).tallies.notices + 1 } }).setPort (s.dest d).port
      { s.port (s.dest d).port with
        queue := (s.port (s.dest d).port).queue ++ [s.noticeCell d]
        watch := if (s.port (s.dest d).port).queue = [] then some 250 else (s.port (s.dest d).port).watch } := by
  unfold State.noticeOne
  dsimp only
  rw [if_pos (blocked_iff.mpr blocked), State.portTakes, room, offerNotice_queued (setDest_port _ _ _ _) room waits]
  rfl

/-- A notice that its port refuses (R57). -/
theorem noticeOne_refused (blocked : (s.dest d).state = .held ∨ (s.dest d).state = .withheld)
    (full : (s.port (s.dest d).port).hasRoom = false) :
    s.noticeOne d = s.setDest d { s.dest d with
      noticeSeq := (s.dest d).noticeSeq + 1
      tallies := { (s.dest d).tallies with dropped := (s.dest d).tallies.dropped + 1 } } := by
  unfold State.noticeOne
  dsimp only
  rw [if_pos (blocked_iff.mpr blocked), State.portTakes, full, offerNotice_refused (by rwa [setDest_port])]
  rfl

end

/-- The payload of a notice, item by item (R58). -/
theorem noticePayload_eq (s : State) (d : DestId) : s.noticePayload d =
    ([sourceByte d, if (s.dest d).state = .held then 0 else 1, (s.dest d).reasons.byte,
      match (s.dest d).access with
      | some (.denied .timeUnset) => 1 | some (.denied .noSubscription) => 2 | some (.denied .noPurchase) => 3 | _ => 0,
      match (s.dest d).parental with | none => 0 | some r => r.serial] : List Byte) ++
    bytes16 (match (s.dest d).service.bind s.service with | none => 0 | some v => v.number) ++
    (match (s.dest d).service.bind fun i => s.guide.current.read i with | none => [0, 0, 0] | some id => 1 :: bytes16 id) := by
  have cause (a : Option AccessVerdict) : (a.map (·.causeByte)).getD 0 = (match a with
      | some (.denied .timeUnset) => 1 | some (.denied .noSubscription) => 2 | some (.denied .noPurchase) => 3 | _ => 0 : Byte) := by
    match a with
    | none | some .free | some .entitled | some .preview => rfl
    | some (.denied .timeUnset) | some (.denied .noSubscription) | some (.denied .noPurchase) => rfl
  have serial (r : Option ParentalReport) : (r.map (·.serial)).getD 0 = (match r with | none => 0 | some r => r.serial : Byte) := by
    cases r <;> rfl
  have number (v : Option Service) : (v.map (·.number)).getD 0 = (match v with | none => 0 | some v => v.number : Half) := by
    cases v <;> rfl
  have event (id : Option Half) : ([if id.isSome then 1 else 0] : List Byte) ++ bytes16 (id.getD 0) =
      (match id with | none => [0, 0, 0] | some id => 1 :: bytes16 id : List Byte) := by
    cases id <;> rfl
  simp only [State.noticePayload, cause, serial, number, List.append_assoc, event]
  rfl

end Sys2Proof.Machine
end

