-- ==== Sys2Proof/Proofs/SecondMarks.lean ====
section
/-! SUPPORT. The second mark at the parental unit (R131, R132, R139, R145): the refill and the charge of the profiles, and the unlocks. -/

namespace Sys2Proof.Machine

/-! ## The refill (R131) -/

/-- The profile with its allowance filled where the local day is past its last refill. -/
def Profile.filled (day : Int) (x : Profile) : Profile :=
  if x.lastRefill < day then
    { x with lastRefill := day, allowance := x.allowance.map fun a => { a with remaining := a.minutes * 60 } }
  else x

theorem refill_profile (t : Word) (s : State) (p : Fin 8) : (s.refill t).profile p = (s.profile p).filled (localDay t s.time.offset) :=
  Table.read_map _ _ _

/-! ## The charge (R132) -/

/-- Profile `y` is `x` after a charge of one second or none. -/
def Profile.ChargedTo (x y : Profile) : Prop :=
  y = x ∨ ∃ a, x.allowance = some a ∧ 0 < a.remaining ∧ y = { x with allowance := some { a with remaining := a.remaining - 1 } }

section
variable {s : State} {p : Fin 8}

theorem profileDelivering_iff : s.profileDelivering p = true ↔
    ∃ d, (s.dest d).kind = .view ∧ (s.dest d).profile = p ∧ (s.dest d).state.delivering = true := by
  simp only [State.profileDelivering, List.any_eq_true, Bool.and_eq_true, beq_iff_eq, and_assoc]
  constructor
  · rintro ⟨x, mem, charged⟩
    obtain ⟨d, rfl⟩ := Table.exists_read mem
    exact ⟨d, charged⟩
  · rintro ⟨d, charged⟩
    exact ⟨s.dest d, Table.read_mem _ d, charged⟩

theorem chargeOne_unlimited (h : (s.profile p).allowance = none) : s.chargeOne p = s := by
  unfold State.chargeOne
  dsimp only
  rw [h]

theorem chargeOne_idle (h : s.profileDelivering p = false) : s.chargeOne p = s := by
  unfold State.chargeOne
  dsimp only
  split
  · rfl
  · simp [h]

variable {a : Allowance}

/-- Profile `p` with a second less of allowance `a`. -/
def State.chargedFrom (s : State) (p : Fin 8) (a : Allowance) : State :=
  s.setProfile p { s.profile p with allowance := some { a with remaining := a.remaining - 1 } }

theorem chargeOne_spent (h : (s.profile p).allowance = some a) (spent : a.remaining = 0) : s.chargeOne p = s := by
  simp [State.chargeOne, h, spent]

theorem chargeOne_last (h : (s.profile p).allowance = some a) (delivering : s.profileDelivering p = true) (last : a.remaining = 1) :
    s.chargeOne p = (s.chargedFrom p a).raise .allowance (sourceByte p) 0 := by
  simp [State.chargeOne, State.chargedFrom, h, delivering, last]

theorem chargeOne_charged (h : (s.profile p).allowance = some a) (delivering : s.profileDelivering p = true) (left : 1 < a.remaining) :
    s.chargeOne p = s.chargedFrom p a := by
  have some_left : a.remaining ≠ 0 := by omega
  have not_last : a.remaining ≠ 1 := by omega
  simp [State.chargeOne, State.chargedFrom, h, delivering, some_left, not_last]

/-- What a charge of a profile can be. -/
theorem chargeOne_cases (s : State) (p : Fin 8) : s.chargeOne p = s ∨ ∃ a, (s.profile p).allowance = some a ∧ 0 < a.remaining ∧
    (s.chargeOne p = s.chargedFrom p a ∨ s.chargeOne p = (s.chargedFrom p a).raise .allowance (sourceByte p) 0) := by
  cases h : (s.profile p).allowance with
  | none => exact .inl (chargeOne_unlimited h)
  | some a =>
    cases delivering : s.profileDelivering p with
    | false => exact .inl (chargeOne_idle delivering)
    | true =>
      obtain spent | last | left : a.remaining = 0 ∨ a.remaining = 1 ∨ 1 < a.remaining := by omega
      · exact .inl (chargeOne_spent h spent)
      · exact .inr ⟨a, rfl, by omega, .inr (chargeOne_last h delivering last)⟩
      · exact .inr ⟨a, rfl, by omega, .inl (chargeOne_charged h delivering left)⟩

theorem chargeOne_chargedTo (s : State) (p : Fin 8) : (s.profile p).ChargedTo ((s.chargeOne p).profile p) := by
  rcases chargeOne_cases s p with same | ⟨a, h, left, charged | charged⟩
  · exact .inl (by rw [same])
  · exact .inr ⟨a, h, left, by rw [charged]; exact Table.read_write_same _ _ _⟩
  · exact .inr ⟨a, h, left, by rw [charged]; exact Table.read_write_same _ _ _⟩

/-- The charge of another profile leaves this one. -/
theorem chargeOne_profile_other {q : Fin 8} (h : p ≠ q) (s : State) : (s.chargeOne q).profile p = s.profile p := by
  rcases chargeOne_cases s q with same | ⟨a, -, -, charged | charged⟩
  · rw [same]
  · rw [charged]
    exact Table.read_write_other _ _ h
  · rw [charged]
    exact Table.read_write_other _ _ h

end

/-! ## ALLOWANCE pending (R132, R173) -/

theorem joinPending_any_other {p : Pending} {x : Byte} (h : p.source ≠ x) (l : List Pending) :
    (joinPending p l).any (·.source == x) = l.any (·.source == x) := by
  have new : (p.source == x) = false := beq_eq_false_iff_ne.mpr h
  induction l with
  | nil => simp [joinPending, new]
  | cons q rest ih =>
    unfold joinPending
    split
    · simp [new]
    · split
      · next same => simp [new, ← same]
      · simp [ih]

theorem joinPending_any_same (p : Pending) (l : List Pending) : (joinPending p l).any (·.source == p.source) = true := by
  induction l with
  | nil => simp [joinPending]
  | cons q rest ih =>
    unfold joinPending
    split
    · simp
    · split
      · simp
      · simp [ih]

theorem isPending_raise_same (c : Cause) (x y : Byte) (s : State) : (s.raise c x y).attention.isPending c x = true := by
  show (Attention.cause (s.attention.setCause c _) c).pending.any _ = true
  rw [setCause_cause, if_pos rfl]
  exact joinPending_any_same ⟨x, y⟩ _

theorem isPending_raise_other {x y : Byte} (h : x ≠ y) (c : Cause) (z : Byte) (s : State) :
    (s.raise c x z).attention.isPending c y = s.attention.isPending c y := by
  show (Attention.cause (s.attention.setCause c _) c).pending.any _ = _
  rw [setCause_cause, if_pos rfl, joinPending_any_other (by exact h)]
  rfl

theorem sourceByte_ne {p q : Fin 8} (h : p ≠ q) : (sourceByte p : Byte) ≠ sourceByte q := fun e =>
  h (Fin.ext (by simpa using congrArg BitVec.toNat e))

/-! ## The profiles charged in turn (R132) -/

/-- What the charge of profile `p` reads and writes is the same in both states. -/
structure ChargeAgrees (p : Fin 8) (s t : State) : Prop where
  ctl : t.ctl = s.ctl
  profile : t.profile p = s.profile p
  raised : t.attention.isPending .allowance (sourceByte p) = s.attention.isPending .allowance (sourceByte p)

theorem ChargeAgrees.refl (p : Fin 8) (s : State) : ChargeAgrees p s s := ⟨rfl, rfl, rfl⟩

theorem ChargeAgrees.trans {p : Fin 8} {s t u : State} (a : ChargeAgrees p s t) (b : ChargeAgrees p t u) : ChargeAgrees p s u :=
  ⟨b.ctl.trans a.ctl, b.profile.trans a.profile, b.raised.trans a.raised⟩

theorem chargeOne_other {p q : Fin 8} (h : p ≠ q) (s : State) : ChargeAgrees p s (s.chargeOne q) where
  ctl := (chargeOne_keeps q s).1
  profile := chargeOne_profile_other h s
  raised := by
    rcases chargeOne_cases s q with same | ⟨a, -, -, charged | charged⟩
    · rw [same]
    · rw [charged]
      rfl
    · rw [charged, isPending_raise_other (sourceByte_ne h.symm)]
      rfl

theorem chargeOne_agrees {p : Fin 8} {s t : State} (h : ChargeAgrees p s t) : ChargeAgrees p (s.chargeOne p) (t.chargeOne p) := by
  have delivering : t.profileDelivering p = s.profileDelivering p := by rw [State.profileDelivering, h.ctl, State.profileDelivering]
  have charged (a : Allowance) : ChargeAgrees p (s.chargedFrom p a) (t.chargedFrom p a) :=
    ⟨h.ctl, by simp [State.chargedFrom, h.profile], h.raised⟩
  cases limit : (s.profile p).allowance with
  | none => rwa [chargeOne_unlimited limit, chargeOne_unlimited (h.profile ▸ limit)]
  | some a =>
    have limit' : (t.profile p).allowance = some a := h.profile ▸ limit
    cases hd : s.profileDelivering p with
    | false => rwa [chargeOne_idle hd, chargeOne_idle (delivering.trans hd)]
    | true =>
      have hd' := delivering.trans hd
      obtain spent | last | left : a.remaining = 0 ∨ a.remaining = 1 ∨ 1 < a.remaining := by omega
      · rwa [chargeOne_spent limit spent, chargeOne_spent limit' spent]
      · rw [chargeOne_last limit hd last, chargeOne_last limit' hd' last]
        exact ⟨(charged a).ctl, (charged a).profile, by rw [isPending_raise_same, isPending_raise_same]⟩
      · rw [chargeOne_charged limit hd left, chargeOne_charged limit' hd' left]
        exact charged a

theorem charge_agrees (p : Fin 8) (s : State) : ChargeAgrees p (s.chargeOne p) s.charge := by
  have later (l : List (Fin 8)) (unnamed : p ∉ l) (s : State) : ChargeAgrees p s (l.foldl (fun s q => s.chargeOne q) s) := by
    induction l generalizing s with
    | nil => exact .refl p s
    | cons q l ih =>
      obtain ⟨hq, hl⟩ : p ≠ q ∧ p ∉ l := by simpa using unnamed
      exact (chargeOne_other hq s).trans (ih hl _)
  have within (l : List (Fin 8)) (once : l.Nodup) (named : p ∈ l) (s : State) :
      ChargeAgrees p (s.chargeOne p) (l.foldl (fun s q => s.chargeOne q) s) := by
    induction l generalizing s with
    | nil => cases named
    | cons q l ih =>
      obtain ⟨hq, hl⟩ := List.nodup_cons.mp once
      rcases List.mem_cons.mp named with rfl | later'
      · exact later l hq _
      · have other : p ≠ q := fun e => hq (e ▸ later')
        exact (chargeOne_agrees (chargeOne_other other s)).trans (ih hl later' _)
  exact within _ (List.nodup_finRange 8) (List.mem_finRange p) s

/-! ## What a forming leaves pending -/

/-- The pending sources of ALLOWANCE are as they were. -/
def AllowancesKept (s t : State) : Prop := t.attention.cause .allowance = s.attention.cause .allowance

namespace AllowancesKept

variable {s t u : State}

theorem still (h : t.attention = s.attention) : AllowancesKept s t := congrArg (Attention.cause · .allowance) h

theorem trans (a : AllowancesKept s t) (b : AllowancesKept t u) : AllowancesKept s u := Eq.trans b a

theorem ite {c : Prop} [Decidable c] (a : AllowancesKept s t) (b : AllowancesKept s u) : AllowancesKept s (if c then t else u) := by
  split
  · exact a
  · exact b

theorem eachDest {f : DestId → State → State} (h : ∀ d s, AllowancesKept s (f d s)) (s : State) : AllowancesKept s (s.eachDest f) :=
  foldl_chain (R := AllowancesKept) (fun _ => .still rfl) trans (fun s d => h d s) _ s

theorem isPending (h : AllowancesKept s t) (x : Byte) : t.attention.isPending .allowance x = s.attention.isPending .allowance x :=
  congrArg (fun c : CauseState => c.pending.any (·.source == x)) h

end AllowancesKept

theorem setCause_allowance {c : Cause} (h : .allowance ≠ c) (x : CauseState) (a : Attention) :
    (a.setCause c x).cause .allowance = a.cause .allowance := by
  rw [setCause_cause, if_neg h]

theorem raise_allowances {c : Cause} (h : .allowance ≠ c) (x y : Byte) (s : State) : AllowancesKept s (s.raise c x y) :=
  setCause_allowance h _ _

theorem withdraw_allowances {c : Cause} (h : .allowance ≠ c) (x : Byte) (s : State) : AllowancesKept s (s.withdraw c x) :=
  setCause_allowance h _ _

theorem setDest_allowances (d : DestId) (x : Dest) (s : State) : AllowancesKept s (s.setDest d x) := .still rfl

theorem setViewer_allowances (d : DestId) (x : Viewer) (s : State) : AllowancesKept s (s.setViewer d x) := .still rfl

theorem withdrawStall_allowances (x : Byte) (s : State) : AllowancesKept s (s.withdraw .stall x) := withdraw_allowances (c := .stall) nofun x s

theorem completionTest_allowances (d : DestId) (s : State) : AllowancesKept s (s.completionTest d) := by
  unfold State.completionTest
  dsimp only
  split
  · exact setDest_allowances d _ s
  · exact (setDest_allowances d _ s).trans (withdrawStall_allowances _ _)
  · exact setDest_allowances d _ s
  · exact .still rfl

theorem enterAcquiring_allowances (d : DestId) (s : State) : AllowancesKept s (s.enterAcquiring d) :=
  (setDest_allowances d _ s).trans (completionTest_allowances d _)

theorem leaveDelivering_allowances (d : DestId) (n : DestState) (s : State) : AllowancesKept s (s.leaveDelivering d n) :=
  .trans (.ite ((setDest_allowances d _ s).trans (withdrawStall_allowances _ _)) (setDest_allowances d _ s)) (.still rfl)

theorem moveTo_allowances (d : DestId) (n : DestState) (s : State) : AllowancesKept s (s.moveTo d n) :=
  .ite (.still rfl) (.ite (enterAcquiring_allowances d s) (.ite (leaveDelivering_allowances d n s) (setDest_allowances d _ s)))

theorem evaluate_allowances (d : DestId) (s : State) : AllowancesKept s (s.evaluate d) :=
  .ite (.still rfl) ((setDest_allowances d _ s).trans (moveTo_allowances d _ _))

theorem openHold_allowances (d : DestId) (s : State) : AllowancesKept s (s.openHold d) :=
  (setViewer_allowances d _ s).trans (raise_allowances (c := .hold) nofun _ _ _)

theorem endHold_allowances (d : DestId) (c : HoldCondition) (s : State) : AllowancesKept s (s.endHold d c) :=
  .ite ((setViewer_allowances d _ s).trans (withdraw_allowances (c := .hold) nofun _ _)) (setViewer_allowances d _ s)

theorem holdRule_allowances (d : DestId) (s : State) : AllowancesKept s (s.holdRule d) := by
  unfold State.holdRule
  dsimp only
  split
  · exact .still rfl
  · split
    · split
      · exact endHold_allowances d _ s
      · exact .ite (openHold_allowances d s) (.still rfl)
    · exact endHold_allowances d _ s

theorem reportStored_allowances (d : DestId) (s : State) : AllowancesKept s (s.reportStored d) := by
  unfold State.reportStored
  dsimp only
  split
  · exact .still rfl
  · exact .ite ((setViewer_allowances d _ s).trans (setDest_allowances d _ _)) (setViewer_allowances d _ s)

theorem reportHanded_allowances (d : DestId) (s : State) : AllowancesKept s (s.reportHanded d) :=
  .ite ((reportStored_allowances d s).trans (evaluate_allowances d _)) (reportStored_allowances d s)

theorem formVerdict_allowances (d : DestId) (s : State) : AllowancesKept s (s.formVerdict d) := by
  unfold State.formVerdict
  dsimp only
  split
  · exact .still rfl
  · exact (setViewer_allowances d _ s).trans (holdRule_allowances d _)

theorem formAndReport_allowances (d : DestId) (s : State) : AllowancesKept s (s.formAndReport d) :=
  (formVerdict_allowances d s).trans (.ite (.still rfl) (reportHanded_allowances d _))

/-- Forming verdicts raises no ALLOWANCE. -/
theorem formEach_allowances (want : Dest → Bool) (s : State) : AllowancesKept s (s.formEach want) :=
  .eachDest (fun d u => .ite (formAndReport_allowances d u) (.still rfl)) s

/-! ## Unlocks (R139) -/

theorem formAndReport_unlock (d e : DestId) (s : State) : ((s.formAndReport e).viewer d).unlock = (s.viewer d).unlock := by
  cases h : (s.dest e).service with
  | none => exact formAndReport_unbound h ▸ (reportIfChanged_stands d e s).unlock
  | some i =>
    refine (formAndReport_stands d h).unlock.trans ?_
    rw [setViewer_viewer]
    split
    · next he => rw [he]
    · rfl

/-- Forming verdicts leaves every unlock. -/
theorem formEach_unlock (want : Dest → Bool) (d : DestId) (s : State) : ((s.formEach want).viewer d).unlock = (s.viewer d).unlock := by
  unfold State.formEach
  refine eachDest_keeps (P := fun u => (u.viewer d).unlock = (s.viewer d).unlock) ?_ rfl
  intro e u h
  split
  · exact (formAndReport_unlock d e u).trans h
  · exact h

theorem chargeOne_viewers (p : Fin 8) (s : State) : (s.chargeOne p).parental.viewers = s.parental.viewers := by
  rcases chargeOne_cases s p with same | ⟨a, -, -, charged | charged⟩
  · rw [same]
  · rw [charged]
    rfl
  · rw [charged]
    rfl

theorem charge_viewer (d : DestId) (s : State) : s.charge.viewer d = s.viewer d := by
  have kept : s.charge.parental.viewers = s.parental.viewers := by
    unfold State.charge
    exact foldl_chain (R := fun s t => t.parental.viewers = s.parental.viewers) (fun _ => rfl) (fun a b => b.trans a)
      (fun s p => chargeOne_viewers p s) _ s
  exact congrArg (fun x : Table Viewer 12 => x.read d) kept

/-- The unlock that a second mark leaves of one: a PERIOD unlock whose until time its T has reached is removed (R139). -/
def Unlock.left (t : Word) : Unlock → Option Unlock
  | .period x => if x ≤ t.toNat then none else some (.period x)
  | .event id => some (.event id)

theorem withoutSpentUnlock_unlock (t : Word) (v : Viewer) : (v.withoutSpentUnlock t).unlock = v.unlock.bind (Unlock.left t) := by
  unfold Viewer.withoutSpentUnlock
  split
  · next u h =>
    rw [h]
    split
    · next spent => exact (if_pos spent).symm
    · next running => exact h.trans (if_neg running).symm
  · next other =>
    match h : v.unlock with
    | none | some (.event _) => rfl
    | some (.period u) => exact absurd h (other u)

/-! ## The mark at the parental unit (R145) -/

section
variable (t : Word) (s : State)

theorem spendUnlocks_agrees (p : Fin 8) : ChargeAgrees p s (s.spendUnlocks t) := ⟨rfl, rfl, rfl⟩

theorem spendUnlocks_viewer (d : DestId) : (s.spendUnlocks t).viewer d = (s.viewer d).withoutSpentUnlock t := Table.read_map _ _ _

theorem parentalMark_agrees (p : Fin 8) : ChargeAgrees p ((s.refill t).chargeOne p) ((s.refill t).charge.spendUnlocks t) :=
  (charge_agrees p (s.refill t)).trans (spendUnlocks_agrees t _ p)

theorem parentalMark_profile (p : Fin 8) : (s.parentalMark t).profile p = ((s.refill t).chargeOne p).profile p := by
  rw [parentalMark_eq, profile_congr (formEach_frame _ _).profiles]
  exact (parentalMark_agrees t s p).profile

theorem parentalMark_raised (p : Fin 8) : (s.parentalMark t).attention.isPending .allowance (sourceByte p) =
    ((s.refill t).chargeOne p).attention.isPending .allowance (sourceByte p) := by
  rw [parentalMark_eq]
  exact ((formEach_allowances _ _).isPending _).trans (parentalMark_agrees t s p).raised

theorem refill_viewer (d : DestId) : (s.refill t).viewer d = s.viewer d := rfl

theorem parentalMark_unlock (d : DestId) : ((s.parentalMark t).viewer d).unlock = (s.viewer d).unlock.bind (Unlock.left t) := by
  rw [parentalMark_eq, formEach_unlock, spendUnlocks_viewer, withoutSpentUnlock_unlock, charge_viewer, refill_viewer]

theorem parentalMark_bound (d : DestId) : (s.dest d).Bound ((s.parentalMark t).dest d) := by
  rw [parentalMark_eq, ← spent_dest t s d]
  exact formEach_bound _ d _

theorem parentalMark_chargedTo (p : Fin 8) :
    ((s.profile p).filled (localDay t s.time.offset)).ChargedTo ((s.parentalMark t).profile p) := by
  rw [parentalMark_profile, ← refill_profile]
  exact chargeOne_chargedTo _ p

end

end Sys2Proof.Machine
end

