-- ==== Sys2Proof/Proofs/TimebaseTick.lean ====
section
/-! SUPPORT. What a delivery with one second mark leaves of the profiles and the unlocks (R131, R132, R139), and the timebase tick as a whole. -/

namespace Sys2Proof.Machine

/-! ## Unlocks and profiles at the other announcements -/

/-- The announcement is a second mark to the parental unit. -/
def Announcement.marksParental : Announcement → Bool
  | .parentalMark _ => true
  | _ => false

theorem take_parentalMark (t : Word) (s : State) : ((Announcement.parentalMark t).take s).1 = s.parentalMark t := by
  dsimp only [Announcement.take]

theorem take_profiles {a : Announcement} (h : a.marksParental = false) (s : State) :
    (a.take s).1.parental.profiles = s.parental.profiles := by
  cases a <;> dsimp only [Announcement.take]
  case guideTime | guideMark => rfl
  case accessTime | accessChange c => exact (formAccess_frame _ s).profiles
  case accessMark t => exact (formAccess_frame _ (s.sweep t)).profiles
  case parentalTime => exact (formEach_frame _ s).profiles
  case parentalMark t => cases h
  case controllerMark => rw [(notices_frame s).parental]
  case parentalChange c => exact (parentalEventChange_frame c.index s).profiles
  case accessReport d v => exact (takeAccessReport_frame d v s).profiles

/-- The record holds no EVENT unlock. -/
def Viewer.Eventless (v : Viewer) : Prop := ∀ id, v.unlock ≠ some (.event id)

theorem withoutEventUnlock_unlock {v : Viewer} (h : v.Eventless) : v.withoutEventUnlock.unlock = v.unlock := by
  rw [withoutEventUnlock_eq_periodOnly]
  match hu : v.unlock with
  | none | some (.period _) => simp [Viewer.periodOnly, hu]
  | some (.event id) => exact absurd hu (h id)

theorem eventForgotten_unlock {d : DestId} (i : Fin 64) {s : State} (h : (s.viewer d).Eventless) :
    ((s.eventForgotten i).viewer d).unlock = (s.viewer d).unlock := by
  refine eachDest_keeps (P := fun u => (u.viewer d).unlock = (s.viewer d).unlock) ?_ rfl
  intro e u same
  split
  · have cleared : ((u.clearMemory e).viewer d).unlock = (s.viewer d).unlock := (clearMemory_stands d e u).unlock.trans same
    rw [setViewer_viewer]
    split
    · next he =>
      subst he
      exact (withoutEventUnlock_unlock fun id => cleared ▸ h id).trans cleared
    · exact cleared
  · exact same

/-- Beside a second mark, an announcement leaves an unlock that is no EVENT unlock. -/
theorem take_unlock {a : Announcement} (unmarked : a.marksParental = false) {d : DestId} {s : State} (h : (s.viewer d).Eventless) :
    ((a.take s).1.viewer d).unlock = (s.viewer d).unlock := by
  cases a <;> dsimp only [Announcement.take]
  case guideTime | guideMark => rfl
  case accessTime | accessChange c => exact (storeLast_stands d _ s).unlock
  case accessMark t => exact (storeLast_stands d _ (s.sweep t)).unlock
  case parentalTime => exact formEach_unlock _ d s
  case parentalMark t => cases unmarked
  case controllerMark => exact (notices_stands d s).unlock
  case parentalChange c =>
    rw [parentalEventChange_eq, formEach_unlock]
    exact eventForgotten_unlock c.index h
  case accessReport e v =>
    by_cases vacant : (s.dest e).state = .vacant
    · rw [State.takeAccessReport, if_pos vacant]
    · exact (takeAccessReport_stands d v vacant).unlock

/-! ## A delivery with one second mark -/

/-- What the free choices and every announcement but a second mark to the parental unit keep. -/
structure KeptUnmarked (P : State → Prop) : Prop where
  choice : ∀ s c x, P s → P { s with freeCount := c, script := x }
  taking : ∀ (a : Announcement) s, a.marksParental = false → P s → P (a.take s).1

theorem take_unmarkedParental (a : Announcement) (s : State) : (a.take s).2.filter Announcement.marksParental = [] := by
  refine List.filter_eq_nil_iff.mpr fun b mem marks => ?_
  have unmarked := take_unmarked a s b mem
  cases b with
  | parentalMark t => cases unmarked
  | _ => cases marks

/-- A delivery with one second mark to the parental unit: what holds before it, and is brought by it, holds at the end. -/
theorem deliver_parentalMark {t : Word} {Before After : State → Prop} (before : KeptUnmarked Before) (after : KeptUnmarked After)
    (mark : ∀ s, Before s → After (s.parentalMark t)) {l : List Announcement}
    (once : l.filter Announcement.marksParental = [.parentalMark t]) {s : State} (h : Before s) : After (s.deliver l) := by
  have kept : KeptByTaking fun l u => (l.filter Announcement.marksParental = [.parentalMark t] ∧ Before u) ∨
      (l.filter Announcement.marksParental = [] ∧ After u) := by
    refine ⟨fun _ u c x h => h.imp (fun h => ⟨h.1, before.choice u c x h.2⟩) fun h => ⟨h.1, after.choice u c x h.2⟩, ?_⟩
    rintro early a rest u - h
    simp only [List.filter_append, take_unmarkedParental, List.append_nil] at h ⊢
    cases ha : a.marksParental with
    | false =>
      rw [List.filter_cons_of_neg (by simp [ha])] at h
      exact h.imp (fun h => ⟨h.1, before.taking a u ha h.2⟩) fun h => ⟨h.1, after.taking a u ha h.2⟩
    | true =>
      rw [List.filter_cons_of_pos ha] at h
      rcases h with ⟨one, hb⟩ | ⟨none_left, -⟩
      · obtain ⟨he, rfl, hr⟩ : early.filter Announcement.marksParental = [] ∧ a = .parentalMark t ∧
            rest.filter Announcement.marksParental = [] := by
          cases hq : early.filter Announcement.marksParental with
          | nil => simpa [hq] using one
          | cons b bs => simp [hq] at one
        exact .inr ⟨by rw [he, hr]; rfl, take_parentalMark t u ▸ mark u hb⟩
      · simp at none_left
  exact ((deliver_induct kept (.inl ⟨once, h⟩)).resolve_left (by simp)).2

/-- The profiles are `x`, and the local offset is `o`. -/
def ProfilesAt (x : Table Profile 8) (o : Int) (s : State) : Prop := s.parental.profiles = x ∧ s.time.offset = o

theorem profilesAt_kept (x : Table Profile 8) (o : Int) : KeptUnmarked (ProfilesAt x o) where
  choice _ _ _ h := h
  taking a s unmarked h := ⟨(take_profiles unmarked s).trans h.1, (take_frame a s).time ▸ h.2⟩

/-- A delivery with one second mark refills every profile and charges it a second or none (R131, R132). -/
theorem deliver_profiles {t : Word} {l : List Announcement} (once : l.filter Announcement.marksParental = [.parentalMark t]) (s : State)
    (p : Fin 8) : ((s.profile p).filled (localDay t s.time.offset)).ChargedTo ((s.deliver l).profile p) := by
  refine deliver_parentalMark (Before := ProfilesAt s.parental.profiles s.time.offset)
    (After := fun u => ((s.profile p).filled (localDay t s.time.offset)).ChargedTo (u.profile p)) (profilesAt_kept _ _)
    ⟨fun _ _ _ h => h, fun a u unmarked h => ?_⟩ (fun u h => ?_) once ⟨rfl, rfl⟩
  · rwa [profile_congr (take_profiles unmarked u)]
  · obtain ⟨profiles, offset⟩ := h
    have charged := parentalMark_chargedTo t u p
    rwa [offset, profile_congr profiles] at charged

theorem unlock_kept (d : DestId) {x : Option Unlock} (h : ∀ id, x ≠ some (.event id)) : KeptUnmarked fun s => (s.viewer d).unlock = x where
  choice _ _ _ h := h
  taking _ _ unmarked same := (take_unlock unmarked fun id => same ▸ h id).trans same

/-- A delivery with one second mark removes exactly the PERIOD unlocks that its T has reached (R139). -/
theorem deliver_unlock {t : Word} {l : List Announcement} (once : l.filter Announcement.marksParental = [.parentalMark t]) {s : State}
    {d : DestId} {u : Nat} (h : (s.viewer d).unlock = some (.period u)) :
    ((s.deliver l).viewer d).unlock = if u ≤ t.toNat then none else some (.period u) := by
  refine deliver_parentalMark (After := fun v => (v.viewer d).unlock = if u ≤ t.toNat then none else some (.period u))
    (unlock_kept d (x := some (.period u)) nofun) (unlock_kept d fun id => ?_) (fun v same => ?_) once h
  · split <;> nofun
  · rw [parentalMark_unlock, same]
    rfl

/-! ## A tick with a second mark -/

theorem markNews_parental (t : Word) : (markNews t).filter Announcement.marksParental = [.parentalMark t] := rfl

theorem deliver_markNews_verdictsFormed (t : Word) (s : State) : VerdictsFormed s (s.deliver (markNews t)) :=
  deliver_verdictsFormed ⟨.accessMark t, by simp [markNews], rfl⟩ (fun _ => ⟨.parentalMark t, by simp [markNews], rfl⟩)
    (markNews_unreported t)

theorem deliver_markNews_sweptAt (t : Word) (s : State) : SweptAt t s.access.table (s.deliver (markNews t)).access.table :=
  deliver_sweptAt (by simp [markNews]) (by simp [markNews]) s

section
variable (s : State)

theorem marked_dest (d : DestId) : s.marked.dest d = { s.dest d with acquisition := (s.dest d).acquisition.map (· - 1) } :=
  runTimers_dest s d

theorem marked_lastAccess (d : DestId) : s.marked.lastAccess d = s.lastAccess d := rfl

theorem marked_unlock (d : DestId) : (s.marked.viewer d).unlock = (s.viewer d).unlock := (congrArg Viewer.unlock (runTimers_viewer s d) :)

/-- Verdicts formed once the timers have run on are formed of the destinations as they were. -/
theorem verdictsFormed_of_marked {t : State} (h : VerdictsFormed s.marked t) : VerdictsFormed s t := by
  intro d i live service
  have dest := marked_dest s d
  obtain ⟨formed, stands⟩ := h d i (by rw [dest]; exact live) (by rw [dest]; exact service)
  exact ⟨⟨formed.last, fun agree => formed.report (by rw [dest, marked_lastAccess]; exact agree)⟩,
    fun view => stands (by rw [dest]; exact view)⟩

end

/-- Settles O17: a tick advances the timers and network time, and a delivery of its second mark does the work of the mark in whatever order the
announcements are taken. -/
theorem timebaseTick : Obligations.TimebaseTick := by
  refine ⟨fun s running => ⟨fun unset => ?_, fun set => ⟨fun slew below => ?_, fun slew below => ?_, fun slew below => ?_⟩⟩,
    fun s => ⟨runTimers_feed s, rfl, runTimers_dest s, runTimers_viewer s, runTimers_port s, rfl⟩, fun s running set => ?_,
    fun s t => ⟨refill_profile t s, rfl⟩, fun s p => ?_, fun s t => ?_, fun s d => ?_, fun _ => rfl⟩
  · rw [exec_tick running, tick_unset unset]
    exact ⟨rfl, rfl⟩
  · obtain ⟨ms, left⟩ := stepped_forward slew
    rw [exec_tick running, tick_within set (by omega), ms, left]
  · obtain ⟨ms, left⟩ := stepped_back slew
    rw [exec_tick running, tick_within set (by omega), ms, left]
    rfl
  · obtain ⟨ms, left⟩ := stepped_even slew
    rw [exec_tick running, tick_within set (by omega), ms, left]
    rfl
  · intro stepped reached
    have frame := deliver_frame (markNews (s.time.sec + 1)) s.marked
    refine ⟨s.marked.deliver (markNews (s.time.sec + 1)), by rw [exec_tick running, tick_over set reached], frame.time,
      deliver_markNews_sweptAt _ s.marked, verdictsFormed_of_marked s (deliver_markNews_verdictsFormed _ _), ?_,
      deliver_profiles (markNews_parental _) s.marked,
      fun d u period => deliver_unlock (markNews_parental _) ((marked_unlock s d).trans period)⟩
    rw [frame.time]
    exact frame.settled { s.access with table := _ } rfl { s.parental with profiles := _ } rfl
  · extract_lets x delivering
    have charging : s.profileDelivering p = true ↔ delivering := profileDelivering_iff
    refine ⟨fun idle => ?_, fun a limit => ⟨chargeOne_spent limit, fun on => chargeOne_last limit (charging.mpr on),
      fun on => chargeOne_charged limit (charging.mpr on)⟩⟩
    rcases idle with unlimited | off
    · exact chargeOne_unlimited unlimited
    · exact chargeOne_idle (Bool.eq_false_iff.mpr (mt charging.mp off))
  · have unlock (d : DestId) := parentalMark_unlock t s d
    refine ⟨parentalMark_profile t s, parentalMark_raised t s, fun d none => ?_, fun d id event => ?_, fun d u period => ?_,
      fun d live view i service => ?_⟩
    · rw [unlock, none]
      rfl
    · rw [unlock, event]
      rfl
    · rw [unlock, period]
      rfl
    · have stands : ParentalStands (s.parentalMark t) d i :=
        take_parentalMark t s ▸ take_parental_forms (a := .parentalMark t) rfl service view live
      refine ⟨_, stands, ?_⟩
      rw [(parentalMark_bound t s d).profile]
  · extract_lets x p number current cause notice
    have cell : s.noticeCell d = notice := congrArg (builtCell 16380 true x.noticeSeq (sourceByte d)) (noticePayload_eq s d)
    refine ⟨noticeOne_unblocked, fun blocked => ⟨fun run short waits => ?_, fun full => ?_⟩⟩
    · rw [← cell]
      exact noticeOne_taken blocked ((hasRoom_iff p).mpr ⟨run, short⟩) waits
    · refine noticeOne_refused blocked (Bool.eq_false_iff.mpr fun room => ?_)
      obtain ⟨run, short⟩ := (hasRoom_iff p).mp room
      exact full.elim (· run) (Nat.not_le.mpr short)

end Sys2Proof.Machine
end

