-- ==== Sys2Proof/Proofs/Recomputation.lean ====
section
/-! SUPPORT. The recomputation of current events (R119, R120): the values that it gives, and the changes that it announces. -/

namespace Sys2Proof.Machine

/-! ## The event that shows -/

section
variable {s : State} {n : Half} {e : EventRecord}

/-- Network time is set, and `e` is an event of service `n` whose window contains T. -/
structure EventRecord.Shows (e : EventRecord) (n : Half) (s : State) : Prop where
  set : s.time.state ≠ .unset
  mem : e ∈ s.guide.events
  service : e.service = n
  started : e.start.toNat ≤ s.time.sec.toNat
  running : s.time.sec.toNat < e.stop.toNat

theorem shows_of_weighed (h : s.eventWeighed n = some e) : e.Shows n s := by
  unfold State.eventWeighed at h
  split at h
  · cases h
  · next set =>
    have found := List.find?_some h
    obtain ⟨service, window⟩ := Bool.and_eq_true_iff.mp found
    obtain ⟨started, running⟩ := inWindow_iff.mp window
    exact ⟨set, List.mem_of_find?_eq_some h, beq_iff_eq.mp service, started, running⟩

/-- Two events of a service that both show are one, as no two overlap (R117). -/
theorem EventRecord.Shows.unique {f : EventRecord} (he : e.Shows n s) (sound : EventsSound s) (hf : f.Shows n s) : e = f := by
  by_contra differ
  have symmetric : Std.Symm fun a b : EventRecord => a.service = b.service → a.overlaps b = false := ⟨fun a b h same => by
    rw [← h same.symm, EventRecord.overlaps, EventRecord.overlaps, Bool.and_comm]⟩
  have apart := sound.2.forall he.mem hf.mem differ (he.service.trans hf.service.symm)
  have := he.started
  have := he.running
  have := hf.started
  have := hf.running
  simp only [EventRecord.overlaps, Bool.and_eq_false_iff, decide_eq_false_iff_not] at apart
  omega

theorem eventWeighed_shown (sound : EventsSound s) (h : e.Shows n s) : s.eventWeighed n = some e := by
  cases weighed : s.eventWeighed n with
  | some f => rw [(shows_of_weighed weighed).unique sound h]
  | none =>
    rw [State.eventWeighed, if_neg h.set, List.find?_eq_none] at weighed
    refine absurd ?_ (weighed e h.mem)
    rw [Bool.and_eq_true_iff]
    exact ⟨beq_iff_eq.mpr h.service, inWindow_iff.mpr ⟨h.started, h.running⟩⟩

end

/-- The current event of the tables is the one that R119 gives, as the events of a service do not overlap. -/
theorem currentEventIs_currentOf {s : State} (sound : EventsSound s) (i : Fin 64) : CurrentEventIs s i (s.currentOf i) := by
  unfold State.currentOf CurrentEventIs
  refine ⟨?_, fun hidden => ?_⟩
  · rintro e ⟨set, mem, ⟨v, service, number⟩, started, running⟩
    have weighed : s.eventWeighed v.number = some e := eventWeighed_shown sound ⟨set, mem, number, started, running⟩
    simp [service, weighed]
  · cases service : s.service i with
    | none => rfl
    | some v =>
      cases weighed : s.eventWeighed v.number with
      | none => simp [weighed]
      | some e =>
        have h := shows_of_weighed weighed
        exact absurd ⟨h.set, h.mem, ⟨v, service, h.service⟩, h.started, h.running⟩ (hidden e)

/-- What the current event that the tables give rests on (R119). -/
theorem currentOf_congr {s t : State} (frame : DeliveryFrame s t) (i : Fin 64) : t.currentOf i = s.currentOf i := by
  simp only [State.currentOf, State.service, State.eventWeighed, frame.services, frame.time, frame.events]

/-! ## The values that a recomputation gives (R119) -/

theorem mem_eventChanges {want : Fin 64 → Bool} {s : State} {c : EventChange} : c ∈ s.eventChanges want ↔
    want c.index = true ∧ s.guide.current.read c.index ≠ s.currentOf c.index ∧
      c.before = s.guide.current.read c.index ∧ c.after = s.currentOf c.index := by
  simp only [State.eventChanges, List.mem_filterMap, Prod.exists, Table.mem_entries]
  constructor
  · rintro ⟨i, x, rfl, h⟩
    split at h
    · next changed =>
      obtain ⟨named, differs⟩ := Bool.and_eq_true_iff.mp changed
      obtain rfl := Option.some.inj h
      exact ⟨named, bne_iff_ne.mp differs, rfl, rfl⟩
    · cases h
  · rintro ⟨named, differs, before, after⟩
    refine ⟨c.index, _, rfl, ?_⟩
    rw [if_pos (by simp [named, differs]), ← before, ← after]

/-- Where the changes of an index agree, it holds what they give. -/
theorem storeCurrent_named {l : List EventChange} {i : Fin 64} {y : Option Half} (only : ∀ c ∈ l, c.index = i → c.after = y)
    (named : ∃ c ∈ l, c.index = i) (s : State) : (s.storeCurrent l).guide.current.read i = y := by
  have held (l : List EventChange) (only : ∀ c ∈ l, c.index = i → c.after = y) (t : Table (Option Half) 64)
      (h : t.read i = y ∨ ∃ c ∈ l, c.index = i) : (l.foldl (fun t c => t.write c.index c.after) t).read i = y := by
    induction l generalizing t with
    | nil => simpa using h
    | cons c l ih =>
      obtain ⟨first, later⟩ := List.forall_mem_cons.mp only
      refine ih later _ ?_
      rw [Table.read_write]
      split
      · next hi => exact .inl (first hi.symm)
      · next hi =>
        refine h.imp_right ?_
        rintro ⟨d, mem, hd⟩
        rcases List.mem_cons.mp mem with rfl | mem
        · exact absurd hd.symm hi
        · exact ⟨d, mem, hd⟩
  exact held l only _ (.inr named)

theorem recompute_read (want : Fin 64 → Bool) (s : State) (i : Fin 64) :
    (s.recompute want).1.guide.current.read i = if want i then s.currentOf i else s.guide.current.read i := by
  by_cases changed : want i = true ∧ s.guide.current.read i ≠ s.currentOf i
  · rw [if_pos changed.1]
    refine storeCurrent_named (fun c mem hi => ?_) 
      ⟨⟨i, s.guide.current.read i, s.currentOf i⟩, mem_eventChanges.mpr ⟨changed.1, changed.2, rfl, rfl⟩, rfl⟩ s
    obtain ⟨-, -, -, after⟩ := mem_eventChanges.mp mem
    rw [after, hi]
  · have unchanged : (s.recompute want).1.guide.current.read i = s.guide.current.read i := by
      refine storeCurrent_current _ (fun c mem hi => changed ?_) s
      obtain ⟨named, differs, -⟩ := mem_eventChanges.mp mem
      exact ⟨hi ▸ named, hi ▸ differs⟩
    rw [unchanged]
    split
    · next named => exact not_not.mp fun differs => changed ⟨named, differs⟩
    · rfl

/-! ## The changes that it announces (R120) -/

theorem showsIndex_iff {s : State} {i : Fin 64} :
    s.showsIndex i = true ↔ ∃ d, (s.dest d).state ≠ .vacant ∧ (s.dest d).service = some i := by
  refine ⟨fun h => ?_, fun ⟨d, live, service⟩ => showsIndex_of_dest service live⟩
  obtain ⟨x, mem, shows⟩ := List.any_eq_true.mp h
  obtain ⟨d, rfl⟩ := Table.exists_read mem
  exact ⟨d, by simpa [State.dest] using shows⟩

theorem entries_eq {α : Type} {n : Nat} (t : Table α n) : t.entries = (List.finRange n).map fun i => (i, t.read i) := by
  refine List.ext_getElem (by simp) fun k h _ => ?_
  rw [Table.getElem_entries]
  simp

/-- The changes announced, index by index in ascending order. -/
theorem recompute_changes (want : Fin 64 → Bool) (s : State) : (s.recompute want).2 = (List.finRange 64).flatMap fun i =>
    if want i = true ∧ s.guide.current.read i ≠ s.currentOf i ∧ s.showsIndex i = true then
      [.accessChange ⟨i, s.guide.current.read i, s.currentOf i⟩, .parentalChange ⟨i, s.guide.current.read i, s.currentOf i⟩]
    else [] := by
  show s.announceChanges (s.eventChanges want) = _
  rw [State.announceChanges, State.eventChanges, entries_eq]
  induction List.finRange 64 with
  | nil => rfl
  | cons i l ih =>
    rw [List.flatMap_cons, ← ih, List.map_cons, List.filterMap_cons]
    by_cases changed : want i = true ∧ s.guide.current.read i ≠ s.currentOf i
    · rw [if_pos (by simp [changed])]
      by_cases shown : s.showsIndex i = true
      · simp [changed, shown]
      · simp [shown]
    · rw [if_neg (by simpa using changed), if_neg fun h => changed ⟨h.1, h.2.1⟩]
      rfl

/-- A change of an index that a destination shows is announced to both units. -/
theorem recompute_announces {want : Fin 64 → Bool} {s : State} {i : Fin 64} (shown : s.showsIndex i = true)
    (changed : (s.recompute want).1.guide.current.read i ≠ s.guide.current.read i) :
    ∃ c, c.index = i ∧ .accessChange c ∈ (s.recompute want).2 ∧ .parentalChange c ∈ (s.recompute want).2 := by
  have named : ∃ c ∈ s.eventChanges want, c.index = i := by
    by_contra none_named
    push Not at none_named
    exact changed (storeCurrent_current _ none_named s)
  obtain ⟨c, mem, rfl⟩ := named
  have both (a : Announcement) (h : a ∈ [Announcement.accessChange c, .parentalChange c]) : a ∈ (s.recompute want).2 :=
    List.mem_flatMap.mpr ⟨c, List.mem_filter.mpr ⟨mem, shown⟩, h⟩
  exact ⟨c, rfl, both _ (by simp), both _ (by simp)⟩

end Sys2Proof.Machine
end

