-- ==== Sys2Proof/Proofs/EventChanges.lean ====
section
/-! SUPPORT. Deliveries that bring current-event changes (R35, R119, R120): the current events at their end, and what both units have done by then for
an index whose current event differs (R103, R137, R139, R143). -/

namespace Sys2Proof.Machine

/-! ## Each destination once -/

/-- The turn of `d` finds `P`, which the other turns keep, and brings `Q`, which they keep too. -/
theorem eachDest_once {P Q : State → Prop} {f : DestId → State → State} (d : DestId) (before : ∀ e s, d ≠ e → P s → P (f e s))
    (turn : ∀ s, P s → Q (f d s)) (behind : ∀ e s, d ≠ e → Q s → Q (f e s)) {s : State} (hs : P s) : Q (s.eachDest f) := by
  have later (l : List DestId) (unnamed : d ∉ l) (s : State) (h : Q s) : Q (l.foldl (fun s e => f e s) s) := by
    induction l generalizing s with
    | nil => exact h
    | cons e l ih =>
      obtain ⟨he, hl⟩ : d ≠ e ∧ d ∉ l := by simpa using unnamed
      exact ih hl _ (behind e s he h)
  have within (l : List DestId) (once : l.Nodup) (named : d ∈ l) (s : State) (h : P s) : Q (l.foldl (fun s e => f e s) s) := by
    induction l generalizing s with
    | nil => cases named
    | cons e l ih =>
      obtain ⟨he, hl⟩ := List.nodup_cons.mp once
      rcases List.mem_cons.mp named with rfl | mem
      · exact later l he _ (turn s h)
      · exact ih hl mem _ (before e s (fun same => he (same ▸ mem)) h)
  exact within _ (List.nodup_finRange 12) (List.mem_finRange d) s hs

/-! ## Decline memory -/

/-- The record holds no decline memory (R143). -/
def Viewer.Unremembered (v : Viewer) : Prop := v.hold ≠ .declined ∧ v.hold ≠ .noAnswer

/-- Where `d` holds no decline memory in `s`, it holds none in `t`. -/
def MemoryFree (d : DestId) (s t : State) : Prop := (s.viewer d).Unremembered → (t.viewer d).Unremembered

namespace MemoryFree

variable {d : DestId} {s t u : State}

theorem same (h : t.viewer d = s.viewer d) : MemoryFree d s t := fun free => h ▸ free

theorem trans (a : MemoryFree d s t) (b : MemoryFree d t u) : MemoryFree d s u := b ∘ a

theorem ite {c : Prop} [Decidable c] (a : MemoryFree d s t) (b : MemoryFree d s u) : MemoryFree d s (if c then t else u) := by
  split
  · exact a
  · exact b

theorem eachDest {f : DestId → State → State} (h : ∀ e s, MemoryFree d s (f e s)) (s : State) : MemoryFree d s (s.eachDest f) :=
  foldl_chain (R := MemoryFree d) (fun _ => .same rfl) trans (fun s e => h e s) _ s

end MemoryFree

section
variable (d e : DestId) (s : State)

theorem setViewer_memoryFree {v : Viewer} (h : v.hold = (s.viewer e).hold) : MemoryFree d s (s.setViewer e v) := by
  intro free
  rw [setViewer_viewer]
  split
  · next he =>
    subst he
    rwa [Viewer.Unremembered, h]
  · exact free

/-- A record whose hold is neither DECLINED nor NO ANSWER. -/
theorem setViewer_unremembered {v : Viewer} (h : v.Unremembered) : MemoryFree d s (s.setViewer e v) := by
  intro free
  rw [setViewer_viewer]
  split
  · exact h
  · exact free

theorem endHold_memoryFree : MemoryFree d s (s.endHold e .none) :=
  have ended : MemoryFree d s (s.setViewer e { s.viewer e with hold := .none, timer := none }) :=
    setViewer_unremembered d e s ⟨nofun, nofun⟩
  .ite (ended.trans (.same rfl)) ended

theorem openHold_memoryFree : MemoryFree d s (s.openHold e) :=
  have opened (n : Byte) (t : Timer) : MemoryFree d s (s.setViewer e { s.viewer e with hold := .opened, serial := n, timer := t }) :=
    setViewer_unremembered d e s ⟨nofun, nofun⟩
  (opened _ _).trans (.same rfl)

theorem holdRule_memoryFree : MemoryFree d s (s.holdRule e) := by
  unfold State.holdRule
  dsimp only
  split
  · exact .same rfl
  · split
    · split
      · exact endHold_memoryFree d e s
      · exact .ite (openHold_memoryFree d e s) (.same rfl)
    · exact endHold_memoryFree d e s

theorem evaluate_viewer : (s.evaluate e).viewer d = s.viewer d :=
  congrArg (fun u : ParentalUnit => u.viewers.read d) (evaluate_frame e s).parental

theorem reportStored_memoryFree : MemoryFree d s (s.reportStored e) := by
  unfold State.reportStored
  dsimp only
  split
  · exact .same rfl
  · have stored (r : Option ParentalReport) : MemoryFree d s (s.setViewer e { s.viewer e with last := r }) :=
      setViewer_memoryFree d e s (by rfl)
    exact .ite ((stored _).trans (.same rfl)) (stored _)

theorem reportHanded_memoryFree : MemoryFree d s (s.reportHanded e) :=
  .ite ((reportStored_memoryFree d e s).trans (.same (evaluate_viewer d e _))) (reportStored_memoryFree d e s)

theorem formVerdict_memoryFree : MemoryFree d s (s.formVerdict e) := by
  unfold State.formVerdict
  dsimp only
  split
  · exact .same rfl
  · exact .trans (setViewer_memoryFree d e s (by rfl)) (holdRule_memoryFree d e _)

theorem formAndReport_memoryFree : MemoryFree d s (s.formAndReport e) :=
  (formVerdict_memoryFree d e s).trans (.ite (.same rfl) (reportHanded_memoryFree d e _))

theorem formEach_memoryFree (want : Dest → Bool) : MemoryFree d s (s.formEach want) :=
  .eachDest (fun e u => .ite (formAndReport_memoryFree d e u) (.same rfl)) s

theorem placeBar_memoryFree : MemoryFree d s (s.placeBar e) :=
  ((endHold_memoryFree d e s).trans (setViewer_memoryFree d e _ (by rfl))).trans (reportStored_memoryFree d e _)

theorem liftBar_memoryFree : MemoryFree d s (s.liftBar e) :=
  .trans (.trans (setViewer_memoryFree d e s (by rfl)) (holdRule_memoryFree d e _)) (reportStored_memoryFree d e _)

theorem settleBar_memoryFree (o : Option AccessVerdict) (v : AccessVerdict) : MemoryFree d s (s.settleBar e o v) :=
  .ite (.same rfl) (.ite (placeBar_memoryFree d e s) (.ite (liftBar_memoryFree d e s) (.same rfl)))

theorem accessLapse_memoryFree (o : Option AccessVerdict) (v : AccessVerdict) : MemoryFree d s (s.accessLapse e o v) :=
  .ite (.same rfl) (.same rfl)

theorem takeAccessReport_memoryFree (v : AccessVerdict) : MemoryFree d s (s.takeAccessReport e v) := by
  unfold State.takeAccessReport
  dsimp only
  refine .ite (.same rfl) ?_
  have stored : MemoryFree d s (s.storeAccess e v) := .same rfl
  exact ((stored.trans (settleBar_memoryFree d e _ _ v)).trans (accessLapse_memoryFree d e _ _ v)).trans (.same (evaluate_viewer d e _))

end

/-! ## What an event change forgets (R139, R143) -/

/-- The record holds neither an EVENT unlock nor a decline memory. -/
def Viewer.Forgotten (v : Viewer) : Prop := v.Eventless ∧ v.Unremembered

theorem forgotten_of_change (v : Viewer) : v.forgetful.periodOnly.Forgotten := by
  constructor
  · intro id
    match h : v.unlock with
    | none | some (.event _) | some (.period _) => simp [Viewer.periodOnly, Viewer.forgetful, h]
  · by_cases memory : v.hold = .declined ∨ v.hold = .noAnswer
    · simp [Viewer.Unremembered, Viewer.periodOnly, Viewer.forgetful, memory]
    · have := not_or.mp memory
      simp [Viewer.Unremembered, Viewer.periodOnly, Viewer.forgetful, this]

theorem forgetful_same {v : Viewer} (h : v.Unremembered) : v.forgetful = v := by
  obtain ⟨declined, noAnswer⟩ := h
  simp [Viewer.forgetful, declined, noAnswer]

/-- What an event change of index `i` has done for `d` before its verdict is formed. -/
theorem eventForgotten_viewer (i : Fin 64) (d : DestId) (s : State) :
    (s.eventForgotten i).viewer d = if (s.dest d).service = some i then (s.viewer d).forgetful.periodOnly else s.viewer d := by
  have cleared (e : DestId) (u : State) (h : d ≠ e) : (u.clearMemory e).viewer d = u.viewer d := by
    unfold State.clearMemory
    dsimp only
    split
    · rw [setViewer_viewer, if_neg h]
    · rfl
  have others (e : DestId) (u : State) (x : Viewer) (h : d ≠ e) (same : u.viewer d = x) :
      ((if (u.dest e).service = some i then (u.clearMemory e).setViewer e ((u.clearMemory e).viewer e).withoutEventUnlock else u).viewer d)
        = x := by
    split
    · rw [setViewer_viewer, if_neg h, cleared e u h, same]
    · exact same
  refine eachDest_once (P := fun u => u.dest d = s.dest d ∧ u.viewer d = s.viewer d)
    (Q := fun u => u.viewer d = if (s.dest d).service = some i then (s.viewer d).forgetful.periodOnly else s.viewer d) d
    (fun e u h same => ⟨?_, others e u _ h same.2⟩) (fun u same => ?_) (fun e u h same => others e u _ h same) ⟨rfl, rfl⟩
  · split
    · rw [setViewer_dest, clearMemory_dest, same.1]
    · exact same.1
  · rw [same.1]
    split
    · rw [setViewer_viewer_same, withoutEventUnlock_eq_periodOnly, clearMemory_viewer, same.2]
    · exact same.2

theorem parentalMark_memoryFree (t : Word) (d : DestId) (s : State) : MemoryFree d s (s.parentalMark t) := by
  rw [parentalMark_eq]
  refine .trans (fun free => ?_) (formEach_memoryFree d _ _)
  have hold : (Viewer.withoutSpentUnlock t (s.viewer d)).hold = (s.viewer d).hold := by
    unfold Viewer.withoutSpentUnlock
    split
    · split <;> rfl
    · rfl
  rw [spendUnlocks_viewer, charge_viewer, refill_viewer, Viewer.Unremembered, hold]
  exact free

theorem take_memoryFree (a : Announcement) (d : DestId) (s : State) : MemoryFree d s (a.take s).1 := by
  have stored (l : List (DestId × AccessVerdict)) (u : State) : (u.storeLast l).viewer d = u.viewer d := by
    unfold State.storeLast
    exact foldl_chain (R := fun s t : State => t.viewer d = s.viewer d) (fun _ => rfl) (fun a b => b.trans a)
      (fun s r => setLastAccess_viewer s r.1 (some r.2) d) l u
  cases a <;> dsimp only [Announcement.take]
  case guideTime | guideMark => exact .same rfl
  case accessTime | accessChange c => exact .same (stored _ s)
  case accessMark t => exact .same (stored _ (s.sweep t))
  case parentalTime => exact formEach_memoryFree d s _
  case parentalMark t => exact parentalMark_memoryFree t d s
  case controllerMark => exact .same (congrArg (fun u : ParentalUnit => u.viewers.read d) (notices_frame s).parental)
  case parentalChange c =>
    rw [parentalEventChange_eq]
    refine .trans (fun free => ?_) (formEach_memoryFree d _ _)
    rw [eventForgotten_viewer]
    split
    · exact (forgotten_of_change _).2
    · exact free
  case accessReport e v => exact takeAccessReport_memoryFree d e s v

theorem take_eventless (a : Announcement) {d : DestId} {s : State} (h : (s.viewer d).Eventless) : ((a.take s).1.viewer d).Eventless := by
  cases marks : a.marksParental with
  | false => exact fun id => take_unlock marks h ▸ h id
  | true =>
    cases a with
    | parentalMark t =>
      intro id
      rw [take_parentalMark, parentalMark_unlock]
      match hu : (s.viewer d).unlock with
      | none => nofun
      | some (.event x) => exact absurd hu (h x)
      | some (.period u) =>
        simp only [Option.bind_some, Unlock.left]
        split <;> nofun
    | _ => cases marks

/-- No announcement brings an EVENT unlock or a decline memory back. -/
theorem take_forgotten (a : Announcement) {d : DestId} {s : State} (h : (s.viewer d).Forgotten) : ((a.take s).1.viewer d).Forgotten :=
  ⟨take_eventless a h.1, take_memoryFree a d s h.2⟩

/-- The announcement is a change of the current event of index `i`, to the parental unit. -/
def Announcement.forgets (i : Fin 64) : Announcement → Bool
  | .parentalChange c => c.index == i
  | _ => false

/-- At an event change the destinations on its index forget (R139, R143, log entry 18). -/
theorem take_forgets {a : Announcement} {i : Fin 64} (forgets : a.forgets i = true) {d : DestId} {s : State}
    (service : (s.dest d).service = some i) : ((a.take s).1.viewer d).Forgotten := by
  cases a with
  | parentalChange c =>
    obtain rfl : c.index = i := beq_iff_eq.mp forgets
    have forgotten : ((s.eventForgotten c.index).viewer d).Forgotten := by
      rw [eventForgotten_viewer, if_pos service]
      exact forgotten_of_change _
    dsimp only [Announcement.take]
    rw [parentalEventChange_eq]
    refine ⟨fun id => ?_, formEach_memoryFree d _ _ forgotten.2⟩
    rw [formEach_unlock]
    exact forgotten.1 id
  | _ => cases forgets

/-! ## The current events at the end of a delivery -/

/-- The announcement has the guide builder recompute every index (R119). -/
def Announcement.recomputes : Announcement → Bool
  | .guideTime | .guideMark => true
  | _ => false

theorem take_recomputes {a : Announcement} (h : a.recomputes = true) (s : State) (i : Fin 64) :
    (a.take s).1.guide.current.read i = s.currentOf i := by
  cases a with
  | guideTime | guideMark => exact recompute_read (fun _ => true) s i
  | _ => cases h

theorem charge_guide (s : State) : s.charge.guide = s.guide := by
  unfold State.charge
  refine foldl_chain (R := fun s t : State => t.guide = s.guide) (fun _ => rfl) (fun a b => b.trans a) (fun s p => ?_) _ s
  rcases chargeOne_cases s p with same | ⟨a, -, -, charged | charged⟩
  · rw [same]
  · rw [charged]
    rfl
  · rw [charged]
    rfl

theorem spendUnlocks_guide (t : Word) (s : State) : (s.spendUnlocks t).guide = s.guide := rfl

theorem refill_guide (t : Word) (s : State) : (s.refill t).guide = s.guide := rfl

theorem parentalMark_guide (t : Word) (s : State) : (s.parentalMark t).guide = s.guide := by
  rw [parentalMark_eq, (formEach_frame _ _).guide, spendUnlocks_guide, charge_guide, refill_guide]

/-- The other announcements leave the current events. -/
theorem take_current {a : Announcement} (h : a.recomputes = false) (s : State) : (a.take s).1.guide.current = s.guide.current := by
  have read {s t : State} (h : t.guide = s.guide) : t.guide.current = s.guide.current := congrArg Guide.current h
  cases a <;> dsimp only [Announcement.take]
  case guideTime | guideMark => cases h
  case accessTime | accessChange c => exact read (formAccess_frame _ s).guide
  case accessMark t => exact read (formAccess_frame _ (s.sweep t)).guide
  case parentalTime => exact read (formEach_frame _ s).guide
  case parentalMark t => exact read (parentalMark_guide t s)
  case controllerMark => exact read (notices_frame s).guide
  case parentalChange c => exact read (parentalEventChange_frame c.index s).guide
  case accessReport d v => exact read (takeAccessReport_frame d v s).guide

/-- Every current event is the one of the tables, or a recomputation waits. -/
def CurrentOrWaits (l : List Announcement) (s : State) : Prop :=
  (∃ a ∈ l, a.recomputes = true) ∨ ∀ i, s.guide.current.read i = s.currentOf i

theorem currentOrWaits_kept : KeptByTaking CurrentOrWaits where
  choice _ _ _ _ h := h
  taking before a rest s _ h := by
    have frame := take_frame a s
    cases ha : a.recomputes with
    | true => exact .inr fun i => (take_recomputes ha s i).trans (currentOf_congr frame i).symm
    | false =>
      refine h.imp (fun waits => exists_mem_append_left (exists_mem_split waits ha)) fun current i => ?_
      rw [take_current ha s, currentOf_congr frame]
      exact current i

/-- A delivery with a recomputation leaves every current event as R119 gives it. -/
theorem deliver_currentEventIs {l : List Announcement} (recomputes : ∃ a ∈ l, a.recomputes = true) {s : State} (sound : EventsSound s)
    (i : Fin 64) : CurrentEventIs (s.deliver l) i ((s.deliver l).guide.current.read i) := by
  have current : ∀ i, (s.deliver l).guide.current.read i = (s.deliver l).currentOf i :=
    (deliver_induct currentOrWaits_kept (.inl recomputes)).resolve_left (by simp)
  have kept : EventsSound (s.deliver l) := by
    rw [EventsSound, (deliver_frame l s).events]
    exact sound
  rw [current i]
  exact currentEventIs_currentOf kept i

theorem take_unrecomputed (a : Announcement) (s : State) : ∀ b ∈ (a.take s).2, b.recomputes = false := by
  intro b mem
  have unmarked := take_unmarked a s b mem
  cases b with
  | guideTime =>
    cases a <;> simp [Announcement.take, State.recompute, State.announceChanges, State.formAccess] at mem
  | guideMark => cases unmarked
  | _ => rfl

/-- A delivery without a recomputation leaves the current events. -/
theorem deliver_current {l : List Announcement} (h : ∀ a ∈ l, a.recomputes = false) (s : State) :
    (s.deliver l).guide.current = s.guide.current := by
  have kept : KeptByTaking fun l u => (∀ a ∈ l, a.recomputes = false) ∧ u.guide.current = s.guide.current := by
    refine ⟨fun _ _ _ _ h => h, ?_⟩
    rintro before a rest u - ⟨unrecomputed, same⟩
    refine ⟨fun b mem => ?_, (take_current (unrecomputed a (by simp)) u).trans same⟩
    rcases List.mem_append.mp mem with mem | mem
    · exact unrecomputed b (by
        rcases List.mem_append.mp mem with mem | mem
        · exact List.mem_append_left _ mem
        · exact List.mem_append_right _ (List.mem_cons_of_mem _ mem))
    · exact take_unrecomputed a u b mem
  exact (deliver_induct kept ⟨h, rfl⟩).2

/-! ## Event changes taken -/

/-- At this announcement the access unit forms the verdict of index `i` (R103). -/
def Announcement.formsIndex (i : Fin 64) : Announcement → Bool
  | .accessTime | .accessMark _ => true
  | .accessChange c => c.index == i
  | _ => false

theorem take_lastAccess_index {a : Announcement} {i : Fin 64} {d : DestId} {s : State} (service : (s.dest d).service = some i)
    (live : (s.dest d).state ≠ .vacant) (h : a.formsIndex i = true ∨ s.lastAccess d = some (s.accessVerdict i)) :
    (a.take s).1.lastAccess d = some ((a.take s).1.accessVerdict i) := by
  cases a with
  | accessChange c =>
    rcases h with forms | last
    · refine (formAccess_lastAccess _ service live).resolve_left fun ⟨_, unnamed⟩ => ?_
      obtain rfl : c.index = i := beq_iff_eq.mp forms
      simp [service] at unnamed
    · exact take_lastAccess _ service live (.inr last)
  | accessTime | accessMark t => exact take_lastAccess _ service live (.inl rfl)
  | _ => exact take_lastAccess _ service live (.inr (h.resolve_left nofun))

/-- What holds of destination `d` on index `i`, of kind `k`, while announcements wait that bring the current event of `i` away from `x`: its access verdict is
the last report, or a forming waits; the reports that wait hand the controller the last report, where the two agreed before; the verdict of a VIEW
destination stands, or a forming waits; and its record has forgotten, or a change waits, or the current event is `x`. -/
structure Changing (d : DestId) (i : Fin 64) (k : DestKind) (agreed : Prop) (x : Option Half) (l : List Announcement) (s : State) : Prop where
  kind : (s.dest d).kind = k
  service : (s.dest d).service = some i
  live : (s.dest d).state ≠ .vacant
  access : (∃ a ∈ l, a.formsIndex i = true) ∨ s.lastAccess d = some (s.accessVerdict i)
  report : agreed → handed d l (s.dest d).access = s.lastAccess d
  parental : k = .view → (∃ a ∈ l, a.formsParental i = true) ∨ ParentalStands s d i
  forgets : s.guide.current.read i = x ∨ (∃ a ∈ l, a.forgets i = true) ∨ (s.viewer d).Forgotten

/-- An announcement leaves the current event of an index shown, or brings its change (R120). -/
theorem take_changes (a : Announcement) {i : Fin 64} {s : State} (shown : s.showsIndex i = true) :
    (a.take s).1.guide.current.read i = s.guide.current.read i ∨ ∃ b ∈ (a.take s).2, b.forgets i = true := by
  cases ha : a.recomputes with
  | false => exact .inl (by rw [take_current ha])
  | true =>
    have taken : a.take s = s.recompute fun _ => true := by
      cases a with
      | guideTime | guideMark => rfl
      | _ => cases ha
    rw [taken]
    by_cases changed : (s.recompute fun _ => true).1.guide.current.read i = s.guide.current.read i
    · exact .inl changed
    · obtain ⟨c, index, -, mem⟩ := recompute_announces shown changed
      exact .inr ⟨_, mem, beq_iff_eq.mpr index⟩

theorem changing_kept (d : DestId) (i : Fin 64) (k : DestKind) (agreed : Prop) (x : Option Half) :
    KeptByTaking (Changing d i k agreed x) where
  choice _ _ _ _ h := ⟨h.kind, h.service, h.live, h.access, h.report, h.parental, h.forgets⟩
  taking before a rest s order h := by
    have bound := take_bound a h.live
    have left {p : Announcement → Bool} (ha : p a = false) (waits : ∃ b ∈ before ++ a :: rest, p b = true) :
        ∃ b ∈ before ++ rest ++ (a.take s).2, p b = true := exists_mem_append_left (exists_mem_split waits ha)
    have brought {p : Announcement → Bool} (h : ∃ b ∈ (a.take s).2, p b = true) :
        ∃ b ∈ before ++ rest ++ (a.take s).2, p b = true := h.imp fun b hb => ⟨List.mem_append_right _ hb.1, hb.2⟩
    refine ⟨bound.kind.trans h.kind, bound.service.trans h.service, (not_congr bound.vacant).mpr h.live, ?_, ?_, ?_, ?_⟩
    · cases ha : a.formsIndex i with
      | true => exact .inr (take_lastAccess_index h.service h.live (.inl ha))
      | false => exact h.access.imp (left ha) fun last => take_lastAccess_index h.service h.live (.inr last)
    · intro agree
      have report := h.report agree
      rw [handed_taken order] at report
      rw [handed_append, bound.access, report, take_handed]
    · intro view
      cases ha : a.formsParental i with
      | true => exact .inr (take_parental_forms ha h.service (h.kind.trans view) h.live)
      | false =>
        rcases h.parental view with waits | stands
        · exact .inl (left ha waits)
        · exact (take_parental_keeps ha h.service h.live stands).imp_left brought
    · cases ha : a.forgets i with
      | true => exact .inr (.inr (take_forgets ha h.service))
      | false =>
        rcases h.forgets with same | waits | forgotten
        · exact (take_changes a (showsIndex_of_dest h.service h.live)).imp (·.trans same) fun changes => .inl (brought changes)
        · exact .inr (.inl (left ha waits))
        · exact .inr (.inr (take_forgotten a forgotten))

/-- At the end of a delivery under way, the current event of `i` is `x`, or both units have taken its change for `d`. -/
theorem deliver_changing {d : DestId} {i : Fin 64} {k : DestKind} {agreed : Prop} {x : Option Half} {l : List Announcement} {s : State}
    (h : Changing d i k agreed x l s) : Changing d i k agreed x [] (s.deliver l) := deliver_induct (changing_kept d i k agreed x) h

end Sys2Proof.Machine
end

