-- ==== Sys2Proof/Proofs/ChangesTaken.lean ====
section
/-! SUPPORT. The taking of a current-event change by the parental unit and by the access unit (R103, R104, R137, R139, R143). -/

namespace Sys2Proof.Machine

/-! ## Forming for another destination -/

/-- Destination `d` and the parental unit's record of it are as they were. -/
structure ViewKept (d : DestId) (s t : State) : Prop where
  dest : t.dest d = s.dest d
  viewer : t.viewer d = s.viewer d

namespace ViewKept

variable {d : DestId} {s t u : State}

theorem refl (d : DestId) (s : State) : ViewKept d s s := ⟨rfl, rfl⟩

theorem trans (a : ViewKept d s t) (b : ViewKept d t u) : ViewKept d s u := ⟨b.dest.trans a.dest, b.viewer.trans a.viewer⟩

theorem ite {c : Prop} [Decidable c] (a : ViewKept d s t) (b : ViewKept d s u) : ViewKept d s (if c then t else u) := by
  split
  · exact a
  · exact b

end ViewKept

section
variable {d e : DestId} (h : d ≠ e) (s : State)
include h

theorem setDest_viewKept (x : Dest) : ViewKept d s (s.setDest e x) := ⟨by rw [setDest_dest, if_neg h], rfl⟩

theorem setViewer_viewKept (v : Viewer) : ViewKept d s (s.setViewer e v) := ⟨rfl, by rw [setViewer_viewer, if_neg h]⟩

theorem evaluate_viewKept : ViewKept d s (s.evaluate e) := ⟨(evaluate_alone e s).dests d h, evaluate_viewer d e s⟩

theorem endHold_viewKept (c : HoldCondition) : ViewKept d s (s.endHold e c) :=
  .ite (.trans (setViewer_viewKept h s _) ⟨rfl, rfl⟩) (setViewer_viewKept h s _)

theorem openHold_viewKept : ViewKept d s (s.openHold e) := .trans (setViewer_viewKept h s _) ⟨rfl, rfl⟩

theorem holdRule_viewKept : ViewKept d s (s.holdRule e) := by
  unfold State.holdRule
  dsimp only
  split
  · exact .refl d s
  · split
    · split
      · exact endHold_viewKept h s _
      · exact .ite (openHold_viewKept h s) (.refl d s)
    · exact endHold_viewKept h s _

theorem reportStored_viewKept : ViewKept d s (s.reportStored e) := by
  unfold State.reportStored
  dsimp only
  split
  · exact .refl d s
  · exact .ite (.trans (setViewer_viewKept h s _) (setDest_viewKept h _ _)) (setViewer_viewKept h s _)

theorem reportHanded_viewKept : ViewKept d s (s.reportHanded e) :=
  .ite (.trans (reportStored_viewKept h s) (evaluate_viewKept h _)) (reportStored_viewKept h s)

theorem formVerdict_viewKept : ViewKept d s (s.formVerdict e) := by
  unfold State.formVerdict
  dsimp only
  split
  · exact .refl d s
  · exact .trans (setViewer_viewKept h s _) (holdRule_viewKept h _)

theorem formAndReport_viewKept : ViewKept d s (s.formAndReport e) :=
  .trans (formVerdict_viewKept h s) (.ite (.refl d _) (reportHanded_viewKept h _))

end

/-- A forming that does not name `d`, or finds it no VIEW destination that is shown, leaves it. -/
theorem formEach_viewKept {want : Dest → Bool} {d : DestId} {s : State} (unnamed : ((s.dest d).isViewing && want (s.dest d)) = false) :
    ViewKept d s (s.formEach want) := by
  unfold State.formEach
  refine eachDest_keeps (P := ViewKept d s) (fun e u kept => ?_) (.refl d s)
  by_cases h : d = e
  · subst h
    rwa [kept.dest, unnamed]
  · exact .ite (kept.trans (formAndReport_viewKept h u)) kept

/-! ## Forming for a destination (R136, R137) -/

section
variable {d : DestId} {s : State}

theorem holdRule_dest (d e : DestId) (s : State) : (s.holdRule d).dest e = s.dest e := by
  unfold State.holdRule
  dsimp only
  split
  · rfl
  · split
    · split
      · exact endHold_dest d _ s e
      · split
        · rfl
        · rfl
    · exact endHold_dest d _ s e

theorem formVerdict_dest (d e : DestId) (s : State) : (s.formVerdict d).dest e = s.dest e := by
  unfold State.formVerdict
  dsimp only
  split
  · rfl
  · rw [holdRule_dest]
    rfl

theorem ruled_formed (p : Profile) (f : Formed) (v : Viewer) : (Viewer.ruled p f v).formed = v.formed := by
  unfold Viewer.ruled
  split
  · split <;> rfl
  · rfl

theorem ruled_last (p : Profile) (f : Formed) (v : Viewer) : (Viewer.ruled p f v).last = v.last := by
  unfold Viewer.ruled
  split
  · split <;> rfl
  · rfl

/-- A report handed is the last report, and the controller's (R51, R137). -/
theorem reportHanded_view {r : ParentalReport} (report : (s.viewer d).report = some r) (viewing : (s.dest d).isViewing = true) :
    (s.reportHanded d).viewer d = { s.viewer d with last := some r } ∧ ((s.reportHanded d).dest d).parental = some r := by
  have formed : (s.viewer d).formed.isSome = true := by
    cases h : (s.viewer d).formed with
    | none => simp [Viewer.report, h] at report
    | some f => rfl
  have stored : s.reportStored d = (s.setViewer d { s.viewer d with last := some r }).setDest d { s.dest d with parental := some r } := by
    unfold State.reportStored
    dsimp only
    rw [report]
    simp [viewing]
  have handed : s.reportHanded d = (s.reportStored d).evaluate d := by
    unfold State.reportHanded
    dsimp only
    rw [viewing, formed]
    rfl
  rw [handed, evaluate_viewer, (evaluate_alone d _).told.parental, stored]
  simp

theorem reportIfChanged_view {r : ParentalReport} (report : (s.viewer d).report = some r) (viewing : (s.dest d).isViewing = true) :
    (s.reportIfChanged d).viewer d = { s.viewer d with last := some r } ∧
      ((s.viewer d).last = (s.dest d).parental → ((s.reportIfChanged d).dest d).parental = some r) := by
  unfold State.reportIfChanged
  rw [report]
  split
  · next same =>
    rw [same]
    exact ⟨rfl, fun agree => agree.symm⟩
  · obtain ⟨viewer, parental⟩ := reportHanded_view report viewing
    exact ⟨viewer, fun _ => parental⟩

theorem formAndReport_formed {i : Fin 64} (viewing : (s.dest d).isViewing = true) (service : (s.dest d).service = some i) :
    ParentalFormed s (s.formAndReport d) d i (s.viewer d) := by
  have frame := (formAndReport_frame d s).toSettled
  have ruled := formVerdict_viewer d s i service
  dsimp only at ruled
  unfold ParentalFormed
  dsimp only
  rw [profile_congr frame.profiles, formedFor_congr frame.services (by rw [frame.guide]) (by rw [frame.guide]) frame.time]
  generalize s.formedFor (s.profile (s.dest d).profile) i (s.viewer d).unlock = f at ruled ⊢
  generalize (s.profile (s.dest d).profile) = p at ruled ⊢
  have report : ((s.formVerdict d).viewer d).report = some ⟨f.verdict, f.uncovered, (Viewer.ruled p f { s.viewer d with formed := some f }).hold,
      (Viewer.ruled p f { s.viewer d with formed := some f }).serial⟩ := by
    rw [ruled, Viewer.report, ruled_formed]
    rfl
  obtain ⟨viewer, parental⟩ := reportIfChanged_view report (by rwa [formVerdict_dest])
  rw [ruled] at viewer parental
  refine ⟨viewer, fun agree => parental ?_⟩
  rw [ruled_last, formVerdict_dest]
  exact agree

end

/-- Forming each destination named forms for `d` from its record as it was. -/
theorem formEach_formed {want : Dest → Bool} {d : DestId} {i : Fin 64} {s : State} (viewing : (s.dest d).isViewing = true)
    (named : want (s.dest d) = true) (service : (s.dest d).service = some i) : ParentalFormed s (s.formEach want) d i (s.viewer d) := by
  have carried {u t : State} (frame : Settled s t) (settled : Settled s u) (view : ViewKept d u t)
      (h : ParentalFormed s u d i (s.viewer d)) : ParentalFormed s t d i (s.viewer d) := by
    have verdict (p : Profile) (x : Option Unlock) : t.formedFor p i x = u.formedFor p i x := by
      rw [formedFor_congr frame.services (by rw [frame.guide]) (by rw [frame.guide]) frame.time,
        formedFor_congr settled.services (by rw [settled.guide]) (by rw [settled.guide]) settled.time]
    have profile : t.profile (s.dest d).profile = u.profile (s.dest d).profile :=
      (profile_congr frame.profiles _).trans (profile_congr settled.profiles _).symm
    rw [ParentalFormed, profile, verdict, view.dest, view.viewer]
    exact h
  unfold State.formEach
  refine And.right (eachDest_once (P := fun u => Settled s u ∧ ViewKept d s u)
    (Q := fun u => Settled s u ∧ ParentalFormed s u d i (s.viewer d)) d (fun e u h same => ?_) (fun u same => ?_) (fun e u h formed => ?_)
    ⟨.refl s, .refl d s⟩)
  · split
    · exact ⟨same.1.trans (formAndReport_frame e u).toSettled, same.2.trans (formAndReport_viewKept h u)⟩
    · exact same
  · obtain ⟨settled, ⟨dest, viewer⟩⟩ := same
    rw [if_pos (by rw [dest, viewing, named]; rfl)]
    have formed := formAndReport_formed (s := u) (by rwa [dest]) (by rwa [dest])
    rw [ParentalFormed, dest, viewer] at formed
    exact ⟨settled.trans (formAndReport_frame d u).toSettled, formed⟩
  · split
    · have settled := formed.1.trans (formAndReport_frame e u).toSettled
      exact ⟨settled, carried settled formed.1 (formAndReport_viewKept h u) formed.2⟩
    · exact formed

end Sys2Proof.Machine
end

