-- ==== Sys2Proof/Proofs/CurrentEvents.lean ====
section
/-! SUPPORT. The events and orders that change current events (R119, R120): time set and time steps, second marks, SET_SERVICE, PURGE_GUIDE and the end of an
application. -/

namespace Sys2Proof.Machine

/-! ## A change taken for every destination of its index -/

/-- Once nothing waits, a current event that differs has been taken by both units. -/
theorem eventChangeTaken_of_changing {s t : State} {i : Fin 64} {x : Option Half}
    (h : ∀ d, (s.dest d).state ≠ .vacant → (s.dest d).service = some i →
      Changing d i (s.dest d).kind (s.lastAccess d = (s.dest d).access) x [] t)
    (changed : x ≠ t.guide.current.read i) : EventChangeTaken s t i := by
  intro d live service
  have done := h d live service
  have last := done.access.resolve_left (by simp)
  have forgotten := (done.forgets.resolve_left fun same => changed same.symm).resolve_left (by simp)
  exact ⟨⟨last, fun agree => (done.report agree).trans last⟩, fun view => (done.parental view).resolve_left (by simp),
    forgotten.1, forgotten.2⟩

/-- Changes taken from a state are taken from another with the same destinations and last reports. -/
theorem EventChangeTaken.of_same {s u t : State} {i : Fin 64} (h : EventChangeTaken u t i) (ctl : u.ctl.dests = s.ctl.dests)
    (access : u.access.last = s.access.last) : EventChangeTaken s t i := by
  have dest (d : DestId) : u.dest d = s.dest d := congrArg (fun x : Table Dest 12 => x.read d) ctl
  have last (d : DestId) : u.lastAccess d = s.lastAccess d := congrArg (fun x : Table (Option AccessVerdict) 12 => x.read d) access
  intro d live service
  obtain ⟨formed, stands, forgotten⟩ := h d (dest d ▸ live) (dest d ▸ service)
  exact ⟨⟨formed.last, fun agree => formed.report (last d ▸ dest d ▸ agree)⟩, fun view => stands (dest d ▸ view), forgotten⟩

/-! ## Time announcements -/

/-- A delivery of time announcements, with the destinations as in `s`: every current event is as R119 gives it, and a change is taken by both units. -/
theorem deliver_time_changes {s u : State} {l : List Announcement} (sound : EventsSound u) (current : u.guide.current = s.guide.current)
    (bound : ∀ d, (u.dest d).kind = (s.dest d).kind ∧ (u.dest d).service = (s.dest d).service ∧ (u.dest d).state = (s.dest d).state ∧
      (u.dest d).access = (s.dest d).access) (last : u.access.last = s.access.last)
    (recomputes : ∃ a ∈ l, a.recomputes = true) (access : ∃ a ∈ l, a.formsAccess = true)
    (parental : ∀ i, ∃ a ∈ l, a.formsParental i = true) (unreported : ∀ a ∈ l, a.reports = false) (i : Fin 64) :
    CurrentEventIs (u.deliver l) i ((u.deliver l).guide.current.read i) ∧
      (s.guide.current.read i ≠ (u.deliver l).guide.current.read i → EventChangeTaken s (u.deliver l) i) := by
  refine ⟨deliver_currentEventIs recomputes sound i, eventChangeTaken_of_changing fun d live shown => deliver_changing ?_⟩
  obtain ⟨kind, service, state, report⟩ := bound d
  have reported : u.lastAccess d = s.lastAccess d := congrArg (fun x : Table (Option AccessVerdict) 12 => x.read d) last
  have forms : ∃ a ∈ l, a.formsIndex i = true := by
    obtain ⟨a, mem, forms⟩ := access
    refine ⟨a, mem, ?_⟩
    cases a with
    | accessTime | accessMark t => rfl
    | _ => cases forms
  exact ⟨kind, service.trans shown, state ▸ live, .inl forms,
    fun agree => by rw [handed_unreported unreported, report, reported, agree], fun _ => .inl (parental i), .inl (by rw [current])⟩

/-! ## The changes of one recomputation -/

/-- In `u` the changes that a recomputation of `s` announced are sent: it has the current events recomputed, and the destinations are bound as in `s`, with
the last reports of the access unit taken where they were in `s`. -/
structure Sends (want : Fin 64 → Bool) (s u : State) : Prop where
  frame : DeliveryFrame s u
  current : u.guide.current = (s.recompute want).1.guide.current
  kind : ∀ d, (s.dest d).state ≠ .vacant → (u.dest d).kind = (s.dest d).kind
  service : ∀ d, (s.dest d).state ≠ .vacant → (u.dest d).service = (s.dest d).service
  live : ∀ d, (s.dest d).state ≠ .vacant → (u.dest d).state ≠ .vacant
  agreed : ∀ d, (s.dest d).state ≠ .vacant → s.lastAccess d = (s.dest d).access → (u.dest d).access = u.lastAccess d

theorem recompute_sends (want : Fin 64 → Bool) (s : State) : Sends want s (s.recompute want).1 where
  frame := recompute_frame want s
  current := rfl
  kind _ _ := rfl
  service _ _ := rfl
  live _ h := h
  agreed _ _ h := h.symm

theorem recompute_unrecomputed (want : Fin 64 → Bool) (s : State) : ∀ a ∈ (s.recompute want).2, a.recomputes = false := by
  intro a mem
  obtain ⟨c, -, mem⟩ := List.mem_flatMap.mp mem
  simp only [List.mem_cons, List.not_mem_nil, or_false] at mem
  rcases mem with rfl | rfl <;> rfl

section
variable {want : Fin 64 → Bool} {s u : State}

theorem Sends.read (h : Sends want s u) (i : Fin 64) : (u.deliver (s.recompute want).2).guide.current.read i =
    if want i then s.currentOf i else s.guide.current.read i := by
  rw [deliver_current (recompute_unrecomputed want s), h.current, recompute_read]

theorem Sends.kept (h : Sends want s u) {i : Fin 64} (unnamed : want i = false) :
    (u.deliver (s.recompute want).2).guide.current.read i = s.guide.current.read i := by
  rw [h.read, unnamed]
  rfl

theorem Sends.currentEventIs (h : Sends want s u) (sound : EventsSound s) {i : Fin 64} (named : want i = true) :
    CurrentEventIs (u.deliver (s.recompute want).2) i ((u.deliver (s.recompute want).2).guide.current.read i) := by
  have frame := h.frame.trans (deliver_frame (s.recompute want).2 u)
  have events : EventsSound (u.deliver (s.recompute want).2) := by
    rw [EventsSound, frame.events]
    exact sound
  rw [h.read, named, if_pos rfl, ← currentOf_congr frame]
  exact currentEventIs_currentOf events i

/-- A change sent is taken by both units. -/
theorem Sends.taken (h : Sends want s u) {i : Fin 64}
    (changed : s.guide.current.read i ≠ (u.deliver (s.recompute want).2).guide.current.read i) :
    EventChangeTaken s (u.deliver (s.recompute want).2) i := by
  refine eventChangeTaken_of_changing (fun d live shown => deliver_changing ?_) changed
  have announced : (s.recompute want).1.guide.current.read i ≠ s.guide.current.read i := by
    rw [deliver_current (recompute_unrecomputed want s), h.current] at changed
    exact changed.symm
  obtain ⟨c, index, access, parental⟩ := recompute_announces (showsIndex_of_dest shown live) announced
  have on : (c.index == i) = true := beq_iff_eq.mpr index
  exact ⟨h.kind d live, (h.service d live).trans shown, h.live d live, .inl ⟨_, access, on⟩,
    fun agree => by rw [handed_unreported (recompute_unreported want s), h.agreed d live agree], fun _ => .inl ⟨_, parental, on⟩,
    .inr (.inl ⟨_, parental, on⟩)⟩

end

/-! ## SET_SERVICE (R41) -/

/-- Reports taken one after another within an order: a destination stays bound as it was, and holds the report handed. -/
theorem takeReports_bound (l : List (DestId × AccessVerdict)) {d : DestId} {s : State} (live : (s.dest d).state ≠ .vacant) :
    Dest.Bound { s.dest d with access := handed d (l.map fun r => .accessReport r.1 r.2) (s.dest d).access }
      ((l.foldl (fun s r => s.takeAccessReport r.1 r.2) s).dest d) := by
  induction l generalizing s with
  | nil => exact .refl _
  | cons r l ih =>
    have first : Dest.Bound { s.dest d with access := Announcement.hands d (s.dest d).access (.accessReport r.1 r.2) }
        ((s.takeAccessReport r.1 r.2).dest d) := take_bound (.accessReport r.1 r.2) live
    have rest := ih ((not_congr first.vacant).mpr live)
    exact ⟨rest.kind.trans first.kind, rest.profile.trans first.profile, rest.service.trans first.service, rest.vacant.trans first.vacant,
      rest.access.trans (congrArg (handed d _) first.access)⟩

theorem takeReports_access (l : List (DestId × AccessVerdict)) (s : State) :
    (l.foldl (fun s r => s.takeAccessReport r.1 r.2) s).access = s.access :=
  foldl_chain (R := fun s t : State => t.access = s.access) (fun _ => rfl) (fun a b => b.trans a)
    (fun s r => (takeAccessReport_frame r.1 r.2 s).access) l s

theorem storeLast_dest (l : List (DestId × AccessVerdict)) (d : DestId) (s : State) : (s.storeLast l).dest d = s.dest d := by
  unfold State.storeLast
  exact foldl_chain (R := fun s t : State => t.dest d = s.dest d) (fun _ => rfl) (fun a b => b.trans a)
    (fun s r => setLastAccess_dest s r.1 (some r.2) d) l s

/-- The reports that a forming brings, as announcements. -/
def State.reportsOf (s : State) (named : Dest → Bool) : List Announcement := (s.accessReports named).map fun r => .accessReport r.1 r.2

theorem formAccessNow_bound (named : Dest → Bool) {d : DestId} {s : State} (live : (s.dest d).state ≠ .vacant) :
    Dest.Bound { s.dest d with access := handed d (s.reportsOf named) (s.dest d).access } ((s.formAccessNow named).dest d) := by
  have taken := takeReports_bound (s.accessReports named) (d := d) (s := s.storeLast (s.accessReports named)) (by rwa [storeLast_dest])
  rwa [storeLast_dest] at taken

theorem formAccessNow_last (named : Dest → Bool) (d : DestId) (s : State) :
    (s.formAccessNow named).lastAccess d = handed d (s.reportsOf named) (s.lastAccess d) := by
  rw [State.reportsOf, handed_reports]
  exact congrArg (fun u : AccessUnit => u.last.read d) (takeReports_access _ _)

/-- Forming access verdicts within the order leaves a recomputation's changes to be sent. -/
theorem formAccessNow_sends (want : Fin 64 → Bool) (named : Dest → Bool) (s : State) :
    Sends want s ((s.recompute want).1.formAccessNow named) := by
  have settled := formAccessNow_frame named (s.recompute want).1
  have bound (d : DestId) (live : (s.dest d).state ≠ .vacant) := formAccessNow_bound named (s := (s.recompute want).1) (d := d) live
  refine ⟨(recompute_frame want s).trans settled.toDeliveryFrame, congrArg Guide.current settled.guide,
    fun d live => (bound d live).kind, fun d live => (bound d live).service,
    fun d live => (not_congr (bound d live).vacant).mpr live, fun d live agree => ?_⟩
  rw [formAccessNow_last, (bound d live).access]
  exact congrArg (handed d _) agree.symm

theorem serviceChanged_eq (i : Fin 64) (s : State) : s.serviceChanged i =
    ((s.recompute fun j => j == i).1.formAccessNow fun x => x.service == some i).deliver (s.recompute fun j => j == i).2 := rfl

theorem inUse_iff {s : State} {i : Fin 64} : s.inUse i = true ↔
    (∃ d, (s.dest d).state ≠ .vacant ∧ (s.dest d).service = some i) ∨ ∃ e ∈ s.ctl.changes, e.2 = i := by
  have holders : s.holders i ≠ 0 ↔ ∃ d, (s.dest d).state ≠ .vacant ∧ (s.dest d).service = some i := by
    rw [← showsIndex_iff, ← Nat.pos_iff_ne_zero, State.holders, Table.count, List.countP_pos_iff]
    simp only [State.showsIndex, List.any_eq_true]
  rw [State.inUse, Bool.or_eq_true, bne_iff_ne, holders]
  simp

/-- A SET_SERVICE that is not refused (R41). -/
theorem orderSetService_taken {s : State} {i : Fin 64} {n product : Half} (number : n ≠ 0)
    (free : ∀ j v, j ≠ i → s.service j = some v → v.number ≠ n) (held : s.inUse i = true → ∃ v, s.service i = some v ∧ v.number = n) :
    (orderSetService (sourceByte i :: bytes16 n ++ bytes16 product) s).state =
      (s.setService i (some ⟨n, productOf product⟩)).serviceChanged i := by
  have index : below 64 (field8 (sourceByte i :: bytes16 n ++ bytes16 product) 0) = some i := by simp
  have numbered : half (sourceByte i :: bytes16 n ++ bytes16 product) 1 = n := bytes16_join n
  have priced : half (sourceByte i :: bytes16 n ++ bytes16 product) 3 = product := bytes16_join product
  have untaken : s.numberTaken i n = false := by
    refine List.any_eq_false.mpr fun e mem taken => ?_
    obtain ⟨other, named⟩ := Bool.and_eq_true_iff.mp taken
    obtain ⟨v, hv, hn⟩ : ∃ v, e.2 = some v ∧ (v.number == n) = true := by simpa [Option.any_eq_true] using named
    exact free e.1 v (bne_iff_ne.mp other) ((Table.mem_entries.mp mem).trans hv) (beq_iff_eq.mp hn)
  have kept : (s.inUse i && (s.service i).map (·.number) != some n) = false := by
    cases used : s.inUse i with
    | false => rfl
    | true =>
      obtain ⟨v, hv, hn⟩ := held used
      simp [hv, hn]
  simp only [orderSetService, index, numbered, priced, if_neg number, untaken, kept]
  rfl

/-! ## PURGE_GUIDE (R122) -/

/-- The numbers of the services of which PURGE_GUIDE removes an event. -/
def State.purgedNumbers (n : Half) (s : State) : List Half := (s.guide.events.filter fun e => purgeNames n e.service).map (·.service)

theorem orderPurgeGuide_state (b : List Byte) (s : State) : (orderPurgeGuide b s).state =
    ((s.emptyGuide (half b 0)).recompute ((s.emptyGuide (half b 0)).touches (s.purgedNumbers (half b 0)))).1.deliver
      ((s.emptyGuide (half b 0)).recompute ((s.emptyGuide (half b 0)).touches (s.purgedNumbers (half b 0)))).2 := rfl

theorem touches_iff {s : State} {l : List Half} {i : Fin 64} : s.touches l i = true ↔ ∃ v, s.service i = some v ∧ v.number ∈ l := by
  unfold State.touches
  cases h : s.service i with
  | none => simp
  | some v => simp

theorem purged_iff {s : State} {n : Half} {i : Fin 64} : (s.emptyGuide n).touches (s.purgedNumbers n) i = true ↔
    ∃ v, s.service i = some v ∧ ∃ e ∈ s.guide.events, e.service = v.number ∧ (n = 0 ∨ v.number = n) := by
  have service : (s.emptyGuide n).service i = s.service i := rfl
  rw [touches_iff, service]
  refine exists_congr fun v => and_congr_right fun _ => ?_
  simp only [State.purgedNumbers, List.mem_map, List.mem_filter, purgeNames, Bool.or_eq_true, beq_iff_eq]
  constructor
  · rintro ⟨e, ⟨mem, named⟩, same⟩
    exact ⟨e, mem, same, same ▸ named⟩
  · rintro ⟨e, mem, same, named⟩
    exact ⟨e, ⟨mem, same ▸ named⟩, same⟩

/-- An index whose events are purged has no current event left. -/
theorem currentOf_purged {s : State} {n : Half} {i : Fin 64} (h : (s.emptyGuide n).touches (s.purgedNumbers n) i = true) :
    (s.emptyGuide n).currentOf i = none := by
  obtain ⟨v, service, e, -, -, named⟩ := purged_iff.mp h
  have held : (s.emptyGuide n).service i = some v := service
  have unweighed : (s.emptyGuide n).eventWeighed v.number = none := by
    unfold State.eventWeighed
    split
    · rfl
    · refine List.find?_eq_none.mpr fun w mem weighed => ?_
      have stays : purgeNames n w.service = false := by simpa using (List.mem_filter.mp mem).2
      have on := beq_iff_eq.mp (Bool.and_eq_true_iff.mp weighed).1
      rw [on] at stays
      rcases named with all | one
      · simp [purgeNames, all] at stays
      · simp [purgeNames, one] at stays
  rw [State.currentOf, held]
  simp [unweighed]

end Sys2Proof.Machine
end

