-- ==== Sys2Proof/Proofs/CurrentEventsKept.lean ====
section
/-! SUPPORT. The current events as a whole (R119, R120): each event and order that changes them, and the taking of a change. -/

namespace Sys2Proof.Machine

/-! ## Second marks and clock cells -/

/-- A tick with a second mark, on a part whose events do not overlap. -/
theorem tick_changes {s : State} (sound : EventsSound s) (i : Fin 64) :
    let t := s.marked.deliver (markNews (s.time.sec + 1))
    CurrentEventIs t i (t.guide.current.read i) ∧ (s.guide.current.read i ≠ t.guide.current.read i → EventChangeTaken s t i) := by
  refine deliver_time_changes (s := s) (u := s.marked) sound rfl (fun d => ?_) rfl ⟨.guideMark, by simp [markNews], rfl⟩
    ⟨.accessMark (s.time.sec + 1), by simp [markNews], rfl⟩ (fun _ => ⟨.parentalMark (s.time.sec + 1), by simp [markNews], rfl⟩)
    (markNews_unreported _) i
  rw [marked_dest]
  exact ⟨rfl, rfl, rfl, rfl⟩

section
variable {s : State} {f : FeedId} {c : Cell} {k : Fin 256} {e : FlowEntry} {t : State}

theorem PassesCheck.current (h : PassesCheck s f c k e t) : t.guide.current = s.guide.current := by cases h <;> rfl
theorem PassesCheck.events (h : PassesCheck s f c k e t) : t.guide.events = s.guide.events := by cases h <;> rfl

/-- A clock cell of the source that sets the time, or steps it, sends time announcements, a second mark behind them or none. -/
theorem clockCell_announces (good : field16 c.payload.rows 4 ≤ 999) (source : s.time.source = some f)
    (stepped : s.time.state = .unset ∨ secondsApart (word c.payload.rows 0) s.time.sec < -2000000 ∨
      2000000 < secondsApart (word c.payload.rows 0) s.time.sec ∨
      s.time.apart (word c.payload.rows 0) (field16 c.payload.rows 4) < -2000 ∨
      2000 < s.time.apart (word c.payload.rows 0) (field16 c.payload.rows 4)) :
    ∃ more, (∀ a ∈ more, a.reports = false) ∧ s.clockCell f c = (s.timeSet c).deliver (timeNews ++ more) := by
  by_cases set : s.time.state = .unset
  · exact ⟨[], by simp, clockCell_unset good source set⟩
  · rw [clockCell_compared good source set]
    by_cases ahead : 2000000 < secondsApart (word c.payload.rows 0) s.time.sec ∨
        -2000000 ≤ secondsApart (word c.payload.rows 0) s.time.sec ∧ 2000 < s.time.apart (word c.payload.rows 0) (field16 c.payload.rows 4)
    · exact ⟨_, markNews_unreported (word c.payload.rows 0), by rw [compare_forward ahead]; rfl⟩
    · refine ⟨[], by simp, ?_⟩
      have far := stepped.resolve_left set
      rw [compare_backward (by omega)]
      rfl

/-- Time announcements of a clock cell, on a part whose events do not overlap (R29, R32, R35). -/
theorem timeSet_changes {u : State} (sound : EventsSound u) (current : u.guide.current = s.guide.current) (ctl : u.ctl = s.ctl)
    (access : u.access = s.access) (c : Cell) {more : List Announcement} (unreported : ∀ a ∈ more, a.reports = false) (i : Fin 64) :
    let t := (u.timeSet c).deliver (timeNews ++ more)
    CurrentEventIs t i (t.guide.current.read i) ∧ (s.guide.current.read i ≠ t.guide.current.read i → EventChangeTaken s t i) := by
  have dest (d : DestId) : (u.timeSet c).dest d = s.dest d := congrArg (fun x : Controller => x.dests.read d) ctl
  refine deliver_time_changes (s := s) (u := u.timeSet c) sound current (fun d => ?_) (congrArg AccessUnit.last access)
    ⟨.guideTime, by simp [timeNews], rfl⟩ ⟨.accessTime, by simp [timeNews], rfl⟩ (fun _ => ⟨.parentalTime, by simp [timeNews], rfl⟩)
    (fun a mem => ?_) i
  · rw [dest]
    exact ⟨rfl, rfl, rfl, rfl⟩
  · rcases List.mem_append.mp mem with mem | mem
    · simp only [timeNews, List.mem_cons, List.not_mem_nil, or_false] at mem
      rcases mem with rfl | rfl | rfl <;> rfl
    · exact unreported a mem

end

/-! ## The host link apart -/

section
variable {s t : State} {i : Fin 64} (l : HostLink)

theorem EventChangeTaken.atLink (h : EventChangeTaken s t i) : EventChangeTaken s { t with link := l } i := by
  intro d live service
  obtain ⟨⟨last, report⟩, stands, forgotten⟩ := h d live service
  exact ⟨⟨last, report⟩, stands, forgotten⟩

theorem CurrentEventIs.atLink {x : Option Half} (h : CurrentEventIs t i x) : CurrentEventIs { t with link := l } i x := h

end

/-! ## The two units -/

/-- What the parental unit leaves of a destination at an event change. -/
theorem parentalEventChange_other {i : Fin 64} {d : DestId} {s : State} (h : (s.dest d).service ≠ some i) :
    ViewKept d s (s.parentalEventChange i) := by
  have forgotten : ViewKept d s (s.eventForgotten i) := ⟨eventForgotten_dest i s d, by rw [eventForgotten_viewer, if_neg h]⟩
  rw [parentalEventChange_eq]
  exact forgotten.trans (formEach_viewKept (by simp [forgotten.dest, h]))

section
variable {i : Fin 64} {d : DestId} {s : State} (service : (s.dest d).service = some i)
include service

theorem eventForgotten_on : (s.eventForgotten i).viewer d = (s.viewer d).forgetful.periodOnly := by
  rw [eventForgotten_viewer, if_pos service]

theorem parentalEventChange_unviewed (h : (s.dest d).isViewing = false) :
    (s.parentalEventChange i).dest d = s.dest d ∧ (s.parentalEventChange i).viewer d = (s.viewer d).forgetful.periodOnly := by
  have kept : ViewKept d (s.eventForgotten i) (s.parentalEventChange i) := by
    rw [parentalEventChange_eq]
    exact formEach_viewKept (by simp [eventForgotten_dest, h])
  exact ⟨kept.dest.trans (eventForgotten_dest i s d), kept.viewer.trans (eventForgotten_on service)⟩

theorem parentalEventChange_viewed (h : (s.dest d).isViewing = true) :
    ParentalFormed s (s.parentalEventChange i) d i (s.viewer d).forgetful.periodOnly := by
  have dest := eventForgotten_dest i s d
  have formed : ParentalFormed (s.eventForgotten i) (s.parentalEventChange i) d i ((s.eventForgotten i).viewer d) := by
    have viewing : ((s.eventForgotten i).dest d).isViewing = true := (congrArg Dest.isViewing dest).trans h
    have shown : ((s.eventForgotten i).dest d).service = some i := (congrArg Dest.service dest).trans service
    rw [parentalEventChange_eq]
    exact formEach_formed viewing (beq_iff_eq.mpr shown) shown
  rw [eventForgotten_on service] at formed
  unfold ParentalFormed at formed ⊢
  rwa [dest] at formed

end

theorem isViewing_iff {x : Dest} : x.isViewing = true ↔ x.state ≠ .vacant ∧ x.kind = .view := by
  simp [Dest.isViewing, and_comm]

theorem storeLast_eq (l : List (DestId × AccessVerdict)) (s : State) :
    s.storeLast l = { s with access := { s.access with last := (s.storeLast l).access.last } } := by
  unfold State.storeLast
  refine foldl_chain (R := fun s t : State => t = { s with access := { s.access with last := t.access.last } }) (fun _ => rfl) ?_
    (fun _ _ => rfl) l s
  intro s t u a b
  rw [b, a]

/-! ## The announcements of a recomputation, as the two units are told of a change -/

/-- The changes sent are those of the indices whose current event differs and that a destination shows (R120, log entry 3). -/
theorem recompute_announced (want : Fin 64 → Bool) (s : State) : (s.recompute want).2 = (List.finRange 64).flatMap fun i =>
    let change : EventChange := ⟨i, s.guide.current.read i, (s.recompute want).1.guide.current.read i⟩
    if change.before ≠ change.after ∧ ∃ d, (s.dest d).state ≠ .vacant ∧ (s.dest d).service = some i
    then [.accessChange change, .parentalChange change] else [] := by
  rw [recompute_changes]
  congr 1
  funext i
  dsimp only
  rw [recompute_read]
  cases want i with
  | false => simp
  | true => simp only [if_true, true_and, showsIndex_iff]

/-! ## Each event and order by itself -/

/-- A clock cell that sets the time or steps it (R29, R32, R35). -/
theorem clockCell_changes {s : State} {f : FeedId} {c : Cell} {k : Fin 256} {e : FlowEntry} {checked : State} (taken : Taken s f c k e checked)
    (kind : e.kind = .clock) (sound : EventsSound s) (good : field16 c.payload.rows 4 ≤ 999) (source : s.time.source = some f)
    (stepped : s.time.state = .unset ∨ secondsApart (word c.payload.rows 0) s.time.sec < -2000000 ∨
      2000000 < secondsApart (word c.payload.rows 0) s.time.sec ∨
      s.time.apart (word c.payload.rows 0) (field16 c.payload.rows 4) < -2000 ∨
      2000 < s.time.apart (word c.payload.rows 0) (field16 c.payload.rows 4)) :
    ∃ t, exec (.feedCellArrival f c) s = .next t ∧ ∀ i, CurrentEventIs t i (t.guide.current.read i) ∧
      (s.guide.current.read i ≠ t.guide.current.read i → EventChangeTaken s t i) := by
  have run : exec (.feedCellArrival f c) s = .next ((checked.countFeed f .consumed).clockCell f c) := by rw [taken.exec, dispose_clock kind]
  have time : (checked.countFeed f .consumed).time = s.time := taken.passes.time
  have current : (checked.countFeed f .consumed).guide.current = s.guide.current := taken.passes.current
  have events : (checked.countFeed f .consumed).guide.events = s.guide.events := taken.passes.events
  have ctl : (checked.countFeed f .consumed).ctl = s.ctl := taken.passes.ctl
  have access : (checked.countFeed f .consumed).access = s.access := taken.passes.access
  generalize checked.countFeed f .consumed = u at *
  obtain ⟨more, unreported, announces⟩ := clockCell_announces good (time ▸ source) (time ▸ stepped)
  have soundly : EventsSound u := by
    rw [EventsSound, events]
    exact sound
  exact ⟨_, by rw [run, announces], timeSet_changes soundly current ctl access c unreported⟩

/-- A SET_SERVICE that is not refused (R41). -/
theorem setService_changes {s : State} {i : Fin 64} {n : Half} (tag product : Half) (rest : LinkAtRest s) (sound : EventsSound s)
    (number : n ≠ 0) (free : ∀ j v, j ≠ i → s.service j = some v → v.number ≠ n)
    (held : s.inUse i = true → ∃ v, s.service i = some v ∧ v.number = n) :
    ∃ t, exec (.setService tag (sourceByte i :: bytes16 n ++ bytes16 product)) s = .next t ∧
      CurrentEventIs t i (t.guide.current.read i) ∧ (s.guide.current.read i ≠ t.guide.current.read i → EventChangeTaken s t i) ∧
      ∀ j, j ≠ i → t.guide.current.read j = s.guide.current.read j := by
  obtain ⟨l, run⟩ := exec_order_blocks .setService tag (b := sourceByte i :: bytes16 n ++ bytes16 product) rest rfl
  generalize (⟨Order.setService.code, tag, sourceByte i :: bytes16 n ++ bytes16 product⟩ : OrderRecord) = r at run
  have state : (runOrder .setService (sourceByte i :: bytes16 n ++ bytes16 product) (s.during r)).state =
      ((s.during r).setService i (some ⟨n, productOf product⟩)).serviceChanged i := orderSetService_taken number free held
  rw [state, serviceChanged_eq] at run
  have sends := formAccessNow_sends (fun j => j == i) (fun x => x.service == some i)
    ((s.during r).setService i (some ⟨n, productOf product⟩))
  exact ⟨_, run, (sends.currentEventIs sound (by simp)).atLink l,
    fun changed => ((sends.taken changed).of_same (s := s) rfl rfl).atLink l, fun j other => sends.kept (by simp [other])⟩

/-- A PURGE_GUIDE (R122). -/
theorem purgeGuide_changes {s : State} (tag n : Half) (rest : LinkAtRest s) :
    ∃ t, exec (.purgeGuide tag (bytes16 n)) s = .next t ∧ ∀ i,
      ((s.emptyGuide n).touches (s.purgedNumbers n) i = true → t.guide.current.read i = none) ∧
      ((s.emptyGuide n).touches (s.purgedNumbers n) i = false → t.guide.current.read i = s.guide.current.read i) ∧
      (s.guide.current.read i ≠ t.guide.current.read i → EventChangeTaken s t i) := by
  obtain ⟨l, run⟩ := exec_order_blocks .purgeGuide tag (b := bytes16 n) rest rfl
  generalize (⟨Order.purgeGuide.code, tag, bytes16 n⟩ : OrderRecord) = r at run
  have named : half (bytes16 n) 0 = n := bytes16_join n
  have state : (runOrder .purgeGuide (bytes16 n) (s.during r)).state = _ := orderPurgeGuide_state (bytes16 n) (s.during r)
  rw [state, named] at run
  have sends := recompute_sends (((s.during r).emptyGuide n).touches ((s.during r).purgedNumbers n)) ((s.during r).emptyGuide n)
  refine ⟨_, run, fun i => ⟨fun touched => ?_, fun left => sends.kept left,
    fun changed => ((sends.taken changed).of_same (s := s) rfl rfl).atLink l⟩⟩
  have purged : ((s.during r).emptyGuide n).touches ((s.during r).purgedNumbers n) i = true := touched
  exact (sends.read i).trans (by rw [if_pos purged, currentOf_purged purged])

/-- The reports that the access unit hands at a current-event change (R103, R104). -/
theorem mem_accessChange {s : State} {c : EventChange} {a : Announcement} : a ∈ ((Announcement.accessChange c).take s).2 ↔
    ∃ d, ((s.dest d).state ≠ .vacant ∧ (s.dest d).service = some c.index) ∧ s.lastAccess d ≠ some (s.accessVerdict c.index) ∧
      a = .accessReport d (s.accessVerdict c.index) := by
  refine List.mem_map.trans ⟨?_, ?_⟩
  · rintro ⟨⟨d, v⟩, mem, rfl⟩
    obtain ⟨i, service, live, on, rfl, last⟩ := mem_accessReports.mp mem
    obtain rfl : i = c.index := by simpa [service] using on
    exact ⟨d, ⟨live, service⟩, last, rfl⟩
  · rintro ⟨d, ⟨live, service⟩, last, rfl⟩
    exact ⟨(d, s.accessVerdict c.index), mem_accessReports.mpr ⟨c.index, service, live, by simp [service], rfl, last⟩, rfl⟩

/-- Settles O60: recomputations by the values and the changes that they give, deliveries by what is kept while changes wait, and the two units by
destination. -/
theorem currentEvents : Obligations.CurrentEvents := by
  refine ⟨fun s want sound => ?_, fun s running sound set reached => ?_,
    fun s f c k e checked taken kind sound good source stepped => clockCell_changes taken kind sound good source stepped,
    fun s tag n product i rest sound number free use => ?_, fun s tag n rest sound => ?_, fun w sound i => ?_, fun s c => ?_, fun s c => ?_⟩
  · refine ⟨fun i named => ?_, fun i unnamed => ?_, rfl, recompute_announced want s⟩
    · rw [recompute_read, named]
      exact currentEventIs_currentOf sound i
    · rw [recompute_read, unnamed]
      rfl
  · exact ⟨_, by rw [exec_tick running, tick_over set reached], tick_changes sound⟩
  · refine setService_changes tag product rest sound number free fun used => use.resolve_left fun ⟨unshown, unstaged⟩ => ?_
    rcases inUse_iff.mp used with ⟨d, live, shown⟩ | ⟨e, mem, staged⟩
    · exact unshown d live shown
    · exact unstaged e mem staged
  · obtain ⟨t, run, changes⟩ := purgeGuide_changes tag n rest
    refine ⟨t, run, fun i => ?_⟩
    obtain ⟨purged, kept, taken⟩ := changes i
    exact ⟨fun lost => purged (purged_iff.mpr lost), fun left => kept (Bool.eq_false_iff.mpr (mt purged_iff.mp left)), taken⟩
  · have sends := recompute_sends (w.state.touches w.touched) w.state
    exact ⟨fun touched => sends.currentEventIs sound (touches_iff.mpr touched),
      fun left => sends.kept (Bool.eq_false_iff.mpr (mt touches_iff.mp left)), sends.taken⟩
  · have frame := parentalEventChange_frame c.index s
    dsimp only [Announcement.take]
    refine ⟨rfl, frame.toSettled, frame.access, fun d => ⟨fun other => ?_, fun service =>
      ⟨fun viewing => parentalEventChange_viewed service (isViewing_iff.mpr viewing), fun viewing => ?_⟩⟩⟩
    · obtain ⟨dest, viewer⟩ := parentalEventChange_other other
      exact ⟨dest, viewer⟩
    · exact parentalEventChange_unviewed service (Bool.eq_false_iff.mpr (mt isViewing_iff.mp viewing))
  · have frame := formAccess_frame (fun x => x.service == some c.index) s
    refine ⟨fun a => mem_accessChange, storeLast_eq _ s, fun d named => ?_, fun d unnamed => ?_, fun d v => rfl⟩
    · obtain ⟨live, service⟩ := named
      have formed := (formAccess_lastAccess (fun x => x.service == some c.index) service live).resolve_left (by simp [service])
      rw [accessVerdict_congr frame.toDeliveryFrame frame.table] at formed
      exact formed
    · refine storeLast_lastAccess_other _ s fun r mem same => unnamed ?_
      obtain ⟨i, service, live, on, -⟩ := mem_accessReports.mp (show (r.1, r.2) ∈ _ from mem)
      obtain rfl : i = c.index := by simpa [service] using on
      exact same ▸ ⟨live, service⟩

end Sys2Proof.Machine
end

