-- ==== Sys2Proof/Proofs/Upholding.lean ====
section
/-! SUPPORT. How an effect leaves the invariants of the destinations and the ports: selections (R40, R44), verdicts and reports (R46, R50, R51), queued
cells (R47, R53, R88). Most effects leave every destination its shape and add no cell to a queue; an evaluation and an accepted cell are taken by
themselves. -/

namespace Sys2Proof.Machine

/-! ## Effects that leave the shape of the destinations -/

/-- What decides which cells a destination may have queued and which service it shows. -/
structure Dest.Shaped (x y : Dest) : Prop where
  kind : y.kind = x.kind
  port : y.port = x.port
  service : y.service = x.service
  vacant : y.state = .vacant ↔ x.state = .vacant
  delivering : y.state.delivering = x.state.delivering

theorem Dest.Shaped.refl (x : Dest) : x.Shaped x := ⟨rfl, rfl, rfl, .rfl, rfl⟩

theorem Dest.Shaped.trans {x y z : Dest} (a : x.Shaped y) (b : y.Shaped z) : x.Shaped z :=
  ⟨b.kind.trans a.kind, b.port.trans a.port, b.service.trans a.service, b.vacant.trans a.vacant, b.delivering.trans a.delivering⟩

/-- An effect that leaves the service table, the change set and the shape of every destination, queues no cell, and emits none but queued cells and
fill cells. -/
structure Shaped (s t : State) : Prop where
  services : t.ctl.services = s.ctl.services
  changes : t.ctl.changes = s.ctl.changes
  dests : ∀ d, (s.dest d).Shaped (t.dest d)
  queues : ∀ p, (t.port p).queue ⊆ (s.port p).queue
  sent : ∀ p c, .port p c ∈ t.sent → .port p c ∈ s.sent ∨ c ∈ (s.port p).queue ∨ c = fillCell

/-- Beyond `Shaped`, every report is as it was, at the controller and at both units. -/
structure Steady (s t : State) : Prop extends Shaped s t where
  access : ∀ d, (t.dest d).access = (s.dest d).access
  parental : ∀ d, (t.dest d).parental = (s.dest d).parental
  lastAccess : ∀ d, t.lastAccess d = s.lastAccess d
  lastReport : ∀ d, (t.viewer d).last = (s.viewer d).last

theorem Shaped.trans {s t u : State} (a : Shaped s t) (b : Shaped t u) : Shaped s u where
  services := b.services.trans a.services
  changes := b.changes.trans a.changes
  dests d := (a.dests d).trans (b.dests d)
  queues p := List.Subset.trans (b.queues p) (a.queues p)
  sent p c mem := (b.sent p c mem).elim (a.sent p c) fun h => .inr (h.imp_left (a.queues p ·))

theorem Steady.trans {s t u : State} (a : Steady s t) (b : Steady t u) : Steady s u :=
  ⟨a.toShaped.trans b.toShaped, fun d => (b.access d).trans (a.access d), fun d => (b.parental d).trans (a.parental d),
   fun d => (b.lastAccess d).trans (a.lastAccess d), fun d => (b.lastReport d).trans (a.lastReport d)⟩

/-- Work on the two units' own records. -/
theorem Shaped.ofUnits (s : State) (a : AccessUnit) (u : ParentalUnit) : Shaped s { s with access := a, parental := u } :=
  ⟨rfl, rfl, fun _ => .refl _, fun _ => .refl _, fun _ _ => .inl⟩

/-- The part of the state that the invariants of the destinations and the ports speak of. -/
def State.deliverySide (s : State) :
    Table Dest 12 × Table (Option Service) 64 × List (DestId × Fin 64) × Table Port 4 × List Sent × Table (Option AccessVerdict) 12 ×
      Table Viewer 12 :=
  (s.ctl.dests, s.ctl.services, s.ctl.changes, s.ports, s.sent, s.access.last, s.parental.viewers)

/-- Work on the rest of the state. -/
theorem Steady.elsewhere {s t : State} (h : t.deliverySide = s.deliverySide) : Steady s t := by
  simp only [State.deliverySide, Prod.mk.injEq] at h
  obtain ⟨dests, services, changes, ports, sent, last, viewers⟩ := h
  have dest (d : DestId) : t.dest d = s.dest d := congrArg (Table.read · d) dests
  have port (p : PortId) : t.port p = s.port p := congrArg (Table.read · p) ports
  refine ⟨⟨services, changes, fun d => dest d ▸ .refl _, fun p => by rw [port p]; exact .refl _, fun p c mem => .inl (sent ▸ mem)⟩,
    fun d => by rw [dest d], fun d => by rw [dest d], fun d => congrArg (Table.read · d) last,
    fun d => congrArg (fun u : Table Viewer 12 => (u.read d).last) viewers⟩

theorem Steady.refl (s : State) : Steady s s := .elsewhere rfl

theorem Steady.ite {s t u : State} {c : Prop} [Decidable c] (a : Steady s t) (b : Steady s u) : Steady s (if c then t else u) := by
  split
  · exact a
  · exact b

theorem Steady.eachDest {f : DestId → State → State} (h : ∀ d s, Steady s (f d s)) (s : State) : Steady s (s.eachDest f) :=
  foldl_chain (R := Steady) .refl Steady.trans (fun s d => h d s) _ s

/-- The fields of a destination that a change of it leaves where its shape and its reports stay. -/
structure Dest.Steady (x y : Dest) : Prop extends Dest.Shaped x y where
  access : y.access = x.access
  parental : y.parental = x.parental

theorem Dest.Steady.refl (x : Dest) : x.Steady x := ⟨.refl x, rfl, rfl⟩

/-- A change of the destination records alone. -/
theorem Steady.ofDests {s : State} {l : Table Dest 12} (h : ∀ d, (s.dest d).Steady (l.read d)) :
    Steady s { s with ctl := { s.ctl with dests := l } } :=
  ⟨⟨rfl, rfl, fun d => (h d).toShaped, fun _ => .refl _, fun _ _ => .inl⟩, fun d => (h d).access, fun d => (h d).parental, fun _ => rfl,
   fun _ => rfl⟩

theorem setDest_steady {d : DestId} {x : Dest} {s : State} (h : (s.dest d).Steady x) : Steady s (s.setDest d x) := by
  refine .ofDests fun e => ?_
  rw [Table.read_write]
  split
  · next he => exact he ▸ h
  · exact .refl _

/-- A destination whose binding, service, state and reports stay. -/
theorem Dest.Steady.ofState {x y : Dest} (told : x.Told y) (state : y.state = x.state) : x.Steady y :=
  ⟨⟨told.kind, told.port, told.service, by rw [state], by rw [state]⟩, told.access, told.parental⟩

/-- A destination that moves among the delivering states. -/
theorem Dest.Steady.ofDelivering {x y : Dest} (told : x.Told y) (before : x.state.delivering = true) (after : y.state.delivering = true) :
    x.Steady y :=
  ⟨⟨told.kind, told.port, told.service, iff_of_false (delivering_ne_vacant after) (delivering_ne_vacant before), after.trans before.symm⟩,
   told.access, told.parental⟩

/-- A change of a destination that leaves its binding, service, state and reports. -/
theorem setDest_told_steady {d : DestId} {x : Dest} {s : State} (told : (s.dest d).Told x := by constructor <;> rfl)
    (state : x.state = (s.dest d).state := by rfl) : Steady s (s.setDest d x) :=
  setDest_steady (.ofState told state)

/-- A record of the parental unit changes, but for the report last handed. -/
theorem setViewer_steady {d : DestId} {v : Viewer} {s : State} (h : v.last = (s.viewer d).last) : Steady s (s.setViewer d v) := by
  refine ⟨.ofUnits s _ _, fun _ => rfl, fun _ => rfl, fun _ => rfl, fun e => ?_⟩
  rw [setViewer_viewer]
  split
  · next he => exact he ▸ h
  · rfl

/-- A port changes and keeps no cell but queued ones. -/
theorem setPort_steady {p : PortId} {x : Port} {s : State} (h : x.queue ⊆ (s.port p).queue) : Steady s (s.setPort p x) := by
  refine ⟨⟨rfl, rfl, fun d => .refl _, fun q => ?_, fun _ _ => .inl⟩, fun _ => rfl, fun _ => rfl, fun _ => rfl, fun _ => rfl⟩
  rw [setPort_port]
  split
  · next hq => exact hq ▸ h
  · exact .refl _

/-- A queued cell, or a fill cell, leaves. -/
theorem send_steady {p : PortId} {c : Cell} {s : State} (h : c ∈ (s.port p).queue ∨ c = fillCell) : Steady s (s.send (.port p c)) := by
  refine ⟨⟨rfl, rfl, fun d => .refl _, fun _ => .refl _, fun q b mem => ?_⟩, fun _ => rfl, fun _ => rfl, fun _ => rfl, fun _ => rfl⟩
  rcases List.mem_append.mp mem with mem | mem
  · exact .inl mem
  · obtain ⟨rfl, rfl⟩ : q = p ∧ b = c := by simpa using mem
    exact .inr h

/-! ## The invariants that an effect upholds -/

/-- No report that the destination holds keeps it from delivering (R46). -/
def Dest.Unhindered (x : Dest) : Prop :=
  (∀ c, x.access ≠ some (.denied c)) ∧ (x.kind = .view → ∀ r, x.parental = some r → r.verdict ≠ .restricted)

/-- The reports that a destination holds let it be in the state it is in (R46). -/
def Dest.Permitted (x : Dest) : Prop := x.state.delivering = true → x.Unhindered

/-- The access report that the controller holds is the last one of the access unit (R50, R104). -/
def AccessAgreed (s : State) : Prop := ∀ d, s.lastAccess d = (s.dest d).access

/-- The parental report that the controller holds is the last one of the parental unit (R51, R137). -/
def ParentalAgreed (s : State) : Prop :=
  ∀ d, (s.dest d).state ≠ .vacant → (s.dest d).kind = .view → (s.viewer d).last = (s.dest d).parental

theorem reportsAgreed_iff {s : State} : ReportsAgreed s ↔ AccessAgreed s ∧ ParentalAgreed s := forall_and

/-- The effect upholds every invariant but those of the reports that the controller holds. -/
structure Carries (s t : State) : Prop where
  selections : SelectionsSound s → SelectionsSound t
  parental : ParentalAgreed s → ParentalAgreed t
  queues : QueuesLawful s → QueuesLawful t
  clear : DeliveryClear s → DeliveryClear t

/-- The effect upholds every invariant but the agreement of access reports, which one that is on its way breaks. -/
structure Upholds (s t : State) : Prop extends Carries s t where
  permitted : DeliveryPermitted s → DeliveryPermitted t

/-- The effect upholds every invariant of the destinations and the ports. -/
structure Keeps (s t : State) : Prop extends Upholds s t where
  access : AccessAgreed s → AccessAgreed t

theorem Carries.trans {s t u : State} (a : Carries s t) (b : Carries t u) : Carries s u :=
  ⟨b.selections ∘ a.selections, b.parental ∘ a.parental, b.queues ∘ a.queues, b.clear ∘ a.clear⟩

theorem Upholds.trans {s t u : State} (a : Upholds s t) (b : Upholds t u) : Upholds s u :=
  ⟨a.toCarries.trans b.toCarries, b.permitted ∘ a.permitted⟩

theorem Keeps.trans {s t u : State} (a : Keeps s t) (b : Keeps t u) : Keeps s u := ⟨a.toUpholds.trans b.toUpholds, b.access ∘ a.access⟩

theorem Keeps.ite {s t u : State} {c : Prop} [Decidable c] (a : Keeps s t) (b : Keeps s u) : Keeps s (if c then t else u) := by
  split
  · exact a
  · exact b

theorem SelectionsSound.ofServices {s t : State} (services : t.ctl.services = s.ctl.services) (changes : t.ctl.changes = s.ctl.changes)
    (service : ∀ d, (t.dest d).service = (s.dest d).service)
    (vacant : ∀ d, (t.dest d).state = .vacant ↔ (s.dest d).state = .vacant) (sound : SelectionsSound s) : SelectionsSound t := by
  obtain ⟨held, valid, staged, once⟩ := sound
  have record (i : Fin 64) : t.service i = s.service i := congrArg (Table.read · i) services
  refine ⟨fun d => ?_, fun d i hi => ?_, fun e mem => ?_, changes ▸ once⟩
  · rw [vacant, service]
    exact held d
  · rw [record]
    exact valid d i (service d ▸ hi)
  · rw [record]
    exact staged e (changes ▸ mem)

theorem Shaped.selections {s t : State} (h : Shaped s t) : SelectionsSound s → SelectionsSound t :=
  .ofServices h.services h.changes (fun d => (h.dests d).service) fun d => (h.dests d).vacant

theorem Shaped.queuesLawful {s t : State} (h : Shaped s t) (lawful : QueuesLawful s) : QueuesLawful t := by
  intro p c mem
  obtain ⟨d, isFor, port, live, delivers⟩ := lawful p c (h.queues p mem)
  exact ⟨d, isFor, (h.dests d).port.trans port, (not_congr (h.dests d).vacant).mpr live, fun n => (h.dests d).delivering.trans (delivers n)⟩

theorem fillCell_phase : fillCell.phase = 0 := by decide

theorem Shaped.deliveryClear {s t : State} (h : Shaped s t) (clear : DeliveryClear s) : DeliveryClear t := by
  refine ⟨fun p c mem => clear.1 p c (h.queues p mem), fun p c mem => ?_⟩
  rcases h.sent p c mem with sent | queued | rfl
  · exact clear.2 p c sent
  · exact clear.1 p c queued
  · exact fillCell_phase

theorem Shaped.carries {s t : State} (h : Shaped s t) (parental : ParentalAgreed s → ParentalAgreed t) : Carries s t :=
  ⟨h.selections, parental, h.queuesLawful, h.deliveryClear⟩

theorem Steady.keeps {s t : State} (h : Steady s t) : Keeps s t where
  toCarries := h.toShaped.carries fun agreed d live view => by
    rw [h.lastReport, h.parental]
    exact agreed d ((not_congr (h.dests d).vacant).mp live) ((h.dests d).kind ▸ view)
  permitted ok d delivers := by
    rw [h.access, h.parental, (h.dests d).kind]
    exact ok d ((h.dests d).delivering ▸ delivers)
  access agreed d := (h.lastAccess d).trans ((agreed d).trans (h.access d).symm)

theorem setDest_told_keeps {d : DestId} {x : Dest} {s : State} (told : (s.dest d).Told x := by constructor <;> rfl)
    (state : x.state = (s.dest d).state := by rfl) : Keeps s (s.setDest d x) :=
  (setDest_told_steady told state).keeps

theorem Keeps.refl (s : State) : Keeps s s := (Steady.refl s).keeps

theorem Keeps.eachDest {f : DestId → State → State} (h : ∀ d s, Keeps s (f d s)) (s : State) : Keeps s (s.eachDest f) :=
  foldl_chain (R := Keeps) .refl Keeps.trans (fun s d => h d s) _ s

/-! ## Operations that are steady -/

theorem raise_steady (c : Cause) (x y : Byte) (s : State) : Steady s (s.raise c x y) := .elsewhere rfl

theorem withdraw_steady (c : Cause) (x : Byte) (s : State) : Steady s (s.withdraw c x) := .elsewhere rfl

theorem completionTest_steady (d : DestId) (s : State) : Steady s (s.completionTest d) := by
  have moved {n : DestState} (a : Timer) (before : (s.dest d).state.delivering = true) (after : n.delivering = true) :
      Steady s (s.setDest d { s.dest d with state := n, acquisition := a }) :=
    setDest_steady (.ofDelivering (by constructor <;> rfl) before after)
  unfold State.completionTest
  dsimp only
  split
  · next h _ => exact moved _ (by rw [h]; rfl) rfl
  · next h _ => exact (moved _ (by rw [h]; rfl) rfl).trans (withdraw_steady _ _ _)
  · next h _ => exact moved _ (by rw [h]; rfl) rfl
  · exact .refl s

theorem purgeDest_port (d : DestId) (n : Bool) (s : State) (p : PortId) : (s.purgeDest d n).port p =
    if p = (s.dest d).port then (s.port p).purge (fun c => c.isFor d && (n || !c.isNotice)) else s.port p := by
  show (s.setPort (s.dest d).port _).port p = _
  rw [setPort_port]
  split
  · next h => rw [h]
  · rfl

theorem purge_queue (q : Cell → Bool) (p : Port) : (p.purge q).queue = p.queue.filter fun c => !q c := rfl

theorem purgeDest_steady (d : DestId) (n : Bool) (s : State) : Steady s (s.purgeDest d n) :=
  (setPort_steady (List.filter_subset_self _)).trans setDest_told_steady

theorem emitPort_steady (p : PortId) (s : State) : Steady s (s.emitPort p) := by
  unfold State.emitPort Port.emitHead
  dsimp only
  split
  · next h =>
    dsimp only [State.sendPort]
    exact setPort_steady (.refl _)
  · next c rest h =>
    have left : Steady s (s.send (.port p c)) := send_steady (.inl (by rw [h]; exact .head _))
    exact left.trans (setPort_steady (s := s.send (.port p c)) (by
      show rest ⊆ (s.port p).queue
      rw [h]
      exact List.subset_cons_self c rest))

theorem drain_steady (p : PortId) (s : State) : Steady s (s.drain p) := by
  unfold State.drain
  dsimp only
  split
  · exact .refl s
  · exact .ite (emitPort_steady p s) (setPort_steady (.refl _))

theorem slot_steady (p : PortId) (b : Bool) (s : State) : Steady s (s.slot p b) := by
  unfold State.slot
  dsimp only
  refine .ite ?_ (.refl s)
  split
  · exact emitPort_steady p s
  · exact .ite ((setPort_steady (by exact .refl _)).trans (send_steady (.inr rfl))) (.refl s)

theorem drainWatch_steady (p : PortId) (s : State) : Steady s (s.drainWatch p) :=
  .ite ((setPort_steady (by exact .refl _)).trans (raise_steady _ _ _ _)) (.refl s)

theorem entryChanged_steady (k : Fin 256) (s : State) : Steady s (s.entryChanged k) := by
  unfold State.entryChanged
  refine .trans (.ofDests fun d => ?_) (.eachDest (fun d u => .ite (completionTest_steady d u) (.refl u)) _)
  rw [Table.read_map]
  exact .ofState (by constructor <;> rfl) rfl

theorem acquisitionExpires_steady (d : DestId) (s : State) : Steady s (s.acquisitionExpires d) := by
  unfold State.acquisitionExpires
  dsimp only
  split
  · next h =>
    exact (setDest_steady (.ofDelivering (by constructor <;> rfl) (by rw [h.1]; rfl) rfl)).trans (raise_steady _ _ _ _)
  · exact .refl s

/-! ### At the parental unit -/

theorem openHold_steady (d : DestId) (s : State) : Steady s (s.openHold d) :=
  (setViewer_steady (by rfl)).trans (raise_steady _ _ _ _)

theorem endHold_steady (d : DestId) (c : HoldCondition) (s : State) : Steady s (s.endHold d c) :=
  .ite ((setViewer_steady (by rfl)).trans (withdraw_steady _ _ _)) (setViewer_steady rfl)

theorem holdRule_steady (d : DestId) (s : State) : Steady s (s.holdRule d) := by
  unfold State.holdRule
  dsimp only
  split
  · exact .refl s
  · refine .ite ?_ (endHold_steady d _ s)
    split
    · exact endHold_steady d _ s
    · exact .ite (openHold_steady d s) (.refl s)

theorem clearMemory_steady (d : DestId) (s : State) : Steady s (s.clearMemory d) := .ite (setViewer_steady rfl) (.refl s)

theorem formVerdict_steady (d : DestId) (s : State) : Steady s (s.formVerdict d) := by
  unfold State.formVerdict
  dsimp only
  split
  · exact .refl s
  · exact (setViewer_steady (by rfl)).trans (holdRule_steady d _)

theorem withoutEventUnlock_last (v : Viewer) : v.withoutEventUnlock.last = v.last := by
  unfold Viewer.withoutEventUnlock
  split <;> rfl

theorem eventForgotten_steady (i : Fin 64) (s : State) : Steady s (s.eventForgotten i) :=
  .eachDest (fun d u => .ite ((clearMemory_steady d u).trans (setViewer_steady (withoutEventUnlock_last _))) (.refl u)) s

theorem chargeOne_steady (p : Fin 8) (s : State) : Steady s (s.chargeOne p) := by
  unfold State.chargeOne
  dsimp only
  split
  · exact .refl s
  · exact .ite (.ite (.elsewhere rfl) (.elsewhere rfl)) (.refl s)

theorem charge_steady (s : State) : Steady s s.charge := foldl_chain (R := Steady) .refl Steady.trans (fun s p => chargeOne_steady p s) _ s

theorem spendUnlocks_steady (t : Word) (s : State) : Steady s (s.spendUnlocks t) := by
  refine ⟨.ofUnits s _ _, fun _ => rfl, fun _ => rfl, fun _ => rfl, fun d => ?_⟩
  rw [spendUnlocks_viewer, Viewer.withoutSpentUnlock]
  split
  · split <;> rfl
  · rfl

end Sys2Proof.Machine
end

