-- ==== Sys2Proof/Proofs/Moves.lean ====
section
/-! SUPPORT. What an evaluation, an offered cell and a report that is taken uphold (R46, R47, R50 to R58): the destinations and ports from one event
to the next. -/

namespace Sys2Proof.Machine

/-! ## A change of one destination and of the queues -/

/-- Every queued cell stays lawful where the other destinations stay, no cell is queued, and the cells of `d` that stay are lawful. -/
theorem QueuesLawful.ofRow {s t : State} {d : DestId} (lawful : QueuesLawful s) (dests : ∀ e, e ≠ d → t.dest e = s.dest e)
    (queues : ∀ p, (t.port p).queue ⊆ (s.port p).queue)
    (row : ∀ p, ∀ c ∈ (t.port p).queue, c.isFor d = true → (s.dest d).port = p → (s.dest d).state ≠ .vacant →
      (c.isNotice = false → (s.dest d).state.delivering = true) →
      (t.dest d).port = p ∧ (t.dest d).state ≠ .vacant ∧ (c.isNotice = false → (t.dest d).state.delivering = true)) : QueuesLawful t := by
  intro p c mem
  obtain ⟨e, isFor, port, live, delivers⟩ := lawful p c (queues p mem)
  by_cases same : e = d
  · subst same
    exact ⟨e, isFor, row p c mem isFor port live delivers⟩
  · exact ⟨e, isFor, by rw [dests e same]; exact ⟨port, live, delivers⟩⟩

/-! ## Moves -/

theorem enterAcquiring_delivering (d : DestId) (s : State) : ((s.enterAcquiring d).dest d).state.delivering = true := by
  rw [State.enterAcquiring, ((completionTest_steady d _).dests d).delivering, setDest_dest_same]
  rfl

/-- A move ends in a delivering state exactly where the state chosen is one. -/
theorem moveTo_delivering (d : DestId) (n : DestState) (s : State) : ((s.moveTo d n).dest d).state.delivering = n.delivering := by
  unfold State.moveTo
  dsimp only
  split
  · next h => rw [h]
  · split
    · next h => rw [enterAcquiring_delivering, h]; rfl
    · split
      · obtain ⟨_, hd⟩ := leaveDelivering_dest d n s
        rw [hd]
      · rw [setDest_dest_same]

theorem leaveDelivering_steady (d : DestId) (n : DestState) (s : State) :
    Steady (s.setDest d { s.dest d with state := n, marks := [], unkeyedRun := 0, acquisition := none }) (s.leaveDelivering d n) :=
  .trans (.ite (withdraw_steady _ _ _) (.refl _)) (purgeDest_steady d false _)

/-- No programme copy of a destination that has left the delivering states is queued (R47). -/
theorem leaveDelivering_notices {d : DestId} {n : DestState} {s : State} {c : Cell}
    (mem : c ∈ ((s.leaveDelivering d n).port (s.dest d).port).queue) (isFor : c.isFor d = true) : c.isNotice = true := by
  unfold State.leaveDelivering at mem
  dsimp only at mem
  rw [purgeDest_port, if_pos (by split <;> simp), purge_queue] at mem
  have kept := (List.mem_filter.mp mem).2
  simpa [isFor] using kept

theorem moveTo_queues (d : DestId) (n : DestState) (s : State) (p : PortId) : ((s.moveTo d n).port p).queue ⊆ (s.port p).queue := by
  unfold State.moveTo
  dsimp only
  split
  · exact .refl _
  · split
    · exact (completionTest_steady d _).queues p
    · split
      · exact (leaveDelivering_steady d n s).queues p
      · exact .refl _

/-- A move to any state but VACANT leaves the queued cells lawful (R47). -/
theorem moveTo_queuesLawful {d : DestId} {n : DestState} (live : n ≠ .vacant) {s : State} (lawful : QueuesLawful s) :
    QueuesLawful (s.moveTo d n) := by
  refine lawful.ofRow (moveTo_alone d n s).dests (moveTo_queues d n s) fun p c mem isFor port was delivers =>
    ⟨(moveTo_alone d n s).told.port.trans port, moveTo_vacant live d s, fun copy => ?_⟩
  unfold State.moveTo at mem ⊢
  dsimp only at mem ⊢
  split
  · exact delivers copy
  · next moves =>
    rw [if_neg moves] at mem
    split
    · exact enterAcquiring_delivering d s
    · next notAcquiring =>
      rw [if_neg notAcquiring, if_pos (delivers copy)] at mem
      rw [leaveDelivering_notices (port ▸ mem) isFor] at copy
      cases copy

/-! ## Evaluations -/

/-- A delivering state is chosen only where no verdict stands in its way (R46). -/
theorem chosen_delivering {x : Dest} {halted : Bool} (h : (x.chosen halted).delivering = true) :
    deniedReport x.access = false ∧ x.restriction = none := by
  unfold Dest.chosen at h
  split at h
  · cases h
  · next access =>
    refine ⟨Bool.not_eq_true _ ▸ access, ?_⟩
    split at h
    · split at h <;> cases h
    · assumption

theorem unhindered_of_chosen {x : Dest} (access : deniedReport x.access = false) (restriction : x.restriction = none) : x.Unhindered := by
  refine ⟨fun c denied => ?_, fun view r report restricted => ?_⟩
  · rw [denied] at access
    cases access
  · simp [Dest.restriction, view, report, restricted] at restriction

theorem Dest.Unhindered.ofTold {x y : Dest} (told : x.Told y) (h : x.Unhindered) : y.Unhindered := by
  unfold Dest.Unhindered
  rw [told.access, told.kind, told.parental]
  exact h

/-- A destination that has moved to the state that its reports choose is permitted to be in it. -/
theorem moveTo_chosen_permitted (d : DestId) {x : Dest} {halted : Bool} {s : State} (told : x.Told (s.dest d)) :
    ((s.moveTo d (x.chosen halted)).dest d).Permitted := by
  intro delivers
  rw [moveTo_delivering] at delivers
  obtain ⟨access, restriction⟩ := chosen_delivering delivers
  exact (unhindered_of_chosen access restriction).ofTold (told.trans (moveTo_alone d _ s).told)

theorem evaluate_permitted (d : DestId) (s : State) : ((s.evaluate d).dest d).Permitted := by
  unfold State.evaluate
  dsimp only
  split
  · next vacant =>
    intro delivers
    rw [vacant] at delivers
    cases delivers
  · exact moveTo_chosen_permitted d (by rw [setDest_dest_same]; constructor <;> rfl)

/-- What an effect on `d` alone upholds, where it ends with `d` permitted in its state. -/
theorem DestAlone.keeps {d : DestId} {s t : State} (alone : DestAlone d s t) (vacant : (t.dest d).state = .vacant ↔ (s.dest d).state = .vacant)
    (permitted : DeliveryPermitted s → (t.dest d).Permitted) (queues : ∀ p, (t.port p).queue ⊆ (s.port p).queue)
    (lawful : QueuesLawful s → QueuesLawful t) : Keeps s t := by
  have vacancy (e : DestId) : (t.dest e).state = .vacant ↔ (s.dest e).state = .vacant := by
    by_cases h : e = d
    · exact h ▸ vacant
    · rw [alone.dests e h]
  have told (e : DestId) : (s.dest e).Told (t.dest e) := by
    by_cases h : e = d
    · exact h ▸ alone.told
    · exact alone.dests e h ▸ .refl _
  refine ⟨⟨⟨.ofServices alone.services alone.changes (fun e => (told e).service) vacancy, fun agreed e live view => ?_, lawful,
    fun clear => ⟨fun p c mem => clear.1 p c (queues p mem), alone.sent ▸ clear.2⟩⟩, fun ok e => ?_⟩, fun agreed e => ?_⟩
  · rw [State.viewer, alone.parental, (told e).parental]
    exact agreed e ((not_congr (vacancy e)).mp live) ((told e).kind ▸ view)
  · by_cases h : e = d
    · exact h ▸ permitted ok
    · rw [alone.dests e h]
      exact ok e
  · rw [State.lastAccess, alone.access, (told e).access]
    exact agreed e

theorem evaluate_keeps (d : DestId) (s : State) : Keeps s (s.evaluate d) := by
  by_cases vacant : (s.dest d).state = .vacant
  · rw [show s.evaluate d = s from if_pos vacant]
    exact .refl s
  · have moves : s.evaluate d = (s.setDest d { s.dest d with
        reasons := (s.dest d).reasonsAfresh (s.portHalted (s.dest d).port) }).moveTo d ((s.dest d).chosen (s.portHalted (s.dest d).port)) :=
      if_neg vacant
    refine (evaluate_alone d s).keeps (evaluate_vacant d s d) (fun _ => evaluate_permitted d s) (fun p => ?_) fun lawful => ?_
    · rw [moves]
      exact moveTo_queues d _ _ p
    · rw [moves]
      exact moveTo_queuesLawful (chosen_ne_vacant vacant _) (Carries.queues (Upholds.toCarries (Keeps.toUpholds setDest_told_keeps)) lawful)

theorem evaluatePort_keeps (p : PortId) (s : State) : Keeps s (s.evaluatePort p) :=
  .eachDest (fun d u => .ite (evaluate_keeps d u) (.refl u)) s

theorem setPortHalted_steady (p : PortId) (b : Bool) (s : State) : Steady s (s.setPortHalted p b) := .elsewhere rfl

theorem announceHalt_keeps (p : PortId) (b : Bool) (s : State) : Keeps s (s.announceHalt p b) :=
  (setPortHalted_steady p b s).keeps.trans (evaluatePort_keeps p _)

/-- An evaluation on reasons, a run and tallies that have changed. -/
theorem setDest_evaluate_keeps {d : DestId} {x : Dest} {s : State} (told : (s.dest d).Told x := by constructor <;> rfl)
    (state : x.state = (s.dest d).state := by rfl) : Keeps s ((s.setDest d x).evaluate d) :=
  (setDest_told_keeps told state).trans (evaluate_keeps d _)

theorem keyCommitted_keeps (k : Fin 32) (s : State) : Keeps s (s.keyCommitted k) :=
  .eachDest (fun d u => .ite (setDest_evaluate_keeps) (.refl u)) s

theorem unkeyedOne_keeps (e : Programme) (d : DestId) (s : State) : Keeps s (s.unkeyedOne e d) := by
  unfold State.unkeyedOne
  exact .ite (.ite (setDest_evaluate_keeps)
    setDest_told_keeps) (.refl s)

/-! ## Cells offered to a port -/

theorem join_queue (c : Cell) (p : Port) : (p.join c).queue = p.queue ++ [c] := rfl

/-- What stands in a queue, or leaves, once a cell is accepted, is that cell or was queued. -/
theorem accepted_cells (c : Cell) (p : Port) :
    (∀ b ∈ (p.accepted c).1.queue, b ∈ p.queue ∨ b = c) ∧ ∀ b, (p.accepted c).2 = some b → b ∈ p.queue ∨ b = c := by
  have joined {b : Cell} (mem : b ∈ (p.join c).queue) : b ∈ p.queue ∨ b = c := by simpa [join_queue] using mem
  unfold Port.accepted
  dsimp only
  split
  · unfold Port.emitHead
    split
    · next empty => simp [join_queue] at empty
    · next a rest queue =>
      refine ⟨fun b mem => joined (queue ▸ List.mem_cons_of_mem a mem), fun b left => joined ?_⟩
      obtain rfl : a = b := by simpa using left
      exact queue ▸ .head _
  · exact ⟨fun b mem => joined mem, fun b left => by cases left⟩

/-- A cell that port `p` may hold: of a destination bound to it that is not VACANT, a notice or of one that delivers, with key phase CLEAR. -/
structure Acceptable (s : State) (p : PortId) (c : Cell) (d : DestId) : Prop where
  isFor : c.isFor d = true
  port : (s.dest d).port = p
  live : (s.dest d).state ≠ .vacant
  delivers : c.isNotice = false → (s.dest d).state.delivering = true
  phase : c.phase = 0

theorem acceptCell_keeps {p : PortId} {c : Cell} {d : DestId} {s : State} (h : Acceptable s p c d) : Keeps s (s.acceptCell p c) := by
  obtain ⟨stands, leaves⟩ := accepted_cells c (s.port p)
  have queue (q : PortId) (b : Cell) (mem : b ∈ ((s.acceptCell p c).port q).queue) : b ∈ (s.port q).queue ∨ q = p ∧ b = c := by
    have port : (s.acceptCell p c).port q = (s.setPort p ((s.port p).accepted c).1).port q := by
      unfold State.acceptCell State.sendPort
      dsimp only
      split <;> rfl
    rw [port, setPort_port] at mem
    split at mem
    · next hq => exact (stands b mem).imp (hq ▸ ·) fun e => ⟨hq, e⟩
    · exact .inl mem
  have sent (q : PortId) (b : Cell) (mem : .port q b ∈ (s.acceptCell p c).sent) :
      .port q b ∈ s.sent ∨ b ∈ (s.port p).queue ∨ b = c := by
    unfold State.acceptCell State.sendPort at mem
    dsimp only at mem
    split at mem
    · exact .inl mem
    · next a left =>
      rcases List.mem_append.mp mem with mem | mem
      · exact .inl mem
      · obtain ⟨-, rfl⟩ : q = p ∧ b = a := by simpa using mem
        exact .inr (leaves b left)
  have frame := acceptCell_frame p c s
  have dest (e : DestId) : (s.acceptCell p c).dest e = s.dest e := by
    unfold State.acceptCell State.sendPort
    dsimp only
    split <;> rfl
  refine ⟨⟨⟨.ofServices frame.services frame.changes (fun e => by rw [dest]) fun e => by rw [dest], fun agreed e => ?_, fun lawful q b mem => ?_,
    fun clear => ⟨fun q b mem => ?_, fun q b mem => ?_⟩⟩, fun ok e => ?_⟩, fun agreed e => ?_⟩
  · rw [State.viewer, frame.parental, dest]
    exact agreed e
  · rcases queue q b mem with was | ⟨rfl, rfl⟩
    · obtain ⟨e, he⟩ := lawful q b was
      exact ⟨e, by rw [dest]; exact he⟩
    · exact ⟨d, by rw [dest]; exact ⟨h.isFor, h.port, h.live, h.delivers⟩⟩
  · rcases queue q b mem with was | ⟨-, rfl⟩
    · exact clear.1 q b was
    · exact h.phase
  · rcases sent q b mem with was | was | rfl
    · exact clear.2 q b was
    · exact clear.1 p b was
    · exact h.phase
  · rw [dest]
    exact ok e
  · rw [State.lastAccess, frame.access, dest]
    exact agreed e

theorem offerCopy_keeps {p : PortId} {c : Cell} {d : DestId} {s : State} (h : Acceptable s p c d) : Keeps s (s.offerCopy p c) := by
  have halts : Keeps s (((s.setPort p (s.port p).halt).raise .port (sourceByte p) 0).announceHalt p true) :=
    (((setPort_steady (List.nil_subset _)).trans (raise_steady _ _ _ _)).keeps).trans (announceHalt_keeps p true _)
  exact .ite (acceptCell_keeps h) (.ite halts (.refl s))

theorem offerNotice_keeps {p : PortId} {c : Cell} {d : DestId} {s : State} (h : Acceptable s p c d) : Keeps s (s.offerNotice p c) :=
  .ite (acceptCell_keeps h) (.refl s)

/-! ## Programme cells -/

theorem routed_isFor (c : Cell) (d : DestId) : (c.routed (sourceByte d)).isFor d = true := by
  simp [Cell.isFor, Cell.routed, Cell.rechecked, sourceByte]

theorem descrambleCell_phase (c : Cell) (key : Quarters) : (descrambleCell c key).phase = 0 := by
  show BitVec.extractLsb' 6 2 (0#2 ++ c.phaseFlow.extractLsb' 0 6) = 0
  generalize c.phaseFlow.extractLsb' 0 6 = low
  revert low
  decide

/-- A programme cell with key phase CLEAR goes to one destination (R53). -/
theorem fanOne_keeps (k : Fin 256) (e : Programme) {c : Cell} (clear : c.phase = 0) (d : DestId) (s : State) : Keeps s (s.fanOne k e c d) := by
  by_cases part : (s.dest d).takesPart e = true
  · have delivers := ((takesPart_iff _ _).mp part).1
    have copied {x : Dest} (told : (s.dest d).Told x) (state : x.state = (s.dest d).state) :
        Keeps s ((s.setDest d x).offerCopy (s.dest d).port (c.routed (sourceByte d))) := by
      have same : (s.setDest d x).dest d = x := setDest_dest_same s d x
      refine (setDest_told_keeps told state).trans (offerCopy_keeps (d := d) ⟨routed_isFor c d, ?_, ?_, fun _ => ?_, clear⟩)
      · rw [same, told.port]
      · rw [same, state]
        exact delivering_ne_vacant delivers
      · rw [same, state]
        exact delivers
    by_cases started : k ∈ (s.dest d).marks
    · rw [fanOne_started part started]
      exact copied (by constructor <;> rfl) rfl
    · cases unitStart : c.unitStart with
      | false =>
        rw [fanOne_waits part started unitStart]
        exact setDest_told_keeps
      | true =>
        have begun := copied (x := { s.dest d with
          unkeyedRun := if e.required then 0 else (s.dest d).unkeyedRun, marks := joinMark k (s.dest d).marks
          tallies := (s.dest d).tallies.copied (s.port (s.dest d).port).hasRoom }) (by constructor <;> rfl) rfl
        rw [fanOne_begins part started unitStart]
        exact .ite (begun.trans (completionTest_steady d _).keeps) begun
  · rw [fanOne_absent part]
    exact .refl s

theorem keyedOutcome_ne_clear (h : PhaseName) (slot : Option (Fin 32)) (s : State) : s.keyedOutcome h slot ≠ .clear := by
  unfold State.keyedOutcome
  split
  · exact CellOutcome.noConfusion
  · dsimp only
    split <;> exact CellOutcome.noConfusion

theorem phase_of_outcome_clear {c : Cell} {slot : Option (Fin 32)} {s : State} (h : s.outcome c slot = .clear) : c.phase = 0 := by
  unfold State.outcome at h
  split at h
  · assumption
  · repeat' split at h
    · exact absurd h (keyedOutcome_ne_clear _ _ _)
    · exact absurd h (keyedOutcome_ne_clear _ _ _)
    · cases h

theorem programmeCell_keeps (k : Fin 256) (e : Programme) (c : Cell) (s : State) : Keeps s (s.programmeCell k e c) := by
  unfold State.programmeCell
  split
  · next clear => exact .eachDest (fun d u => fanOne_keeps k e (phase_of_outcome_clear clear) d u) s
  · exact .eachDest (fun d u => fanOne_keeps k e (descrambleCell_phase c _) d u) s
  · exact .eachDest (fun d u => unkeyedOne_keeps e d u) s

/-! ## Notices -/

theorem builtCell_phase (flow : BitVec 14) (u : Bool) (q : BitVec 5) (r : Byte) (l : List Byte) : (builtCell flow u q r l).phase = 0 := by
  show BitVec.extractLsb' 6 2 (0#2 ++ flow.extractLsb' 8 6) = 0
  generalize flow.extractLsb' 8 6 = low
  revert low
  decide

theorem notice_isNotice (u : Bool) (q : BitVec 5) (r : Byte) (l : List Byte) : (builtCell 16380 u q r l).isNotice = true := by
  show ((0#2 ++ BitVec.extractLsb' 8 6 (16380 : BitVec 14)).extractLsb' 0 6 ++ BitVec.extractLsb' 0 8 (16380 : BitVec 14) == (16380 : BitVec 14)) = true
  decide

theorem builtCell_isFor (flow : BitVec 14) (u : Bool) (q : BitVec 5) (d : DestId) (l : List Byte) :
    (builtCell flow u q (sourceByte d) l).isFor d = true := by
  simp [Cell.isFor, builtCell, Cell.rechecked, sourceByte]

theorem noticeOne_keeps (d : DestId) (s : State) : Keeps s (s.noticeOne d) := by
  unfold State.noticeOne
  dsimp only
  split
  · next blocked =>
    refine Keeps.trans setDest_told_keeps
      (offerNotice_keeps (d := d) ⟨builtCell_isFor _ _ _ d _, ?_, ?_, fun copy => ?_, builtCell_phase _ _ _ _ _⟩)
    · rw [setDest_dest_same]
    · rw [setDest_dest_same]
      intro vacant
      rw [show (s.dest d).state = .vacant from vacant] at blocked
      cases blocked
    · rw [notice_isNotice] at copy
      cases copy
  · exact .refl s

theorem notices_keeps (s : State) : Keeps s s.notices := .eachDest noticeOne_keeps s

end Sys2Proof.Machine
end

