-- ==== Sys2Proof/Proofs/OneDestination.lean ====
section
/-! SUPPORT. What an effect on one destination leaves of the others: the units' records, the controller's, the ports and the pending sources, from the
report that is stored up to the report that is taken and the selection that is applied (R47, R50, R51, R64 to R67). -/

namespace Sys2Proof.Machine

/-- An effect on destination `d` alone, which leaves `d` bound to its port. -/
structure OneDest (d : DestId) (s t : State) : Prop extends OthersKept d s t where
  port : (t.dest d).port = (s.dest d).port

variable {d : DestId} {s t u : State}

theorem DestAlone.oneDest (h : DestAlone d s t) : OneDest d s t := ⟨h.toOthersKept, h.told.port⟩

theorem OneDest.refl (d : DestId) (s : State) : OneDest d s s := (DestAlone.refl d s).oneDest

theorem OneDest.trans (a : OneDest d s t) (b : OneDest d t u) : OneDest d s u where
  toSettled := a.toSettled.trans b.toSettled
  dests e h := (b.dests e h).trans (a.dests e h)
  viewers e h := (b.viewers e h).trans (a.viewers e h)
  lastAccess e h := (b.lastAccess e h).trans (a.lastAccess e h)
  ports p h := (b.ports p (a.port ▸ h)).trans (a.ports p h)
  sources c x h := (b.sources c x h).trans (a.sources c x h)
  port := b.port.trans a.port

theorem OneDest.ite {c : Prop} [Decidable c] (a : OneDest d s t) (b : OneDest d s u) : OneDest d s (if c then t else u) := by
  split
  · exact a
  · exact b

section
variable (d) (s)

theorem setDest_oneDest {x : Dest} (port : x.port = (s.dest d).port := by rfl) : OneDest d s (s.setDest d x) where
  toSettled := (setDest_frame d x s).toSettled
  dests e h := by rw [setDest_dest, if_neg h]
  viewers _ _ := rfl
  lastAccess _ _ := rfl
  ports _ _ := rfl
  sources _ _ _ := rfl
  port := by rw [setDest_dest_same, port]

theorem setViewer_oneDest (v : Viewer) : OneDest d s (s.setViewer d v) where
  toSettled := (setViewer_frame d v s).toSettled
  dests _ _ := rfl
  viewers e h := by rw [setViewer_viewer, if_neg h]
  lastAccess _ _ := rfl
  ports _ _ := rfl
  sources _ _ _ := rfl
  port := rfl

theorem setLastAccess_oneDest (v : Option AccessVerdict) : OneDest d s (s.setLastAccess d v) where
  toSettled := setLastAccess_frame d v s
  dests _ _ := rfl
  viewers _ _ := rfl
  lastAccess e h := by rw [setLastAccess_lastAccess, if_neg h]
  ports _ _ := rfl
  sources _ _ _ := rfl
  port := rfl

/-- A raised source leaves whether another is pending (R173). -/
theorem isPending_raise_source {b x : Byte} (h : b ≠ x) (c e : Cause) (z : Byte) :
    (s.raise c x z).attention.isPending e b = s.attention.isPending e b := by
  by_cases same : e = c
  · subst same
    exact isPending_raise_other (Ne.symm h) e z s
  · show (Attention.cause (s.attention.setCause c _) e).pending.any _ = _
    rw [setCause_cause, if_neg same]
    rfl

theorem raise_oneDest (c : Cause) (z : Byte) : OneDest d s (s.raise c (sourceByte d) z) where
  toSettled := (raise_unitsKept c _ z s).toSettled
  dests _ _ := rfl
  viewers _ _ := rfl
  lastAccess _ _ := rfl
  ports _ _ := rfl
  sources e _ h := isPending_raise_source s h c e z
  port := rfl

theorem withdraw_oneDest (c : Cause) : OneDest d s (s.withdraw c (sourceByte d)) := (withdraw_alone d c s).oneDest

theorem evaluate_oneDest : OneDest d s (s.evaluate d) := (evaluate_alone d s).oneDest

/-! ## At the parental unit -/

theorem openHold_oneDest : OneDest d s (s.openHold d) := (setViewer_oneDest d s _).trans (raise_oneDest d _ _ _)

theorem endHold_oneDest (c : HoldCondition) : OneDest d s (s.endHold d c) :=
  .ite ((setViewer_oneDest d s _).trans (withdraw_oneDest d _ _)) (setViewer_oneDest d s _)

theorem holdRule_oneDest : OneDest d s (s.holdRule d) := by
  unfold State.holdRule
  dsimp only
  split
  · exact .refl d s
  · refine .ite ?_ (endHold_oneDest d s _)
    split
    · exact endHold_oneDest d s _
    · exact .ite (openHold_oneDest d s) (.refl d s)

theorem clearMemory_oneDest : OneDest d s (s.clearMemory d) := .ite (setViewer_oneDest d s _) (.refl d s)

theorem formVerdict_oneDest : OneDest d s (s.formVerdict d) := by
  unfold State.formVerdict
  dsimp only
  split
  · exact .refl d s
  · exact (setViewer_oneDest d s _).trans (holdRule_oneDest d _)

theorem reportStored_oneDest : OneDest d s (s.reportStored d) := by
  unfold State.reportStored
  dsimp only
  split
  · exact .refl d s
  · exact .ite ((setViewer_oneDest d s _).trans (setDest_oneDest d _)) (setViewer_oneDest d s _)

theorem placeBar_oneDest : OneDest d s (s.placeBar d) :=
  ((endHold_oneDest d s _).trans (setViewer_oneDest d _ _)).trans (reportStored_oneDest d _)

theorem liftBar_oneDest : OneDest d s (s.liftBar d) :=
  ((setViewer_oneDest d s _).trans (holdRule_oneDest d _)).trans (reportStored_oneDest d _)

theorem parentalChange_oneDest : OneDest d s (s.parentalChange d) :=
  (((endHold_oneDest d s _).trans (setViewer_oneDest d _ _)).trans (formVerdict_oneDest d _)).trans (reportStored_oneDest d _)

theorem parentalRetry_oneDest : OneDest d s (s.parentalRetry d) :=
  ((clearMemory_oneDest d s).trans (formVerdict_oneDest d _)).trans (reportStored_oneDest d _)

theorem parentalRelease_oneDest : OneDest d s (s.parentalRelease d) := (endHold_oneDest d s _).trans (setViewer_oneDest d _ _)

/-! ## Access reports -/

theorem storeAccess_oneDest (v : AccessVerdict) : OneDest d s (s.storeAccess d v) := setDest_oneDest d s

theorem settleBar_oneDest (o : Option AccessVerdict) (v : AccessVerdict) : OneDest d s (s.settleBar d o v) :=
  .ite (.refl d s) (.ite (placeBar_oneDest d s) (.ite (liftBar_oneDest d s) (.refl d s)))

theorem accessLapse_oneDest (o : Option AccessVerdict) (v : AccessVerdict) : OneDest d s (s.accessLapse d o v) :=
  .ite (raise_oneDest d s _ _) (.refl d s)

theorem takeAccessReport_oneDest (v : AccessVerdict) : OneDest d s (s.takeAccessReport d v) :=
  .ite (.refl d s) ((((storeAccess_oneDest d s v).trans (settleBar_oneDest d _ _ _)).trans (accessLapse_oneDest d _ _ _)).trans
    (evaluate_oneDest d _))

/-! ## Selections and releases -/

theorem withdrawStall_oneDest : OneDest d s (s.withdrawStall d) := .ite (withdraw_oneDest d s _) (.refl d s)

theorem purgeDest_oneDest (n : Bool) : OneDest d s (s.purgeDest d n) := (purgeDest_alone d n s).oneDest

theorem clearAway_oneDest (i : Fin 64) : OneDest d s (s.clearAway d i) :=
  ((purgeDest_oneDest d s true).trans (withdrawStall_oneDest d _)).trans (setDest_oneDest d _)

theorem accessAtSelection_oneDest (v : AccessVerdict) : OneDest d s (s.accessAtSelection d v) :=
  (setLastAccess_oneDest d s _).trans (storeAccess_oneDest d _ v)

theorem barAtChange_oneDest (v : AccessVerdict) : OneDest d s (s.barAtChange d v) :=
  .ite (.refl d s) (.ite (placeBar_oneDest d s) (.ite (liftBar_oneDest d s) (.refl d s)))

theorem tellChange_oneDest : OneDest d s (s.tellChange d) := by
  unfold State.tellChange
  split
  · exact parentalChange_oneDest d s
  · exact setViewer_oneDest d s _

theorem tellRetry_oneDest : OneDest d s (s.tellRetry d) := by
  unfold State.tellRetry
  split
  · exact parentalRetry_oneDest d s
  · exact .refl d s

theorem evaluateAfresh_oneDest : OneDest d s (s.evaluateAfresh d) := (setDest_oneDest d s).trans (moveTo_alone d _ _).oneDest

/-- The controller and the units before the evaluation that ends a change: the old service cleared away, and the fresh reports stored (R64, R65). -/
def State.toldOfChange (d : DestId) (i : Fin 64) (s : State) : State :=
  let s1 := (s.clearAway d i).markSelected d
  let v := s1.accessVerdict i
  ((s1.accessAtSelection d v).barAtChange d v).tellChange d

theorem applyChange_eq (i : Fin 64) : s.applyChange d i = (s.toldOfChange d i).evaluateAfresh d := rfl

theorem toldOfChange_oneDest (i : Fin 64) : OneDest d s (s.toldOfChange d i) :=
  ((((clearAway_oneDest d s i).trans (setDest_oneDest d _)).trans (accessAtSelection_oneDest d _ _)).trans (barAtChange_oneDest d _ _)).trans
    (tellChange_oneDest d _)

theorem applyChange_oneDest (i : Fin 64) : OneDest d s (s.applyChange d i) :=
  (toldOfChange_oneDest d s i).trans (evaluateAfresh_oneDest d _)

theorem applyRetry_oneDest (i : Fin 64) : OneDest d s (s.applyRetry d i) :=
  ((((setDest_oneDest d s).trans (accessAtSelection_oneDest d _ _)).trans (settleBar_oneDest d _ _ _)).trans (tellRetry_oneDest d _)).trans
    (evaluate_oneDest d _)

end

/-- Where the other destinations stay, a destination that ends permitted in its state is all there is to see to (R46). -/
theorem OthersKept.permitted (h : OthersKept d s t) (permitted : (t.dest d).Permitted) (ok : DeliveryPermitted s) : DeliveryPermitted t := by
  intro e
  by_cases same : e = d
  · exact same ▸ permitted
  · rw [h.dests e same]
    exact ok e

end Sys2Proof.Machine
end

