-- ==== Sys2Proof/Proofs/Reports.lean ====
section
/-! SUPPORT. Reports on their way (R50, R51, R104, R137): what storing one, taking one and delivering announcements uphold. -/

namespace Sys2Proof.Machine

/-- An effect that leaves the shape of the destinations and every access report, and may bring the controller and the parental unit a new report of a
destination, the same for both. -/
structure AccessKept (s t : State) : Prop extends Shaped s t where
  access : ∀ d, (t.dest d).access = (s.dest d).access
  lastAccess : ∀ d, t.lastAccess d = s.lastAccess d
  agreed : ParentalAgreed s → ParentalAgreed t

theorem Steady.accessKept {s t : State} (h : Steady s t) : AccessKept s t :=
  ⟨h.toShaped, h.access, h.lastAccess, h.keeps.parental⟩

theorem AccessKept.refl (s : State) : AccessKept s s := (Steady.refl s).accessKept

theorem AccessKept.trans {s t u : State} (a : AccessKept s t) (b : AccessKept t u) : AccessKept s u :=
  ⟨a.toShaped.trans b.toShaped, fun d => (b.access d).trans (a.access d), fun d => (b.lastAccess d).trans (a.lastAccess d), b.agreed ∘ a.agreed⟩

theorem AccessKept.ite {s t u : State} {c : Prop} [Decidable c] (a : AccessKept s t) (b : AccessKept s u) : AccessKept s (if c then t else u) := by
  split
  · exact a
  · exact b

theorem AccessKept.carries {s t : State} (h : AccessKept s t) : Carries s t := h.toShaped.carries h.agreed

/-! ## The report that is stored -/

section
variable {d : DestId} {s : State}

theorem reportStored_none (h : (s.viewer d).report = none) : s.reportStored d = s := by
  unfold State.reportStored
  dsimp only
  rw [h]

theorem reportStored_some {r : ParentalReport} (h : (s.viewer d).report = some r) : s.reportStored d =
    if (s.dest d).isViewing then (s.setViewer d { s.viewer d with last := some r }).setDest d { s.dest d with parental := some r }
    else s.setViewer d { s.viewer d with last := some r } := by
  unfold State.reportStored
  dsimp only
  rw [h]
  rfl

/-- A change of a destination's parental report alone leaves its shape. -/
theorem setDest_shaped {x : Dest} (h : (s.dest d).Shaped x) : Shaped s (s.setDest d x) := by
  refine ⟨rfl, rfl, fun e => ?_, fun _ => .refl _, fun _ _ => .inl⟩
  rw [setDest_dest]
  split
  · next same => exact same ▸ h
  · exact .refl _

variable (d s)

theorem reportStored_accessKept : AccessKept s (s.reportStored d) := by
  cases report : (s.viewer d).report with
  | none =>
    rw [reportStored_none report]
    exact .refl s
  | some r =>
    rw [reportStored_some report]
    split
    · next viewing =>
      refine ⟨(Shaped.ofUnits s s.access _).trans (setDest_shaped (s := s.setViewer d _) ⟨rfl, rfl, rfl, .rfl, rfl⟩), fun e => ?_, fun _ => rfl,
        fun agreed e live view => ?_⟩
      · rw [setDest_dest]
        split
        · next same => exact same ▸ rfl
        · rfl
      · by_cases same : e = d
        · subst same
          rw [setDest_dest_same, setDest_viewer, setViewer_viewer_same]
        · rw [setDest_dest, if_neg same] at live view ⊢
          rw [setDest_viewer, setViewer_viewer, if_neg same]
          exact agreed e live view
    · next unseen =>
      refine ⟨Shaped.ofUnits s s.access _, fun _ => rfl, fun _ => rfl, fun agreed e live view => ?_⟩
      have other : e ≠ d := by
        rintro rfl
        exact unseen (isViewing_iff.mpr ⟨live, view⟩)
      rw [setViewer_viewer, if_neg other]
      exact agreed e live view

theorem placeBar_accessKept : AccessKept s (s.placeBar d) :=
  ((endHold_steady d _ s).trans (setViewer_steady (by rfl))).accessKept.trans (reportStored_accessKept d _)

theorem liftBar_accessKept : AccessKept s (s.liftBar d) :=
  ((setViewer_steady (by rfl)).trans (holdRule_steady d _)).accessKept.trans (reportStored_accessKept d _)

theorem settleBar_accessKept (o : Option AccessVerdict) (v : AccessVerdict) : AccessKept s (s.settleBar d o v) :=
  .ite (.refl s) (.ite (placeBar_accessKept d s) (.ite (liftBar_accessKept d s) (.refl s)))

theorem barAtChange_accessKept (v : AccessVerdict) : AccessKept s (s.barAtChange d v) :=
  .ite (.refl s) (.ite (placeBar_accessKept d s) (.ite (liftBar_accessKept d s) (.refl s)))

theorem parentalChange_accessKept : AccessKept s (s.parentalChange d) :=
  (((endHold_steady d _ s).trans (setViewer_steady (withoutEventUnlock_last _))).trans (formVerdict_steady d _)).accessKept.trans
    (reportStored_accessKept d _)

theorem parentalRetry_accessKept : AccessKept s (s.parentalRetry d) :=
  ((clearMemory_steady d s).trans (formVerdict_steady d _)).accessKept.trans (reportStored_accessKept d _)

theorem tellChange_accessKept : AccessKept s (s.tellChange d) := by
  unfold State.tellChange
  split
  · exact parentalChange_accessKept d s
  · exact (setViewer_steady (withoutEventUnlock_last _)).accessKept

theorem tellRetry_accessKept : AccessKept s (s.tellRetry d) := by
  unfold State.tellRetry
  split
  · exact parentalRetry_accessKept d s
  · exact .refl s

/-- The parental report is handed, and the controller evaluates the destination (R51). -/
theorem reportHanded_keeps : Keeps s (s.reportHanded d) := by
  have stored := reportStored_accessKept d s
  have agrees : AccessAgreed s → AccessAgreed (s.reportStored d) := fun agreed e =>
    (stored.lastAccess e).trans ((agreed e).trans (stored.access e).symm)
  by_cases seen : (s.dest d).isViewing = true ∧ (s.viewer d).formed.isSome = true
  · have handed : s.reportHanded d = (s.reportStored d).evaluate d := if_pos (Bool.and_eq_true_iff.mpr seen)
    have evaluated := evaluate_keeps d (s.reportStored d)
    refine handed ▸ ⟨⟨stored.carries.trans evaluated.toCarries, ?_⟩, evaluated.access ∘ agrees⟩
    exact OthersKept.permitted ((reportStored_oneDest d s).trans (evaluate_oneDest d _)).toOthersKept (evaluate_permitted d _)
  · have handed : s.reportHanded d = s.reportStored d := if_neg fun h => seen (Bool.and_eq_true_iff.mp h)
    have dest : (s.reportStored d).dest d = s.dest d := by
      cases report : (s.viewer d).report with
      | none => rw [reportStored_none report]
      | some r =>
        have formed : (s.viewer d).formed.isSome = true := by
          unfold Viewer.report at report
          cases h : (s.viewer d).formed with
          | none => simp [h] at report
          | some _ => rfl
        rw [reportStored_some report, if_neg fun viewing => seen ⟨viewing, formed⟩, setViewer_dest]
    exact handed ▸ ⟨⟨stored.carries, fun ok => (reportStored_oneDest d s).toOthersKept.permitted (dest ▸ ok d) ok⟩, agrees⟩

theorem formAndReport_keeps : Keeps s (s.formAndReport d) :=
  (formVerdict_steady d s).keeps.trans (.ite (.refl _) (reportHanded_keeps d _))

end

theorem formEach_keeps (want : Dest → Bool) (s : State) : Keeps s (s.formEach want) :=
  .eachDest (fun d u => .ite (formAndReport_keeps d u) (.refl u)) s

theorem refill_steady (t : Word) (s : State) : Steady s (s.refill t) := .elsewhere rfl

theorem parentalMark_keeps (t : Word) (s : State) : Keeps s (s.parentalMark t) := by
  rw [parentalMark_eq]
  exact (((refill_steady t s).trans (charge_steady _)).trans (spendUnlocks_steady t _)).keeps.trans (formEach_keeps _ _)

theorem parentalEventChange_keeps (i : Fin 64) (s : State) : Keeps s (s.parentalEventChange i) := by
  rw [parentalEventChange_eq]
  exact (eventForgotten_steady i s).keeps.trans (formEach_keeps _ _)

/-! ## The access report that is taken -/

theorem storeAccess_carries (d : DestId) (v : AccessVerdict) (s : State) : Carries s (s.storeAccess d v) := by
  refine (setDest_shaped (by exact ⟨rfl, rfl, rfl, .rfl, rfl⟩)).carries fun agreed e live view => ?_
  rw [setDest_dest] at live view ⊢
  split
  · next same =>
    subst same
    rw [if_pos rfl] at live view
    exact agreed e live view
  · next other =>
    rw [if_neg other] at live view
    exact agreed e live view

theorem accessLapse_steady (d : DestId) (o : Option AccessVerdict) (v : AccessVerdict) (s : State) : Steady s (s.accessLapse d o v) :=
  .ite (raise_steady _ _ _ _) (.refl s)

theorem takeAccessReport_live {d : DestId} {s : State} (live : (s.dest d).state ≠ .vacant) (v : AccessVerdict) : s.takeAccessReport d v =
    (((s.storeAccess d v).settleBar d (s.dest d).access v).accessLapse d (s.dest d).access v).evaluate d := if_neg live

theorem takeAccessReport_vacant {d : DestId} {s : State} (vacant : (s.dest d).state = .vacant) (v : AccessVerdict) :
    s.takeAccessReport d v = s := if_pos vacant

theorem takeAccessReport_upholds (d : DestId) (v : AccessVerdict) (s : State) : Upholds s (s.takeAccessReport d v) := by
  by_cases vacant : (s.dest d).state = .vacant
  · rw [takeAccessReport_vacant vacant]
    exact (Keeps.refl s).toUpholds
  · have one := takeAccessReport_oneDest d s v
    rw [takeAccessReport_live vacant] at one ⊢
    refine ⟨?_, one.toOthersKept.permitted (evaluate_permitted d _)⟩
    exact (((storeAccess_carries d v s).trans (settleBar_accessKept d _ _ _).carries).trans (accessLapse_steady d _ _ _).keeps.toCarries).trans
      (evaluate_keeps d _).toCarries

/-! ## Announcements -/

theorem storeLast_upholds (l : List (DestId × AccessVerdict)) (s : State) : Upholds s (s.storeLast l) := by
  rw [storeLast_eq]
  exact ⟨(Shaped.ofUnits s _ _).carries id, id⟩

theorem recompute_steady (want : Fin 64 → Bool) (s : State) : Steady s (s.recompute want).1 := .elsewhere rfl

theorem sweep_steady (t : Word) (s : State) : Steady s (s.sweep t) := .elsewhere rfl

theorem take_upholds (a : Announcement) (s : State) : Upholds s (a.take s).1 := by
  cases a <;> dsimp only [Announcement.take]
  case guideTime | guideMark => exact (recompute_steady _ s).keeps.toUpholds
  case accessTime | accessChange c => exact storeLast_upholds _ s
  case accessMark t => exact (sweep_steady t s).keeps.toUpholds.trans (storeLast_upholds _ _)
  case parentalTime => exact (formEach_keeps _ s).toUpholds
  case parentalMark t => exact (parentalMark_keeps t s).toUpholds
  case controllerMark => exact (notices_keeps s).toUpholds
  case parentalChange c => exact (parentalEventChange_keeps c.index s).toUpholds
  case accessReport d v => exact takeAccessReport_upholds d v s

theorem deliver_upholds (l : List Announcement) (s : State) : Upholds s (s.deliver l) :=
  deliver_induct (Inv := fun _ t => Upholds s t)
    ⟨fun _ t c x h => h.trans (Steady.elsewhere (s := t) (t := { t with freeCount := c, script := x }) rfl).keeps.toUpholds,
     fun _ a _ t _ h => h.trans (take_upholds a t)⟩ (Keeps.refl s).toUpholds

/-- The reports on their way bring the controller's up to the access unit's, and every one is for a destination that takes it (R50, R104). -/
structure ReportsOnTheWay (l : List Announcement) (s : State) : Prop where
  handed : ∀ d, handed d l (s.dest d).access = s.lastAccess d
  live : ∀ d v, .accessReport d v ∈ l → (s.dest d).state ≠ .vacant

/-- A destination stands bound as it was behind any announcement that is not a report of a VACANT one. -/
theorem take_bound_live {a : Announcement} {d : DestId} {s : State} (live : ∀ v, a = .accessReport d v → (s.dest d).state ≠ .vacant) :
    Dest.Bound { s.dest d with access := a.hands d (s.dest d).access } ((a.take s).1.dest d) := by
  by_cases vacant : (s.dest d).state = .vacant
  · have silent : a.hands d (s.dest d).access = (s.dest d).access := by
      cases a with
      | accessReport e v =>
        refine if_neg fun same => live v ?_ vacant
        rw [same]
      | _ => rfl
    rw [silent]
    cases reports : a.reports with
    | false => exact take_unreported_bound reports d s
    | true =>
      cases a with
      | accessReport e v =>
        refine (takeAccessReport_stands_other (fun same => live v ?_ vacant) v s).bound
        rw [same]
      | _ => cases reports
  · exact take_bound a vacant

/-- A report that an announcement brings is for a destination that is not VACANT (R103). -/
theorem take_reports_live {a : Announcement} {d : DestId} {v : AccessVerdict} {s : State} (mem : .accessReport d v ∈ (a.take s).2) :
    (s.dest d).state ≠ .vacant := by
  rcases take_access a s with ⟨-, -, unreported⟩ | ⟨want, taken, -, -⟩
  · cases unreported _ mem
  · rw [taken] at mem
    obtain ⟨r, reported, same⟩ := List.mem_map.mp mem
    obtain ⟨rfl, rfl⟩ : r.1 = d ∧ r.2 = v := by simpa using same
    obtain ⟨_, _, live, -⟩ := mem_accessReports.mp reported
    rwa [swept_dest] at live

theorem ReportsOnTheWay.taken {before rest : List Announcement} {a : Announcement} {s : State} (first : ∀ b ∈ before, b.path ≠ a.path)
    (h : ReportsOnTheWay (before ++ a :: rest) s) : ReportsOnTheWay (before ++ rest ++ (a.take s).2) (a.take s).1 := by
  have bound (d : DestId) := take_bound_live (a := a) (d := d) (s := s) fun v same =>
    h.live d v (List.mem_append_right _ (same ▸ List.mem_cons_self))
  refine ⟨fun d => ?_, fun d v mem => (not_congr (bound d).vacant).mpr ?_⟩
  · rw [(bound d).access, handed_append, ← handed_taken first, h.handed d, take_handed]
  · rcases List.mem_append.mp mem with waits | brought
    · refine h.live d v ?_
      rcases List.mem_append.mp waits with mem | mem
      · exact List.mem_append_left _ mem
      · exact List.mem_append_right _ (List.mem_cons_of_mem _ mem)
    · exact take_reports_live brought

theorem reportsOnTheWay_kept : KeptByTaking ReportsOnTheWay :=
  ⟨fun _ _ _ _ h => ⟨h.handed, h.live⟩, fun _ _ _ _ first h => h.taken first⟩

theorem reportsOnTheWay_nil {s : State} : ReportsOnTheWay [] s ↔ AccessAgreed s :=
  ⟨fun h d => (h.handed d).symm, fun h => ⟨fun d => (h d).symm, fun _ _ mem => by cases mem⟩⟩

theorem AccessAgreed.reportsOnTheWay {s : State} (h : AccessAgreed s) {l : List Announcement} (unreported : ∀ a ∈ l, a.reports = false) :
    ReportsOnTheWay l s :=
  ⟨fun d => by rw [handed_unreported unreported, h d], fun _ _ mem => by cases unreported _ mem⟩

theorem deliver_keeps {l : List Announcement} (unreported : ∀ a ∈ l, a.reports = false) (s : State) : Keeps s (s.deliver l) :=
  ⟨deliver_upholds l s, fun agreed => reportsOnTheWay_nil.mp (deliver_induct reportsOnTheWay_kept (agreed.reportsOnTheWay unreported))⟩

/-- Reports that are taken one after another within an order (R104). -/
theorem takeReports_upholds (l : List (DestId × AccessVerdict)) (s : State) :
    Upholds s (l.foldl (fun s r => s.takeAccessReport r.1 r.2) s) :=
  foldl_chain (R := Upholds) (fun s => (Keeps.refl s).toUpholds) Upholds.trans (fun s r => takeAccessReport_upholds r.1 r.2 s) l s

theorem takeReports_agreed {l : List (DestId × AccessVerdict)} {s : State}
    (h : ReportsOnTheWay (l.map fun r => .accessReport r.1 r.2) s) : AccessAgreed (l.foldl (fun s r => s.takeAccessReport r.1 r.2) s) := by
  induction l generalizing s with
  | nil => exact reportsOnTheWay_nil.mp h
  | cons r l ih =>
    have taken := ReportsOnTheWay.taken (before := []) (fun _ mem => by cases mem) h
    exact ih (by simpa [Announcement.take] using taken)

theorem formAccessNow_keeps (want : Dest → Bool) (s : State) : Keeps s (s.formAccessNow want) := by
  refine ⟨(storeLast_upholds _ s).trans (takeReports_upholds _ _), fun agreed => takeReports_agreed ⟨fun d => ?_, fun d v mem => ?_⟩⟩
  · rw [storeLast_dest, ← agreed d]
    exact handed_reports d _ s
  · obtain ⟨r, reported, same⟩ := List.mem_map.mp mem
    obtain ⟨rfl, rfl⟩ : r.1 = d ∧ r.2 = v := by simpa using same
    obtain ⟨_, _, live, -⟩ := mem_accessReports.mp reported
    rwa [storeLast_dest]

end Sys2Proof.Machine
end

