-- ==== Sys2Proof/Proofs/Selections.lean ====
section
/-! SUPPORT. What selections, releases and the orders of the service table and the destination records uphold (R40 to R45, R60 to R70). -/

namespace Sys2Proof.Machine

/-- An effect on `d` alone that ends with `d` lawful by itself, and with no cell of `d` queued. -/
theorem OneDest.keeps {d : DestId} {s t : State} (h : OneDest d s t)
    (vacant : (t.dest d).state = .vacant ↔ (t.dest d).service = none)
    (valid : SelectionsSound s → ∀ i, (t.dest d).service = some i → (s.service i).isSome = true)
    (parental : (t.dest d).state ≠ .vacant → (t.dest d).kind = .view → (t.viewer d).last = (t.dest d).parental)
    (access : t.lastAccess d = (t.dest d).access) (permitted : (t.dest d).Permitted) (queues : ∀ p, (t.port p).queue ⊆ (s.port p).queue)
    (unqueued : QueuesLawful s → ∀ p, ∀ c ∈ (t.port p).queue, c.isFor d = true → (s.dest d).port ≠ p) : Keeps s t := by
  have service (i : Fin 64) : t.service i = s.service i := congrArg (Table.read · i) h.services
  refine ⟨⟨⟨fun sound => ⟨fun e => ?_, fun e i => ?_, fun e mem => ?_, ?_⟩, fun agreed e => ?_, fun lawful => ?_, fun clear => ?_⟩,
    h.toOthersKept.permitted permitted⟩, fun agreed e => ?_⟩
  · by_cases same : e = d
    · exact same ▸ vacant
    · rw [h.dests e same]
      exact sound.1 e
  · rw [service]
    by_cases same : e = d
    · exact same ▸ valid sound i
    · rw [h.dests e same]
      exact sound.2.1 e i
  · rw [service]
    exact sound.2.2.1 e (h.changes ▸ mem)
  · rw [h.changes]
    exact sound.2.2.2
  · by_cases same : e = d
    · exact same ▸ parental
    · rw [h.dests e same, h.viewers e same]
      exact agreed e
  · exact lawful.ofRow h.dests queues fun p c mem isFor port => absurd port (unqueued lawful p c mem isFor)
  · exact ⟨fun p c mem => clear.1 p c (queues p mem), by rw [h.sent]; exact clear.2⟩
  · by_cases same : e = d
    · exact same ▸ access
    · rw [h.dests e same, h.lastAccess e same]
      exact agreed e

/-! ## A selection with outcome change (R64 to R66) -/

/-- No cell of a destination is queued at its port behind a full purge (R158). -/
theorem purgeDest_unqueued {d : DestId} {s : State} {c : Cell} (mem : c ∈ ((s.purgeDest d true).port (s.dest d).port).queue) :
    c.isFor d = false := by
  rw [purgeDest_port, if_pos rfl, purge_queue] at mem
  simpa using (List.mem_filter.mp mem).2

theorem chosen_live (x : Dest) (halted : Bool) : x.chosen halted ≠ .vacant := by
  unfold Dest.chosen
  split
  · exact DestState.noConfusion
  · split
    · split <;> exact DestState.noConfusion
    · split
      · exact DestState.noConfusion
      · split
        · next delivers => exact delivering_ne_vacant delivers
        · exact DestState.noConfusion

section
variable (d : DestId) (s : State)

/-- The evaluation that ends a change leaves what the destination has been told. -/
theorem evaluateAfresh_alone : DestAlone d s (s.evaluateAfresh d) :=
  (setDest_alone (by constructor <;> rfl)).trans (moveTo_alone d _ _)

theorem evaluateAfresh_live : ((s.evaluateAfresh d).dest d).state ≠ .vacant := moveTo_vacant (chosen_live _ _) d _

theorem evaluateAfresh_permitted : ((s.evaluateAfresh d).dest d).Permitted :=
  moveTo_chosen_permitted d (by rw [setDest_dest_same]; constructor <;> rfl)

theorem evaluateAfresh_queues (p : PortId) : ((s.evaluateAfresh d).port p).queue ⊆ (s.port p).queue := moveTo_queues d _ _ p

theorem withdrawStall_port (p : PortId) : (s.withdrawStall d).port p = s.port p := by
  unfold State.withdrawStall
  split <;> rfl

theorem clearAway_port (i : Fin 64) (p : PortId) : (s.clearAway d i).port p = (s.purgeDest d true).port p := by
  unfold State.clearAway
  dsimp only
  rw [setDest_port, withdrawStall_port]

theorem accessAtSelection_port (v : AccessVerdict) (p : PortId) : (s.accessAtSelection d v).port p = s.port p := rfl

/-- The destination whose old service is cleared away, with its fresh access report stored at the controller and the access unit (R64, R65). -/
def State.selected (d : DestId) (i : Fin 64) (s : State) : State :=
  let s1 := (s.clearAway d i).markSelected d
  s1.accessAtSelection d (s1.accessVerdict i)

variable (i : Fin 64)

theorem selected_dest : ((s.selected d i).dest d).service = some i ∧ ((s.selected d i).dest d).state = .withheld ∧
    ((s.selected d i).dest d).access = (s.selected d i).lastAccess d := by
  unfold State.selected State.accessAtSelection State.storeAccess State.markSelected State.clearAway
  simp

theorem selected_port (p : PortId) : (s.selected d i).port p = (s.purgeDest d true).port p := by
  unfold State.selected State.markSelected
  dsimp only
  rw [accessAtSelection_port, setDest_port, clearAway_port]

/-- The parental unit's fresh report after a service change is the controller's (R65). -/
theorem parentalChange_agrees {d : DestId} {s : State} {i : Fin 64} (service : (s.dest d).service = some i)
    (viewing : (s.dest d).isViewing = true) : ((s.parentalChange d).viewer d).last = ((s.parentalChange d).dest d).parental := by
  generalize hu : (s.endHold d .none).setViewer d ((s.endHold d .none).viewer d).withoutEventUnlock = u
  have dest : u.dest d = s.dest d := by
    rw [← hu]
    exact endHold_dest d _ s d
  have told : s.parentalChange d = (u.formVerdict d).reportStored d := by rw [← hu]; rfl
  have formed : ∃ f, ((u.formVerdict d).viewer d).formed = some f := by
    have made := formVerdict_viewer d u i (dest ▸ service)
    exact ⟨_, made ▸ ruled_formed _ _ _⟩
  obtain ⟨f, formed⟩ := formed
  obtain ⟨r, report⟩ : ∃ r, ((u.formVerdict d).viewer d).report = some r := by
    rw [Viewer.report, formed]
    exact ⟨_, rfl⟩
  rw [told, reportStored_some report, if_pos (by rwa [formVerdict_dest, dest]), setDest_viewer, setViewer_viewer_same, setDest_dest_same]

/-- Both units' fresh reports are the controller's before the evaluation that ends a change (R65). -/
theorem toldOfChange_parental (view : ((s.toldOfChange d i).dest d).kind = .view) :
    ((s.toldOfChange d i).viewer d).last = ((s.toldOfChange d i).dest d).parental := by
  obtain ⟨service, state, -⟩ := selected_dest d s i
  generalize hu : (s.selected d i).barAtChange d (((s.clearAway d i).markSelected d).accessVerdict i) = u
  have kept : AccessKept (s.selected d i) u := hu ▸ barAtChange_accessKept d _ _
  have told : s.toldOfChange d i = u.tellChange d := by rw [← hu]; rfl
  have kind : (u.dest d).kind = .view := by rw [← ((tellChange_accessKept d u).dests d).kind, ← told, view]
  have live : (u.dest d).state ≠ .vacant := (not_congr (kept.dests d).vacant).mpr (by rw [state]; exact DestState.noConfusion)
  have change : u.tellChange d = u.parentalChange d := by
    unfold State.tellChange
    rw [kind]
  rw [told, change]
  exact parentalChange_agrees ((kept.dests d).service.trans service) (isViewing_iff.mpr ⟨live, kind⟩)

theorem toldOfChange_accessKept : AccessKept (s.selected d i) (s.toldOfChange d i) :=
  (barAtChange_accessKept d _ _).trans (tellChange_accessKept d _)

theorem applyChange_keeps (valid : SelectionsSound s → (s.service i).isSome = true) : Keeps s (s.applyChange d i) := by
  obtain ⟨service, -, access⟩ := selected_dest d s i
  have told := toldOfChange_accessKept d s i
  have parental := toldOfChange_parental d s i
  have one := applyChange_oneDest d s i
  rw [applyChange_eq] at one ⊢
  generalize s.toldOfChange d i = u at told parental one
  have alone := evaluateAfresh_alone d u
  have shows : ((u.evaluateAfresh d).dest d).service = some i := alone.told.service.trans ((told.dests d).service.trans service)
  have queue (p : PortId) : ((u.evaluateAfresh d).port p).queue ⊆ ((s.purgeDest d true).port p).queue := by
    rw [← selected_port d s i]
    exact List.Subset.trans (evaluateAfresh_queues d u p) (told.queues p)
  refine one.keeps ?_ (fun sound j shown => ?_) (fun _ view => ?_) ?_ (evaluateAfresh_permitted d u) (fun p => ?_)
    fun _ p c mem isFor port => ?_
  · rw [shows]
    exact iff_of_false (evaluateAfresh_live d u) (by simp)
  · obtain rfl : i = j := by simpa [shows] using shown
    exact valid sound
  · rw [show (u.evaluateAfresh d).viewer d = u.viewer d from congrArg (·.viewers.read d) alone.parental, alone.told.parental]
    exact parental (alone.told.kind ▸ view)
  · rw [show (u.evaluateAfresh d).lastAccess d = u.lastAccess d from congrArg (·.last.read d) alone.access, alone.told.access, told.access, access]
    exact told.lastAccess d
  · exact List.Subset.trans (queue p) ((purgeDest_steady d true s).queues p)
  · subst port
    have unqueued := purgeDest_unqueued (queue _ mem)
    rw [isFor] at unqueued
    cases unqueued

/-! ## A selection with outcome retry (R67) -/

theorem accessAtSelection_carries (v : AccessVerdict) : Carries s (s.accessAtSelection d v) :=
  Carries.trans (t := s.setLastAccess d (some v)) ((Shaped.ofUnits s _ s.parental).carries id) (storeAccess_carries d v _)

theorem accessAtSelection_agreed {d : DestId} {s : State} (v : AccessVerdict) (agreed : AccessAgreed s) : AccessAgreed (s.accessAtSelection d v) := by
  intro e
  unfold State.accessAtSelection State.storeAccess
  by_cases same : e = d
  · subst same
    simp
  · rw [setDest_lastAccess, setLastAccess_lastAccess, if_neg same, setDest_dest, if_neg same, setLastAccess_dest, agreed e]

theorem AccessKept.agreedAccess {s t : State} (h : AccessKept s t) (agreed : AccessAgreed s) : AccessAgreed t := fun e =>
  (h.lastAccess e).trans ((agreed e).trans (h.access e).symm)

theorem applyRetry_keeps : Keeps s (s.applyRetry d i) := by
  have dropped : Keeps s (s.dropRetryReasons d) := setDest_told_keeps
  generalize hu : s.dropRetryReasons d = u at dropped
  have told : AccessKept (u.accessAtSelection d (u.accessVerdict i))
      (((u.accessAtSelection d (u.accessVerdict i)).settleBar d (u.dest d).access (u.accessVerdict i)).tellRetry d) :=
    (settleBar_accessKept d _ _ _).trans (tellRetry_accessKept d _)
  have retried : s.applyRetry d i =
      (((u.accessAtSelection d (u.accessVerdict i)).settleBar d (u.dest d).access (u.accessVerdict i)).tellRetry d).evaluate d := by
    rw [← hu]
    rfl
  have one := applyRetry_oneDest d s i
  have evaluated := evaluate_keeps d
    (((u.accessAtSelection d (u.accessVerdict i)).settleBar d (u.dest d).access (u.accessVerdict i)).tellRetry d)
  rw [retried] at one ⊢
  exact ⟨⟨dropped.toCarries.trans (((accessAtSelection_carries d u _).trans told.carries).trans evaluated.toCarries),
    one.toOthersKept.permitted (evaluate_permitted d _)⟩,
    fun agreed => evaluated.access (told.agreedAccess (accessAtSelection_agreed _ (dropped.access agreed)))⟩

theorem applySelection_keeps (valid : SelectionsSound s → (s.service i).isSome = true) : Keeps s (s.applySelection d i) := by
  unfold State.applySelection
  split
  · exact applyChange_keeps d s i valid
  · exact .refl s
  · exact applyRetry_keeps d s i

end

/-! ## The change set (R60, R62, R68) -/

/-- Entries of the change set are applied one after another (R68). -/
theorem applyAll_keeps {l : List (DestId × Fin 64)} {s : State} (staged : l ⊆ s.ctl.changes) : Keeps s (s.applyAll l) := by
  induction l generalizing s with
  | nil => exact .refl s
  | cons e l ih =>
    have applied := applySelection_keeps e.1 s e.2 fun sound => sound.2.2.1 e (staged List.mem_cons_self)
    have changes : (s.applySelection e.1 e.2).ctl.changes = s.ctl.changes := (applySelection_frame e.1 e.2 s).changes
    exact applied.trans (ih (by rw [changes]; exact fun a mem => staged (List.mem_cons_of_mem e mem)))

/-- The change set is replaced by one that names valid records, each destination once. -/
theorem setChanges_keeps {l : List (DestId × Fin 64)} {s : State}
    (valid : SelectionsSound s → (∀ e ∈ l, (s.service e.2).isSome = true) ∧ (l.map (·.1)).Nodup) : Keeps s (s.setChanges l) where
  selections sound := ⟨sound.1, sound.2.1, valid sound⟩
  parental := id
  queues := id
  clear := id
  permitted := id
  access := id

theorem stageChange_mem {d : DestId} {i : Fin 64} {l : List (DestId × Fin 64)} {e : DestId × Fin 64} (mem : e ∈ stageChange d i l) :
    e = (d, i) ∨ e ∈ l := by
  unfold stageChange at mem
  split at mem
  · obtain ⟨a, ha, rfl⟩ := List.mem_map.mp mem
    split
    · exact .inl rfl
    · exact .inr ha
  · simpa [or_comm] using mem

/-- A staged selection leaves one entry a destination (R62). -/
theorem stageChange_nodup {d : DestId} (i : Fin 64) {l : List (DestId × Fin 64)} (once : (l.map (·.1)).Nodup) :
    ((stageChange d i l).map (·.1)).Nodup := by
  unfold stageChange
  split
  · have same : (l.map fun e => if e.1 = d then (d, i) else e).map (·.1) = l.map (·.1) := by
      rw [List.map_map]
      refine List.map_congr_left fun e _ => ?_
      show (if e.1 = d then (d, i) else e).1 = e.1
      split
      · next h => exact h.symm
      · rfl
    rwa [same]
  · next absent =>
    have new : d ∉ l.map (·.1) := by
      intro mem
      obtain ⟨e, he, rfl⟩ := List.mem_map.mp mem
      refine absent ?_
      unfold changePlace
      rw [List.findIdx?_isSome, List.any_eq_true]
      exact ⟨e, he, beq_self_eq_true _⟩
    rw [List.map_append]
    exact List.nodup_append.mpr ⟨once, List.nodup_singleton _, fun a ha b hb => by
      obtain rfl : b = d := by simpa using hb
      exact fun h => new (h ▸ ha)⟩

theorem stage_keeps {d : DestId} {i : Fin 64} {s : State} (valid : (s.service i).isSome = true) :
    Keeps s (s.setChanges (stageChange d i s.ctl.changes)) :=
  setChanges_keeps fun sound => ⟨fun e mem => (stageChange_mem mem).elim (fun h => h ▸ valid) (sound.2.2.1 e), stageChange_nodup i sound.2.2.2⟩

theorem orderSelect_keeps (b : List Byte) (s : State) : Keeps s (orderSelect b s).state := by
  unfold orderSelect
  split
  · split
    · exact .refl s
    · split
      · exact .refl s
      · next invalid =>
        have valid := Option.isSome_iff_ne_none.mpr fun none => invalid (Option.isNone_iff_eq_none.mpr none)
        split
        · exact stage_keeps valid
        · exact applySelection_keeps _ s _ fun _ => valid
  · exact .refl s

theorem orderTake_keeps (b : List Byte) (s : State) : Keeps s (orderTake b s).state :=
  (applyAll_keeps (List.Subset.refl s.ctl.changes)).trans (setChanges_keeps (l := []) fun _ => ⟨by simp, List.nodup_nil⟩)

/-! ## RELEASE (R70) -/

theorem fullPurge_queues (d : DestId) (s : State) (p : PortId) : ((s.fullPurge d).port p).queue ⊆ (s.port p).queue := by
  unfold State.fullPurge
  split
  · exact .refl _
  · exact (purgeDest_steady d true s).queues p

/-- No cell of a destination is queued at its port once it is released (R70). -/
theorem fullPurge_unqueued {d : DestId} {s : State} (lawful : QueuesLawful s) {c : Cell}
    (mem : c ∈ ((s.fullPurge d).port (s.dest d).port).queue) : c.isFor d = false := by
  by_cases vacant : (s.dest d).state = .vacant
  · rw [show s.fullPurge d = s from if_pos vacant] at mem
    obtain ⟨e, isFor, -, live, -⟩ := lawful _ c mem
    have other : d ≠ e := by
      rintro rfl
      exact live vacant
    cases named : c.isFor d with
    | false => rfl
    | true =>
      rw [Cell.isFor, beq_iff_eq] at isFor named
      have same : (sourceByte d).toNat = (sourceByte e).toNat := congrArg BitVec.toNat (named.symm.trans isFor)
      rw [dest_byte, dest_byte] at same
      exact absurd (Fin.ext same) other
  · rw [show s.fullPurge d = s.purgeDest d true from if_neg vacant] at mem
    exact purgeDest_unqueued mem

/-- The destination forgotten and the two units told of the release, before the controller lists it as VACANT (R70). -/
def State.releasing (d : DestId) (s : State) : State :=
  let s1 := (s.fullPurge d).withdrawStall d
  (State.setLastAccess d none (s1.setDest d { (s1.dest d).forget with service := none })).parentalRelease d

/-- The change set and the state that a release leaves. -/
def State.released (d : DestId) (s : State) : State :=
  let s1 := s.setChanges (s.ctl.changes.filter fun e => e.1 != d)
  s1.setDest d { s1.dest d with state := .vacant }

theorem releaseDest_eq (d : DestId) (s : State) : s.releaseDest d = (s.releasing d).released d := by
  unfold State.releaseDest State.releasing State.released
  rfl

theorem released_port (d : DestId) (s : State) (p : PortId) : (s.released d).port p = s.port p := rfl

theorem released_dest_same (d : DestId) (s : State) : (s.released d).dest d = { s.dest d with state := .vacant } := setDest_dest_same _ d _

theorem released_dest_other {d e : DestId} (h : e ≠ d) (s : State) : (s.released d).dest e = s.dest e := (setDest_dest _ d _ e).trans (if_neg h)

theorem parentalRelease_dest (d : DestId) (s : State) : (s.parentalRelease d).dest d = s.dest d := endHold_dest d _ s d

theorem parentalRelease_port (d : DestId) (s : State) (p : PortId) : (s.parentalRelease d).port p = s.port p := by
  show (s.endHold d .none).port p = _
  unfold State.endHold
  dsimp only
  split <;> rfl

theorem releasing_dest (d : DestId) (s : State) : ((s.releasing d).dest d).service = none ∧
    ((s.releasing d).dest d).access = none ∧ (s.releasing d).lastAccess d = none := by
  have last (u : State) : (u.parentalRelease d).lastAccess d = u.lastAccess d :=
    congrArg (fun a : AccessUnit => a.last.read d) (parentalRelease_frame d u).access
  unfold State.releasing
  generalize (s.fullPurge d).withdrawStall d = u
  dsimp only
  rw [last, setLastAccess_lastAccess, if_pos rfl, parentalRelease_dest, setLastAccess_dest, setDest_dest_same]
  exact ⟨rfl, rfl, rfl⟩

theorem releasing_port (d : DestId) (s : State) (p : PortId) : (s.releasing d).port p = (s.fullPurge d).port p := by
  unfold State.releasing
  dsimp only
  rw [parentalRelease_port, setLastAccess_port, setDest_port, withdrawStall_port]

theorem releasing_oneDest (d : DestId) (s : State) : OneDest d s (s.releasing d) := by
  have purged : OneDest d s (s.fullPurge d) := .ite (.refl d s) (purgeDest_oneDest d s true)
  exact (((purged.trans (withdrawStall_oneDest d _)).trans (setDest_oneDest d _)).trans (setLastAccess_oneDest d _ none)).trans
    (parentalRelease_oneDest d _)

theorem releaseDest_oneDest (d : DestId) (s : State) :
    OneDest d (s.setChanges (s.ctl.changes.filter fun e => e.1 != d)) (s.releaseDest d) := by
  have settled := releaseDest_frame d s
  have releasing := releasing_oneDest d s
  rw [releaseDest_eq] at settled ⊢
  generalize s.releasing d = u at settled releasing ⊢
  exact ⟨⟨settled, fun e h => (released_dest_other h u).trans (releasing.dests e h), releasing.viewers, releasing.lastAccess,
    releasing.ports, releasing.sources⟩, (congrArg Dest.port (released_dest_same d u)).trans releasing.port⟩

theorem releaseDest_dest (d : DestId) (s : State) : ((s.releaseDest d).dest d).state = .vacant ∧ ((s.releaseDest d).dest d).service = none ∧
    ((s.releaseDest d).dest d).access = none ∧ (s.releaseDest d).lastAccess d = none := by
  obtain ⟨service, access, last⟩ := releasing_dest d s
  rw [releaseDest_eq]
  generalize s.releasing d = u at service access last
  rw [released_dest_same]
  exact ⟨rfl, service, access, last⟩

theorem releaseDest_port (d : DestId) (s : State) (p : PortId) : (s.releaseDest d).port p = (s.fullPurge d).port p := by
  rw [releaseDest_eq, released_port, releasing_port]

theorem releaseDest_keeps (d : DestId) (s : State) : Keeps s (s.releaseDest d) := by
  obtain ⟨vacant, service, access, last⟩ := releaseDest_dest d s
  have fewer : Keeps s (s.setChanges (s.ctl.changes.filter fun e => e.1 != d)) :=
    setChanges_keeps fun sound => ⟨fun e mem => sound.2.2.1 e (List.mem_filter.mp mem).1, sound.2.2.2.sublist (List.filter_sublist.map _)⟩
  refine fewer.trans ((releaseDest_oneDest d s).keeps (iff_of_true vacant service) (fun _ i shown => ?_) (fun live => absurd vacant live)
    (last.trans access.symm) (fun delivers => ?_) (fun p => ?_) fun lawful p c mem isFor port => ?_)
  · rw [service] at shown
    cases shown
  · rw [vacant] at delivers
    cases delivers
  · rw [releaseDest_port]
    exact fullPurge_queues d s p
  · subst port
    rw [releaseDest_port] at mem
    have unqueued := fullPurge_unqueued (s := s) lawful mem
    rw [isFor] at unqueued
    cases unqueued

theorem orderRelease_keeps (b : List Byte) (s : State) : Keeps s (orderRelease b s).state := by
  unfold orderRelease
  split
  · exact .refl s
  · exact releaseDest_keeps _ s

/-! ## BIND_DESTINATION (R45) -/

theorem bind_keeps {d : DestId} {s : State} (vacant : (s.dest d).state = .vacant) {x : Dest} (state : x.state = .vacant)
    (service : x.service = (s.dest d).service) (access : x.access = (s.dest d).access) : Keeps s (s.setDest d x) := by
  have others (e : DestId) (h : e ≠ d) : (s.setDest d x).dest e = s.dest e := by rw [setDest_dest, if_neg h]
  have row : (s.setDest d x).dest d = x := setDest_dest_same s d x
  refine ⟨⟨⟨.ofServices rfl rfl (fun e => ?_) (fun e => ?_), fun agreed e live view => ?_, fun lawful => ?_, id⟩, fun ok e => ?_⟩,
    fun agreed e => ?_⟩
  · by_cases same : e = d
    · rw [same, row, service]
    · rw [others e same]
  · by_cases same : e = d
    · rw [same, row, state, vacant]
    · rw [others e same]
  · by_cases same : e = d
    · subst same
      exact absurd (by rw [row, state]) live
    · rw [others e same] at live view ⊢
      exact agreed e live view
  · exact lawful.ofRow others (fun _ => .refl _) fun _ _ _ _ _ live => absurd vacant live
  · by_cases same : e = d
    · subst same
      intro delivers
      rw [row, state] at delivers
      cases delivers
    · rw [others e same]
      exact ok e
  · by_cases same : e = d
    · subst same
      rw [row, access]
      exact agreed e
    · rw [others e same]
      exact agreed e

theorem orderBindDestination_keeps (b : List Byte) (s : State) : Keeps s (orderBindDestination b s).state := by
  unfold orderBindDestination
  split
  · dsimp only
    split
    · exact .refl s
    · next held =>
      have vacant := not_not.mp held
      refine Keeps.trans (bind_keeps vacant ?state ?service ?access) (setViewer_steady ?last).keeps
      case state => exact vacant
      all_goals rfl
  · exact .refl s

/-! ## SET_SERVICE and CLEAR_SERVICE (R41, R42) -/

/-- A service record is written, where it is not one in use that leaves the table (R40). -/
theorem setService_keeps {i : Fin 64} {x : Option Service} {s : State} (h : x.isSome = true ∨ s.inUse i = false) : Keeps s (s.setService i x) where
  selections sound := by
    have kept (j : Fin 64) (named : (∃ d, (s.dest d).state ≠ .vacant ∧ (s.dest d).service = some j) ∨ ∃ e ∈ s.ctl.changes, e.2 = j)
        (valid : (s.service j).isSome = true) : ((s.setService i x).service j).isSome = true := by
      rw [setService_service]
      split
      · next same =>
        refine h.resolve_right fun unused => ?_
        have used := inUse_iff.mpr named
        rw [same, unused] at used
        cases used
      · exact valid
    refine ⟨sound.1, fun d j shown => kept j (.inl ⟨d, fun vacant => ?_, shown⟩) (sound.2.1 d j shown),
      fun e mem => kept e.2 (.inr ⟨e, mem, rfl⟩) (sound.2.2.1 e mem), sound.2.2.2⟩
    have none : (s.dest d).service = none := (sound.1 d).mp vacant
    rw [show (s.dest d).service = some j from shown] at none
    cases none
  parental := id
  queues := id
  clear := id
  permitted := id
  access := id

theorem serviceChanged_keeps (i : Fin 64) (s : State) : Keeps s (s.serviceChanged i) := by
  rw [serviceChanged_eq]
  exact ((recompute_steady _ s).keeps.trans (formAccessNow_keeps _ _)).trans (deliver_keeps (recompute_unreported _ s) _)

theorem orderSetService_keeps (b : List Byte) (s : State) : Keeps s (orderSetService b s).state := by
  unfold orderSetService
  dsimp only
  split
  · exact .refl s
  · repeat' split
    · exact .refl s
    · exact .refl s
    · exact .refl s
    · exact (setService_keeps (.inl rfl)).trans (serviceChanged_keeps _ _)

theorem orderClearService_keeps (b : List Byte) (s : State) : Keeps s (orderClearService b s).state := by
  unfold orderClearService
  split
  · exact .refl s
  · split
    · exact .refl s
    · next unused => exact (setService_keeps (.inr (Bool.eq_false_of_not_eq_true unused))).trans (serviceChanged_keeps _ _)

end Sys2Proof.Machine
end

