-- ==== Sys2Proof/Proofs/Guides.lean ====
section
/-! SUPPORT. What the guide builder and the arrival of a cell uphold of the destinations and the ports: their own work lies elsewhere, and the rest is
the announcements they bring and the programme cells they fan out (R53, R103, R110, R121). -/

namespace Sys2Proof.Machine

theorem Keeps.still {s t : State} (same : t.deliverySide = s.deliverySide) : Keeps s t := (Steady.elsewhere same).keeps

theorem Keeps.elsewhere {s t u : State} (h : Keeps s t) (same : u.deliverySide = t.deliverySide) : Keeps s u := h.trans (Steady.elsewhere same).keeps

theorem Keeps.behind {s t u : State} (h : Keeps t u) (same : t.deliverySide = s.deliverySide) : Keeps s u := (Steady.elsewhere same).keeps.trans h

theorem Steady.behind {s t u : State} (h : Steady t u) (same : t.deliverySide = s.deliverySide) : Steady s u := (Steady.elsewhere same).trans h

/-- A cell to the host is none that leaves on a port. -/
theorem sendHost_steady (c : Cell) (s : State) : Steady s (s.send (.host c)) :=
  ⟨⟨rfl, rfl, fun d => .refl _, fun _ => .refl _, fun p b mem => .inl (by simpa using List.mem_append.mp mem)⟩, fun _ => rfl, fun _ => rfl, fun _ => rfl,
   fun _ => rfl⟩

/-! ## The guide builder (R110 to R119) -/

theorem insert_steady (w : Applying) (e : EventRecord) : Steady w.state (w.insert e).state := by
  unfold Applying.insert
  dsimp only
  split
  · exact .elsewhere rfl
  · split <;> exact .elsewhere rfl

theorem applySection_steady (b : List Byte) (s : State) : Steady s (s.applySection b).state := by
  have inserted (l : List EventRecord) (w : Applying) (h : Steady s w.state) : Steady s (l.foldl Applying.insert w).state :=
    List.foldlRecOn (motive := fun w : Applying => Steady s w.state) _ _ h fun w h e _ => h.trans (insert_steady w e)
  exact inserted _ _ (.elsewhere rfl)

theorem takeSection_steady (b : List Byte) (s : State) : Steady s (s.takeSection b).state := by
  unfold State.takeSection
  dsimp only
  split
  · split
    · exact .elsewhere rfl
    · exact .behind (applySection_steady b _) rfl
  · split
    · exact .behind (applySection_steady b _) rfl
    · exact .elsewhere rfl

theorem checkSection_steady (b : List Byte) (s : State) : Steady s (s.checkSection b).state := by
  unfold State.checkSection
  dsimp only
  split
  · exact .elsewhere rfl
  · split
    · exact .elsewhere rfl
    · exact takeSection_steady b s

theorem beginSection_steady (k : Fin 256) (f : FeedId) (c : Cell) (s : State) : Steady s (s.beginSection k f c).state := by
  unfold State.beginSection
  dsimp only
  repeat' split
  · exact .elsewhere rfl
  · exact .behind (checkSection_steady _ _) rfl
  · exact .elsewhere rfl
  · exact .elsewhere rfl

theorem continueSection_steady (k : Fin 256) (f : FeedId) (c : Cell) (s : State) : Steady s (s.continueSection k f c).state := by
  unfold State.continueSection
  dsimp only
  repeat' split
  · exact .refl s
  · exact .refl s
  · exact .elsewhere rfl
  · exact .elsewhere rfl
  · exact .behind (checkSection_steady _ _) rfl

theorem guideCell_steady (k : Fin 256) (f : FeedId) (c : Cell) (s : State) : Steady s (s.guideCell k f c).state := by
  unfold State.guideCell
  split
  · exact beginSection_steady k f c s
  · exact continueSection_steady k f c s

theorem finish_keeps (w : Applying) : Keeps w.state w.finish :=
  (recompute_steady _ _).keeps.trans (deliver_keeps (recompute_unreported _ _) _)

/-! ## The events of the feeds and the timers -/

theorem timeNews_unreported : ∀ a ∈ timeNews, a.reports = false := by decide

theorem stepNews_unreported (t : Word) : ∀ a ∈ timeNews ++ markNews t, a.reports = false := fun a mem =>
  (List.mem_append.mp mem).elim (timeNews_unreported a) (markNews_unreported t a)

theorem clockCell_keeps (f : FeedId) (c : Cell) (s : State) : Keeps s (s.clockCell f c) := by
  unfold State.clockCell
  dsimp only
  refine .ite (.still rfl) (.ite (.refl s) (.ite (.behind (deliver_keeps timeNews_unreported _) rfl) ?_))
  split
  · exact .still rfl
  · exact .behind (deliver_keeps (stepNews_unreported _) _) rfl
  · exact .behind (deliver_keeps timeNews_unreported _) rfl

theorem countFeed_steady (f : FeedId) (x : FeedTally) (s : State) : Steady s (s.countFeed f x) := .elsewhere rfl

theorem offerForward_steady (c : Cell) (s : State) : Steady s (s.offerForward c) := .ite (.elsewhere rfl) (.elsewhere rfl)

theorem dispose_keeps (k : Fin 256) (e : FlowEntry) (f : FeedId) (c : Cell) (s : State) : Keeps s (s.dispose k e f c) := by
  unfold State.dispose
  split
  · exact (countFeed_steady f _ s).keeps.trans (programmeCell_keeps k _ c _)
  · exact ((countFeed_steady f _ s).trans (offerForward_steady _ _)).keeps
  · exact ((countFeed_steady f _ s).trans (guideCell_steady k f c _)).keeps.trans (finish_keeps _)
  · exact (countFeed_steady f _ s).keeps.trans (clockCell_keeps f c _)
  · exact (countFeed_steady f _ s).keeps

theorem screen_keeps (f : FeedId) (c : Cell) (s : State) : Keeps s (s.screen f c) := by
  unfold State.screen State.classify
  refine .ite (.still rfl) (.ite (.still rfl) ?_)
  split
  · exact .still rfl
  · split
    · exact dispose_keeps _ _ f c s
    · exact .behind (dispose_keeps _ _ f c _) rfl
    · exact .still rfl
    · exact .behind (dispose_keeps _ _ f c _) rfl

theorem enterLapsed_steady (f : FeedId) (s : State) : Steady s (s.enterLapsed f) := .elsewhere rfl

theorem lockedWellFormed_keeps (f : FeedId) (c : Cell) (s : State) : Keeps s (s.lockedWellFormed f c) := .behind (screen_keeps f c _) rfl

theorem seekingWellFormed_keeps (f : FeedId) (c : Cell) (s : State) : Keeps s (s.seekingWellFormed f c) :=
  .ite (.still rfl) (.behind (lockedWellFormed_keeps f c _) rfl)

theorem arrival_keeps (f : FeedId) (c : Cell) (s : State) : Keeps s (s.arrival f c) := by
  have malformed : Keeps s ((s.countFeed f .arrived).lockedMalformed f) :=
    .ite (.behind (enterLapsed_steady f _).keeps rfl) (.still rfl)
  unfold State.arrival
  split
  · exact .refl s
  · exact .ite (.behind (seekingWellFormed_keeps f c _) rfl) (.still rfl)
  · exact .ite (.behind (seekingWellFormed_keeps f c _) rfl) (.still rfl)
  · exact .ite (.behind (lockedWellFormed_keeps f c _) rfl) malformed

theorem runTimers_steady (s : State) : Steady s s.runTimers where
  services := rfl
  changes := rfl
  dests d := by
    rw [runTimers_dest]
    exact ⟨rfl, rfl, rfl, .rfl, rfl⟩
  queues p := by
    rw [runTimers_port]
    exact .refl _
  sent _ _ := .inl
  access d := by rw [runTimers_dest]
  parental d := by rw [runTimers_dest]
  lastAccess _ := rfl
  lastReport d := by rw [runTimers_viewer]

theorem tick_keeps (s : State) : Keeps s s.tick := by
  have ran := (runTimers_steady s).keeps
  have advanced : Keeps s { s.runTimers with time := s.runTimers.time.advance } := ran.elsewhere rfl
  exact .ite ran (.ite (advanced.trans (deliver_keeps (markNews_unreported _) _)) advanced)

theorem holdExpires_keeps (d : DestId) (s : State) : Keeps s (s.holdExpires d) :=
  .ite ((endHold_steady d _ s).keeps.trans (reportHanded_keeps d _)) (.refl s)

end Sys2Proof.Machine
end

