-- ==== Sys2Proof/Proofs/Kept.lean ====
section
/-! SUPPORT. What each order and each reset upholds, and the invariants that every step keeps (R40, R46, R47, R50, R51, R53, R88). -/

namespace Sys2Proof.Machine

/-! ## The orders -/

theorem announceEntry_keeps (k : Fin 256) (s : State) : Keeps s (s.announceEntry k) :=
  .behind (entryChanged_steady k _).keeps rfl

theorem orderSetFlow_keeps (b : List Byte) (s : State) : Keeps s (orderSetFlow b s).state := by
  unfold orderSetFlow
  split
  · dsimp only [Answer.done]
    exact .behind (announceEntry_keeps _ _) rfl
  · exact .refl s

theorem orderClearFlow_keeps (b : List Byte) (s : State) : Keeps s (orderClearFlow b s).state := by
  unfold orderClearFlow
  split
  · exact .refl s
  · dsimp only [Answer.done]
    exact .behind (announceEntry_keeps _ _) rfl

theorem orderLoadKeyQuarter_keeps (b : List Byte) (s : State) : Keeps s (orderLoadKeyQuarter b s).state := by
  have committed (k : Fin 32) (x : KeySlot) : Keeps s ((s.setKeySlot k x).keyCommitted k) := .behind (keyCommitted_keeps k _) rfl
  unfold orderLoadKeyQuarter
  dsimp only
  repeat' split
  · dsimp only [Answer.done]
    exact committed _ _
  · exact .still rfl
  · exact .refl s

/-- An entitlement stored or removed, with the verdicts formed on it (R95, R96). -/
theorem setEntitlement_formAccessNow_keeps (i : Fin 48) (e : Option Entitlement) (want : Dest → Bool) (s : State) :
    Keeps s ((s.setEntitlement i e).formAccessNow want) :=
  .behind (formAccessNow_keeps _ _) rfl

theorem orderGrantEntitlement_keeps (b : List Byte) (s : State) : Keeps s (orderGrantEntitlement b s).state := by
  unfold orderGrantEntitlement
  dsimp only
  repeat' split
  · exact .refl s
  · exact .refl s
  · exact setEntitlement_formAccessNow_keeps _ _ _ s
  · exact setEntitlement_formAccessNow_keeps _ _ _ s
  · exact .refl s

theorem orderRevokeEntitlement_keeps (b : List Byte) (s : State) : Keeps s (orderRevokeEntitlement b s).state := by
  unfold orderRevokeEntitlement
  repeat' split
  · exact .refl s
  · exact .refl s
  · exact setEntitlement_formAccessNow_keeps _ _ _ s

theorem orderPurgeGuide_keeps (b : List Byte) (s : State) : Keeps s (orderPurgeGuide b s).state := by
  refine .behind (t := s.emptyGuide (half b 0)) ?_ rfl
  exact (recompute_steady _ _).keeps.trans (deliver_keeps (recompute_unreported _ _) _)

theorem formProfile_keeps (p : Fin 8) (x : Profile) (s : State) : Keeps s ((s.setProfile p x).formProfile p) :=
  .behind (formEach_keeps _ _) rfl

theorem orderSetProfile_keeps (b : List Byte) (s : State) : Keeps s (orderSetProfile b s).state := by
  unfold orderSetProfile
  dsimp only
  repeat' split
  · exact .refl s
  · dsimp only [Answer.done]
    exact formProfile_keeps _ _ s
  · exact .refl s

theorem orderAddAllowance_keeps (b : List Byte) (s : State) : Keeps s (orderAddAllowance b s).state := by
  unfold orderAddAllowance
  dsimp only
  repeat' split
  · exact .refl s
  · exact .refl s
  · dsimp only [Answer.done]
    exact formProfile_keeps _ _ s

theorem installUnlock_steady (d : DestId) (u : Unlock) (s : State) : Steady s (s.installUnlock d u) := setViewer_steady rfl

theorem orderGrantUnlock_keeps (b : List Byte) (s : State) : Keeps s (orderGrantUnlock b s).state := by
  unfold orderGrantUnlock
  dsimp only
  split
  · next d u _ _ =>
    have installed := installUnlock_steady d u s
    exact .ite ((installed.trans (clearMemory_steady d _)).keeps.trans (formAndReport_keeps d _)) installed.keeps
  · exact .refl s

theorem orderResolveHold_keeps (b : List Byte) (s : State) : Keeps s (orderResolveHold b s).state := by
  unfold orderResolveHold
  dsimp only
  repeat' split
  · exact .refl s
  · exact .refl s
  · exact .refl s
  · exact .refl s
  · exact (installUnlock_steady _ _ s).keeps.trans (formAndReport_keeps _ _)
  · exact (endHold_steady _ _ s).keeps.trans (reportHanded_keeps _ _)

theorem orderPortConfigure_keeps (b : List Byte) (s : State) : Keeps s (orderPortConfigure b s).state := by
  unfold orderPortConfigure
  dsimp only
  repeat' split
  · exact .refl s
  · exact .refl s
  · exact (setPort_steady (by exact .refl _)).keeps
  · exact .refl s

theorem run_queue (p : Port) : p.run.queue = [] := rfl

theorem stopped_queue (p : Port) : p.stopped.queue = [] := rfl

/-- A port that holds no cell. -/
theorem setPort_emptied_steady (p : PortId) {x : Port} (empty : x.queue = []) (s : State) : Steady s (s.setPort p x) :=
  setPort_steady (empty ▸ List.nil_subset _)

theorem orderPortStart_keeps (b : List Byte) (s : State) : Keeps s (orderPortStart b s).state := by
  unfold orderPortStart
  dsimp only
  repeat' split
  · exact .refl s
  · exact (setPort_emptied_steady _ (run_queue _) s).keeps
  · exact .refl s

theorem orderPortStop_keeps (b : List Byte) (s : State) : Keeps s (orderPortStop b s).state := by
  unfold orderPortStop
  dsimp only
  split
  · exact .refl s
  · next p _ =>
    have stopped := (setPort_emptied_steady p (stopped_queue (s.port p)) s).keeps
    exact .ite (stopped.trans (announceHalt_keeps p _ _)) stopped

theorem orderPortClear_keeps (b : List Byte) (s : State) : Keeps s (orderPortClear b s).state := by
  unfold orderPortClear
  dsimp only
  split
  · exact .refl s
  · split
    · dsimp only [Answer.done]
      exact (setPort_emptied_steady _ (run_queue _) s).keeps.trans (announceHalt_keeps _ _ _)
    · exact (setPort_steady (by exact .refl _)).keeps
    · exact (setPort_steady (by exact .refl _)).keeps

/-! ## The resets -/

/-- Every destination is VACANT and no port holds a cell (R179 to R181). -/
structure Vacated (s t : State) : Prop where
  vacant : ∀ d, (t.dest d).state = .vacant
  service : ∀ d, (t.dest d).service = none
  access : ∀ d, (t.dest d).access = none
  lastAccess : ∀ d, t.lastAccess d = none
  changes : t.ctl.changes = []
  queues : ∀ p, (t.port p).queue = []
  sent : t.sent = s.sent

theorem Vacated.keeps {s t : State} (h : Vacated s t) : Keeps s t where
  selections _ := by
    refine ⟨fun d => iff_of_true (h.vacant d) (h.service d), fun d i shown => ?_, ?_, ?_⟩
    · rw [h.service] at shown
      cases shown
    · simp [h.changes]
    · simp [h.changes]
  parental _ d live := absurd (h.vacant d) live
  queues _ p c mem := by
    rw [h.queues] at mem
    cases mem
  clear clear := by
    refine ⟨fun p c mem => ?_, fun p c => ?_⟩
    · rw [h.queues] at mem
      cases mem
    · rw [h.sent]
      exact clear.2 p c
  permitted _ d delivers := by
    rw [h.vacant] at delivers
    cases delivers
  access _ d := (h.lastAccess d).trans (h.access d).symm

theorem port_fullReset_queue (p : Port) : p.fullReset.queue = [] := rfl

theorem port_trafficReset_queue (p : Port) : p.trafficReset.queue = [] := by
  unfold Port.trafficReset
  split <;> rfl

theorem fullReset_vacated (s : State) : Vacated s s.fullReset where
  vacant d := by rw [show s.fullReset.dest d = .reset from Table.read_filled ..]; rfl
  service d := by rw [show s.fullReset.dest d = .reset from Table.read_filled ..]; rfl
  access d := by rw [show s.fullReset.dest d = .reset from Table.read_filled ..]; rfl
  lastAccess d := Table.read_filled ..
  changes := rfl
  queues p := by rw [show s.fullReset.port p = (s.port p).fullReset from Table.read_map .., port_fullReset_queue]
  sent := rfl

theorem trafficReset_vacated (s : State) : Vacated s s.trafficReset where
  vacant d := by rw [show s.trafficReset.dest d = (s.dest d).trafficReset from Table.read_map ..]; rfl
  service d := by rw [show s.trafficReset.dest d = (s.dest d).trafficReset from Table.read_map ..]; rfl
  access d := by rw [show s.trafficReset.dest d = (s.dest d).trafficReset from Table.read_map ..]; rfl
  lastAccess d := Table.read_filled ..
  changes := rfl
  queues p := by rw [show s.trafficReset.port p = (s.port p).trafficReset from Table.read_map .., port_trafficReset_queue]
  sent := rfl

theorem powerOn_keeps (s : State) : Keeps s s.powerOn := (fullReset_vacated s).keeps.elsewhere rfl

theorem orderResetPart_keeps (b : List Byte) (s : State) : Keeps s (orderResetPart b s).state := by
  unfold orderResetPart
  split
  · exact (fullReset_vacated s).keeps.elsewhere rfl
  · exact (trafficReset_vacated s).keeps.elsewhere rfl
  · exact .refl s

/-! ## Every step -/

theorem runOrder_keeps (o : Order) (b : List Byte) (s : State) : Keeps s (runOrder o b s).state := by
  cases o with
  | readTime | readChanges | readGuide | readIdentity => exact .refl s
  | discardChanges => exact setChanges_keeps fun _ => ⟨by simp, List.nodup_nil⟩
  | setAcquireTime => exact .still rfl
  | readFeed | readFlow | readService | readDestination | readKeyState | readEntitlement | readProfile | readParental | readPort =>
    simp only [runOrder, orderReadFeed, orderReadFlow, orderReadService, orderReadDestination, orderReadKeyState, orderReadEntitlement,
      orderReadProfile, orderReadParental, orderReadPort]
    split <;> exact .refl s
  | queryEvent => exact .still (by rw [runOrder, orderQueryEvent_state])
  | queryNext => exact .still (by rw [runOrder, orderQueryNext_state])
  | feedEnable | feedDisable | feedConfigure | setTimeSource | setCommitMask | clearKey | setAttentionMask | snapshotTallies | ackAttention =>
    simp only [runOrder, orderFeedEnable, orderFeedDisable, orderFeedConfigure, orderSetTimeSource, orderSetCommitMask, orderClearKey,
      orderSetAttentionMask, orderSnapshotTallies, orderAckAttention]
    repeat' split
    all_goals exact .still rfl
  | setFlow => exact orderSetFlow_keeps b s
  | clearFlow => exact orderClearFlow_keeps b s
  | setService => exact orderSetService_keeps b s
  | clearService => exact orderClearService_keeps b s
  | bindDestination => exact orderBindDestination_keeps b s
  | select => exact orderSelect_keeps b s
  | take => exact orderTake_keeps b s
  | release => exact orderRelease_keeps b s
  | loadKeyQuarter => exact orderLoadKeyQuarter_keeps b s
  | grantEntitlement => exact orderGrantEntitlement_keeps b s
  | revokeEntitlement => exact orderRevokeEntitlement_keeps b s
  | purgeGuide => exact orderPurgeGuide_keeps b s
  | setProfile => exact orderSetProfile_keeps b s
  | addAllowance => exact orderAddAllowance_keeps b s
  | grantUnlock => exact orderGrantUnlock_keeps b s
  | resolveHold => exact orderResolveHold_keeps b s
  | portConfigure => exact orderPortConfigure_keeps b s
  | portStart => exact orderPortStart_keeps b s
  | portStop => exact orderPortStop_keeps b s
  | portClear => exact orderPortClear_keeps b s
  | resetPart => exact orderResetPart_keeps b s

/-- What every effect that upholds the invariants leaves true, every step leaves true. -/
theorem Keeps.keptByStep {P : State → Prop} (kept : ∀ {s t}, Keeps s t → P s → P t) : KeptByStep P := by
  refine KeptByCommands.keptByStep ?_
  have elsewhere {s t : State} (same : t.deliverySide = s.deliverySide) : P s → P t := kept (Steady.elsewhere same).keeps
  exact {
    link := fun _ _ => elsewhere rfl
    pending := fun _ _ => elsewhere rfl
    sendHost := fun c s => kept (sendHost_steady c s).keeps
    arrival := fun f c s => kept (arrival_keeps f c s)
    feedSilence := fun f s => kept (.ite (enterLapsed_steady f s).keeps (.refl s))
    tick := fun s => kept (tick_keeps s)
    sourceSilence := fun s => kept (.ite (.still rfl) (.refl s))
    acquisitionExpires := fun d s => kept (acquisitionExpires_steady d s).keeps
    holdExpires := fun d s => kept (holdExpires_keeps d s)
    drain := fun p s => kept (drain_steady p s).keeps
    slot := fun p b s => kept (slot_steady p b s).keeps
    drainWatch := fun p s => kept (drainWatch_steady p s).keeps
    order := fun o b s => kept (runOrder_keeps o b s)
    assertReset := fun _ => elsewhere rfl
    powerOn := fun s => kept (powerOn_keeps s) }

/-- Settles O55: every effect of the part upholds the selections, by the table of the services in use (R41, R42) and the validity that a selection
asks for (R61). -/
theorem selectionsKept : Obligations.SelectionsKept := Keeps.keptByStep fun k => k.selections

/-- Settles O56: an evaluation ends in a state that the reports permit, and both units and the controller store every report together, or the one
that is on its way is taken before the command ends. -/
theorem deliveryKept : Obligations.DeliveryKept :=
  ⟨Keeps.keptByStep fun k => k.permitted, Keeps.keptByStep fun k agreed =>
    have ⟨access, parental⟩ := reportsAgreed_iff.mp agreed
    reportsAgreed_iff.mpr ⟨k.access access, k.parental parental⟩⟩

/-- Settles O57: a port accepts a copy of a delivering destination bound to it, or a notice of one in use, each with key phase CLEAR, and a destination
that stops delivering has its copies purged. -/
theorem queuesKept : Obligations.QueuesKept := ⟨Keeps.keptByStep fun k => k.queues, Keeps.keptByStep fun k => k.clear⟩

end Sys2Proof.Machine
end

