-- ==== Sys2Proof/Proofs/EvaluationRows.lean ====
section
/-! SUPPORT. The rows of an evaluation (R46), the moves it makes (R47), the required set with its completion test (R48), and an entry changed (R49). -/

namespace Sys2Proof.Machine

/-! ## The required set and the completion test (R48) -/

theorem programme?_eq_some {e : FlowEntry} {p : Programme} : e.programme? = some p ↔ e.kind = .programme p := by
  unfold FlowEntry.programme?
  split
  · next q kind => rw [kind, Option.some.injEq, FlowKind.programme.injEq]
  · next other => exact ⟨(nomatch ·), fun kind => absurd kind (other p)⟩

theorem requiredBy_iff {p : Programme} {x : Dest} :
    p.requiredBy x = true ↔ x.service = some p.service ∧ p.required = true ∧ x.roles.has p.role = true := by
  simp [Programme.requiredBy, and_assoc]

theorem mem_requiredSet {s : State} {x : Dest} {k : Fin 256} {p : Programme} : (k, p) ∈ s.requiredSet x ↔
    ∃ e, s.flow k = some e ∧ e.kind = .programme p ∧ x.service = some p.service ∧ p.required = true ∧ x.roles.has p.role = true := by
  have member (o : Option FlowEntry) (j : Fin 256) : (match o.bind FlowEntry.programme? with
      | some q => if q.requiredBy x then some (j, q) else none
      | none => none) = some (k, p) ↔ j = k ∧ ∃ e, o = some e ∧ e.kind = .programme p ∧ p.requiredBy x = true := by
    cases o with
    | none => simp
    | some e =>
      simp only [Option.bind_some, Option.some.injEq, exists_eq_left', ← programme?_eq_some]
      cases e.programme? with
      | none => simp
      | some q => grind
  simp only [State.requiredSet, List.mem_filterMap, Prod.exists, Table.mem_entries]
  constructor
  · rintro ⟨j, o, read, found⟩
    obtain ⟨rfl, e, rfl, kind, required⟩ := (member o j).mp found
    exact ⟨e, read, kind, requiredBy_iff.mp required⟩
  · rintro ⟨e, read, kind, required⟩
    exact ⟨k, some e, read, (member _ _).mpr ⟨rfl, e, rfl, kind, requiredBy_iff.mpr required⟩⟩

/-- The required set is read from the flow table, the service index and the role mask. -/
theorem requiredSet_congr {s t : State} {x y : Dest} (flows : t.flows = s.flows) (service : y.service = x.service) (roles : y.roles = x.roles) :
    t.requiredSet y = s.requiredSet x := by
  unfold State.requiredSet Programme.requiredBy
  rw [flows, service, roles]

/-- Every member of the destination's required set has started (R48). -/
def State.Started (s : State) (x : Dest) : Prop := ∀ m ∈ s.requiredSet x, m.1 ∈ x.marks

theorem unstarted_isEmpty_iff {s : State} {x : Dest} : (s.unstarted x).isEmpty = true ↔ s.Started x := by
  simp [State.unstarted, State.Started, List.filter_eq_nil_iff]

section
variable {s : State} {d : DestId}

theorem completionTest_acquiring (acquiring : (s.dest d).state = .acquiring) (started : s.Started (s.dest d)) :
    s.completionTest d = s.setDest d { s.dest d with state := .presenting, acquisition := none } := by
  simp [State.completionTest, acquiring, unstarted_isEmpty_iff.mpr started]

theorem completionTest_stalled (stalled : (s.dest d).state = .stalled) (started : s.Started (s.dest d)) :
    s.completionTest d = (s.setDest d { s.dest d with state := .presenting }).withdraw .stall (sourceByte d) := by
  simp [State.completionTest, stalled, unstarted_isEmpty_iff.mpr started]

theorem completionTest_presenting (presenting : (s.dest d).state = .presenting) (unstarted : ¬ s.Started (s.dest d)) :
    s.completionTest d = s.setDest d { s.dest d with state := .acquiring, acquisition := some s.ctl.acquireTime } := by
  simp [State.completionTest, presenting, Bool.eq_false_of_not_eq_true (mt unstarted_isEmpty_iff.mp unstarted)]

/-- A destination whose test shows nothing new, or that does not deliver, stays. -/
theorem completionTest_same (h : ((s.dest d).state = .presenting ↔ s.Started (s.dest d)) ∨ (s.dest d).state.delivering = false) :
    s.completionTest d = s := by
  unfold State.completionTest
  dsimp only
  split
  case h_4 => rfl
  all_goals
    next state passes =>
      rcases h with h | h
      · have started := unstarted_isEmpty_iff (s := s) (x := s.dest d)
        simp [← h, state, passes] at started
      · simp [state, DestState.delivering] at h

end

/-! ## An entry changed (R49) -/

theorem isPending_withdraw_same (c : Cause) (x : Byte) (s : State) : (s.withdraw c x).attention.isPending c x = false := by
  show (Attention.cause (s.attention.setCause c _) c).pending.any _ = false
  rw [setCause_cause, if_pos rfl]
  simp

/-- The marks of entry `k` leave every destination (R49). -/
def State.unmarked (k : Fin 256) (s : State) : State :=
  { s with ctl := { s.ctl with dests := s.ctl.dests.map fun (x : Dest) => { x with marks := x.marks.filter (· != k) } } }

theorem unmarked_dest (k : Fin 256) (s : State) (d : DestId) :
    (s.unmarked k).dest d = { s.dest d with marks := (s.dest d).marks.filter (· != k) } := Table.read_map ..

/-- The test of a destination where it delivers (R49). -/
def State.tested (d : DestId) (s : State) : State := if (s.dest d).state.delivering then s.completionTest d else s

theorem tested_eq (d : DestId) (s : State) : s.tested d = s.completionTest d := by
  unfold State.tested
  split
  · rfl
  · next still => rw [completionTest_same (.inr (Bool.eq_false_of_not_eq_true still))]

theorem entryChanged_eq (k : Fin 256) (s : State) : s.entryChanged k = (s.unmarked k).eachDest State.tested := rfl

theorem destByte_ne {d e : DestId} (h : d ≠ e) : (sourceByte d : Byte) ≠ sourceByte e := fun same =>
  h (Fin.ext (by rw [← dest_byte d, ← dest_byte e, same]))

/-- Before its turn at a change of entry `k`, destination `d` has lost its mark of the entry, and nothing else has changed for it. -/
structure BeforeTest (d : DestId) (k : Fin 256) (s u : State) : Prop where
  dest : u.dest d = { s.dest d with marks := (s.dest d).marks.filter (· != k) }
  flows : u.flows = s.flows
  acquireTime : u.ctl.acquireTime = s.ctl.acquireTime

/-- Destination `d` and its STALL source stand in `t` as the test in `u` leaves them. -/
structure TestedIn (d : DestId) (u t : State) : Prop where
  dest : t.dest d = (u.completionTest d).dest d
  stall : t.attention.isPending .stall (sourceByte d) = (u.completionTest d).attention.isPending .stall (sourceByte d)

/-- A change of entry `k` comes to the test of `d` once its mark is gone; the turns of the others leave it. -/
theorem entryChanged_turn (k : Fin 256) (d : DestId) (s : State) : ∃ u, BeforeTest d k s u ∧ TestedIn d u (s.entryChanged k) := by
  rw [entryChanged_eq]
  have alone (e : DestId) (u : State) : DestAlone e u (u.tested e) := tested_eq e u ▸ completionTest_alone e u
  refine eachDest_once (P := BeforeTest d k s) (Q := fun t => ∃ u, BeforeTest d k s u ∧ TestedIn d u t) d ?_ ?_ ?_ ?_
  · intro e u other before
    exact ⟨((alone e u).dests d other).trans before.dest, (alone e u).flows.trans before.flows,
      (alone e u).acquireTime.trans before.acquireTime⟩
  · intro u before
    rw [tested_eq]
    exact ⟨u, before, rfl, rfl⟩
  · rintro e t other ⟨u, before, tested⟩
    exact ⟨u, before, ((alone e t).dests d other).trans tested.dest, ((alone e t).sources .stall _ (destByte_ne other)).trans tested.stall⟩
  · exact ⟨unmarked_dest k s d, rfl, rfl⟩

/-! ## The moves (R47) -/

section
variable {d : DestId} {s : State}

theorem moveTo_same : s.moveTo d (s.dest d).state = s := if_pos rfl

/-- A move ends in the state chosen, but for ACQUIRING, where the completion test may pass at once. -/
theorem moveTo_state {n : DestState} (h : n ≠ .acquiring) : ((s.moveTo d n).dest d).state = n := by
  unfold State.moveTo
  dsimp only
  split
  · next same => exact same.symm
  · split
    · obtain ⟨_, left⟩ := leaveDelivering_dest d n s
      rw [left]
    · rw [setDest_dest_same]

/-- A destination that comes into ACQUIRING with nothing to wait for is PRESENTING (R47, R48). -/
theorem moveTo_acquiring (idle : (s.dest d).state.delivering = false) :
    ((s.moveTo d .acquiring).dest d).state = if s.requiredSet (s.dest d) = [] then .presenting else .acquiring := by
  have moves : .acquiring ≠ (s.dest d).state := fun same => by
    rw [← same] at idle
    cases idle
  have entered : s.moveTo d .acquiring = s.enterAcquiring d := by
    unfold State.moveTo
    dsimp only
    rw [if_neg moves, if_pos rfl]
  rw [entered]
  unfold State.enterAcquiring
  generalize hu : s.setDest d { s.dest d with state := .acquiring, marks := [], unkeyedRun := 0, acquisition := some s.ctl.acquireTime } = u
  have row : u.dest d = { s.dest d with state := .acquiring, marks := [], unkeyedRun := 0, acquisition := some s.ctl.acquireTime } := by
    rw [← hu, setDest_dest_same]
  have started : u.Started (u.dest d) ↔ s.requiredSet (s.dest d) = [] := by
    unfold State.Started
    rw [requiredSet_congr (s := s) (x := s.dest d) (by rw [← hu]; rfl) (by rw [row]) (by rw [row]), row]
    exact ⟨fun h => List.eq_nil_iff_forall_not_mem.mpr fun m mem => absurd (h m mem) List.not_mem_nil, fun h m mem => by simp [h] at mem⟩
  by_cases empty : s.requiredSet (s.dest d) = []
  · rw [if_pos empty, completionTest_acquiring (by rw [row]) (started.mpr empty), setDest_dest_same]
  · rw [if_neg empty, completionTest_same (.inl (iff_of_false (by rw [row]; exact DestState.noConfusion) (mt started.mp empty))), row]

theorem completionTest_reasons : ((s.completionTest d).dest d).reasons = (s.dest d).reasons := by
  rcases completionTest_dest d s with same | ⟨-, _, _, -, moved⟩
  · rw [same]
  · rw [moved]

/-- No move changes the reason set (R46, R47). -/
theorem moveTo_reasons (n : DestState) : ((s.moveTo d n).dest d).reasons = (s.dest d).reasons := by
  unfold State.moveTo
  dsimp only
  split
  · rfl
  · split
    · rw [State.enterAcquiring, completionTest_reasons, setDest_dest_same]
    · split
      · obtain ⟨_, left⟩ := leaveDelivering_dest d n s
        rw [left]
      · rw [setDest_dest_same]

end

/-! ## The rows (R46) -/

theorem deniedReport_iff {r : Option AccessVerdict} : deniedReport r = true ↔ ∃ c, r = some (.denied c) := by
  match r with
  | none | some .free | some .entitled | some .preview => simp [deniedReport, AccessVerdict.isDenied]
  | some (.denied c) => simp [deniedReport, AccessVerdict.isDenied]

/-- The report of a VIEW destination that says RESTRICTED. -/
theorem restriction_eq_some {x : Dest} {r : ParentalReport} :
    x.restriction = some r ↔ x.kind = .view ∧ x.parental = some r ∧ r.verdict = .restricted := by
  unfold Dest.restriction
  cases x.kind <;> cases x.parental with
  | none => simp
  | some q => grind

section
variable {x : Dest} {halted : Bool}

theorem chosen_denied (denied : deniedReport x.access = true) : x.chosen halted = .withheld := if_pos denied

theorem chosen_restricted (access : deniedReport x.access = false) {r : ParentalReport} (restricted : x.restriction = some r) :
    x.chosen halted = if r.hold = .opened then .held else .withheld := by
  simp [Dest.chosen, access, restricted]

theorem chosen_barred (access : deniedReport x.access = false) (free : x.restriction = none) (barred : halted = true ∨ x.reasons.key = true) :
    x.chosen halted = .withheld := by
  simp [Dest.chosen, access, free, barred]

theorem chosen_free (access : deniedReport x.access = false) (free : x.restriction = none) (running : halted = false)
    (keyed : x.reasons.key = false) : x.chosen halted = if x.state.delivering then x.state else .acquiring := by
  simp [Dest.chosen, access, free, running, keyed]

end

section
variable {s : State} {d : DestId}

/-- The destination with its reason set formed anew. -/
def State.reasoned (d : DestId) (s : State) : State :=
  s.setDest d { s.dest d with reasons := (s.dest d).reasonsAfresh (s.portHalted (s.dest d).port) }

theorem reasoned_dest : (s.reasoned d).dest d = { s.dest d with reasons := (s.dest d).reasonsAfresh (s.portHalted (s.dest d).port) } :=
  setDest_dest_same s d _

theorem evaluate_live (live : (s.dest d).state ≠ .vacant) :
    s.evaluate d = (s.reasoned d).moveTo d ((s.dest d).chosen (s.portHalted (s.dest d).port)) := if_neg live

/-- An evaluation forms the reason set anew (R46). -/
theorem evaluate_reasons (live : (s.dest d).state ≠ .vacant) :
    ((s.evaluate d).dest d).reasons = (s.dest d).reasonsAfresh (s.portHalted (s.dest d).port) := by
  rw [evaluate_live live, moveTo_reasons, reasoned_dest]

/-- An evaluation ends in the state chosen, but for ACQUIRING (R46). -/
theorem evaluate_state (live : (s.dest d).state ≠ .vacant) (h : (s.dest d).chosen (s.portHalted (s.dest d).port) ≠ .acquiring) :
    ((s.evaluate d).dest d).state = (s.dest d).chosen (s.portHalted (s.dest d).port) := by
  rw [evaluate_live live, moveTo_state h]

theorem evaluate_denied (live : (s.dest d).state ≠ .vacant) (denied : deniedReport (s.dest d).access = true) :
    ((s.evaluate d).dest d).state = .withheld := by
  have chosen := chosen_denied (halted := s.portHalted (s.dest d).port) denied
  rw [evaluate_state live (by rw [chosen]; exact DestState.noConfusion), chosen]

theorem evaluate_restricted (live : (s.dest d).state ≠ .vacant) (access : deniedReport (s.dest d).access = false) {r : ParentalReport}
    (restricted : (s.dest d).restriction = some r) :
    ((s.evaluate d).dest d).state = if r.hold = .opened then .held else .withheld := by
  have chosen := chosen_restricted (halted := s.portHalted (s.dest d).port) access restricted
  rw [evaluate_state live (by rw [chosen]; split <;> exact DestState.noConfusion), chosen]

theorem evaluate_barred (live : (s.dest d).state ≠ .vacant) (access : deniedReport (s.dest d).access = false)
    (free : (s.dest d).restriction = none) (barred : s.portHalted (s.dest d).port = true ∨ (s.dest d).reasons.key = true) :
    ((s.evaluate d).dest d).state = .withheld := by
  have chosen := chosen_barred access free barred
  rw [evaluate_state live (by rw [chosen]; exact DestState.noConfusion), chosen]

/-- Where nothing stands in its way, a delivering destination stays as it is, and another acquires (R46). -/
theorem evaluate_free (live : (s.dest d).state ≠ .vacant) (access : deniedReport (s.dest d).access = false)
    (free : (s.dest d).restriction = none) (running : s.portHalted (s.dest d).port = false) (keyed : (s.dest d).reasons.key = false) :
    ((s.evaluate d).dest d).state = if (s.dest d).state.delivering then (s.dest d).state
      else if s.requiredSet (s.dest d) = [] then .presenting else .acquiring := by
  have state : ((s.reasoned d).dest d).state = (s.dest d).state := by rw [reasoned_dest]
  rw [evaluate_live live, chosen_free access free running keyed, ← state]
  by_cases delivers : ((s.reasoned d).dest d).state.delivering = true
  · rw [if_pos delivers, if_pos delivers, moveTo_same]
  · rw [if_neg delivers, if_neg delivers, moveTo_acquiring (Bool.eq_false_of_not_eq_true delivers),
      requiredSet_congr (s := s) (t := s.reasoned d) (x := s.dest d) (y := (s.reasoned d).dest d) rfl (by rw [reasoned_dest])
        (by rw [reasoned_dest])]

end

theorem reasonsAfresh_restricted {x : Dest} {r : ParentalReport} (h : x.restriction = some r) (halted : Bool) :
    x.reasonsAfresh halted = ⟨deniedReport x.access, r.uncovered, r.hold == .declined, r.hold == .noAnswer, halted, x.reasons.key⟩ := by
  simp [Dest.reasonsAfresh, h]

theorem reasonsAfresh_free {x : Dest} (h : x.restriction = none) (halted : Bool) :
    x.reasonsAfresh halted = ⟨deniedReport x.access, .empty, false, false, halted, x.reasons.key⟩ := by
  simp [Dest.reasonsAfresh, h]

/-! ## The obligation -/

theorem filter_ne_eq_filter_bne (k : Fin 256) (l : List (Fin 256)) : l.filter (· ≠ k) = l.filter (· != k) :=
  List.filter_congr fun m _ => by rw [Bool.eq_iff_iff]; simp

/-- Settles O24, by the test, the turn of the destination at an entry change, and the rows of an evaluation. -/
theorem evaluationRows : Obligations.EvaluationRows := by
  refine ⟨fun _ _ _ _ => mem_requiredSet, fun s d => ⟨completionTest_acquiring, completionTest_stalled, completionTest_presenting,
    fun a b => completionTest_same (.inl (iff_of_true a b)), fun a b => completionTest_same (.inl (iff_of_false a b)),
    fun h => completionTest_same (.inr h)⟩, fun s k d => ?_, fun s d live => ?_⟩
  · intro x marks done y
    obtain ⟨u, ⟨row, flows, time⟩, dest, pending⟩ := entryChanged_turn k d s
    rw [← filter_ne_eq_filter_bne] at row
    have state : (u.dest d).state = x.state := by rw [row]
    have started : u.Started (u.dest d) ↔ done := by
      unfold State.Started
      rw [requiredSet_congr (s := s) (x := x) flows (by rw [row]) (by rw [row]), row]
    rw [pending, show y = (u.completionTest d).dest d from dest, ← state, ← started]
    refine ⟨fun at' test => ?_, fun at' test => ?_, fun at' test => ?_, fun same => ?_⟩
    · rw [completionTest_presenting at' test, setDest_dest_same, row, time]
    · rw [completionTest_acquiring at' test, setDest_dest_same, row]
    · rw [completionTest_stalled at' test]
      refine ⟨?_, isPending_withdraw_same _ _ _⟩
      rw [withdraw_dest, setDest_dest_same, row]
    · rw [completionTest_same same, row]
  · intro x t y denied restricted halted
    have reasons : y.reasons = x.reasonsAfresh (s.portHalted x.port) := evaluate_reasons live
    have allowed (h : ¬ denied) : deniedReport x.access = false := Bool.eq_false_of_not_eq_true (mt deniedReport_iff.mp h)
    have free (h : ∀ r, ¬ restricted r) : x.restriction = none :=
      Option.eq_none_iff_forall_ne_some.mpr fun r some => h r (restriction_eq_some.mp some)
    refine ⟨by rw [reasons]; exact deniedReport_iff, by rw [reasons]; rfl, by rw [reasons]; rfl, fun r h => ?_, fun h => ?_,
      fun h => evaluate_denied live (deniedReport_iff.mpr h), fun h r restricts => evaluate_restricted live (allowed h) (restriction_eq_some.mpr restricts),
      fun h none => evaluate_barred live (allowed h) (free none), fun h none running keyed => ?_, (evaluate_alone d s).toOthersKept⟩
    · rw [reasons, reasonsAfresh_restricted (restriction_eq_some.mpr h)]
      exact ⟨rfl, beq_iff_eq, beq_iff_eq⟩
    · rw [reasons, reasonsAfresh_free (free h)]
      exact ⟨rfl, rfl, rfl⟩
    · have state := evaluate_free live (allowed h) (free none) (Bool.eq_false_of_not_eq_true running) keyed
      exact ⟨fun delivers => state.trans (if_pos delivers), fun idle => state.trans (if_neg (by rw [idle]; exact Bool.noConfusion))⟩

end Sys2Proof.Machine
end

