-- ==== Sys2Proof/Proofs/AccessReports.lean ====
section
/-! SUPPORT. The access report that the controller takes: the bar it places or lifts, and the causes it signals (R50, R106, R140). -/

namespace Sys2Proof.Machine

/-! ## Causes that an effect leaves -/

/-- Cause `c` stands as it was. -/
def CauseKept (c : Cause) (s t : State) : Prop := t.attention.cause c = s.attention.cause c

section
variable {c : Cause} {s t u : State} {d : DestId}

theorem CauseKept.isPending (h : CauseKept c s t) (x : Byte) : t.attention.isPending c x = s.attention.isPending c x :=
  congrArg (fun y : CauseState => y.pending.any (·.source == x)) h

theorem CauseKept.refl (c : Cause) (s : State) : CauseKept c s s := rfl

theorem CauseKept.trans (a : CauseKept c s t) (b : CauseKept c t u) : CauseKept c s u := Eq.trans b a

theorem CauseKept.ite {p : Prop} [Decidable p] (a : CauseKept c s t) (b : CauseKept c s u) : CauseKept c s (if p then t else u) := by
  split
  · exact a
  · exact b

theorem raise_causeKept {e : Cause} (h : c ≠ e) (x y : Byte) : CauseKept c s (s.raise e x y) :=
  (setCause_cause _ e _ c).trans (if_neg h)

theorem withdraw_causeKept {e : Cause} (h : c ≠ e) (x : Byte) : CauseKept c s (s.withdraw e x) :=
  (setCause_cause _ e _ c).trans (if_neg h)

theorem completionTest_causeKept (h : c ≠ .stall) : CauseKept c s (s.completionTest d) := by
  unfold State.completionTest
  dsimp only
  split
  · rfl
  · exact withdraw_causeKept h _
  · rfl
  · rfl

/-- A move signals STALL alone (R47, R73). -/
theorem moveTo_causeKept (h : c ≠ .stall) (n : DestState) : CauseKept c s (s.moveTo d n) := by
  have left : CauseKept c s (s.leaveDelivering d n) := by
    unfold State.leaveDelivering
    dsimp only
    split
    · exact withdraw_causeKept h _
    · rfl
  exact .ite (.refl c s) (.ite (completionTest_causeKept (s := s.setDest d _) h) (.ite left (.refl c s)))

theorem evaluate_causeKept (h : c ≠ .stall) : CauseKept c s (s.evaluate d) :=
  .ite (.refl c s) (moveTo_causeKept (s := s.reasoned d) h _)

theorem reportStored_causeKept : CauseKept c s (s.reportStored d) := by
  cases report : (s.viewer d).report with
  | none =>
    rw [reportStored_none report]
    exact .refl c s
  | some r =>
    rw [reportStored_some report]
    split <;> rfl

theorem endHold_causeKept (h : c ≠ .hold) (n : HoldCondition) : CauseKept c s (s.endHold d n) :=
  .ite (withdraw_causeKept (s := s.setViewer d _) h _) (.refl c s)

/-- The hold rule signals HOLD alone (R140). -/
theorem holdRule_causeKept (h : c ≠ .hold) : CauseKept c s (s.holdRule d) := by
  have opened : CauseKept c s (s.openHold d) := raise_causeKept (s := s.setViewer d _) h _ _
  unfold State.holdRule
  dsimp only
  split
  · rfl
  · refine .ite ?_ (endHold_causeKept h _)
    split
    · exact endHold_causeKept h _
    · exact .ite opened (.refl c s)

theorem settleBar_causeKept (h : c ≠ .hold) (o : Option AccessVerdict) (v : AccessVerdict) : CauseKept c s (s.settleBar d o v) := by
  have placed : CauseKept c s (s.placeBar d) :=
    (endHold_causeKept h _).trans (reportStored_causeKept (s := (s.endHold d .none).setViewer d _))
  have lifted : CauseKept c s (s.liftBar d) := (holdRule_causeKept (s := s.setViewer d _) h).trans reportStored_causeKept
  exact .ite (.refl c s) (.ite placed (.ite lifted (.refl c s)))

theorem accessLapse_causeKept (h : c ≠ .accessLapse) (o : Option AccessVerdict) (v : AccessVerdict) : CauseKept c s (s.accessLapse d o v) :=
  .ite (raise_causeKept h _ _) (.refl c s)

end

/-! ## The bar (R50) -/

section
variable {s : State} {d : DestId}

theorem reportStored_viewer : ∃ l, (s.reportStored d).viewer d = { s.viewer d with last := l } := by
  cases report : (s.viewer d).report with
  | none => exact ⟨(s.viewer d).last, by rw [reportStored_none report]⟩
  | some r =>
    refine ⟨some r, ?_⟩
    rw [reportStored_some report]
    split
    · rw [setDest_viewer, setViewer_viewer_same]
    · rw [setViewer_viewer_same]

theorem placeBar_viewer : ∃ l, (s.placeBar d).viewer d = { (s.viewer d).placed with last := l } := by
  obtain ⟨l, stored⟩ := reportStored_viewer (s := (s.endHold d .none).setViewer d { (s.endHold d .none).viewer d with barred := true }) (d := d)
  refine ⟨l, stored.trans ?_⟩
  rw [setViewer_viewer_same, endHold_viewer]
  rfl

/-- A bar that is placed closes an open hold (R50). -/
theorem placeBar_closes (opened : (s.viewer d).hold = .opened) : (s.placeBar d).attention.isPending .hold (sourceByte d) = false := by
  have stored := reportStored_causeKept (c := .hold) (d := d)
    (s := (s.endHold d .none).setViewer d { (s.endHold d .none).viewer d with barred := true })
  have ended : s.endHold d .none = (s.setViewer d { s.viewer d with hold := .none, timer := none }).withdraw .hold (sourceByte d) :=
    if_pos opened
  refine (stored.isPending _).trans ?_
  rw [ended]
  exact isPending_withdraw_same _ _ _

theorem ruled_barred (p : Profile) (f : Formed) (v : Viewer) : (Viewer.ruled p f v).barred = v.barred := by
  unfold Viewer.ruled
  split
  · split <;> rfl
  · rfl

/-- The hold rule places no bar, and lifts none. -/
theorem holdRule_barred : ((s.holdRule d).viewer d).barred = (s.viewer d).barred := by
  cases formed : (s.viewer d).formed with
  | none => simp [State.holdRule, formed]
  | some f => rw [holdRule_viewer d s f formed, ruled_barred]

theorem liftBar_barred : ((s.liftBar d).viewer d).barred = false := by
  obtain ⟨l, stored⟩ := reportStored_viewer (s := (s.setViewer d { s.viewer d with barred := false }).holdRule d) (d := d)
  rw [State.liftBar, stored, holdRule_barred, setViewer_viewer_same]

/-- Once the bar is lifted, a restricted destination under ASK with no hold is asked for (R50, R140). -/
theorem liftBar_opens {f : Formed} (formed : (s.viewer d).formed = some f) (restricted : f.verdict = .restricted)
    (ask : (s.profile (s.dest d).profile).policy = .ask) (none : (s.viewer d).hold = .none) :
    ((s.liftBar d).viewer d).hold = .opened ∧ ((s.liftBar d).viewer d).serial = (s.viewer d).serial + 1 ∧
      (s.liftBar d).attention.isPending .hold (sourceByte d) = true := by
  have profile (v : Viewer) : (s.setViewer d v).profile ((s.setViewer d v).dest d).profile = s.profile (s.dest d).profile := rfl
  unfold State.liftBar
  generalize hu : s.setViewer d { s.viewer d with barred := false } = u
  have viewer : u.viewer d = { s.viewer d with barred := false } := by rw [← hu, setViewer_viewer_same]
  have asks : (u.profile (u.dest d).profile).policy = .ask := by rw [← hu, profile, ask]
  have opened : u.holdRule d = u.openHold d := by simp [State.holdRule, viewer, formed, restricted, asks, none]
  obtain ⟨l, stored⟩ := reportStored_viewer (s := u.holdRule d) (d := d)
  refine ⟨?_, ?_, ?_⟩
  · rw [stored, opened, openHold_viewer]
  · rw [stored, opened, openHold_viewer, viewer]
  · rw [(reportStored_causeKept (c := .hold)).isPending, opened]
    exact isPending_raise_same _ _ _ _

variable {o : Option AccessVerdict} {v : AccessVerdict}

theorem settleBar_placed (view : (s.dest d).kind = .view) (denied : v.isDenied = true) (fresh : deniedReport o = false) :
    s.settleBar d o v = s.placeBar d := by
  simp [State.settleBar, view, denied, fresh]

theorem settleBar_lifted (view : (s.dest d).kind = .view) (allowed : v.isDenied = false) (stood : deniedReport o = true) :
    s.settleBar d o v = s.liftBar d := by
  simp [State.settleBar, view, allowed, stood]

/-- The bar of a RECORD destination, and one that the report does not change, stays (R50). -/
theorem settleBar_same (h : (s.dest d).kind = .record ∨ v.isDenied = deniedReport o) : s.settleBar d o v = s := by
  unfold State.settleBar
  by_cases record : (s.dest d).kind = .record
  · exact if_pos record
  · have same := h.resolve_left record
    cases stood : deniedReport o <;> simp [record, same, stood]

theorem accessLapse_raised (denied : v.isDenied = true) (lapses : o.any (fun w => !w.isDenied) = true)
    (delivers : (s.dest d).state.delivering = true) : s.accessLapse d o v = s.raise .accessLapse (sourceByte d) 0 := by
  simp [State.accessLapse, denied, lapses, delivers]

theorem accessLapse_same (h : ¬ (v.isDenied = true ∧ o.any (fun w => !w.isDenied) = true ∧ (s.dest d).state.delivering = true)) :
    s.accessLapse d o v = s := by
  refine if_neg fun all => h ?_
  rw [Bool.and_eq_true_iff, Bool.and_eq_true_iff] at all
  exact ⟨all.1.1, all.1.2, all.2⟩

end

/-! ## The report that is taken -/

theorem isDenied_iff {v : AccessVerdict} : v.isDenied = true ↔ ∃ c, v = .denied c := by
  cases v <;> simp [AccessVerdict.isDenied]

section
variable {s : State} {d : DestId} (live : (s.dest d).state ≠ .vacant) (v : AccessVerdict)

/-- The controller behind the stored report, with the bar settled and a lapse raised, before it evaluates the destination (R50, R106). -/
def State.accessTaken (d : DestId) (v : AccessVerdict) (s : State) : State :=
  ((s.storeAccess d v).settleBar d (s.dest d).access v).accessLapse d (s.dest d).access v

theorem storeAccess_dest : (s.storeAccess d v).dest d = { s.dest d with access := some v } := setDest_dest_same s d _

theorem accessTaken_accessKept : AccessKept (s.storeAccess d v) (s.accessTaken d v) :=
  (settleBar_accessKept d _ _ v).trans (accessLapse_steady d _ v _).accessKept

theorem accessTaken_access : ((s.accessTaken d v).dest d).access = some v := by rw [(accessTaken_accessKept v).access, storeAccess_dest]

/-- Neither the lapse nor the evaluation touches the parental unit. -/
theorem accessTaken_viewer : (s.accessTaken d v).viewer d = ((s.storeAccess d v).settleBar d (s.dest d).access v).viewer d := by
  unfold State.accessTaken State.accessLapse
  split <;> rfl

include live

theorem accessTaken_live : ((s.accessTaken d v).dest d).state ≠ .vacant := by
  rw [ne_eq, ((accessTaken_accessKept v).dests d).vacant, storeAccess_dest]
  exact live

theorem takeAccessReport_viewer :
    (s.takeAccessReport d v).viewer d = ((s.storeAccess d v).settleBar d (s.dest d).access v).viewer d := by
  rw [takeAccessReport_live live, evaluate_viewer]
  exact accessTaken_viewer v

theorem takeAccessReport_access : ((s.takeAccessReport d v).dest d).access = some v := by
  rw [takeAccessReport_live live, (evaluate_alone d _).told.access]
  exact accessTaken_access v

theorem takeAccessReport_reason : ((s.takeAccessReport d v).dest d).reasons.access = v.isDenied := by
  rw [takeAccessReport_live live]
  have reasons := evaluate_reasons (accessTaken_live live v)
  have access := accessTaken_access (s := s) (d := d) v
  unfold State.accessTaken at reasons access
  rw [reasons]
  exact congrArg deniedReport access

theorem takeAccessReport_withheld (denied : v.isDenied = true) : ((s.takeAccessReport d v).dest d).state = .withheld := by
  rw [takeAccessReport_live live]
  exact evaluate_denied (accessTaken_live live v) ((congrArg deniedReport (accessTaken_access v)).trans denied)

theorem takeAccessReport_hold (x : Byte) : (s.takeAccessReport d v).attention.isPending .hold x =
    ((s.storeAccess d v).settleBar d (s.dest d).access v).attention.isPending .hold x := by
  rw [takeAccessReport_live live]
  exact ((accessLapse_causeKept (by decide) _ _).trans (evaluate_causeKept (by decide))).isPending x

theorem takeAccessReport_lapsed (denied : v.isDenied = true) (lapses : (s.dest d).access.any (fun w => !w.isDenied) = true)
    (delivers : (s.dest d).state.delivering = true) : (s.takeAccessReport d v).attention.isPending .accessLapse (sourceByte d) = true := by
  rw [takeAccessReport_live live, (evaluate_causeKept (c := .accessLapse) (by decide)).isPending, accessLapse_raised denied lapses]
  · exact isPending_raise_same _ _ _ _
  · rw [((settleBar_accessKept d _ _ v).dests d).delivering, storeAccess_dest]
    exact delivers

theorem takeAccessReport_unlapsed
    (h : ¬ (v.isDenied = true ∧ (s.dest d).access.any (fun w => !w.isDenied) = true ∧ (s.dest d).state.delivering = true)) :
    (s.takeAccessReport d v).attention.isPending .accessLapse (sourceByte d) = s.attention.isPending .accessLapse (sourceByte d) := by
  rw [takeAccessReport_live live, (evaluate_causeKept (c := .accessLapse) (by decide)).isPending, accessLapse_same]
  · exact (settleBar_causeKept (s := s.storeAccess d v) (by decide) _ _).isPending _
  · rw [((settleBar_accessKept d _ _ v).dests d).delivering, storeAccess_dest]
    exact h

end

end Sys2Proof.Machine
end

