-- ==== Sys2Proof/Proofs/AccessVerdicts.lean ====
section
/-! SUPPORT. The access verdict by the steps of R101, and what a report of one does at the controller (R50, R106). -/

namespace Sys2Proof.Machine

/-! ## The steps of the verdict (R100, R101) -/

theorem entitled_iff {s : State} {key : EntitlementKey} : s.entitled key = true ↔
    ∃ k e, s.access.table.read k = some e ∧ e.key = key ∧ e.start.toNat ≤ s.time.sec.toNat ∧ s.time.sec.toNat < e.stop.toNat := by
  unfold State.entitled
  rw [List.any_eq_true]
  constructor
  · rintro ⟨row, mem, valid⟩
    obtain ⟨k, read⟩ := Table.exists_read mem
    cases row with
    | none => cases valid
    | some e =>
      obtain ⟨same, window⟩ := Bool.and_eq_true_iff.mp valid
      exact ⟨k, e, read, beq_iff_eq.mp same, inWindow_iff.mp window⟩
  · rintro ⟨k, e, read, same, window⟩
    exact ⟨some e, read ▸ Table.read_mem _ k, Bool.and_eq_true_iff.mpr ⟨beq_iff_eq.mpr same, inWindow_iff.mpr window⟩⟩

section
variable {s : State} {i : Fin 64} {v : Service} (record : s.service i = some v)
include record

theorem accessVerdict_timeUnset (unset : s.time.state = .unset) (priced : v.product ≠ none) : s.accessVerdict i = .denied .timeUnset := by
  obtain ⟨p, product⟩ := Option.ne_none_iff_exists'.mp priced
  simp [State.accessVerdict, record, product, unset]

theorem accessVerdict_noSubscription (set : s.time.state ≠ .unset) {p : Half} (product : v.product = some p)
    (lacks : s.entitled (.subscription p) = false) : s.accessVerdict i = .denied .noSubscription := by
  simp [State.accessVerdict, record, product, set, lacks]

/-- Where no subscription stands in the way, the event weighed decides (R101). -/
theorem accessVerdict_event (subscribed : ∀ p, v.product = some p → s.time.state ≠ .unset ∧ s.entitled (.subscription p) = true) :
    s.accessVerdict i = s.eventVerdict v.product.isSome (s.eventWeighed v.number) := by
  cases product : v.product with
  | none => simp [State.accessVerdict, record, product]
  | some p =>
    obtain ⟨set, entitled⟩ := subscribed p product
    simp [State.accessVerdict, record, product, set, entitled]

end

section
variable {s : State} {priced : Bool} {e : EventRecord}

/-- An event with a price that no purchase covers (R101). -/
theorem eventVerdict_unpurchased (product : e.product ≠ 0) (lacks : s.entitled (.event e.product e.id) = false) :
    s.eventVerdict priced (some e) =
      if 0 < e.preview ∧ s.time.sec.toNat < e.start.toNat + e.preview then .preview else .denied .noPurchase := by
  exact (if_neg product).trans (by simp [lacks])

theorem eventVerdict_purchased (entitled : s.entitled (.event e.product e.id) = true) (product : e.product ≠ 0) :
    s.eventVerdict priced (some e) = .entitled := by
  exact (if_neg product).trans (if_pos entitled)

theorem eventVerdict_free (product : e.product = 0) : s.eventVerdict priced (some e) = if priced then .entitled else .free := if_pos product

theorem eventVerdict_none : s.eventVerdict priced none = if priced then .entitled else .free := rfl

end

theorem isSome_of_ne_none {v : Service} (h : v.product ≠ none) : v.product.isSome = true := Option.isSome_iff_ne_none.mpr h

section
variable {s : State} {v : Service}

/-- Where the event that shows has no price or is paid for, the verdict is ENTITLED if anything has a price (R101). -/
theorem eventVerdict_entitled (sound : EventsSound s)
    (purchased : ∀ e : EventRecord, e.Shows v.number s → e.product ≠ 0 → s.entitled (.event e.product e.id) = true) (h : v.product ≠ none ∨ ∃ e : EventRecord, e.Shows v.number s ∧ e.product ≠ 0) :
    s.eventVerdict v.product.isSome (s.eventWeighed v.number) = .entitled := by
  cases weighed : s.eventWeighed v.number with
  | none =>
    have priced := h.resolve_right fun ⟨e, shows, _⟩ => by
      rw [eventWeighed_shown sound shows] at weighed
      cases weighed
    rw [eventVerdict_none, isSome_of_ne_none priced, if_pos rfl]
  | some e =>
    have shows := shows_of_weighed weighed
    by_cases product : e.product = 0
    · have priced := h.resolve_right fun ⟨f, other, paid⟩ => paid (shows.unique sound other ▸ product)
      rw [eventVerdict_free product, isSome_of_ne_none priced, if_pos rfl]
    · exact eventVerdict_purchased (purchased e shows product) product

/-- Where nothing has a price, the verdict is FREE (R101). -/
theorem eventVerdict_unpriced (unpriced : v.product = none) (free : ∀ e : EventRecord, e.Shows v.number s → e.product = 0) :
    s.eventVerdict v.product.isSome (s.eventWeighed v.number) = .free := by
  rw [unpriced]
  cases weighed : s.eventWeighed v.number with
  | none => rfl
  | some e => rw [eventVerdict_free (free e (shows_of_weighed weighed))]; rfl

end

/-! ## The obligation -/

/-- Settles O34: the report is stored, the bar settled by its change, a lapse raised and the destination evaluated; the verdict follows the steps of
R101, on the one event that shows. -/
theorem accessVerdictFormed : Obligations.AccessVerdictFormed := by
  refine ⟨fun _ _ v vacant => takeAccessReport_vacant vacant v, fun s d v live => ?_, fun s i v sound record => ?_⟩
  · intro x t denies wasDenied lapses
    have stored : (s.storeAccess d v).dest d = { x with access := some v } := storeAccess_dest v
    have view (h : x.kind = .view) : ((s.storeAccess d v).dest d).kind = .view := by rw [stored, h]
    have denied : v.isDenied = true ↔ denies v := isDenied_iff
    have stood : deniedReport x.access = true ↔ wasDenied := by
      rw [deniedReport_iff]
      exact ⟨fun ⟨c, h⟩ => ⟨.denied c, h, c, rfl⟩, fun ⟨_, h, c, same⟩ => ⟨c, same ▸ h⟩⟩
    have lapse : v.isDenied = true ∧ x.access.any (fun w => !w.isDenied) = true ∧ x.state.delivering = true ↔ lapses := by
      refine and_congr denied (and_congr_left' ?_)
      rw [Option.any_eq_true]
      exact exists_congr fun o => and_congr_right' (by rw [Bool.not_eq_true', ← Bool.not_eq_true, isDenied_iff])
    have viewer : t.viewer d = ((s.storeAccess d v).settleBar d x.access v).viewer d := takeAccessReport_viewer live v
    have hold : t.attention.isPending .hold (sourceByte d) = _ := takeAccessReport_hold live v (sourceByte d)
    refine ⟨takeAccessReport_access live v, fun h => ⟨takeAccessReport_withheld live v (denied.mpr h),
      (takeAccessReport_reason live v).trans (denied.mpr h)⟩, fun h => ?_, fun isView h fresh => ?_, fun isView h was => ?_, fun h => ?_,
      fun h => ?_, fun h => takeAccessReport_unlapsed live v (mt lapse.mp h), (takeAccessReport_oneDest d s v).toOthersKept⟩
    · exact (takeAccessReport_reason live v).trans (Bool.eq_false_of_not_eq_true (mt denied.mp h))
    · rw [settleBar_placed (view isView) (denied.mpr h) (Bool.eq_false_of_not_eq_true (mt stood.mp fresh))] at viewer hold
      obtain ⟨l, placed⟩ := placeBar_viewer (s := s.storeAccess d v) (d := d)
      rw [viewer, hold, placed]
      exact ⟨rfl, rfl, rfl, fun opened => placeBar_closes opened⟩
    · rw [settleBar_lifted (view isView) (Bool.eq_false_of_not_eq_true (mt denied.mp h)) (stood.mpr was)] at viewer hold
      rw [viewer, hold]
      refine ⟨liftBar_barred, fun f formed restricted ask none => liftBar_opens formed restricted ?_ none⟩
      rw [stored]
      exact ask
    · rw [viewer, settleBar_same]
      · rfl
      · refine h.imp (fun record => by rw [stored, record]) fun same => ?_
        rw [Bool.eq_iff_iff, denied, stood, same]
    · obtain ⟨denied, before, delivers⟩ := lapse.mpr h
      exact takeAccessReport_lapsed live v denied before delivers
  · intro t unset valid shows lacks
    have entitled (key : EntitlementKey) : s.entitled key = true ↔ valid key := entitled_iff
    have shown (e : EventRecord) : e.Shows v.number s ↔ shows e :=
      ⟨fun h => ⟨h.set, h.mem, h.service, h.started, h.running⟩, fun ⟨set, mem, service, started, running⟩ => ⟨set, mem, service, started, running⟩⟩
    have event (set : ¬ unset) (lacksNone : ∀ p, ¬ lacks p) : s.accessVerdict i = s.eventVerdict v.product.isSome (s.eventWeighed v.number) :=
      accessVerdict_event record fun p product => ⟨set, (entitled _).mpr (not_not.mp fun invalid => lacksNone p ⟨product, invalid⟩)⟩
    refine ⟨accessVerdict_timeUnset record, fun set ⟨p, product, invalid⟩ => ?_, fun set lacksNone e showing priced invalid => ?_,
      fun set lacksNone purchased => ⟨fun h => ?_, fun unpriced free => ?_⟩, fun isUnset unpriced => ?_⟩
    · exact accessVerdict_noSubscription record set product (Bool.eq_false_of_not_eq_true (mt (entitled _).mp invalid))
    · rw [event set lacksNone, eventWeighed_shown sound ((shown e).mpr showing)]
      exact eventVerdict_unpurchased priced (Bool.eq_false_of_not_eq_true (mt (entitled _).mp invalid))
    · rw [event set lacksNone]
      exact eventVerdict_entitled sound (fun e showing priced => (entitled _).mpr (purchased e ((shown e).mp showing) priced))
        (h.imp_right fun ⟨e, showing, priced⟩ => ⟨e, (shown e).mpr showing, priced⟩)
    · rw [event set lacksNone]
      exact eventVerdict_unpriced unpriced fun e showing => free e ((shown e).mp showing)
    · rw [accessVerdict_event record fun p product => by rw [unpriced] at product; cases product]
      exact eventVerdict_unpriced unpriced fun e showing => absurd isUnset showing.set

end Sys2Proof.Machine
end

