-- ==== Sys2Proof/Proofs/DestinationOrders.lean ====
section
/-! SUPPORT. BIND_DESTINATION and READ_DESTINATION (R45, R59): the fields of the body, and the reply. -/

namespace Sys2Proof.Machine

/-! ## BIND_DESTINATION (R45) -/

theorem bytes8_val {n : Nat} (i : Fin n) : bytes8 i.val = [sourceByte i] := rfl

theorem destKind_ofCode_byte (k : DestKind) : DestKind.ofCode k.byte.toNat = some k := by cases k <;> rfl

theorem destKind_ofCode_none {x : Nat} (h : 2 ≤ x) : DestKind.ofCode x = none := by
  match x with
  | x + 2 => rfl

theorem roleMask_ofByte_byte (m : RoleMask) : RoleMask.ofByte m.byte = some m := by
  obtain ⟨video, audio, subtitle, data⟩ := m
  cases video <;> cases audio <;> cases subtitle <;> cases data <;> rfl

theorem roleMask_ofByte_none {b : Byte} (h : 16 ≤ b.toNat) : RoleMask.ofByte b = none := if_neg (Nat.not_lt.mpr h)

section
variable {s : State} {d : DestId} (kind : DestKind) (p : PortId) (profile : Fin 8) (roles : RoleMask)

theorem orderBindDestination_vacant (vacant : (s.dest d).state = .vacant) :
    orderBindDestination [sourceByte d, kind.byte, sourceByte p, sourceByte profile, roles.byte] s =
      .done ((s.setDest d { s.dest d with kind := kind, port := p, profile := profile, roles := roles }).setViewer d
        { s.viewer d with unlock := none }) [kind.byte, sourceByte p, sourceByte profile, roles.byte] := by
  simp [orderBindDestination, destKind_ofCode_byte, roleMask_ofByte_byte, vacant, Dest.binding, bytes8_val]

theorem orderBindDestination_held (held : (s.dest d).state ≠ .vacant) :
    orderBindDestination [sourceByte d, kind.byte, sourceByte p, sourceByte profile, roles.byte] s = .refuse s .notVacant := by
  simp [orderBindDestination, destKind_ofCode_byte, roleMask_ofByte_byte, held]

end

/-- A field outside its range refuses the order, whatever the state of the destination (R45). -/
theorem orderBindDestination_range {d kind p profile roles : Byte}
    (h : 12 ≤ d.toNat ∨ 2 ≤ kind.toNat ∨ 4 ≤ p.toNat ∨ 8 ≤ profile.toNat ∨ 16 ≤ roles.toNat) (s : State) :
    orderBindDestination [d, kind, p, profile, roles] s = .refuse s .range := by
  unfold orderBindDestination
  split
  · next hd hk hp hf hr =>
    rcases h with h | h | h | h | h
    · simp [below_ge h] at hd
    · simp [destKind_ofCode_none h] at hk
    · simp [below_ge h] at hp
    · simp [below_ge h] at hf
    · simp [roleMask_ofByte_none h] at hr
  · rfl

/-! ## READ_DESTINATION (R59) -/

/-- A number of one byte in a field of two. -/
theorem num16_toNat (b : Byte) : num16 b.toNat = [0, b] := by
  unfold num16 bytes16
  congr 1
  · refine BitVec.eq_of_toNat_eq ?_
    have := b.isLt
    simp
    omega
  · congr 1
    refine BitVec.eq_of_toNat_eq ?_
    simpa using b.isLt

/-- The option of the field of an optional value, with its zeros. -/
theorem shown_eq_match {α : Type} (n : Nat) (f : α → List Byte) (o : Option α) :
    shown n f o = match o.map f with
      | none => 0 :: List.replicate n 0
      | some b => 1 :: b := by
  cases o <;> rfl

theorem timerLeft_eq_match (t : Timer) : flag t.isSome ++ timerLeft t = match t with
    | none => 0 :: num32 0
    | some ms => 1 :: num32 ms := by
  cases t <;> rfl

theorem countByte_length (n : Nat) : (countByte n).length = 1 := rfl

theorem destinationReply_length (s : State) (x : Dest) : (s.destinationReply x).length = 34 := by
  have one {α : Type} (f : α → List Byte) (h : ∀ y, (f y).length = 1) (o : Option α) : (shown 1 f o).length = 2 := shown_length h o
  have serial : (shown 2 (fun r : ParentalReport => num16 r.serial.toNat) x.parental).length = 3 := shown_length (fun _ => num16_length _) _
  have first : (shown 2 (fun k : Fin 256 => num16 k.val) (s.unstarted x).head?).length = 3 := shown_length (fun _ => num16_length _) _
  unfold State.destinationReply Dest.binding
  simp [one, serial, first, flag, bytes8, timerLeft, countByte_length]

theorem orderReadDestination_byte (d : DestId) (s : State) :
    orderReadDestination [sourceByte d] s = .done s (s.destinationReply (s.dest d)) := by
  simp [orderReadDestination]

theorem destinationReply_during (r : OrderRecord) (s : State) (x : Dest) : (s.during r).destinationReply x = s.destinationReply x := rfl

theorem exec_readDestination (tag : Half) (d : DestId) {s : State} (h : LinkAtRest s) :
    exec (.readDestination tag [sourceByte d]) s = .next (s.answered 0x1D tag .done (s.destinationReply (s.dest d))) :=
  exec_order_read .readDestination tag h rfl (by rw [destinationReply_length]; decide)
    (by rw [runOrder, orderReadDestination_byte, destinationReply_during, during_dest])

/-- The reply, field by field, with an absent field as its presence byte and zeros (log entry 11). -/
theorem destinationReply_fields (s : State) (x : Dest) :
    let opt := fun (v : Option (List Byte)) (zeros : List Byte) => match v with | none => 0 :: zeros | some b => 1 :: b
    s.destinationReply x = [x.kind.byte, sourceByte x.port, sourceByte x.profile, x.roles.byte, x.state.byte] ++
      opt (x.service.map fun i => [sourceByte i]) [0] ++ [x.reasons.byte] ++
      opt (x.access.map fun v => [v.byte]) [0] ++ opt (x.access.map fun v => [v.causeByte]) [0] ++
      opt (x.parental.map fun r => [r.verdict.byte]) [0] ++ opt (x.parental.map fun r => [r.uncovered.byte]) [0] ++
      opt (x.parental.map fun r => [r.hold.byte]) [0] ++ opt (x.parental.map fun r => [0, r.serial]) [0, 0] ++
      [BitVec.ofNat 8 x.unkeyedRun, BitVec.ofNat 8 x.noticeSeq.toNat] ++
      (match x.acquisition with | none => 0 :: num32 0 | some ms => 1 :: num32 ms) ++
      countByte x.marks.length ++ countByte (s.requiredSet x).length ++ countByte (s.unstarted x).length ++
      opt ((s.unstarted x).head?.map fun k => num16 k.val) [0, 0] := by
  have timer := timerLeft_eq_match x.acquisition
  simp only [State.destinationReply, shown_eq_match, num16_toNat, ← timer]
  simp only [Dest.binding, bytes8, sourceByte, List.append_assoc, List.cons_append, List.nil_append]
  rfl

/-- Settles O23. -/
theorem destinationOrders : Obligations.DestinationOrders := by
  refine ⟨fun s tag h => ⟨fun d kind p profile roles => ⟨fun vacant => ?_, fun held => ?_⟩, fun d kind p profile roles range => ?_⟩,
    fun s tag h => ⟨fun d => ?_, fun b range => ?_⟩⟩
  · exact exec_order_answered .bindDestination tag h rfl (by simp) (orderBindDestination_vacant kind p profile roles vacant) rfl
  · exact exec_order_answered .bindDestination tag h rfl (Nat.zero_le _) (orderBindDestination_held kind p profile roles held) rfl
  · exact exec_order_refused .bindDestination tag h rfl (orderBindDestination_range range)
  · exact (exec_readDestination tag d h).trans
      (congrArg (fun body => Host.Outcome.next (s.answered 0x1D tag .done body)) (destinationReply_fields s (s.dest d)))
  · exact exec_order_refused .readDestination tag h rfl fun u => by simp [runOrder, orderReadDestination, range]

end Sys2Proof.Machine
end

