-- ==== Sys2Proof/Proofs/ReportCells.lean ====
section
/-! SUPPORT. Orders that bring many attention records (R166, R167): records that fill report cells one after another, how many each operation places, and
what the order comes to on a link at rest. -/

namespace Sys2Proof.Machine

/-! ## Records that fill report cells -/

/-- Behind a link at rest, at most `n` attention records have been placed, in closed report cells of thirty records each and the open one. -/
structure LinkTally (n : Nat) (l : HostLink) : Prop where
  waiting : l.waiting = []
  whole : 6 ∣ (l.filling.getD []).length
  fitting : (l.filling.getD []).length ≤ 180
  placed : 180 * (l.outbound.length - 22) + (l.filling.getD []).length ≤ 6 * n

theorem LinkTally.mono {m n : Nat} {l : HostLink} (h : LinkTally m l) (le : m ≤ n) : LinkTally n l :=
  ⟨h.waiting, h.whole, h.fitting, by have := h.placed; omega⟩

/-- A record that does not fit closes the open report cell, which is queued where a place is free (R166). -/
theorem placeRecord_closes {l : HostLink} {b : List Byte} (waiting : l.waiting = []) (unfit : l.fits b.length = false) (short : b.length ≤ 184)
    (free : l.outbound.length < 24) :
    ∃ o q, o.length = l.outbound.length + 1 ∧ l.placeRecord b = { l with outbound := o, reportSeq := q, filling := some b } := by
  cases filling : l.filling with
  | none =>
    simp only [HostLink.fits, filling, Option.getD_none, List.length_nil, Nat.zero_add, decide_eq_false_iff_not] at unfit
    exact absurd short unfit
  | some records =>
    have places : 24 - l.outbound.length ≠ 0 := by omega
    refine ⟨l.outbound ++ [.report (HostLink.reportCell { l with filling := none } records)], l.reportSeq + 1, by simp, ?_⟩
    simp [HostLink.placeRecord, unfit, HostLink.closeFilling, filling, HostLink.closeRecords, waiting, HostLink.free, places, HostLink.append]

/-- At most sixty records leave a place for one more report cell. -/
theorem LinkTally.free {n : Nat} {l : HostLink} (h : LinkTally n l) (few : n ≤ 60) {x : Nat} (unfit : l.fits x = false) (short : x ≤ 184) :
    l.outbound.length < 24 := by
  have placed := h.placed
  simp only [HostLink.fits, decide_eq_false_iff_not] at unfit
  omega

/-- One record more is placed, or waits (R167). -/
theorem notify_tally {n : Nat} {l : HostLink} (r : Option AttentionRecord) (command : l.command.isSome = true) (few : n + 1 ≤ 60)
    (h : LinkTally n l) : LinkTally (n + 1) (l.notify r) := by
  have more : LinkTally (n + 1) l := h.mono (Nat.le_succ n)
  cases r with
  | none => exact more
  | some r =>
    simp only [HostLink.notify, HostLink.placeAttention, command, h.waiting, List.isEmpty_nil, Bool.or_true, if_true]
    split
    · exact ⟨rfl, more.whole, more.fitting, more.placed⟩
    · have size : r.bytes.length = 6 := rfl
      have whole := h.whole
      have placed := h.placed
      cases fits : l.fits r.bytes.length with
      | true =>
        have within : (l.filling.getD []).length + 6 ≤ 184 := by simpa [HostLink.fits, size] using fits
        rw [HostLink.placeRecord, if_pos fits]
        refine ⟨h.waiting, ?_, ?_, ?_⟩ <;>
          simp only [HostLink.append, Option.getD_some, List.length_append, size] <;> omega
      | false =>
        have free := h.free (by omega) fits (by omega)
        have beyond : ¬ (l.filling.getD []).length + 6 ≤ 184 := by simpa [HostLink.fits, size] using fits
        obtain ⟨o, q, length, closes⟩ := placeRecord_closes h.waiting fits (by omega) free
        rw [closes]
        refine ⟨h.waiting, ?_, ?_, ?_⟩ <;> simp only [Option.getD_some, size, length] <;> omega

/-! ## How many records an operation places -/

/-- From `s` to `t` at most `n` attention records are placed, in as many report cells as they take; the command cell goes on. -/
structure Places (n : Nat) (s t : State) : Prop where
  command : t.link.command = s.link.command
  tally : ∀ m, s.link.command.isSome = true → m + n ≤ 60 → LinkTally m s.link → LinkTally (m + n) t.link

namespace Places

variable {a b n : Nat} {s t u : State}

theorem mono (h : Places a s t) (le : a ≤ b) : Places b s t :=
  ⟨h.command, fun m c few r => (h.tally m c (by omega) r).mono (by omega)⟩

theorem ofLink (h : t.link = s.link) : Places n s t := ⟨by rw [h], fun m _ _ r => h ▸ r.mono (Nat.le_add_right m n)⟩

theorem refl (s : State) : Places n s s := ofLink rfl

theorem trans (h : Places a s t) (k : Places b t u) : Places (a + b) s u where
  command := k.command.trans h.command
  tally m c few r := by
    rw [← Nat.add_assoc] at few ⊢
    exact k.tally (m + a) (h.command ▸ c) few (h.tally m c (by omega) r)

theorem before (h : t.link = s.link) (k : Places n t u) : Places n s u := ((ofLink (n := 0) h).trans k).mono (by omega)

theorem behind (h : Places n s t) (same : u.link = t.link) : Places n s u := h.trans (ofLink (n := 0) same)

theorem ite {c : Prop} [Decidable c] (h : Places n s t) (k : Places n s u) : Places n s (if c then t else u) := by
  split
  · exact h
  · exact k

theorem foldl {α : Type} {f : State → α → State} (h : ∀ s x, Places n s (f s x)) (l : List α) (s : State) :
    Places (l.length * n) s (l.foldl f s) := by
  induction l generalizing s with
  | nil => exact refl s
  | cons x l ih => exact ((h s x).trans (ih _)).mono (by rw [List.length_cons, Nat.succ_mul]; omega)

theorem eachDest {f : DestId → State → State} (h : ∀ d s, Places n s (f d s)) (s : State) : Places (12 * n) s (s.eachDest f) :=
  (foldl (fun s d => h d s) (List.finRange 12) s).mono (by simp)

end Places

section
variable (d : DestId) (s : State)

theorem raise_places (c : Cause) (x y : Byte) : Places 1 s (s.raise c x y) := ⟨(raise_frame c x y s).command, fun _ => notify_tally _⟩

theorem withdraw_places (c : Cause) (x : Byte) : Places 1 s (s.withdraw c x) := ⟨(withdraw_frame c x s).command, fun _ => notify_tally _⟩

theorem completionTest_places : Places 1 s (s.completionTest d) := by
  unfold State.completionTest
  dsimp only
  split
  · exact .ofLink rfl
  · exact .before (by rfl) (withdraw_places _ _ _)
  · exact .ofLink rfl
  · exact .ofLink rfl

theorem moveTo_places (n : DestState) : Places 1 s (s.moveTo d n) := by
  have left : Places 1 s (s.leaveDelivering d n) := by
    refine Places.behind (t := if (s.dest d).state = .stalled then _ else _) ?_ rfl
    exact .ite (.before (by rfl) (withdraw_places _ _ _)) (.ofLink rfl)
  exact .ite (.refl s) (.ite (.before (by rfl) (completionTest_places d _)) (.ite left (.ofLink rfl)))

theorem evaluate_places : Places 1 s (s.evaluate d) := .ite (.refl s) (.before (by rfl) (moveTo_places d _ _))

theorem reportStored_places {n : Nat} : Places n s (s.reportStored d) := by
  cases report : (s.viewer d).report with
  | none =>
    rw [reportStored_none report]
    exact .refl s
  | some r =>
    rw [reportStored_some report]
    exact .ite (.ofLink rfl) (.ofLink rfl)

theorem reportHanded_places : Places 1 s (s.reportHanded d) :=
  .ite ((reportStored_places d s (n := 0)).trans (evaluate_places d _)) (reportStored_places d s)

theorem endHold_places (c : HoldCondition) : Places 1 s (s.endHold d c) := .ite (.before (by rfl) (withdraw_places _ _ _)) (.ofLink rfl)

theorem openHold_places : Places 1 s (s.openHold d) := .before (by rfl) (raise_places _ _ _ _)

theorem holdRule_places : Places 1 s (s.holdRule d) := by
  unfold State.holdRule
  dsimp only
  split
  · exact .refl s
  · refine .ite ?_ (endHold_places d s _)
    split
    · exact endHold_places d s _
    · exact .ite (openHold_places d s) (.refl s)

theorem formVerdict_places : Places 1 s (s.formVerdict d) := by
  unfold State.formVerdict
  dsimp only
  split
  · exact .refl s
  · exact .before (by rfl) (holdRule_places d _)

theorem formAndReport_places : Places 2 s (s.formAndReport d) :=
  (formVerdict_places d s).trans (.ite (.refl _) (reportHanded_places d _))

theorem formEach_places (want : Dest → Bool) : Places 24 s (s.formEach want) :=
  .eachDest (n := 2) (fun d u => .ite (formAndReport_places d u) (.refl u)) s

theorem eventForgotten_places (i : Fin 64) : Places 0 s (s.eventForgotten i) := by
  have cleared (e : DestId) (u : State) : (u.clearMemory e).link = u.link := by
    unfold State.clearMemory
    dsimp only
    split <;> rfl
  have forgets (e : DestId) (u : State) (v : Viewer) : Places 0 u ((u.clearMemory e).setViewer e v) :=
    .ofLink ((show ((u.clearMemory e).setViewer e v).link = (u.clearMemory e).link from rfl).trans (cleared e u))
  exact .eachDest (n := 0) (fun e u => .ite (forgets e u _) (.refl u)) s

theorem parentalEventChange_places (i : Fin 64) : Places 24 s (s.parentalEventChange i) :=
  ((eventForgotten_places s i).trans (formEach_places (s.eventForgotten i) fun x => x.service == some i)).mono le_rfl

theorem settleBar_places (o : Option AccessVerdict) (v : AccessVerdict) : Places 1 s (s.settleBar d o v) := by
  have placed : Places 1 s (s.placeBar d) := ((endHold_places d s _).behind (by rfl)).trans (reportStored_places d _ (n := 0))
  have lifted : Places 1 s (s.liftBar d) := (Places.before (by rfl) (holdRule_places d _)).trans (reportStored_places d _ (n := 0))
  exact .ite (.refl s) (.ite placed (.ite lifted (.refl s)))

/-- A report that is taken: the hold that the bar closes or opens, the lapse, and the STALL that the evaluation withdraws. -/
theorem takeAccessReport_places (v : AccessVerdict) : Places 3 s (s.takeAccessReport d v) := by
  have lapsed (o : Option AccessVerdict) (u : State) : Places 1 u (u.accessLapse d o v) := .ite (raise_places _ _ _ _) (.refl u)
  exact .ite (.refl s) (((Places.before (by rfl) (settleBar_places d _ _ v)).trans (lapsed _ _)).trans (evaluate_places d _))

theorem storeLast_link (l : List (DestId × AccessVerdict)) : (s.storeLast l).link = s.link := by rw [storeLast_eq]

theorem formAccessNow_places (want : Dest → Bool) : Places 36 s (s.formAccessNow want) := by
  have taken := Places.foldl (fun u (r : DestId × AccessVerdict) => takeAccessReport_places r.1 u r.2) (s.accessReports want)
    (s.storeLast (s.accessReports want))
  have few := accessReports_length want s
  exact (Places.before (storeLast_link s _) taken).mono (by omega)

end

/-! ## The order on a link at rest -/

/-- The end of the command cell closes the open report cell (R166). -/
theorem endCell_keeps (l : HostLink) :
    l.endCell.command = none ∧ l.endCell.arriving = l.arriving ∧ l.endCell.forwardDrops = l.forwardDrops := by
  unfold HostLink.endCell HostLink.closeFilling HostLink.closeRecords
  dsimp only
  split
  · exact ⟨rfl, rfl, rfl⟩
  · split <;> exact ⟨rfl, rfl, rfl⟩

/-- A reply placed behind at most sixty attention records leaves no report cell waiting. -/
theorem placeRecord_tally {n : Nat} {l : HostLink} {b : List Byte} (h : LinkTally n l) (few : n ≤ 60) (short : b.length ≤ 184) :
    (l.placeRecord b).waiting = [] ∧ (l.placeRecord b).command = l.command ∧ (l.placeRecord b).arriving = l.arriving ∧
      (l.placeRecord b).forwardDrops = l.forwardDrops := by
  cases fits : l.fits b.length with
  | true =>
    rw [HostLink.placeRecord, if_pos fits]
    exact ⟨h.waiting, rfl, rfl, rfl⟩
  | false =>
    obtain ⟨o, q, -, closes⟩ := placeRecord_closes h.waiting fits short (h.free few fits short)
    rw [closes]
    exact ⟨h.waiting, rfl, rfl, rfl⟩

/-- The order's command cell ends with the reply (R164). -/
theorem reply_ends_tally {r : OrderRecord} {u : State} {body : List Byte} (recorded : r.body.length ≤ 180)
    (command : u.link.command = some (lastRecord r)) (arriving : u.link.arriving = []) (tally : LinkTally 60 u.link)
    (short : body.length ≤ 178) (res : Result) :
    ∃ l, (u.reply r.code r.tag res body).settleCommand.letIn = { u with link := l } ∧
      l.command = none ∧ l.arriving = [] ∧ l.forwardDrops = u.link.forwardDrops := by
  have length := replyBytes_length r.code r.tag res body
  obtain ⟨waiting, commanded, arrived, drops⟩ :=
    placeRecord_tally (b := replyBytes r.code r.tag res body) tally le_rfl (by omega)
  have ended := settle_last (x := false) recorded (commanded.trans command) waiting 46
  have settled : (u.reply r.code r.tag res body).settleCommand =
      { u with link := (u.link.placeRecord (replyBytes r.code r.tag res body)).endCell } :=
    congrArg (fun l => { u with link := l }) ended
  obtain ⟨done, left, kept⟩ := endCell_keeps (u.link.placeRecord (replyBytes r.code r.tag res body))
  have none := left.trans (arrived.trans arriving)
  exact ⟨_, by rw [settled, letIn_none none], done, none, kept.trans drops⟩

/-- An order on a link at rest whose effect places at most sixty attention records. -/
theorem exec_order_settled (o : Order) (tag : Half) {b : List Byte} {s v u : State} {res : Result} {body : List Byte}
    (h : LinkAtRest s) (hb : b.length = o.bodyLength) (hr : runOrder o b (s.during ⟨o.code, tag, b⟩) = ⟨u, res, body⟩)
    (hk : Settled (v.during ⟨o.code, tag, b⟩) u) (hv : v.link = s.link) (hn : Places 60 (s.during ⟨o.code, tag, b⟩) u)
    (hl : body.length ≤ 178) :
    ∃ l, exec (orderCommand o tag b) s = .next { u with link := l } ∧ Settled v { u with link := l } := by
  have short : b.length ≤ 180 := by rw [hb]; cases o <;> decide
  have places := h.places
  have empty : (s.link.filling.getD []).length = 0 := by simp [h.filling]
  have rest : LinkTally 0 (s.during ⟨o.code, tag, b⟩).link :=
    ⟨h.waiting, ⟨0, empty⟩, empty ▸ Nat.zero_le _, by show 180 * (s.link.outbound.length - 22) + (s.link.filling.getD []).length ≤ 0; omega⟩
  have arriving : u.link.arriving = [] := by rw [hk.arriving]; exact (congrArg _ hv).trans h.arriving
  obtain ⟨l, ends, command, arrived, drops⟩ :=
    reply_ends_tally (r := ⟨o.code, tag, b⟩) short hn.command arriving (hn.tally 0 rfl le_rfl rest) hl res
  refine ⟨l, ?_, { hk with command := ?_, arriving := ?_, forwardDrops := drops.trans hk.forwardDrops }⟩
  · rw [exec_order o tag b h.pin, takeOrder_atRest h (r := ⟨o.code, tag, b⟩) short, carryOut_order o tag hb, hr, ends]
  · rw [command, hv, h.command]
  · rw [arrived, hv, h.arriving]

end Sys2Proof.Machine
end

