-- ==== Sys2Proof/Proofs/ServiceChanges.lean ====
section
/-! SUPPORT. The service changed announcement (R41): the verdicts formed on the index, the current-event change that both units take, and what the other
destinations keep (R103, R104, R119, R120). -/

namespace Sys2Proof.Machine

/-! ## Free choices -/

/-- `t` is `s` but for the free choices made. -/
def Chosen (s t : State) : Prop := ∃ c x, t = { s with freeCount := c, script := x }

theorem Chosen.refl (s : State) : Chosen s s := ⟨s.freeCount, s.script, rfl⟩

theorem Chosen.choice {s t : State} (h : Chosen s t) (c : Nat) (x : List Nat) : Chosen s { t with freeCount := c, script := x } := by
  obtain ⟨_, _, rfl⟩ := h
  exact ⟨c, x, rfl⟩

/-- What `Settled` says, but for the free choices. -/
def SettledBut (s t : State) : Prop := Settled { s with freeCount := t.freeCount, script := t.script } t

theorem Settled.but {s t : State} (h : Settled s t) : SettledBut s t := { h with freeCount := rfl, script := rfl }

theorem SettledBut.trans {s t u : State} (a : SettledBut s t) (b : SettledBut t u) : SettledBut s u :=
  Settled.trans (t := { t with freeCount := u.freeCount, script := u.script }) { a with freeCount := rfl, script := rfl } b

theorem Chosen.settledBut {s t : State} (h : Chosen s t) : SettledBut s t := by
  obtain ⟨c, x, rfl⟩ := h
  exact .refl _

/-! ## A current-event change sent to units that hold the verdicts already -/

/-- The last report of every destination on index `i` is the verdict that the part gives now. -/
def AccessStands (i : Fin 64) (s : State) : Prop :=
  ∀ d, (s.dest d).state ≠ .vacant → (s.dest d).service = some i → s.lastAccess d = some (s.accessVerdict i)

theorem AccessStands.take {i : Fin 64} {a : Announcement} {s : State} (unreported : a.reports = false) (h : AccessStands i s) :
    AccessStands i (a.take s).1 := by
  intro d live shown
  have bound := take_unreported_bound unreported d s
  have was : (s.dest d).state ≠ .vacant := (not_congr bound.vacant).mp live
  have on := bound.service.symm.trans shown
  exact take_lastAccess a on was (.inr (h d was on))

/-- Where the verdicts stand, the access unit has nothing to report (R104). -/
theorem take_accessChange_standing {c : EventChange} {s : State} (h : AccessStands c.index s) :
    (Announcement.accessChange c).take s = (s, []) := by
  have silent : s.accessReports (fun x => x.service == some c.index) = [] := by
    refine List.eq_nil_iff_forall_not_mem.mpr fun r mem => ?_
    obtain ⟨i, service, live, on, verdict, differs⟩ := mem_accessReports.mp (show (r.1, r.2) ∈ _ from mem)
    obtain rfl : i = c.index := by simpa [service] using on
    exact differs (verdict ▸ h r.1 live service)
  show s.formAccess _ = _
  rw [State.formAccess, silent]
  rfl

theorem take_parentalChange (c : EventChange) (s : State) :
    (Announcement.parentalChange c).take s = (s.parentalEventChange c.index, []) := rfl

theorem parentalEventChange_bound (i : Fin 64) (d : DestId) (s : State) : (s.dest d).Bound ((s.parentalEventChange i).dest d) := by
  have taken := take_unreported_bound (a := .parentalChange ⟨i, none, none⟩) rfl d s
  rw [take_parentalChange] at taken
  dsimp only at taken
  exact taken

/-- While the change `c` is taken from `u`, where the verdicts stand: the parental unit's turn is still to come, or was the one thing done. -/
structure Telling (c : EventChange) (u : State) (l : List Announcement) (t : State) : Prop where
  waits : l.Sublist [.accessChange c, .parentalChange c]
  before : .parentalChange c ∈ l → Chosen u t
  after : .parentalChange c ∉ l → ∃ w, Chosen u w ∧ Chosen (w.parentalEventChange c.index) t
  stands : AccessStands c.index t

theorem telling_kept (c : EventChange) (u : State) : KeptByTaking (Telling c u) where
  choice l t k x h := by
    refine ⟨h.waits, fun waits => (h.before waits).choice k x, fun done => ?_, h.stands⟩
    obtain ⟨w, first, rest⟩ := h.after done
    exact ⟨w, first, rest.choice k x⟩
  taking first a rest t _ h := by
    have fewer : (first ++ rest).Sublist [.accessChange c, .parentalChange c] :=
      ((List.sublist_cons_self a rest).append_left first).trans h.waits
    have one : a = .accessChange c ∨ a = .parentalChange c := by simpa using h.waits.subset (List.mem_append_right first List.mem_cons_self)
    rcases one with rfl | rfl
    · rw [take_accessChange_standing h.stands, List.append_nil]
      have same : Announcement.parentalChange c ∈ first ++ rest ↔ Announcement.parentalChange c ∈ first ++ .accessChange c :: rest := by simp
      exact ⟨fewer, fun waits => h.before (same.mp waits), fun done => h.after (mt same.mpr done), h.stands⟩
    · have once : (first ++ .parentalChange c :: rest).Nodup := h.waits.nodup (by simp)
      have gone : Announcement.parentalChange c ∉ first ++ rest := by
        rw [List.nodup_middle, List.nodup_cons] at once
        exact once.1
      have stands := h.stands.take (a := .parentalChange c) rfl
      have chosen := h.before (List.mem_append_right first List.mem_cons_self)
      rw [take_parentalChange] at stands ⊢
      dsimp only at stands ⊢
      rw [List.append_nil]
      exact ⟨fewer, fun waits => absurd waits gone, fun _ => ⟨t, chosen, .refl _⟩, stands⟩

/-- What taking a change of index `i` leaves: the access unit and the verdicts that the controller holds, the destinations on other indices, and a
bounded number of attention records placed. -/
structure IndexTold (i : Fin 64) (u t : State) : Prop where
  settled : SettledBut u t
  access : t.access = u.access
  bound : ∀ d, (u.dest d).Bound (t.dest d)
  others : ∀ d, (u.dest d).service ≠ some i → ViewKept d u t
  places : Places 24 u t

theorem IndexTold.refl (i : Fin 64) (u : State) : IndexTold i u u :=
  ⟨(Settled.refl u).but, rfl, fun _ => .refl _, fun d _ => .refl d u, .refl u⟩

theorem parentalEventChange_told (i : Fin 64) (w : State) : IndexTold i w (w.parentalEventChange i) where
  settled := (parentalEventChange_frame i w).toSettled.but
  access := (parentalEventChange_frame i w).access
  bound d := parentalEventChange_bound i d w
  others _ other := parentalEventChange_other other
  places := parentalEventChange_places w i

/-- Free choices on either side change nothing of this. -/
theorem IndexTold.between {i : Fin 64} {u w x t : State} (first : Chosen u w) (h : IndexTold i w x) (rest : Chosen x t) : IndexTold i u t := by
  have settled := (first.settledBut.trans h.settled).trans rest.settledBut
  obtain ⟨_, _, rfl⟩ := first
  obtain ⟨_, _, rfl⟩ := rest
  exact ⟨settled, h.access, h.bound, fun d other => ⟨(h.others d other).dest, (h.others d other).viewer⟩, ⟨h.places.command, h.places.tally⟩⟩

theorem deliver_change_told {c : EventChange} {u : State} (stands : AccessStands c.index u) :
    IndexTold c.index u (u.deliver [.accessChange c, .parentalChange c]) := by
  have told := deliver_induct (telling_kept c u) ⟨.refl _, fun _ => .refl u, fun gone => absurd (by simp) gone, stands⟩
  obtain ⟨w, first, rest⟩ := told.after (by simp)
  exact (parentalEventChange_told c.index w).between first rest

/-! ## The verdicts formed within the order (R104) -/

section
variable {named : Dest → Bool} {s : State} {d : DestId}

theorem DestKept.refl (s : State) (d : DestId) : DestKept s s d := ⟨rfl, rfl, rfl⟩

theorem DestKept.trans {s t u : State} (a : DestKept s t d) (b : DestKept t u d) : DestKept s u d := by
  obtain ⟨dest, viewer, last⟩ := a
  obtain ⟨dest', viewer', last'⟩ := b
  exact ⟨dest'.trans dest, viewer'.trans viewer, last'.trans last⟩

/-- Reports of other destinations leave a destination as it is. -/
theorem takeReports_other (l : List (DestId × AccessVerdict)) (h : ∀ r ∈ l, r.1 ≠ d) (s : State) :
    DestKept s (l.foldl (fun s r => s.takeAccessReport r.1 r.2) s) d := by
  induction l generalizing s with
  | nil => exact .refl s d
  | cons r l ih =>
    obtain ⟨other, later⟩ := List.forall_mem_cons.mp h
    have one := takeAccessReport_oneDest r.1 s r.2
    exact DestKept.trans ⟨one.dests d other.symm, one.viewers d other.symm, one.lastAccess d other.symm⟩ (ih later _)

theorem storeLast_other (l : List (DestId × AccessVerdict)) (h : ∀ r ∈ l, r.1 ≠ d) (s : State) : DestKept s (s.storeLast l) d :=
  ⟨storeLast_dest l d s, by rw [storeLast_eq]; rfl, storeLast_lastAccess_other l s h⟩

/-- A destination that the forming names no report for stays as it is. -/
theorem formAccessNow_other (h : ∀ v, (d, v) ∉ s.accessReports named) : DestKept s (s.formAccessNow named) d := by
  have other : ∀ r ∈ s.accessReports named, r.1 ≠ d := fun r mem same => h r.2 (same ▸ mem)
  exact (storeLast_other _ other s).trans (takeReports_other _ other _)

/-- Forming leaves which service a destination shows, and whether it is VACANT. -/
theorem formAccessNow_shows (named : Dest → Bool) (s : State) (d : DestId) : ((s.formAccessNow named).dest d).service = (s.dest d).service ∧
    (((s.formAccessNow named).dest d).state = .vacant ↔ (s.dest d).state = .vacant) := by
  by_cases vacant : (s.dest d).state = .vacant
  · obtain ⟨dest, -, -⟩ := formAccessNow_other (named := named) fun v mem => by
      obtain ⟨_, -, live, -⟩ := mem_accessReports.mp mem
      exact live vacant
    rw [dest]
    exact ⟨rfl, .rfl⟩
  · have bound := formAccessNow_bound named vacant
    exact ⟨bound.service, bound.vacant⟩

/-- Once formed, the verdict of a destination named is its last report. -/
theorem formAccessNow_stands {i : Fin 64} (live : (s.dest d).state ≠ .vacant) (shown : (s.dest d).service = some i)
    (wanted : named (s.dest d) = true) : (s.formAccessNow named).lastAccess d = some ((s.formAccessNow named).accessVerdict i) := by
  have frame := formAccessNow_frame named s
  have formed := (formAccess_lastAccess named shown live).resolve_left fun ⟨_, unnamed⟩ => by
    rw [wanted] at unnamed
    cases unnamed
  rw [accessVerdict_congr (formAccess_frame named s).toDeliveryFrame (formAccess_frame named s).table] at formed
  rw [accessVerdict_congr frame.toDeliveryFrame frame.table]
  exact (congrArg (fun u : AccessUnit => u.last.read d) (takeReports_access _ _)).trans formed

end

/-! ## The announcement as a whole (R41) -/

/-- The access verdicts of the destinations on index `i` are formed upon the recomputation of the index. -/
def State.serviceFormed (i : Fin 64) (s : State) : State := (s.recompute fun j => j == i).1.formAccessNow fun x => x.service == some i

section
variable (i : Fin 64) (s : State)

theorem serviceFormed_stands : AccessStands i (s.serviceFormed i) := by
  intro d live shown
  obtain ⟨service, vacant⟩ := formAccessNow_shows (fun x => x.service == some i) (s.recompute fun j => j == i).1 d
  have on := service.symm.trans shown
  exact formAccessNow_stands ((not_congr vacant).mp live) on (beq_iff_eq.mpr on)

/-- One recomputed index brings one change, or none (R119, R120). -/
theorem recompute_index_news : (s.recompute fun j => j == i).2 =
    if s.guide.current.read i ≠ s.currentOf i ∧ s.showsIndex i = true then
      [.accessChange ⟨i, s.guide.current.read i, s.currentOf i⟩, .parentalChange ⟨i, s.guide.current.read i, s.currentOf i⟩]
    else [] := by
  obtain ⟨before, after, split⟩ := List.append_of_mem (List.mem_finRange i)
  have once := List.nodup_finRange 64
  rw [split, List.nodup_middle, List.nodup_cons, List.mem_append, not_or] at once
  obtain ⟨⟨notBefore, notAfter⟩, -⟩ := once
  rw [recompute_changes, split, List.flatMap_append, List.flatMap_cons]
  have silent (l : List (Fin 64)) (h : i ∉ l) : (l.flatMap fun j =>
      if (j == i) = true ∧ s.guide.current.read j ≠ s.currentOf j ∧ s.showsIndex j = true then
        [Announcement.accessChange ⟨j, s.guide.current.read j, s.currentOf j⟩, .parentalChange ⟨j, s.guide.current.read j, s.currentOf j⟩]
      else []) = [] :=
    List.flatMap_eq_nil_iff.mpr fun j mem => if_neg fun ⟨same, _⟩ => h (beq_iff_eq.mp same ▸ mem)
  rw [silent before notBefore, silent after notAfter]
  simp

theorem serviceChanged_told : IndexTold i (s.serviceFormed i) (s.serviceChanged i) := by
  rw [serviceChanged_eq, recompute_index_news]
  split
  · exact deliver_change_told (c := ⟨i, s.guide.current.read i, s.currentOf i⟩) (serviceFormed_stands i s)
  · exact .refl i _

theorem serviceChanged_settled : Settled { s with
    guide := { s.guide with current := (s.serviceChanged i).guide.current }
    freeCount := (s.serviceChanged i).freeCount, script := (s.serviceChanged i).script } (s.serviceChanged i) := by
  have settled : SettledBut (s.recompute fun j => j == i).1 (s.serviceChanged i) :=
    (formAccessNow_frame _ _).but.trans (serviceChanged_told i s).settled
  have current : (s.serviceChanged i).guide.current = (s.recompute fun j => j == i).1.guide.current := congrArg Guide.current settled.guide
  rw [current]
  exact settled

theorem serviceChanged_current {j : Fin 64} (other : j ≠ i) : (s.serviceChanged i).guide.current.read j = s.guide.current.read j :=
  (formAccessNow_sends _ _ s).kept (beq_eq_false_iff_ne.mpr other)

theorem serviceChanged_places : Places 60 s (s.serviceChanged i) :=
  .before (t := (s.recompute fun j => j == i).1) rfl ((formAccessNow_places _ _).trans (serviceChanged_told i s).places)

variable {i s} {d : DestId}

/-- The destinations on other indices are as they were. -/
theorem serviceChanged_other (other : (s.dest d).service ≠ some i) : DestKept s (s.serviceChanged i) d := by
  have formed : DestKept (s.recompute fun j => j == i).1 (s.serviceFormed i) d := formAccessNow_other fun v mem => by
    obtain ⟨_, -, -, on, -⟩ := mem_accessReports.mp mem
    exact other (beq_iff_eq.mp on)
  have told := serviceChanged_told i s
  have kept := told.others d (by rw [formed.1]; exact other)
  exact DestKept.trans (s := s) (t := s.serviceFormed i) formed
    ⟨kept.dest, kept.viewer, congrArg (fun u : AccessUnit => u.last.read d) told.access⟩

/-- The access verdict of every destination on the index is formed and handed (R103, R104). -/
theorem serviceChanged_formed (live : (s.dest d).state ≠ .vacant) (shown : (s.dest d).service = some i) :
    AccessFormed s (s.serviceChanged i) d i := by
  have told := serviceChanged_told i s
  have sends := formAccessNow_sends (fun j => j == i) (fun x => x.service == some i) s
  have last : (s.serviceChanged i).lastAccess d = (s.serviceFormed i).lastAccess d := congrArg (fun u : AccessUnit => u.last.read d) told.access
  have verdict : (s.serviceChanged i).accessVerdict i = (s.serviceFormed i).accessVerdict i := by
    have frame := deliver_frame (s.recompute fun j => j == i).2 (s.serviceFormed i)
    exact accessVerdict_congr frame (congrArg AccessUnit.table told.access) i
  have stands := serviceFormed_stands i s d (sends.live d live) ((sends.service d live).trans shown)
  refine ⟨by rw [last, verdict, stands], fun agreed => ?_⟩
  rw [(told.bound d).access, verdict, ← stands]
  exact sends.agreed d live agreed

/-- An index that no destination shows is recomputed, and nothing else is done. -/
theorem serviceChanged_unshown (unshown : s.showsIndex i = false) :
    s.serviceChanged i = { s with guide := { s.guide with current := s.guide.current.write i (s.currentOf i) } } := by
  have silent : (s.recompute fun j => j == i).1.accessReports (fun x => x.service == some i) = [] := by
    refine List.eq_nil_iff_forall_not_mem.mpr fun r mem => ?_
    obtain ⟨j, service, live, on, -⟩ := mem_accessReports.mp (show (r.1, r.2) ∈ _ from mem)
    have shown := showsIndex_of_dest (s := s) (beq_iff_eq.mp on) live
    rw [unshown] at shown
    cases shown
  have current : (s.recompute fun j => j == i).1.guide.current = s.guide.current.write i (s.currentOf i) := by
    refine Table.ext_read fun j => ?_
    rw [recompute_read, Table.read_write]
    by_cases same : j = i <;> simp [same]
  have news : (s.recompute fun j => j == i).2 = [] := by
    rw [recompute_index_news, unshown]
    exact if_neg fun ⟨_, shown⟩ => Bool.noConfusion shown
  rw [serviceChanged_eq, news, State.formAccessNow, silent, ← current]
  rfl

end

end Sys2Proof.Machine
end

