-- ==== Sys2Proof/Proofs/ServiceOrders.lean ====
section
/-! SUPPORT. SET_SERVICE, CLEAR_SERVICE and READ_SERVICE (R40 to R43): what each order comes to, case by case. -/

namespace Sys2Proof.Machine

/-! ## SET_SERVICE (R41) -/

section
variable {s : State} {i : Fin 64} {n product : Half}

theorem numberTaken_iff : s.numberTaken i n = true ↔ ∃ j, j ≠ i ∧ ∃ v, s.service j = some v ∧ v.number = n := by
  simp only [State.numberTaken, List.any_eq_true, Prod.exists, Table.mem_entries, Bool.and_eq_true, bne_iff_ne, Option.any_eq_true, beq_iff_eq]
  constructor
  · rintro ⟨j, row, read, other, v, named, number⟩
    exact ⟨j, other, v, read.trans named, number⟩
  · rintro ⟨j, other, v, read, number⟩
    exact ⟨j, some v, read, other, v, rfl, number⟩

theorem renumbers_iff : ((s.service i).map (·.number) != some n) = true ↔ ¬ ∃ v, s.service i = some v ∧ v.number = n := by
  rw [bne_iff_ne, ne_eq, Option.map_eq_some_iff]

theorem orderSetService_range {b : Byte} (h : 64 ≤ b.toNat ∨ n = 0) (s : State) :
    orderSetService (b :: bytes16 n ++ bytes16 product) s = .refuse s .range := by
  have numbered : half (b :: bytes16 n ++ bytes16 product) 1 = n := bytes16_join n
  unfold orderSetService
  split
  · rfl
  · next j index =>
    have zero := h.resolve_left fun beyond => by
      rw [List.cons_append, field8_zero, below_ge beyond] at index
      cases index
    rw [numbered]
    exact if_pos zero

/-- The tests of SET_SERVICE once its fields are in range, in their order. -/
theorem orderSetService_index (number : n ≠ 0) : orderSetService (sourceByte i :: bytes16 n ++ bytes16 product) s =
    if s.numberTaken i n then .refuse s .inUse
    else if s.inUse i && (s.service i).map (·.number) != some n then .refuse s .inUse
    else .done ((s.setService i (some ⟨n, productOf product⟩)).serviceChanged i)
      (flag true ++ serviceFields (some ⟨n, productOf product⟩)) := by
  have index : below 64 (field8 (sourceByte i :: bytes16 n ++ bytes16 product) 0) = some i := by simp
  have numbered : half (sourceByte i :: bytes16 n ++ bytes16 product) 1 = n := bytes16_join n
  have priced : half (sourceByte i :: bytes16 n ++ bytes16 product) 3 = product := bytes16_join product
  simp only [orderSetService, index, numbered, priced, if_neg number]

theorem orderSetService_inUse (number : n ≠ 0) (h : (∃ j, j ≠ i ∧ ∃ v, s.service j = some v ∧ v.number = n) ∨
    s.inUse i = true ∧ ¬ ∃ v, s.service i = some v ∧ v.number = n) :
    orderSetService (sourceByte i :: bytes16 n ++ bytes16 product) s = .refuse s .inUse := by
  rw [orderSetService_index number]
  rcases h with taken | ⟨used, renumbers⟩
  · exact if_pos (numberTaken_iff.mpr taken)
  · rw [if_pos (Bool.and_eq_true_iff.mpr ⟨used, renumbers_iff.mpr renumbers⟩), ite_self]

theorem orderSetService_done (number : n ≠ 0) (free : ¬ ∃ j, j ≠ i ∧ ∃ v, s.service j = some v ∧ v.number = n)
    (kept : s.inUse i = true → ∃ v, s.service i = some v ∧ v.number = n) :
    orderSetService (sourceByte i :: bytes16 n ++ bytes16 product) s =
      .done ((s.setService i (some ⟨n, productOf product⟩)).serviceChanged i)
        (flag true ++ serviceFields (some ⟨n, productOf product⟩)) := by
  rw [orderSetService_index number, if_neg (mt numberTaken_iff.mp free), if_neg]
  intro refused
  obtain ⟨used, renumbers⟩ := Bool.and_eq_true_iff.mp refused
  exact renumbers_iff.mp renumbers (kept used)

theorem serviceFields_some (v : Service) : flag true ++ serviceFields (some v) = [1, 1] ++ bytes16 v.number ++
    match v.product with
    | none => [0, 0, 0]
    | some p => 1 :: bytes16 p := by
  obtain ⟨number, product⟩ := v
  cases product <;> rfl

theorem serviceFields_productOf (n product : Half) : flag true ++ serviceFields (some ⟨n, productOf product⟩) =
    [1, 1] ++ bytes16 n ++ if product = 0 then [0, 0, 0] else 1 :: bytes16 product := by
  unfold productOf
  split <;> rfl

theorem serviceFields_length (v : Option Service) : (serviceFields v).length = 6 := by
  have number : (shown 2 bytes16 (v.map (·.number))).length = 3 := shown_length bytes16_length _
  have product : (shown 2 bytes16 (v.bind (·.product))).length = 3 := shown_length bytes16_length _
  rw [serviceFields, List.length_append, number, product]

/-- A SET_SERVICE that is taken, on a link at rest: the service changed announcement on the record written (R41, R103, R104). -/
theorem exec_setService (tag : Half) (rest : LinkAtRest s) (number : n ≠ 0)
    (free : ¬ ∃ j, j ≠ i ∧ ∃ v, s.service j = some v ∧ v.number = n)
    (kept : s.inUse i = true → ∃ v, s.service i = some v ∧ v.number = n) :
    ∃ t, exec (.setService tag (sourceByte i :: bytes16 n ++ bytes16 product)) s = .next t ∧
      (∀ d, (s.dest d).state ≠ .vacant → (s.dest d).service = some i → AccessFormed s t d i) ∧
      (∀ j, j ≠ i → t.guide.current.read j = s.guide.current.read j) ∧
      (∀ d, (s.dest d).service ≠ some i → t.dest d = s.dest d ∧ t.viewer d = s.viewer d ∧ t.lastAccess d = s.lastAccess d) ∧
      Settled { s.setService i (some ⟨n, productOf product⟩) with
        guide := { s.guide with current := t.guide.current }, freeCount := t.freeCount, script := t.script } t := by
  obtain ⟨r, same⟩ : ∃ r : OrderRecord, r = ⟨Order.setService.code, tag, sourceByte i :: bytes16 n ++ bytes16 product⟩ := ⟨_, rfl⟩
  have run : runOrder .setService (sourceByte i :: bytes16 n ++ bytes16 product) (s.during r) = _ :=
    orderSetService_done (s := s.during r) (product := product) number free kept
  have settled := serviceChanged_settled i ((s.during r).setService i (some ⟨n, productOf product⟩))
  have places : Places 60 (s.during r) _ :=
    .before (by rfl) (serviceChanged_places i ((s.during r).setService i (some ⟨n, productOf product⟩)))
  have formed (d : DestId) := serviceChanged_formed (i := i) (s := (s.during r).setService i (some ⟨n, productOf product⟩)) (d := d)
  have others (d : DestId) := serviceChanged_other (i := i) (s := (s.during r).setService i (some ⟨n, productOf product⟩)) (d := d)
  have current (j : Fin 64) := serviceChanged_current i ((s.during r).setService i (some ⟨n, productOf product⟩)) (j := j)
  generalize ((s.during r).setService i (some ⟨n, productOf product⟩)).serviceChanged i = u at *
  subst same
  obtain ⟨l, next, atRest⟩ := exec_order_settled .setService tag (u := u)
    (v := { s.setService i (some ⟨n, productOf product⟩) with
      guide := { s.guide with current := u.guide.current }, freeCount := u.freeCount, script := u.script })
    rest rfl run settled rfl places (by rw [List.length_append, serviceFields_length]; exact Nat.le_of_ble_eq_true rfl)
  refine ⟨_, next, fun d live shown => ?_, current, fun d other => others d other, atRest⟩
  obtain ⟨last, report⟩ := formed d live shown
  exact ⟨last, report⟩

end

/-! ## CLEAR_SERVICE (R42) -/

section
variable {s : State} {i : Fin 64}

theorem orderClearService_inUse (used : s.inUse i = true) : orderClearService [sourceByte i] s = .refuse s .inUse := by
  simp [orderClearService, used]

theorem orderClearService_free (unused : s.inUse i = false) :
    orderClearService [sourceByte i] s = .done ((s.setService i none).serviceChanged i) [] := by
  simp [orderClearService, unused]

theorem currentOf_empty (empty : s.service i = none) : s.currentOf i = none := by simp [State.currentOf, empty]

/-- A record cleared that is not in use: its current event goes, and nothing is announced (R42). -/
theorem setService_none_serviceChanged (unused : s.inUse i = false) : (s.setService i none).serviceChanged i =
    { s.setService i none with guide := { s.guide with current := s.guide.current.write i none } } := by
  have unshown : (s.setService i none).showsIndex i = false := by
    refine Bool.eq_false_iff.mpr fun shown => Bool.eq_false_iff.mp unused (inUse_iff.mpr (.inl ?_))
    exact showsIndex_iff.mp shown
  have empty : (s.setService i none).service i = none := by rw [setService_service, if_pos rfl]
  rw [serviceChanged_unshown unshown, currentOf_empty empty]
  rfl

end

/-! ## READ_SERVICE (R43) -/

theorem holders_eq_length (s : State) (i : Fin 64) :
    s.holders i = (s.ctl.dests.rows.filter fun x => x.state ≠ .vacant ∧ x.service = some i).length := by
  rw [State.holders, Table.count, List.countP_eq_length_filter]
  congr 1
  refine List.filter_congr fun x _ => ?_
  rw [Bool.eq_iff_iff]
  simp

theorem flag_inUse (s : State) (i : Fin 64) :
    flag (s.inUse i) = [if s.holders i ≠ 0 ∨ ∃ e ∈ s.ctl.changes, e.2 = i then 1 else 0] := by
  have used : s.inUse i = true ↔ s.holders i ≠ 0 ∨ ∃ e ∈ s.ctl.changes, e.2 = i := by
    simp only [State.inUse, Bool.or_eq_true, bne_iff_ne, List.any_eq_true, beq_iff_eq]
  rw [flag]
  simp only [used]

/-- The reply of READ_SERVICE. -/
def State.serviceReply (s : State) (i : Fin 64) : List Byte :=
  flag (s.service i).isSome ++ serviceFields (s.service i) ++ flag (s.inUse i) ++ bytes8 (s.holders i)

theorem exec_readService (tag : Half) (i : Fin 64) {s : State} (h : LinkAtRest s) :
    exec (.readService tag [sourceByte i]) s = .next (s.answered 0x1A tag .done (s.serviceReply i)) := by
  have run (u : State) : orderReadService [sourceByte i] u = .done u (u.serviceReply i) := by simp [orderReadService, State.serviceReply]
  refine exec_order_read .readService tag h rfl ?_ (run _)
  simp [State.serviceReply, serviceFields_length, flag, bytes8]

/-! ## The obligation -/

/-- Settles O22: SET_SERVICE by its tests in order and the announcement of the record written, CLEAR_SERVICE by the announcement of an index that no
destination shows. -/
theorem serviceOrders : Obligations.ServiceOrders := by
  refine ⟨fun s tag n product h => ⟨fun b range => ?_, fun i number refused => ?_, fun i number free kept => ⟨?_, ?_⟩, fun b range => ?_,
    fun i used => ?_, fun i unused => ?_⟩, fun s tag h => ⟨fun i => ⟨fun empty => ?_, fun v record => ?_⟩, fun b range => ?_⟩⟩
  · exact exec_order_refused .setService tag h rfl (orderSetService_range range)
  · exact exec_order_answered .setService tag h rfl (Nat.zero_le _)
      (orderSetService_inUse number (refused.imp_right (And.imp_left inUse_iff.mpr))) rfl
  · have run : runOrder .setService (sourceByte i :: bytes16 n ++ bytes16 product) s = _ :=
      orderSetService_done number free fun used => kept.resolve_left (not_not.mpr (inUse_iff.mp used))
    rw [Replies, run]
    exact ⟨rfl, serviceFields_productOf n product⟩
  · exact exec_setService tag h number free fun used => kept.resolve_left (not_not.mpr (inUse_iff.mp used))
  · exact exec_order_refused .clearService tag h rfl fun u => by simp [runOrder, orderClearService, range]
  · exact exec_order_answered .clearService tag h rfl (Nat.zero_le _) (orderClearService_inUse (inUse_iff.mpr used)) rfl
  · have free : s.inUse i = false := Bool.eq_false_iff.mpr (mt inUse_iff.mp unused)
    have run (u : State) (unused : u.inUse i = false) : runOrder .clearService [sourceByte i] u = .done
        { u.setService i none with guide := { u.guide with current := u.guide.current.write i none } } [] := by
      rw [← setService_none_serviceChanged unused]
      exact orderClearService_free unused
    exact exec_order_answered .clearService tag h rfl (Nat.zero_le _) (run _ free) rfl
  · rw [exec_readService tag i h, State.serviceReply, empty, flag_inUse, holders_eq_length]
    rfl
  · rw [exec_readService tag i h, State.serviceReply, record, Option.isSome_some, serviceFields_some, flag_inUse, holders_eq_length,
      List.append_assoc _ _ (bytes8 _)]
    rfl
  · exact exec_order_refused .readService tag h rfl fun u => by simp [runOrder, orderReadService, range]

end Sys2Proof.Machine
end

