-- ==== Sys2Proof/Proofs/ChangeSet.lean ====
section
/-! SUPPORT. The change set (R60, R62, R69), the checks of SELECT (R61), and the acquisition time with its timer's expiry (R71, R73). -/

namespace Sys2Proof.Machine

/-! ## The entry of a destination (R60, R62) -/

section
variable {d : DestId} {l before after : List (DestId × Fin 64)} {j : Fin 64}

theorem changePlace_none (absent : ∀ j, (d, j) ∉ l) : changePlace d l = none := by
  rw [changePlace, List.findIdx?_eq_none_iff]
  exact fun e mem => beq_eq_false_iff_ne.mpr fun same => absent e.2 (same ▸ mem)

/-- The entry of a destination stands behind those before it. -/
theorem changePlace_append (absent : ∀ j, (d, j) ∉ before) : changePlace d (before ++ (d, j) :: after) = some before.length := by
  have none : before.findIdx? (fun e => e.1 == d) = none := changePlace_none absent
  rw [changePlace, List.findIdx?_append, none]
  simp [List.findIdx?_cons]

/-- With one entry a destination, none but its own names it. -/
theorem absent_around (once : ((before ++ (d, j) :: after).map (·.1)).Nodup) : (∀ k, (d, k) ∉ before) ∧ ∀ k, (d, k) ∉ after := by
  rw [List.map_append, List.map_cons, List.nodup_middle, List.nodup_cons, List.mem_append, not_or] at once
  obtain ⟨⟨head, tail⟩, -⟩ := once
  exact ⟨fun k mem => head (List.mem_map_of_mem (a := (d, k)) mem), fun k mem => tail (List.mem_map_of_mem (a := (d, k)) mem)⟩

theorem replaceChange_absent (i : Fin 64) (absent : ∀ j, (d, j) ∉ l) : (l.map fun e => if e.1 = d then (d, i) else e) = l :=
  (List.map_congr_left fun e mem => if_neg fun same => absent e.2 (same ▸ mem)).trans (List.map_id' l)

theorem stageChange_new (i : Fin 64) (absent : ∀ j, (d, j) ∉ l) : stageChange d i l = l ++ [(d, i)] := by
  rw [stageChange, changePlace_none absent]
  rfl

/-- A staged selection takes the place of the destination's entry, and the other entries stay (R62). -/
theorem stageChange_replaces (i : Fin 64) (once : ((before ++ (d, j) :: after).map (·.1)).Nodup) :
    stageChange d i (before ++ (d, j) :: after) = before ++ (d, i) :: after := by
  obtain ⟨head, tail⟩ := absent_around once
  rw [stageChange, changePlace_append head, List.map_append, List.map_cons, replaceChange_absent i head, replaceChange_absent i tail]
  simp

end

/-- The change set holds one entry a destination, so twelve at most (R60). -/
theorem changes_length {s : State} (sound : SelectionsSound s) : s.ctl.changes.length ≤ 12 := by
  obtain ⟨-, -, -, once⟩ := sound
  simpa using once.length_le_card

/-! ## The checks of SELECT (R61) -/

section
variable {s : State} {d : DestId} {i : Fin 64}

theorem orderSelect_range {d i x : Byte} (h : 12 ≤ d.toNat ∨ 64 ≤ i.toNat ∨ 2 ≤ x.toNat) (s : State) :
    orderSelect [d, i, x] s = .refuse s .range := by
  unfold orderSelect
  split
  · next hd hi =>
    rcases h with h | h | h
    · simp [below_ge h] at hd
    · simp [below_ge h] at hi
    · exact if_pos h
  · rfl

theorem orderSelect_noEntry {x : Byte} (x1 : x.toNat ≤ 1) (empty : s.service i = none) :
    orderSelect [sourceByte d, sourceByte i, x] s = .refuse s .noEntry := by
  simp [orderSelect, empty, x1]

/-- A SELECT that passes the checks is staged (R62). -/
theorem orderSelect_staged (record : (s.service i).isSome = true) :
    orderSelect [sourceByte d, sourceByte i, 1] s = orderStage d i s := by
  simp [orderSelect, Option.isNone_eq_false_iff.mpr record]

/-- A SELECT that passes the checks is applied (R63). -/
theorem orderSelect_now (record : (s.service i).isSome = true) :
    orderSelect [sourceByte d, sourceByte i, 0] s = orderSelectNow d i s := by
  simp [orderSelect, Option.isNone_eq_false_iff.mpr record]

theorem orderStage_new (absent : ∀ j, (d, j) ∉ s.ctl.changes) : orderStage d i s =
    .done (s.setChanges (s.ctl.changes ++ [(d, i)]))
      [BitVec.ofNat 8 (s.ctl.changes.length + 1), BitVec.ofNat 8 (s.ctl.changes.length + 1), 0] := by
  have place := changePlace_append (j := i) (after := []) absent
  simp [orderStage, stageChange_new i absent, changePlace_none absent, place, bytes8, flag]

theorem orderStage_replaces {before after : List (DestId × Fin 64)} {j : Fin 64} (changes : s.ctl.changes = before ++ (d, j) :: after)
    (once : (s.ctl.changes.map (·.1)).Nodup) : orderStage d i s =
    .done (s.setChanges (before ++ (d, i) :: after)) [BitVec.ofNat 8 s.ctl.changes.length, BitVec.ofNat 8 (before.length + 1), 1] := by
  rw [changes] at once
  obtain ⟨head, -⟩ := absent_around once
  simp [orderStage, changes, stageChange_replaces i once, changePlace_append head, bytes8, flag]

theorem outcomeOf_noChange {x : Dest} (delivers : x.state.delivering = true) (shown : x.service = some i) : x.outcomeOf i = .noChange := by
  simp [Dest.outcomeOf, delivering_ne_vacant delivers, shown, delivers]

/-- A selection of the service that a destination delivers leaves it undisturbed (R63). -/
theorem orderSelectNow_noChange (delivers : (s.dest d).state.delivering = true) (shown : (s.dest d).service = some i) :
    orderSelectNow d i s = .done s [1, (s.dest d).state.byte, 0] := by
  have outcome := outcomeOf_noChange delivers shown
  have applied : s.applySelection d i = s := by rw [State.applySelection, outcome]
  have purges : s.selectionPurges d i = 0 := by rw [State.selectionPurges, outcome]
  simp only [orderSelectNow, outcome, applied, purges]
  rfl

end

/-- Settles O25: the checks in their order, and the two courses of a SELECT that passes them. -/
theorem selectChecks : Obligations.SelectChecks := by
  intro s tag rest sound
  refine ⟨fun d i x range => ?_, fun d i x unstaged empty => ?_, fun d i record => ⟨fun absent => ?_, fun before after j changes => ?_,
    fun delivers shown => ?_⟩⟩
  · exact exec_order_refused .select tag rest rfl (orderSelect_range range)
  · exact exec_order_answered .select tag rest rfl (Nat.zero_le _) (orderSelect_noEntry (s := s.during _) unstaged empty) rfl
  · exact exec_order_answered .select tag rest rfl (by simp)
      ((orderSelect_staged (s := s.during _) record).trans (orderStage_new absent)) rfl
  · exact exec_order_answered .select tag rest rfl (by simp)
      ((orderSelect_staged (s := s.during _) record).trans (orderStage_replaces changes sound.2.2.2)) rfl
  · exact exec_order_answered .select tag rest rfl (by simp)
      ((orderSelect_now (s := s.during _) record).trans (orderSelectNow_noChange delivers shown)) rfl

/-! ## DISCARD_CHANGES and READ_CHANGES (R69) -/

/-- The entries of the change set in a reply. -/
theorem flatMap_changes (l : List (DestId × Fin 64)) :
    (l.flatMap fun e => bytes8 e.1.val ++ bytes8 e.2.val) = (l.map fun e => [sourceByte e.1, sourceByte e.2]).flatten := by
  rw [List.flatMap_def]
  rfl

theorem changesReply_length (l : List (DestId × Fin 64)) :
    (BitVec.ofNat 8 l.length :: (l.map fun e => [(sourceByte e.1 : Byte), sourceByte e.2]).flatten).length = 2 * l.length + 1 := by
  induction l with
  | nil => rfl
  | cons e l ih => simp_all; omega

/-- With an empty change set a record is in use by the destinations that show it alone (R40, R69). -/
theorem inUse_unstaged (s : State) (i : Fin 64) :
    (s.setChanges []).inUse i = true ↔ ∃ d, (s.dest d).state ≠ .vacant ∧ (s.dest d).service = some i := by
  rw [inUse_iff]
  exact or_iff_left fun ⟨_, mem, _⟩ => by cases mem

/-- Settles O28. -/
theorem discardReadChanges : Obligations.DiscardReadChanges := by
  intro s tag rest sound
  have few := changes_length sound
  refine ⟨?_, few, inUse_unstaged s, ?_⟩
  · exact exec_order_answered .discardChanges tag rest rfl (by simp) (by rw [runOrder]; rfl) rfl
  · refine exec_order_read .readChanges tag rest rfl ?_ ?_
    · rw [changesReply_length]
      omega
    · rw [runOrder, orderReadChanges, flatMap_changes]
      rfl

/-! ## The acquisition time (R71, R73) -/

theorem orderSetAcquireTime_half (ms : Half) (s : State) : orderSetAcquireTime (bytes16 ms) s =
    .done { s with ctl := { s.ctl with acquireTime := max 100 (min 5000 ms.toNat) } } (num16 (max 100 (min 5000 ms.toNat))) := by
  have field : field16 (bytes16 ms) 0 = ms.toNat := field16_bytes16 ms []
  rw [orderSetAcquireTime, field]
  rfl

/-- Settles O30. -/
theorem acquisitionTime : Obligations.AcquisitionTime := by
  refine ⟨fun s tag ms rest => ?_, fun s d pin => ⟨fun acquiring due => ?_, fun early => ?_⟩⟩
  · exact exec_order_answered .setAcquireTime tag rest rfl (by simp) (orderSetAcquireTime_half ms (s.during _)) rfl
  · have expires : s.acquisitionExpires d = _ := if_pos ⟨acquiring, by rw [Timer.due, due]; rfl⟩
    exact (guarded_released pin).trans (congrArg _ expires)
  · have stays : s.acquisitionExpires d = s := if_neg fun ⟨acquiring, due⟩ => early.elim (· acquiring) (· (beq_iff_eq.mp due))
    exact (guarded_released pin).trans (congrArg _ stays)

end Sys2Proof.Machine
end

