-- ==== Sys2Proof/Proofs/Releases.lean ====
section
/-! SUPPORT. RELEASE (R70): the destination, its port, the two units' records of it and its attention sources; and an order on one destination at a
link at rest. -/

namespace Sys2Proof.Machine

/-! ## An order on one destination -/

/-- An order on a link at rest whose effect is on destination `d` alone, and places at most sixty attention records. -/
theorem exec_order_oneDest (o : Order) (tag : Half) {d : DestId} {b : List Byte} {s v u : State} {res : Result} {body : List Byte}
    (h : LinkAtRest s) (hb : b.length = o.bodyLength) (hr : runOrder o b (s.during ⟨o.code, tag, b⟩) = ⟨u, res, body⟩)
    (one : OthersKept d (v.during ⟨o.code, tag, b⟩) u) (hv : v.link = s.link) (hn : Places 60 (s.during ⟨o.code, tag, b⟩) u)
    (hl : body.length ≤ 178) :
    ∃ l, exec (orderCommand o tag b) s = .next { u with link := l } ∧ OthersKept d v { u with link := l } := by
  obtain ⟨l, next, settled⟩ := exec_order_settled o tag h hb hr one.toSettled hv hn hl
  exact ⟨l, next, settled, one.dests, one.viewers, one.lastAccess, one.ports, one.sources⟩

/-! ## Sources withdrawn -/

section
variable {s : State} {d : DestId}

/-- What is pending of a source's number once it is withdrawn for one cause. -/
theorem isPending_withdraw (e c : Cause) (x : Byte) (s : State) :
    (s.withdraw e x).attention.isPending c x = if c = e then false else s.attention.isPending c x := by
  split
  · next same => exact same ▸ isPending_withdraw_same c x s
  · next other => exact (withdraw_causeKept other x).isPending x

theorem withdrawStall_isPending (c : Cause) : (s.withdrawStall d).attention.isPending c (sourceByte d) =
    if c = .stall ∧ (s.dest d).state = .stalled then false else s.attention.isPending c (sourceByte d) := by
  by_cases stalled : (s.dest d).state = .stalled <;> simp [State.withdrawStall, stalled, isPending_withdraw]

theorem endHold_isPending (n : HoldCondition) (c : Cause) : (s.endHold d n).attention.isPending c (sourceByte d) =
    if c = .hold ∧ (s.viewer d).hold = .opened then false else s.attention.isPending c (sourceByte d) := by
  by_cases opened : (s.viewer d).hold = .opened <;> simp [State.endHold, opened, isPending_withdraw]

/-! ## The destination and its port (R64, R70) -/

theorem withdrawStall_dest (e : DestId) : (s.withdrawStall d).dest e = s.dest e := by
  unfold State.withdrawStall
  split <;> rfl

/-- A purge counts the cells that it removes (R158). -/
theorem purgeDest_full_dest : (s.purgeDest d true).dest d = { s.dest d with tallies := { (s.dest d).tallies with
    purged := (s.dest d).tallies.purged + BitVec.ofNat 32 ((s.port (s.dest d).port).queue.countP fun c => c.isFor d) } } := by
  have all : (fun c : Cell => c.isFor d && (true || !c.isNotice)) = fun c => c.isFor d := funext fun c => by simp
  rw [State.purgeDest, setDest_dest_same, all]
  rfl

theorem fullPurge_dest : (s.fullPurge d).dest d = { s.dest d with
    tallies := if (s.dest d).state = .vacant then (s.dest d).tallies else { (s.dest d).tallies with
      purged := (s.dest d).tallies.purged + BitVec.ofNat 32 ((s.port (s.dest d).port).queue.countP fun c => c.isFor d) } } := by
  unfold State.fullPurge
  split
  · rfl
  · exact purgeDest_full_dest

/-- Behind a purge the cells of the other destinations stand in their places, and the port is otherwise as it was, but for the drain watch of an
emptied queue (R158). -/
theorem purgeDest_full_port : (s.purgeDest d true).port (s.dest d).port =
    let p := s.port (s.dest d).port
    let rest := p.queue.filter fun c => !c.isFor d
    { p with queue := rest, watch := if rest = [] then none else p.watch } := by
  have all : (fun c : Cell => c.isFor d && (true || !c.isNotice)) = fun c => c.isFor d := funext fun c => by simp
  rw [purgeDest_port, if_pos rfl, all, Port.purge]
  simp only [List.isEmpty_iff]

theorem fullPurge_port : (s.fullPurge d).port (s.dest d).port =
    let p := s.port (s.dest d).port
    let rest := p.queue.filter fun c => !c.isFor d
    if (s.dest d).state = .vacant then p else { p with queue := rest, watch := if rest = [] then none else p.watch } := by
  unfold State.fullPurge
  dsimp only
  split
  · rfl
  · exact purgeDest_full_port

/-! ## The release (R70) -/

theorem releaseDest_row : (s.releaseDest d).dest d =
    { ((s.fullPurge d).dest d).forget with service := none, state := .vacant } := by
  rw [releaseDest_eq, released_dest_same]
  unfold State.releasing
  dsimp only
  rw [parentalRelease_dest, setLastAccess_dest, setDest_dest_same, withdrawStall_dest]

theorem parentalRelease_viewer : (s.parentalRelease d).viewer d =
    { formed := none, unlock := none, hold := .none, serial := (s.viewer d).serial, timer := none, barred := false, last := none } := by
  rw [State.parentalRelease, setViewer_viewer_same, endHold_viewer]

/-- The parental unit has no part in the purge (R70). -/
theorem cleared_viewer : ((s.fullPurge d).withdrawStall d).viewer d = s.viewer d :=
  congrArg (fun u : ParentalUnit => u.viewers.read d) ((fullPurge_frame d s).trans (withdrawStall_frame d _)).parental

theorem fullPurge_attention : (s.fullPurge d).attention = s.attention := by
  unfold State.fullPurge
  split <;> rfl

theorem releaseDest_unqueued (live : (s.dest d).state ≠ .vacant) :
    ∀ c ∈ ((s.releaseDest d).port (s.dest d).port).queue, c.isFor d = false := by
  intro c mem
  rw [releaseDest_port, State.fullPurge, if_neg live] at mem
  exact purgeDest_unqueued mem

/-- The controller and the port before the two units are told of the release (R70). -/
theorem releasing_eq : s.releasing d = ((((s.fullPurge d).withdrawStall d).setDest d
    { (((s.fullPurge d).withdrawStall d).dest d).forget with service := none }).setLastAccess d none).parentalRelease d := rfl

theorem released_viewer : (s.released d).viewer d = s.viewer d := rfl

theorem released_attention : (s.released d).attention = s.attention := rfl

theorem released_link : (s.released d).link = s.link := rfl

theorem releaseDest_viewer : (s.releaseDest d).viewer d =
    { formed := none, unlock := none, hold := .none, serial := (s.viewer d).serial, timer := none, barred := false, last := none } := by
  rw [releaseDest_eq, released_viewer, releasing_eq, parentalRelease_viewer, setLastAccess_viewer, setDest_viewer, cleared_viewer]

/-- A release withdraws the HOLD source of an open hold and the STALL source of a STALLED destination, and no other (R70). -/
theorem releaseDest_isPending (c : Cause) : (s.releaseDest d).attention.isPending c (sourceByte d) =
    if (c = .hold ∧ (s.viewer d).hold = .opened) ∨ (c = .stall ∧ (s.dest d).state = .stalled) then false
    else s.attention.isPending c (sourceByte d) := by
  have told (u : State) : (u.parentalRelease d).attention = (u.endHold d .none).attention := rfl
  have state : ((s.fullPurge d).dest d).state = (s.dest d).state := by rw [fullPurge_dest]
  rw [releaseDest_eq, released_attention, releasing_eq, told, endHold_isPending, setLastAccess_viewer, setDest_viewer, cleared_viewer,
    setLastAccess_attention, setDest_attention, withdrawStall_isPending, fullPurge_attention, state]
  simp only [ite_or]

theorem releaseDest_places (d : DestId) (s : State) : Places 2 s (s.releaseDest d) := by
  have purged : Places 0 s (s.fullPurge d) := .ite (.refl s) (.ofLink rfl)
  have stall (u : State) : Places 1 u (u.withdrawStall d) := .ite (withdraw_places u _ _) (.refl u)
  have told (u : State) : Places 1 u (u.parentalRelease d) := (endHold_places d u .none).behind rfl
  rw [releaseDest_eq, releasing_eq]
  exact ((purged.trans (stall _)).trans (.before (by rfl) (told _))).behind released_link

theorem orderRelease_byte (d : DestId) (s : State) :
    orderRelease [sourceByte d] s = .done (s.releaseDest d) [(s.dest d).state.byte, if (s.dest d).state = .vacant then 0
      else BitVec.ofNat 8 ((s.port (s.dest d).port).queue.countP fun c => c.isFor d)] := by
  have purged : bytes8 (s.purgedBy d) = [if (s.dest d).state = .vacant then 0
      else BitVec.ofNat 8 ((s.port (s.dest d).port).queue.countP fun c => c.isFor d)] := by
    unfold State.purgedBy
    split <;> rfl
  simp [orderRelease, purged]

end

theorem filter_dest_ne (d : DestId) (l : List (DestId × Fin 64)) : (l.filter fun e => e.1 ≠ d) = l.filter fun e => e.1 != d :=
  List.filter_congr fun e _ => by rw [Bool.eq_iff_iff]; simp

/-- Settles O29: a release, part by part. -/
theorem releaseToVacant : Obligations.ReleaseToVacant := by
  intro s tag rest
  refine ⟨fun d => ?_, fun b range => ?_⟩
  · obtain ⟨r, same⟩ : ∃ r : OrderRecord, r = ⟨Order.release.code, tag, [sourceByte d]⟩ := ⟨_, rfl⟩
    have run : runOrder .release [sourceByte d] (s.during r) = _ := orderRelease_byte d (s.during r)
    have row := releaseDest_row (s := s.during r) (d := d)
    rw [fullPurge_dest] at row
    have port := (releaseDest_port d (s.during r) (s.dest d).port).trans fullPurge_port
    have unqueued (live : (s.dest d).state ≠ .vacant) := releaseDest_unqueued (s := s.during r) live
    have pending := releaseDest_isPending (s := s.during r) (d := d)
    have viewer := releaseDest_viewer (s := s.during r) (d := d)
    obtain ⟨-, -, -, last⟩ := releaseDest_dest d (s.during r)
    have one := (releaseDest_oneDest d (s.during r)).toOthersKept
    have places := (releaseDest_places d (s.during r)).mono (b := 60) (by decide)
    have replies : Replies .release [sourceByte d] s [(s.dest d).state.byte, if (s.dest d).state = .vacant then 0
        else BitVec.ofNat 8 ((s.port (s.dest d).port).queue.countP fun c => c.isFor d)] := by
      rw [Replies, runOrder, orderRelease_byte]
      exact ⟨rfl, rfl⟩
    generalize (s.during r).releaseDest d = u at *
    subst same
    obtain ⟨l, next, others⟩ := exec_order_oneDest .release tag (u := u)
      (v := s.setChanges (s.ctl.changes.filter fun e => e.1 != d)) rest rfl run one rfl places (by simp)
    exact ⟨_, next, row, unqueued, port, pending, replies, last, viewer, filter_dest_ne d _ ▸ others⟩
  · exact exec_order_refused .release tag rest rfl fun u => by simp [runOrder, orderRelease, range]

end Sys2Proof.Machine
end

