-- ==== Sys2Proof/Proofs/TakenChanges.lean ====
section
/-! SUPPORT. TAKE (R68): what the application of a selection does of its destination, how many attention records it places, and the entries of the
change set applied one after another. -/

namespace Sys2Proof.Machine

/-! ## The application of a selection (R63) -/

theorem outcomeOf_change {x : Dest} {i : Fin 64} (h : x.state = .vacant ∨ x.service ≠ some i) : x.outcomeOf i = .change := if_pos h

theorem outcomeOf_retry {x : Dest} {i : Fin 64} (live : x.state ≠ .vacant) (idle : x.state.delivering = false) (shown : x.service = some i) :
    x.outcomeOf i = .retry := by
  simp [Dest.outcomeOf, live, idle, shown]

section
variable (d : DestId) (i : Fin 64) (s : State)

/-- The three courses that a selection can take (4.3). -/
theorem applySelection_cases :
    (((s.dest d).state = .vacant ∨ (s.dest d).service ≠ some i) ∧ s.applySelection d i = s.applyChange d i) ∨
    ((s.dest d).state.delivering = true ∧ (s.dest d).service = some i ∧ s.applySelection d i = s) ∨
    ((s.dest d).state ≠ .vacant ∧ (s.dest d).state.delivering = false ∧ (s.dest d).service = some i ∧
      s.applySelection d i = s.applyRetry d i) := by
  unfold State.applySelection
  by_cases change : (s.dest d).state = .vacant ∨ (s.dest d).service ≠ some i
  · exact .inl ⟨change, by rw [outcomeOf_change change]⟩
  · obtain ⟨live, shown⟩ := not_or.mp change
    have shown := not_not.mp shown
    by_cases delivers : (s.dest d).state.delivering = true
    · exact .inr (.inl ⟨delivers, shown, by rw [outcomeOf_noChange delivers shown]⟩)
    · have idle := Bool.eq_false_of_not_eq_true delivers
      exact .inr (.inr ⟨live, idle, shown, by rw [outcomeOf_retry live idle shown]⟩)

theorem applySelection_oneDest : OneDest d s (s.applySelection d i) := by
  rcases applySelection_cases d i s with ⟨-, applied⟩ | ⟨-, -, applied⟩ | ⟨-, -, -, applied⟩ <;> rw [applied]
  · exact applyChange_oneDest d s i
  · exact .refl d s
  · exact applyRetry_oneDest d s i

theorem applyChange_shows : ((s.applyChange d i).dest d).service = some i ∧ ((s.applyChange d i).dest d).state ≠ .vacant := by
  rw [applyChange_eq]
  refine ⟨?_, evaluateAfresh_live d _⟩
  rw [(evaluateAfresh_alone d _).told.service, ((toldOfChange_accessKept d s i).dests d).service]
  exact (selected_dest d s i).1

/-- The destination before the evaluation that ends a retry: its fresh reports stored (R67). -/
def State.toldOfRetry (d : DestId) (i : Fin 64) (s : State) : State :=
  let s1 := s.dropRetryReasons d
  let v := s1.accessVerdict i
  ((s1.accessAtSelection d v).settleBar d (s1.dest d).access v).tellRetry d

theorem applyRetry_eq : s.applyRetry d i = (s.toldOfRetry d i).evaluate d := rfl

/-- A retry changes of the destination, before it is evaluated, its reports and reasons alone. -/
theorem toldOfRetry_shaped : (s.dest d).Shaped ((s.toldOfRetry d i).dest d) := by
  refine Dest.Shaped.trans (y := ((s.dropRetryReasons d).accessAtSelection d ((s.dropRetryReasons d).accessVerdict i)).dest d) ?_
    (((settleBar_accessKept d _ _ _).trans (tellRetry_accessKept d _)).dests d)
  rw [State.accessAtSelection, State.storeAccess, setDest_dest_same, setLastAccess_dest, State.dropRetryReasons, setDest_dest_same]
  exact ⟨rfl, rfl, rfl, .rfl, rfl⟩

theorem applyRetry_shows (live : (s.dest d).state ≠ .vacant) (shown : (s.dest d).service = some i) :
    ((s.applyRetry d i).dest d).service = some i ∧ ((s.applyRetry d i).dest d).state ≠ .vacant := by
  have shaped := toldOfRetry_shaped d i s
  rw [applyRetry_eq]
  exact ⟨(evaluate_alone d _).told.service.trans (shaped.service.trans shown), (not_congr ((evaluate_vacant d _ d).trans shaped.vacant)).mpr live⟩

/-- A destination to which a selection has been applied shows its service (R63). -/
theorem applySelection_shows :
    ((s.applySelection d i).dest d).service = some i ∧ ((s.applySelection d i).dest d).state ≠ .vacant := by
  rcases applySelection_cases d i s with ⟨-, applied⟩ | ⟨delivers, shown, applied⟩ | ⟨live, -, shown, applied⟩ <;> rw [applied]
  · exact applyChange_shows d i s
  · exact ⟨shown, delivering_ne_vacant delivers⟩
  · exact applyRetry_shows d i s live shown

/-! ## Attention records -/

theorem placeBar_places : Places 1 s (s.placeBar d) := ((endHold_places d s _).behind (by rfl)).trans (reportStored_places d _ (n := 0))

theorem liftBar_places : Places 1 s (s.liftBar d) :=
  (Places.before (by rfl) (holdRule_places d _)).trans (reportStored_places d _ (n := 0))

theorem barAtChange_places (v : AccessVerdict) : Places 1 s (s.barAtChange d v) :=
  .ite (.refl s) (.ite (placeBar_places d s) (.ite (liftBar_places d s) (.refl s)))

theorem parentalChange_places : Places 2 s (s.parentalChange d) :=
  (((endHold_places d s _).behind (by rfl)).trans (formVerdict_places d _)).trans (reportStored_places d _ (n := 0))

theorem parentalRetry_places : Places 1 s (s.parentalRetry d) := by
  have cleared : Places 0 s (s.clearMemory d) := .ite (.ofLink rfl) (.refl s)
  exact (cleared.trans (formVerdict_places d _)).trans (reportStored_places d _ (n := 0))

theorem tellChange_places : Places 2 s (s.tellChange d) := by
  unfold State.tellChange
  split
  · exact parentalChange_places d s
  · exact .ofLink rfl

theorem tellRetry_places : Places 1 s (s.tellRetry d) := by
  unfold State.tellRetry
  split
  · exact parentalRetry_places d s
  · exact .refl s

theorem selected_places : Places 1 s (s.selected d i) := by
  have stall (u : State) : Places 1 u (u.withdrawStall d) := .ite (withdraw_places u _ _) (.refl u)
  exact (Places.before (by rfl) (stall (s.purgeDest d true))).behind (by rfl)

theorem evaluateAfresh_places : Places 1 s (s.evaluateAfresh d) := .before (by rfl) (moveTo_places d _ _)

theorem toldOfChange_eq : s.toldOfChange d i =
    ((s.selected d i).barAtChange d (((s.clearAway d i).markSelected d).accessVerdict i)).tellChange d := rfl

/-- A change signals the STALL it withdraws, a hold at the bar, one closed and one opened, and the evaluation (R64 to R66). -/
theorem applyChange_places : Places 5 s (s.applyChange d i) := by
  have told : Places 4 s (s.toldOfChange d i) := by
    rw [toldOfChange_eq]
    exact ((selected_places d i s).trans (barAtChange_places d _ _)).trans (tellChange_places d _)
  rw [applyChange_eq]
  exact told.trans (evaluateAfresh_places d _)

theorem applyRetry_places : Places 3 s (s.applyRetry d i) :=
  ((Places.before (by rfl) (settleBar_places d _ _ _)).trans (tellRetry_places d _)).trans (evaluate_places d _)

theorem applySelection_places : Places 5 s (s.applySelection d i) := by
  rcases applySelection_cases d i s with ⟨-, applied⟩ | ⟨-, -, applied⟩ | ⟨-, -, -, applied⟩ <;> rw [applied]
  · exact applyChange_places d i s
  · exact .refl s
  · exact (applyRetry_places d i s).mono (by decide)

end

/-! ## The entries applied one after another (R68) -/

section
variable {l : List (DestId × Fin 64)} {s : State}

theorem applyAll_cons (e : DestId × Fin 64) : s.applyAll (e :: l) = (s.applySelection e.1 e.2).applyAll l := rfl

/-- A destination that the list does not name is as it was (R68). -/
theorem applyAll_unnamed {d : DestId} (absent : ∀ i, (d, i) ∉ l) : DestKept s (s.applyAll l) d := by
  induction l generalizing s with
  | nil => exact .refl s d
  | cons e l ih =>
    have other : d ≠ e.1 := fun same => absent e.2 (same ▸ List.mem_cons_self)
    have one := applySelection_oneDest e.1 e.2 s
    have first : DestKept s (s.applySelection e.1 e.2) d := ⟨one.dests d other, one.viewers d other, one.lastAccess d other⟩
    exact first.trans (ih fun i mem => absent i (List.mem_cons_of_mem e mem))

/-- A destination that the list names ends on the service of its entry (R68). -/
theorem applyAll_named {d : DestId} {i : Fin 64} (once : (l.map (·.1)).Nodup) (named : (d, i) ∈ l) :
    ((s.applyAll l).dest d).service = some i ∧ ((s.applyAll l).dest d).state ≠ .vacant := by
  induction l generalizing s with
  | nil => cases named
  | cons e l ih =>
    obtain ⟨head, tail⟩ := List.nodup_cons.mp once
    rcases List.mem_cons.mp named with rfl | later
    · have kept : DestKept _ _ d := applyAll_unnamed (s := s.applySelection d i) fun j mem => head (List.mem_map_of_mem (a := (d, j)) mem)
      rw [applyAll_cons, kept.1]
      exact applySelection_shows d i s
    · exact ih tail later

/-- A port to which no destination of the list is bound is as it was. -/
theorem applyAll_port {p : PortId} (unbound : ∀ e ∈ l, (s.dest e.1).port ≠ p) : (s.applyAll l).port p = s.port p := by
  induction l generalizing s with
  | nil => rfl
  | cons e l ih =>
    have one := applySelection_oneDest e.1 e.2 s
    have bound (c : DestId) : ((s.applySelection e.1 e.2).dest c).port = (s.dest c).port := by
      by_cases same : c = e.1
      · exact same ▸ one.port
      · rw [one.dests c same]
    rw [applyAll_cons, ih fun c mem => by rw [bound]; exact unbound c (List.mem_cons_of_mem e mem)]
    exact one.ports p (unbound e List.mem_cons_self).symm

theorem applyAll_places (l : List (DestId × Fin 64)) (s : State) : Places (l.length * 5) s (s.applyAll l) :=
  .foldl (fun s (e : DestId × Fin 64) => applySelection_places e.1 e.2 s) l s

end

theorem orderTake_eq (b : List Byte) (s : State) :
    orderTake b s = .done ((s.applyAll s.ctl.changes).setChanges []) [BitVec.ofNat 8 s.ctl.changes.length] := rfl

/-- Settles O27, by induction on the change set, whose entries each apply to a destination of their own. -/
theorem takeApplies : Obligations.TakeApplies := by
  intro s tag rest sound
  have few := changes_length sound
  obtain ⟨-, -, -, once⟩ := sound
  refine ⟨by rw [Replies, runOrder, orderTake_eq]; exact ⟨rfl, rfl⟩, ?_⟩
  obtain ⟨r, same⟩ : ∃ r : OrderRecord, r = ⟨Order.take.code, tag, []⟩ := ⟨_, rfl⟩
  have run : runOrder .take [] (s.during r) = _ := orderTake_eq [] (s.during r)
  have named (d : DestId) (i : Fin 64) (mem : (d, i) ∈ s.ctl.changes) := applyAll_named (s := s.during r) once mem
  have unnamed (d : DestId) (absent : ∀ i, (d, i) ∉ s.ctl.changes) : DestKept (s.during r) _ d := applyAll_unnamed absent
  have ports (p : PortId) (unbound : ∀ e ∈ s.ctl.changes, (s.dest e.1).port ≠ p) := applyAll_port (s := s.during r) unbound
  have settled := (applyAll_frame s.ctl.changes (s.during r)).setChanges []
  have places := ((applyAll_places s.ctl.changes (s.during r)).behind (u := ((s.during r).applyAll s.ctl.changes).setChanges []) rfl).mono
    (b := 60) (by omega)
  rw [during_ctl] at run
  generalize (s.during r).applyAll s.ctl.changes = u at *
  subst same
  obtain ⟨l, next, atRest⟩ := exec_order_settled .take tag (v := s.setChanges []) rest rfl run settled rfl places (by simp)
  exact ⟨_, next, named, unnamed, ports, atRest⟩

end Sys2Proof.Machine
end

