-- ==== Sys2Proof/Proofs/UnitTold.lean ====
section
/-! SUPPORT. What the parental unit does when the controller tells it of a bar, a service change or a retry (R50, R65, R67): the record that it leaves of
the destination (R136, R137, R140), and all that stays. -/

namespace Sys2Proof.Machine

/-! ## The record that a verdict formed and reported leaves -/

section
variable (p : Profile) (f : Formed) (v : Viewer)

theorem ruled_unlock : (Viewer.ruled p f v).unlock = v.unlock := by
  unfold Viewer.ruled
  split
  · split <;> rfl
  · rfl

/-- The hold rule does not look at the report last handed. -/
theorem ruled_withLast (l : Option ParentalReport) : Viewer.ruled p f { v with last := l } = { Viewer.ruled p f v with last := l } := by
  unfold Viewer.ruled
  split
  · split <;> rfl
  · rfl

/-- Where no hold and no memory stands, the rule opens a hold under ASK alone, and behind no bar (R140). -/
theorem ruled_hold (idle : v.hold = .none) : (Viewer.ruled p f v).hold =
    if f.verdict = .restricted ∧ p.policy = .ask ∧ v.barred = false then .opened else .none := by
  unfold Viewer.ruled
  by_cases asks : f.verdict = .restricted ∧ p.policy = .ask
  · cases v.barred <;> simp [asks, idle]
  · rw [if_neg asks, if_neg fun ⟨restricted, ask, _⟩ => asks ⟨restricted, ask⟩]

/-- The rule leaves no memory where it finds none (R140). -/
theorem ruled_unremembered (h : v.hold = .none ∨ v.hold = .opened) :
    (Viewer.ruled p f v).hold = .none ∨ (Viewer.ruled p f v).hold = .opened := by
  unfold Viewer.ruled
  split
  · split
    · exact .inr rfl
    · exact h
  · exact .inl rfl

theorem lifted_barred : (v.lifted p).barred = false := by
  unfold Viewer.lifted
  split
  · rfl
  · exact ruled_barred _ _ _

theorem lifted_unlock : (v.lifted p).unlock = v.unlock := by
  unfold Viewer.lifted
  split
  · rfl
  · exact ruled_unlock _ _ _

theorem forgetful_unremembered : v.forgetful.hold = .none ∨ v.forgetful.hold = .opened := by
  unfold Viewer.forgetful
  cases v.hold <;> simp

end

/-- The record `v` of a destination on index `i` once its verdict is formed, the hold rule applied and the report handed (R136, R137, R140). -/
def State.reformed (p : Profile) (i : Fin 64) (v : Viewer) (s : State) : Viewer :=
  let f := s.formedFor p i v.unlock
  let w := Viewer.ruled p f { v with formed := some f }
  { w with last := some ⟨f.verdict, f.uncovered, w.hold, w.serial⟩ }

section
variable {s t : State} {p : Profile} {i : Fin 64} {v : Viewer}

theorem reformed_unlock : (s.reformed p i v).unlock = v.unlock := ruled_unlock _ _ _

theorem reformed_hold : (s.reformed p i v).hold =
    (Viewer.ruled p (s.formedFor p i v.unlock) { v with formed := some (s.formedFor p i v.unlock) }).hold := rfl

theorem reformed_withLast (l : Option ParentalReport) : s.reformed p i { v with last := l } = s.reformed p i v := by
  have ruled := ruled_withLast p (s.formedFor p i v.unlock) { v with formed := some (s.formedFor p i v.unlock) } l
  unfold State.reformed
  dsimp only at ruled ⊢
  rw [ruled]

theorem formedFor_settled (h : Settled s t) (p : Profile) (i : Fin 64) (u : Option Unlock) : t.formedFor p i u = s.formedFor p i u :=
  formedFor_congr h.services (by rw [h.guide]) (by rw [h.guide]) h.time p u

theorem reformed_settled (h : Settled s t) : t.reformed p i v = s.reformed p i v := by
  simp only [State.reformed, formedFor_settled h]

/-- Forming and reporting leave of a destination what `State.reformed` says, wherever the part has come to by then (R136, R137, R140). -/
theorem parentalFormed_of {d : DestId} (settled : Settled s t)
    (viewer : t.viewer d = s.reformed (s.profile (s.dest d).profile) i v)
    (report : (t.dest d).parental = (t.viewer d).last) : ParentalFormed s t d i v := by
  have profile := profile_congr settled.profiles (s.dest d).profile
  have same : t.viewer d = t.reformed (t.profile (s.dest d).profile) i v := by rw [viewer, reformed_settled settled, profile]
  exact ⟨same, fun _ => by rw [report, same]; rfl⟩

end

/-! ## What the unit leaves -/

/-- HOLD is pending for `d` only while its hold is open (R140, R173). -/
def HoldQuiet (d : DestId) (s : State) : Prop :=
  (s.viewer d).hold ≠ .opened → s.attention.isPending .hold (sourceByte d) = false

/-- An effect of the parental unit on destination `d`: the ports stay, the controller takes a parental report at most, and HOLD alone is signalled, and
is not left behind. -/
structure UnitTells (d : DestId) (s t : State) : Prop where
  ports : t.ports = s.ports
  row : ∃ r, t.dest d = { s.dest d with parental := r }
  causes : ∀ c, c ≠ .hold → CauseKept c s t
  quiet : HoldQuiet d s → HoldQuiet d t

namespace UnitTells

variable {d : DestId} {s t u : State}

theorem refl (d : DestId) (s : State) : UnitTells d s s := ⟨rfl, ⟨_, rfl⟩, fun _ _ => rfl, id⟩

theorem trans (a : UnitTells d s t) (b : UnitTells d t u) : UnitTells d s u := by
  obtain ⟨q, first⟩ := a.row
  obtain ⟨r, second⟩ := b.row
  exact ⟨b.ports.trans a.ports, ⟨r, by rw [second, first]⟩, fun c h => (a.causes c h).trans (b.causes c h), b.quiet ∘ a.quiet⟩

theorem ite {c : Prop} [Decidable c] (a : UnitTells d s t) (b : UnitTells d s u) : UnitTells d s (if c then t else u) := by
  split
  · exact a
  · exact b

end UnitTells

section
variable (d : DestId) (s : State)

theorem setViewer_tells {v : Viewer} (hold : (s.viewer d).hold = .opened → v.hold = .opened) : UnitTells d s (s.setViewer d v) where
  ports := rfl
  row := ⟨_, rfl⟩
  causes _ _ := rfl
  quiet quiet closed := quiet fun opened => closed (by rw [setViewer_viewer_same, hold opened])

theorem endHold_tells (n : HoldCondition) : UnitTells d s (s.endHold d n) where
  ports := by
    unfold State.endHold
    dsimp only
    split <;> rfl
  row := ⟨_, endHold_dest d n s d⟩
  causes _ h := endHold_causeKept h n
  quiet quiet _ := by
    rw [endHold_isPending]
    by_cases opened : (s.viewer d).hold = .opened
    · simp [opened]
    · simpa [opened] using quiet opened

theorem openHold_tells : UnitTells d s (s.openHold d) where
  ports := rfl
  row := ⟨_, rfl⟩
  causes _ h := raise_causeKept (s := s.setViewer d _) h _ _
  quiet _ closed := absurd (by rw [openHold_viewer]) closed

/-- The hold rule lets the record be, ends what stands, or opens a hold (R140). -/
theorem holdRule_cases :
    s.holdRule d = s ∨ s.holdRule d = s.endHold d .none ∨ s.holdRule d = s.openHold d := by
  unfold State.holdRule
  dsimp only
  split
  · exact .inl rfl
  · split
    · split
      · exact .inr (.inl rfl)
      · split
        · exact .inr (.inr rfl)
        · exact .inl rfl
    · exact .inr (.inl rfl)

theorem holdRule_tells : UnitTells d s (s.holdRule d) := by
  rcases holdRule_cases d s with same | ended | opened
  · rw [same]
    exact .refl d s
  · rw [ended]
    exact endHold_tells d s _
  · rw [opened]
    exact openHold_tells d s

theorem formVerdict_tells : UnitTells d s (s.formVerdict d) := by
  unfold State.formVerdict
  dsimp only
  split
  · exact .refl d s
  · exact (setViewer_tells d s (by exact id)).trans (holdRule_tells d _)

theorem clearMemory_tells : UnitTells d s (s.clearMemory d) := by
  unfold State.clearMemory
  dsimp only
  split
  · next memory => exact setViewer_tells d s fun opened => by simp [opened] at memory
  · exact .refl d s

theorem reportStored_tells : UnitTells d s (s.reportStored d) := by
  cases report : (s.viewer d).report with
  | none =>
    rw [reportStored_none report]
    exact .refl d s
  | some r =>
    have stored : UnitTells d s (s.setViewer d { s.viewer d with last := some r }) := setViewer_tells d s id
    have taken (u : State) : UnitTells d u (u.setDest d { u.dest d with parental := some r }) :=
      ⟨rfl, ⟨some r, setDest_dest_same _ _ _⟩, fun _ _ => rfl, id⟩
    rw [reportStored_some report]
    exact .ite (stored.trans (taken _)) stored

theorem placeBar_tells : UnitTells d s (s.placeBar d) :=
  ((endHold_tells d s _).trans (setViewer_tells d _ (by exact id))).trans (reportStored_tells d _)

theorem liftBar_tells : UnitTells d s (s.liftBar d) :=
  ((setViewer_tells d s (by exact id)).trans (holdRule_tells d _)).trans (reportStored_tells d _)

theorem settleBar_tells (o : Option AccessVerdict) (v : AccessVerdict) : UnitTells d s (s.settleBar d o v) :=
  .ite (.refl d s) (.ite (placeBar_tells d s) (.ite (liftBar_tells d s) (.refl d s)))

theorem barAtChange_tells (v : AccessVerdict) : UnitTells d s (s.barAtChange d v) :=
  .ite (.refl d s) (.ite (placeBar_tells d s) (.ite (liftBar_tells d s) (.refl d s)))

theorem withoutEventUnlock_hold (v : Viewer) : v.withoutEventUnlock.hold = v.hold := by
  unfold Viewer.withoutEventUnlock
  split <;> rfl

theorem parentalChange_tells : UnitTells d s (s.parentalChange d) :=
  (((endHold_tells d s _).trans (setViewer_tells d _ fun opened => by rw [withoutEventUnlock_hold, opened])).trans
    (formVerdict_tells d _)).trans (reportStored_tells d _)

theorem parentalRetry_tells : UnitTells d s (s.parentalRetry d) :=
  ((clearMemory_tells d s).trans (formVerdict_tells d _)).trans (reportStored_tells d _)

theorem tellChange_tells : UnitTells d s (s.tellChange d) := by
  unfold State.tellChange
  split
  · exact parentalChange_tells d s
  · exact setViewer_tells d s fun opened => by rw [withoutEventUnlock_hold, opened]

theorem tellRetry_tells : UnitTells d s (s.tellRetry d) := by
  unfold State.tellRetry
  split
  · exact parentalRetry_tells d s
  · exact .refl d s

end

/-! ## The record of the destination -/

section
variable {d : DestId} {i : Fin 64} {s : State}

/-- A verdict formed has its report, which makes up the record with it (R136, R137, R140). -/
theorem formVerdict_report (shown : (s.dest d).service = some i) : ∃ r, ((s.formVerdict d).viewer d).report = some r ∧
    { (s.formVerdict d).viewer d with last := some r } = s.reformed (s.profile (s.dest d).profile) i (s.viewer d) := by
  have formed := formVerdict_viewer d s i shown
  dsimp only at formed
  rw [formed, Viewer.report, ruled_formed]
  exact ⟨_, rfl, rfl⟩

theorem formStored_viewer (shown : (s.dest d).service = some i) :
    ((s.formVerdict d).reportStored d).viewer d = s.reformed (s.profile (s.dest d).profile) i (s.viewer d) := by
  obtain ⟨r, report, reformed⟩ := formVerdict_report shown
  rw [reportStored_some report, ← reformed]
  split
  · rw [setDest_viewer, setViewer_viewer_same]
  · rw [setViewer_viewer_same]

/-- The controller takes the report of a VIEW destination that is not VACANT (R51). -/
theorem formStored_parental (shown : (s.dest d).service = some i) (viewing : (s.dest d).isViewing = true) :
    (((s.formVerdict d).reportStored d).dest d).parental = (((s.formVerdict d).reportStored d).viewer d).last := by
  obtain ⟨r, report, -⟩ := formVerdict_report shown
  rw [reportStored_some report, if_pos (by rwa [formVerdict_dest]), setDest_dest_same, setDest_viewer, setViewer_viewer_same]

theorem liftBar_viewer : ∃ l, (s.liftBar d).viewer d = { (s.viewer d).lifted (s.profile (s.dest d).profile) with last := l } := by
  have lifted : (((s.setViewer d { s.viewer d with barred := false }).holdRule d).viewer d) =
      (s.viewer d).lifted (s.profile (s.dest d).profile) := by
    unfold Viewer.lifted
    cases formed : (s.viewer d).formed with
    | none => simp [State.holdRule, formed]
    | some f => rw [holdRule_viewer d _ f (by simp [formed])]; simp [formed]
  obtain ⟨l, stored⟩ := reportStored_viewer (s := (s.setViewer d { s.viewer d with barred := false }).holdRule d) (d := d)
  exact ⟨l, by rw [State.liftBar, stored, lifted]⟩

/-- The record of a VIEW destination behind the bar of a change, but for the report last handed (R65, log entry 19). -/
theorem barAtChange_viewer (view : (s.dest d).kind = .view) (v : AccessVerdict) :
    ∃ l, (s.barAtChange d v).viewer d = { (if v.isDenied then (s.viewer d).placed
      else if (s.viewer d).barred then (s.viewer d).lifted (s.profile (s.dest d).profile) else s.viewer d) with last := l } := by
  unfold State.barAtChange
  rw [if_neg (by rw [view]; exact DestKind.noConfusion)]
  split
  · exact placeBar_viewer
  · split
    · exact liftBar_viewer
    · exact ⟨_, rfl⟩

/-- The record of a VIEW destination once the bar is settled, but for the report last handed (R50). -/
theorem settleBar_viewer (view : (s.dest d).kind = .view) (o : Option AccessVerdict) (v : AccessVerdict) :
    ∃ l, (s.settleBar d o v).viewer d = { (if v.isDenied && !deniedReport o then (s.viewer d).placed
      else if !v.isDenied && deniedReport o then (s.viewer d).lifted (s.profile (s.dest d).profile) else s.viewer d) with last := l } := by
  unfold State.settleBar
  rw [if_neg (by rw [view]; exact DestKind.noConfusion)]
  split
  · exact placeBar_viewer
  · split
    · exact liftBar_viewer
    · exact ⟨_, rfl⟩

/-- The unit before it forms the verdict for the new service (R65). -/
def State.changing (d : DestId) (s : State) : State :=
  (s.endHold d .none).setViewer d ((s.endHold d .none).viewer d).withoutEventUnlock

theorem parentalChange_eq : s.parentalChange d = ((s.changing d).formVerdict d).reportStored d := rfl

theorem changing_dest : (s.changing d).dest d = s.dest d := endHold_dest d _ s d

theorem changing_viewer : (s.changing d).viewer d = { (s.viewer d).periodOnly with hold := .none, timer := none } := by
  rw [State.changing, setViewer_viewer_same, withoutEventUnlock_eq_periodOnly, endHold_viewer]
  rfl

theorem changing_settled : Settled s (s.changing d) := ((endHold_frame d _ s).trans (setViewer_frame d _ _)).toSettled

theorem parentalChange_viewer (shown : (s.dest d).service = some i) : (s.parentalChange d).viewer d =
    s.reformed (s.profile (s.dest d).profile) i { (s.viewer d).periodOnly with hold := .none, timer := none } := by
  rw [parentalChange_eq, formStored_viewer (i := i) (by rw [changing_dest, shown]), changing_viewer, changing_dest,
    profile_congr changing_settled.profiles, reformed_settled changing_settled]

theorem parentalRetry_viewer (shown : (s.dest d).service = some i) : (s.parentalRetry d).viewer d =
    s.reformed (s.profile (s.dest d).profile) i (s.viewer d).forgetful := by
  have settled := (clearMemory_frame d s).toSettled
  rw [State.parentalRetry, formStored_viewer (i := i) (by rw [clearMemory_dest, shown]), clearMemory_viewer, clearMemory_dest,
    profile_congr settled.profiles, reformed_settled settled]

theorem parentalRetry_agrees (shown : (s.dest d).service = some i) (viewing : (s.dest d).isViewing = true) :
    ((s.parentalRetry d).dest d).parental = ((s.parentalRetry d).viewer d).last :=
  formStored_parental (i := i) (by rw [clearMemory_dest, shown]) (by rw [clearMemory_dest, viewing])

/-- The hold rule raises HOLD where it opens a hold (R140). -/
theorem holdRule_raises (idle : (s.viewer d).hold = .none) (opens : ((s.holdRule d).viewer d).hold = .opened) :
    (s.holdRule d).attention.isPending .hold (sourceByte d) = true := by
  rcases holdRule_cases d s with same | ended | opened
  · rw [same, idle] at opens
    cases opens
  · rw [ended, endHold_viewer] at opens
    cases opens
  · rw [opened]
    exact isPending_raise_same _ _ _ _

/-- A verdict formed raises HOLD where it opens a hold (R140). -/
theorem formVerdict_raises (shown : (s.dest d).service = some i) (idle : (s.viewer d).hold = .none)
    (opens : ((s.formVerdict d).viewer d).hold = .opened) : (s.formVerdict d).attention.isPending .hold (sourceByte d) = true := by
  unfold State.formVerdict at opens ⊢
  dsimp only at opens ⊢
  rw [shown] at opens ⊢
  exact holdRule_raises (by rw [setViewer_viewer_same, idle]) opens

/-- A service change raises HOLD where it opens a hold (R65, R140). -/
theorem parentalChange_raises (shown : (s.dest d).service = some i) (opens : ((s.parentalChange d).viewer d).hold = .opened) :
    (s.parentalChange d).attention.isPending .hold (sourceByte d) = true := by
  rw [parentalChange_eq] at opens ⊢
  obtain ⟨l, stored⟩ := reportStored_viewer (s := (s.changing d).formVerdict d) (d := d)
  rw [stored] at opens
  rw [reportStored_causeKept.isPending]
  exact formVerdict_raises (i := i) (by rw [changing_dest, shown]) (by rw [changing_viewer]) opens

end

end Sys2Proof.Machine
end

