-- ==== Sys2Proof/Proofs/FreshVerdicts.lean ====
section
/-! SUPPORT. A selection with outcome change or retry (R64 to R67): what the controller and the units hold of the destination before it is evaluated, and
the evaluation of a destination that does not deliver (R46, R66). -/

namespace Sys2Proof.Machine

/-! ## The evaluation of a destination that does not deliver (R46) -/

section
variable {d : DestId} {s : State}

theorem setDest_same : s.setDest d (s.dest d) = s := by simp [State.setDest, State.dest]

/-- Coming into ACQUIRING changes the destination's record alone (R47, R48). -/
theorem enterAcquiring_row (d : DestId) (s : State) : ∃ n a, s.enterAcquiring d =
    s.setDest d { s.dest d with state := n, marks := [], unkeyedRun := 0, acquisition := a } := by
  unfold State.enterAcquiring
  generalize hu : s.setDest d { s.dest d with state := .acquiring, marks := [], unkeyedRun := 0, acquisition := some s.ctl.acquireTime } = u
  have row : u.dest d = { s.dest d with state := .acquiring, marks := [], unkeyedRun := 0, acquisition := some s.ctl.acquireTime } := by
    rw [← hu, setDest_dest_same]
  by_cases started : u.Started (u.dest d)
  · refine ⟨.presenting, none, ?_⟩
    rw [completionTest_acquiring (by rw [row]) started, row, ← hu, setDest_setDest]
  · refine ⟨.acquiring, some s.ctl.acquireTime, ?_⟩
    rw [completionTest_same (.inl (iff_of_false (by rw [row]; exact DestState.noConfusion) started)), hu]

/-- A move from a state that does not deliver changes the destination's record alone; marks that are gone do not come back (R47). -/
theorem moveTo_idle (idle : (s.dest d).state.delivering = false) (n : DestState) : ∃ st m k a,
    s.moveTo d n = s.setDest d { s.dest d with state := st, marks := m, unkeyedRun := k, acquisition := a } ∧
      ((s.dest d).marks = [] → m = []) ∧ ((s.dest d).unkeyedRun = 0 → k = 0) := by
  unfold State.moveTo
  dsimp only
  split
  · exact ⟨(s.dest d).state, _, _, (s.dest d).acquisition, setDest_same.symm, id, id⟩
  · split
    · obtain ⟨st, a, entered⟩ := enterAcquiring_row d s
      exact ⟨st, [], 0, a, entered, fun _ => rfl, fun _ => rfl⟩
    · rw [if_neg (by rw [idle]; exact Bool.noConfusion)]
      exact ⟨n, _, _, _, rfl, id, id⟩

/-- The state that an evaluation gives a destination that does not deliver and holds no KEY (R46). -/
def State.idleOutcome (s : State) (x : Dest) (halted : Bool) : DestState :=
  if deniedReport x.access then .withheld
  else
    match x.restriction with
    | some r => if r.hold = .opened then .held else .withheld
    | none => if halted then .withheld else if s.requiredSet x = [] then .presenting else .acquiring

section
variable (live : (s.dest d).state ≠ .vacant) (idle : (s.dest d).state.delivering = false)
include live idle

theorem evaluate_idle_state (keyed : (s.dest d).reasons.key = false) :
    ((s.evaluate d).dest d).state = s.idleOutcome (s.dest d) (s.portHalted (s.dest d).port) := by
  unfold State.idleOutcome
  cases denied : deniedReport (s.dest d).access with
  | true => exact evaluate_denied live denied
  | false =>
    cases restriction : (s.dest d).restriction with
    | some r => exact evaluate_restricted live denied restriction
    | none =>
      cases halted : s.portHalted (s.dest d).port with
      | true => exact evaluate_barred live denied restriction (.inl halted)
      | false =>
        rw [evaluate_free live denied restriction halted keyed, idle]
        rfl

/-- An evaluation of a destination that does not deliver changes its record alone. -/
theorem evaluate_idle : ∃ st m k a, s.evaluate d = s.setDest d { s.dest d with
    reasons := (s.dest d).reasonsAfresh (s.portHalted (s.dest d).port), state := st, marks := m, unkeyedRun := k, acquisition := a } ∧
      ((s.dest d).marks = [] → m = []) ∧ ((s.dest d).unkeyedRun = 0 → k = 0) := by
  have row := reasoned_dest (s := s) (d := d)
  obtain ⟨st, m, k, a, moved, marks, run⟩ := moveTo_idle (s := s.reasoned d) (d := d) (by rw [row]; exact idle)
    ((s.dest d).chosen (s.portHalted (s.dest d).port))
  rw [row] at moved marks run
  exact ⟨st, m, k, a, by rw [evaluate_live live, moved, State.reasoned, setDest_setDest], marks, run⟩

end

theorem moveTo_idle_eq {n : DestState} (idle : (s.dest d).state.delivering = false) (moves : n ≠ (s.dest d).state) :
    s.moveTo d n = if n = .acquiring then s.enterAcquiring d else s.setDest d { s.dest d with state := n } := by
  unfold State.moveTo
  dsimp only
  rw [if_neg moves, idle, if_neg (c := false = true) Bool.noConfusion]

theorem enterAcquiring_setDest (x : Dest) (n : DestState) :
    (s.setDest d { x with state := n }).enterAcquiring d = (s.setDest d x).enterAcquiring d := by
  rw [State.enterAcquiring, State.enterAcquiring, setDest_setDest, setDest_setDest, setDest_dest_same, setDest_dest_same]
  rfl

/-- The state chosen is the same from any two states that do not deliver (R46). -/
theorem chosen_idle {x : Dest} {n : DestState} (from' : x.state.delivering = false) (idle : n.delivering = false) (halted : Bool) :
    Dest.chosen { x with state := n } halted = x.chosen halted := by
  have restriction : Dest.restriction { x with state := n } = x.restriction := rfl
  simp only [Dest.chosen, restriction, from', idle, Bool.false_eq_true, if_false]

/-- For the evaluation that ends a change it is the same whether the destination comes from VACANT or from WITHHELD (R66). -/
theorem evaluateAfresh_withheld (withheld : (s.dest d).state = .withheld) : s.evaluateAfresh d = s.evaluate d := by
  have idle : (s.dest d).state.delivering = false := by rw [withheld]; rfl
  have live : (s.dest d).state ≠ .vacant := by rw [withheld]; exact DestState.noConfusion
  have chosen := chosen_idle (n := .vacant) idle rfl (s.portHalted (s.dest d).port)
  have afresh : s.evaluateAfresh d = (s.setDest d { s.dest d with
      state := .vacant, reasons := (s.dest d).reasonsAfresh (s.portHalted (s.dest d).port) }).moveTo d
        (Dest.chosen { s.dest d with state := .vacant } (s.portHalted (s.dest d).port)) := rfl
  rw [afresh, chosen, evaluate_live live, State.reasoned]
  generalize hn : (s.dest d).chosen (s.portHalted (s.dest d).port) = n
  have vacates : n ≠ .vacant := hn ▸ chosen_live _ _
  rw [moveTo_idle_eq (by rw [setDest_dest_same]; rfl) (by rw [setDest_dest_same]; exact vacates)]
  by_cases stays : n = .withheld
  · rw [stays, if_neg DestState.noConfusion, setDest_setDest, setDest_dest_same, State.moveTo, if_pos (by rw [setDest_dest_same, withheld])]
    simp [withheld]
  · rw [moveTo_idle_eq (by rw [setDest_dest_same]; exact idle) (by rw [setDest_dest_same, withheld]; exact stays), setDest_setDest,
      setDest_setDest, setDest_dest_same, setDest_dest_same]
    split
    · exact enterAcquiring_setDest { s.dest d with reasons := (s.dest d).reasonsAfresh (s.portHalted (s.dest d).port) } .vacant
    · rfl

end

/-! ## The destination selected (R64, R65) -/

section
variable (d : DestId) (i : Fin 64) (s : State)

theorem cleared_frame : UnitsKept s ((s.clearAway d i).markSelected d) := (clearAway_frame d i s).trans (setDest_frame _ _ _)

theorem cleared_verdict : ((s.clearAway d i).markSelected d).accessVerdict i = s.accessVerdict i :=
  accessVerdict_congr (cleared_frame d i s).toDeliveryFrame (cleared_frame d i s).table i

theorem selected_settled : Settled s (s.selected d i) :=
  (cleared_frame d i s).toSettled.trans (accessAtSelection_frame d _ _)

theorem selected_viewer : (s.selected d i).viewer d = s.viewer d := by
  unfold State.selected
  dsimp only
  rw [State.accessAtSelection, State.storeAccess, setDest_viewer, setLastAccess_viewer]
  exact congrArg (fun u : ParentalUnit => u.viewers.read d) (cleared_frame d i s).parental

/-- The destination with its old service cleared away and the fresh access report stored (R64, R65). -/
theorem selected_row : ∃ n, (s.selected d i).dest d = { (s.dest d).forget with
    service := some i, state := .withheld, access := some (s.accessVerdict i), tallies := n } := by
  unfold State.selected
  dsimp only
  rw [cleared_verdict, State.accessAtSelection, State.storeAccess, setDest_dest_same, setLastAccess_dest, State.markSelected,
    setDest_dest_same, State.clearAway, setDest_dest_same, withdrawStall_dest, purgeDest_full_dest]
  exact ⟨_, rfl⟩

theorem selected_lastAccess : (s.selected d i).lastAccess d = some (s.accessVerdict i) := by
  obtain ⟨-, -, access⟩ := selected_dest d s i
  obtain ⟨_, row⟩ := selected_row d i s
  rw [← access, row]

theorem selected_attention : (s.selected d i).attention = ((s.purgeDest d true).withdrawStall d).attention := by
  simp only [State.selected, State.accessAtSelection, State.storeAccess, State.markSelected, State.clearAway, setDest_attention,
    setLastAccess_attention]

theorem selected_isPending (c : Cause) : (s.selected d i).attention.isPending c (sourceByte d) =
    if c = .stall ∧ (s.dest d).state = .stalled then false else s.attention.isPending c (sourceByte d) := by
  have state : ((s.purgeDest d true).dest d).state = (s.dest d).state := by rw [purgeDest_full_dest]
  have attention : (s.purgeDest d true).attention = s.attention := rfl
  rw [selected_attention, withdrawStall_isPending, state, attention]

/-! ## The units told of a change (R65) -/

/-- What the parental unit holds of a VIEW destination when it forms the verdict for a new service (R65, log entry 19). -/
def State.changedViewer (d : DestId) (i : Fin 64) (s : State) : Viewer :=
  let v := s.viewer d
  { (if (s.accessVerdict i).isDenied then v.placed else if v.barred then v.lifted (s.profile (s.dest d).profile) else v).periodOnly with
    hold := .none, timer := none }

theorem changedViewer_barred : (s.changedViewer d i).barred = (s.accessVerdict i).isDenied := by
  dsimp only [State.changedViewer, Viewer.periodOnly]
  split
  · next denied => exact denied.symm
  · next allowed =>
    rw [Bool.eq_false_of_not_eq_true allowed]
    split
    · exact lifted_barred _ _
    · next free => exact Bool.eq_false_of_not_eq_true free

theorem changedViewer_unlock : (s.changedViewer d i).unlock = (s.viewer d).periodOnly.unlock := by
  have period {v w : Viewer} (h : v.unlock = w.unlock) : v.periodOnly.unlock = w.periodOnly.unlock := by simp only [Viewer.periodOnly, h]
  unfold State.changedViewer
  refine period ?_
  split
  · rfl
  · split
    · exact lifted_unlock _ _
    · rfl

/-- Before the bar the destination is selected; the two units are told from there (R65). -/
theorem toldOfChange_tells : UnitTells d (s.selected d i) (s.toldOfChange d i) := by
  rw [toldOfChange_eq]
  exact (barAtChange_tells d _ _).trans (tellChange_tells d _)

theorem toldOfChange_settled : Settled s (s.toldOfChange d i) := by
  rw [toldOfChange_eq]
  exact (selected_settled d i s).trans ((barAtChange_frame d _ _).toSettled.trans (tellChange_frame d _).toSettled)

variable {d i s}

theorem toldOfChange_record (record : (s.dest d).kind = .record) : (s.toldOfChange d i).viewer d = (s.viewer d).periodOnly ∧
    ((s.toldOfChange d i).dest d).parental = none := by
  obtain ⟨n, row⟩ := selected_row d i s
  have kind : ((s.selected d i).dest d).kind = .record := by rw [row]; exact record
  have told : s.toldOfChange d i = (s.selected d i).setViewer d ((s.selected d i).viewer d).withoutEventUnlock := by
    rw [toldOfChange_eq, State.barAtChange, if_pos kind, State.tellChange, kind]
  rw [told, setViewer_viewer_same, withoutEventUnlock_eq_periodOnly, selected_viewer, setViewer_dest, row]
  exact ⟨rfl, rfl⟩

theorem toldOfChange_view (view : (s.dest d).kind = .view) :
    (s.toldOfChange d i).viewer d = s.reformed (s.profile (s.dest d).profile) i (s.changedViewer d i) ∧
    (((s.toldOfChange d i).viewer d).hold = .opened → (s.toldOfChange d i).attention.isPending .hold (sourceByte d) = true) := by
  obtain ⟨n, row⟩ := selected_row d i s
  have settled := selected_settled d i s
  have viewer := selected_viewer d i s
  have told : s.toldOfChange d i = ((s.selected d i).barAtChange d (s.accessVerdict i)).tellChange d := by
    rw [toldOfChange_eq, cleared_verdict]
  rw [told]
  generalize s.selected d i = u at row settled viewer
  have tells := barAtChange_tells d u (s.accessVerdict i)
  have barFrame := (barAtChange_frame d (s.accessVerdict i) u).toSettled
  obtain ⟨l, barred⟩ := barAtChange_viewer (s := u) (d := d) (by rw [row]; exact view) (s.accessVerdict i)
  generalize u.barAtChange d (s.accessVerdict i) = w at tells barFrame barred
  obtain ⟨q, barRow⟩ := tells.row
  rw [row] at barRow
  have shown : (w.dest d).service = some i := by rw [barRow]
  have change : w.tellChange d = w.parentalChange d := by
    unfold State.tellChange
    rw [barRow]
    simp only [Dest.forget, view]
  rw [change]
  refine ⟨?_, parentalChange_raises shown⟩
  rw [parentalChange_viewer shown, reformed_settled (settled.trans barFrame), profile_congr (settled.trans barFrame).profiles, barRow, barred,
    viewer, row, profile_congr settled.profiles]
  exact reformed_withLast (v := s.changedViewer d i) l

/-- The parental report of a VIEW destination is the unit's last one (R65). -/
theorem toldOfChange_report (view : (s.dest d).kind = .view) :
    ((s.toldOfChange d i).dest d).parental = ((s.toldOfChange d i).viewer d).last := by
  obtain ⟨n, row⟩ := selected_row d i s
  obtain ⟨r, told⟩ := (toldOfChange_tells d i s).row
  exact (toldOfChange_parental d s i (by rw [told, row]; exact view)).symm

/-- The units told of a change leave what the controller holds of the destination, but for the parental report (R65). -/
theorem toldOfChange_row : ∃ n, (s.toldOfChange d i).dest d = { (s.dest d).forget with
    service := some i, state := .withheld, access := some (s.accessVerdict i), tallies := n
    parental := ((s.toldOfChange d i).dest d).parental } := by
  obtain ⟨n, row⟩ := selected_row d i s
  obtain ⟨r, told⟩ := (toldOfChange_tells d i s).row
  rw [row] at told
  exact ⟨n, by rw [told]⟩

end

/-! ## The units told of a retry (R67) -/

section
variable (d : DestId) (i : Fin 64) (s : State)

/-- The destination with KEY and the memory's reasons dropped and the fresh access report stored (R67). -/
def State.retried (d : DestId) (i : Fin 64) (s : State) : State :=
  (s.dropRetryReasons d).accessAtSelection d ((s.dropRetryReasons d).accessVerdict i)

theorem dropped_verdict : (s.dropRetryReasons d).accessVerdict i = s.accessVerdict i :=
  accessVerdict_congr (setDest_frame d _ s).toDeliveryFrame rfl i

theorem toldOfRetry_eq : s.toldOfRetry d i =
    ((s.retried d i).settleBar d (s.dest d).access (s.accessVerdict i)).tellRetry d := by
  have access : ((s.dropRetryReasons d).dest d).access = (s.dest d).access := by rw [State.dropRetryReasons, setDest_dest_same]
  rw [State.toldOfRetry, dropped_verdict, access, State.retried, dropped_verdict]

theorem retried_settled : Settled s (s.retried d i) := (setDest_frame d _ s).toSettled.trans (accessAtSelection_frame d _ _)

theorem retried_viewer : (s.retried d i).viewer d = s.viewer d := rfl

theorem retried_ports : (s.retried d i).ports = s.ports := rfl

theorem retried_row : (s.retried d i).dest d = { s.dest d with
    reasons := { (s.dest d).reasons with key := false, declined := false, noAnswer := false }, access := some (s.accessVerdict i) } := by
  rw [State.retried, dropped_verdict, State.accessAtSelection, State.storeAccess, setDest_dest_same, setLastAccess_dest,
    State.dropRetryReasons, setDest_dest_same]

theorem retried_lastAccess : (s.retried d i).lastAccess d = some (s.accessVerdict i) := by
  rw [State.retried, dropped_verdict, State.accessAtSelection, State.storeAccess, setDest_lastAccess, setLastAccess_lastAccess_same]

theorem retried_attention : (s.retried d i).attention = s.attention := rfl

/-- What the parental unit holds of a VIEW destination when it forms the verdict at a retry (R67). -/
def State.retriedViewer (d : DestId) (i : Fin 64) (s : State) : Viewer :=
  let v := s.viewer d
  let denied := (s.accessVerdict i).isDenied
  let wasDenied := (s.dest d).access.any (·.isDenied)
  (if denied && !wasDenied then v.placed else if !denied && wasDenied then v.lifted (s.profile (s.dest d).profile) else v).forgetful

theorem retriedViewer_unlock : (s.retriedViewer d i).unlock = (s.viewer d).unlock := by
  unfold State.retriedViewer
  dsimp only [Viewer.forgetful]
  split
  · rfl
  · split
    · exact lifted_unlock _ _
    · rfl

theorem toldOfRetry_tells : UnitTells d (s.retried d i) (s.toldOfRetry d i) := by
  rw [toldOfRetry_eq]
  exact (settleBar_tells d _ _ _).trans (tellRetry_tells d _)

theorem toldOfRetry_settled : Settled s (s.toldOfRetry d i) := by
  rw [toldOfRetry_eq]
  exact (retried_settled d i s).trans ((settleBar_frame d _ _ _).toSettled.trans (tellRetry_frame d _).toSettled)

variable {d i s}

theorem toldOfRetry_record (record : (s.dest d).kind = .record) : (s.toldOfRetry d i).viewer d = s.viewer d ∧
    ((s.toldOfRetry d i).dest d).parental = (s.dest d).parental := by
  have kind : ((s.retried d i).dest d).kind = .record := by rw [retried_row]; exact record
  have told : s.toldOfRetry d i = s.retried d i := by
    rw [toldOfRetry_eq, settleBar_same (.inl kind), State.tellRetry, kind]
  rw [told, retried_row]
  exact ⟨rfl, rfl⟩

theorem toldOfRetry_view (view : (s.dest d).kind = .view) (live : (s.dest d).state ≠ .vacant) (shown : (s.dest d).service = some i) :
    (s.toldOfRetry d i).viewer d = s.reformed (s.profile (s.dest d).profile) i (s.retriedViewer d i) ∧
    ((s.toldOfRetry d i).dest d).parental = ((s.toldOfRetry d i).viewer d).last := by
  have row := retried_row d i s
  have settled := retried_settled d i s
  have viewer := retried_viewer d i s
  rw [toldOfRetry_eq]
  generalize s.retried d i = u at row settled viewer
  have tells := settleBar_tells d u (s.dest d).access (s.accessVerdict i)
  have barFrame := (settleBar_frame d (s.dest d).access (s.accessVerdict i) u).toSettled
  obtain ⟨l, barred⟩ := settleBar_viewer (s := u) (d := d) (by rw [row]; exact view) (s.dest d).access (s.accessVerdict i)
  generalize u.settleBar d (s.dest d).access (s.accessVerdict i) = w at tells barFrame barred
  obtain ⟨q, barRow⟩ := tells.row
  rw [row] at barRow
  have shows : (w.dest d).service = some i := by rw [barRow]; exact shown
  have viewing : (w.dest d).isViewing = true := by rw [barRow]; exact isViewing_iff.mpr ⟨live, view⟩
  have retry : w.tellRetry d = w.parentalRetry d := by
    unfold State.tellRetry
    rw [barRow]
    simp only [view]
  rw [retry]
  refine ⟨?_, parentalRetry_agrees shows viewing⟩
  rw [parentalRetry_viewer shows, reformed_settled (settled.trans barFrame), profile_congr (settled.trans barFrame).profiles, barRow, barred,
    viewer, row, profile_congr settled.profiles]
  exact reformed_withLast (v := s.retriedViewer d i) l

theorem toldOfRetry_row : (s.toldOfRetry d i).dest d = { s.dest d with
    reasons := { (s.dest d).reasons with key := false, declined := false, noAnswer := false }, access := some (s.accessVerdict i)
    parental := ((s.toldOfRetry d i).dest d).parental } := by
  obtain ⟨r, told⟩ := (toldOfRetry_tells d i s).row
  rw [retried_row] at told
  rw [told]

end

end Sys2Proof.Machine
end

