-- ==== Sys2Proof/Proofs/ChannelChanges.lean ====
section
/-! SUPPORT. SELECT with outcome change and with outcome retry (R63 to R67): the evaluation on the fresh reports, and the order on a link at rest. -/

namespace Sys2Proof.Machine

/-! ## The evaluation on fresh reports (R66, R67) -/

/-- The state that fresh reports on service `i` give destination `d`, of which the parental unit held the record `told` when it formed the
verdict (R46). -/
def State.outcomeFor (d : DestId) (i : Fin 64) (told : Viewer) (s : State) : DestState :=
  let x := s.dest d
  let p := s.profile x.profile
  if (s.accessVerdict i).isDenied then .withheld
  else if x.kind = .view ∧ (s.formedFor p i told.unlock).verdict = .restricted then
    if (s.reformed p i told).hold = .opened then .held else .withheld
  else if s.portHalted x.port then .withheld
  else if s.requiredSet { x with service := some i } = [] then .presenting else .acquiring

/-- In `u` the fresh reports of destination `d` on service `i` are stored, and its evaluation is due: it does not deliver, and holds no KEY. A
VIEW destination's report is the one formed on the record `told` (R65, R67). -/
structure Awaits (d : DestId) (i : Fin 64) (told : Viewer) (s u : State) : Prop where
  settled : Settled s u
  kind : (u.dest d).kind = (s.dest d).kind
  port : (u.dest d).port = (s.dest d).port
  roles : (u.dest d).roles = (s.dest d).roles
  service : (u.dest d).service = some i
  access : (u.dest d).access = some (s.accessVerdict i)
  lastAccess : u.lastAccess d = some (s.accessVerdict i)
  live : (u.dest d).state ≠ .vacant
  idle : (u.dest d).state.delivering = false
  keyed : (u.dest d).reasons.key = false
  viewed : (s.dest d).kind = .view →
    u.viewer d = s.reformed (s.profile (s.dest d).profile) i told ∧ (u.dest d).parental = (u.viewer d).last
  unremembered : told.hold = .none ∨ told.hold = .opened

/-- The report on a verdict formed restricts a VIEW destination where the verdict is RESTRICTED. -/
theorem restriction_reformed {x : Dest} {s : State} {p : Profile} {i : Fin 64} {v : Viewer} (view : x.kind = .view)
    (report : x.parental = (s.reformed p i v).last) :
    x.restriction = if (s.formedFor p i v.unlock).verdict = .restricted then (s.reformed p i v).last else none := by
  unfold Dest.restriction
  rw [view, report]
  rfl

theorem restriction_record {x : Dest} (record : x.kind = .record) : x.restriction = none := by
  unfold Dest.restriction
  rw [record]

namespace Awaits

variable {d : DestId} {i : Fin 64} {told : Viewer} {s u : State} (h : Awaits d i told s u)
include h

theorem halted : u.portHalted (u.dest d).port = s.portHalted (s.dest d).port := by
  rw [h.port]
  exact congrArg (fun t : Table Bool 4 => t.read (s.dest d).port) h.settled.halted

theorem required {x : Dest} (service : x.service = some i) (roles : x.roles = (s.dest d).roles) :
    u.requiredSet (u.dest d) = s.requiredSet x :=
  requiredSet_congr h.settled.flows (h.service.trans service.symm) (h.roles.trans roles.symm)

theorem denied : deniedReport (u.dest d).access = (s.accessVerdict i).isDenied := by
  rw [h.access]
  rfl

theorem restriction : (u.dest d).restriction =
    if (s.dest d).kind = .view ∧ (s.formedFor (s.profile (s.dest d).profile) i told.unlock).verdict = .restricted
    then (s.reformed (s.profile (s.dest d).profile) i told).last else none := by
  cases kind : (s.dest d).kind with
  | view =>
    obtain ⟨viewer, report⟩ := h.viewed kind
    rw [restriction_reformed (h.kind.trans kind) (report.trans (congrArg Viewer.last viewer))]
    simp
  | record => rw [restriction_record (h.kind.trans kind), if_neg fun ⟨view, _⟩ => DestKind.noConfusion view]

/-- The evaluation ends in the state that the fresh reports give (R46, R66). -/
theorem state : ((u.evaluate d).dest d).state = s.outcomeFor d i told := by
  have required := h.required (x := { s.dest d with service := some i }) rfl rfl
  rw [evaluate_idle_state h.live h.idle h.keyed, State.idleOutcome, h.halted, h.denied, h.restriction, required, State.outcomeFor]
  split
  · rfl
  · by_cases restricted : (s.dest d).kind = .view ∧ (s.formedFor (s.profile (s.dest d).profile) i told.unlock).verdict = .restricted
    · simp only [if_pos restricted]
      rfl
    · simp only [if_neg restricted]

/-- The evaluation changes the destination's record alone. -/
theorem evaluated : ∃ m k a, u.evaluate d = u.setDest d { u.dest d with
    reasons := (u.dest d).reasonsAfresh (s.portHalted (s.dest d).port), state := s.outcomeFor d i told, marks := m, unkeyedRun := k
    acquisition := a } ∧ ((u.dest d).marks = [] → m = []) ∧ ((u.dest d).unkeyedRun = 0 → k = 0) := by
  obtain ⟨st, m, k, a, row, marks, run⟩ := evaluate_idle h.live h.idle
  have state := h.state
  rw [row, setDest_dest_same] at state
  exact ⟨m, k, a, by rw [row, h.halted, ← state], marks, run⟩

theorem reasons (view : (s.dest d).kind = .view) : let f := s.formedFor (s.profile (s.dest d).profile) i told.unlock
    ((u.evaluate d).dest d).reasons = ⟨(s.accessVerdict i).isDenied, if f.verdict = .restricted then f.uncovered else .empty, false, false,
      s.portHalted (s.dest d).port, false⟩ := by
  intro f
  have hold := ruled_unremembered (s.profile (s.dest d).profile) f { told with formed := some f } h.unremembered
  rw [evaluate_reasons h.live, h.halted]
  by_cases restricted : f.verdict = .restricted
  · have restriction := h.restriction.trans (if_pos ⟨view, restricted⟩)
    rw [reasonsAfresh_restricted restriction, h.denied, h.keyed, if_pos restricted]
    have forgotten {n : HoldCondition} (h : n = .none ∨ n = .opened) : (n == .declined) = false ∧ (n == .noAnswer) = false := by
      rcases h with rfl | rfl <;> exact ⟨rfl, rfl⟩
    obtain ⟨declined, noAnswer⟩ := forgotten hold
    exact congrArg₂ (fun a b => (⟨_, _, a, b, _, _⟩ : Reasons)) declined noAnswer
  · have restriction := h.restriction.trans (if_neg fun ⟨_, r⟩ => restricted r)
    rw [reasonsAfresh_free restriction, h.denied, h.keyed, if_neg restricted]

/-- The verdict that the unit formed, and its report, are still those of the destination evaluated (R136, R137, R140). -/
theorem verdict (view : (s.dest d).kind = .view) :
    ParentalFormed s (u.evaluate d) d i told ∧ ((u.evaluate d).dest d).parental = ((u.evaluate d).viewer d).last := by
  obtain ⟨m, k, a, row, -, -⟩ := h.evaluated
  obtain ⟨viewer, report⟩ := h.viewed view
  have agreed : ((u.evaluate d).dest d).parental = ((u.evaluate d).viewer d).last := by
    rw [row, setDest_dest_same, setDest_viewer]
    exact report
  exact ⟨parentalFormed_of (h.settled.trans (evaluate_alone d u).toSettled) (by rw [row, setDest_viewer, viewer]) agreed, agreed⟩

theorem state_denied (denied : (s.accessVerdict i).isDenied = true) : ((u.evaluate d).dest d).state = .withheld := by
  rw [h.state, State.outcomeFor, if_pos denied]

/-- Where no denial stands, a restricted VIEW destination is HELD by an open hold, and WITHHELD otherwise (R46). -/
theorem state_restricted (view : (s.dest d).kind = .view) (denied : (s.accessVerdict i).isDenied = false)
    (restricted : (s.formedFor (s.profile (s.dest d).profile) i told.unlock).verdict = .restricted) :
    ((u.evaluate d).dest d).state = if ((u.evaluate d).viewer d).hold = .opened then .held else .withheld := by
  obtain ⟨m, k, a, row, -, -⟩ := h.evaluated
  obtain ⟨viewer, -⟩ := h.viewed view
  have kept : (u.evaluate d).viewer d = u.viewer d := by rw [row, setDest_viewer]
  rw [h.state, State.outcomeFor, if_neg (by rw [denied]; exact Bool.noConfusion), if_pos ⟨view, restricted⟩, kept, viewer]

/-- Where no denial and no restriction stands, the port and the required set decide (R46). -/
theorem state_free (denied : (s.accessVerdict i).isDenied = false)
    (free : (s.dest d).kind = .view → (s.formedFor (s.profile (s.dest d).profile) i told.unlock).verdict ≠ .restricted) :
    ((u.evaluate d).dest d).state = if s.portHalted (s.dest d).port then .withheld
      else if s.requiredSet { s.dest d with service := some i } = [] then .presenting else .acquiring := by
  rw [h.state, State.outcomeFor, if_neg (by rw [denied]; exact Bool.noConfusion), if_neg fun ⟨view, restricted⟩ => free view restricted]

/-- The members required of the destination evaluated are those of its service and roles (R48). -/
theorem required_evaluated : (u.evaluate d).requiredSet ((u.evaluate d).dest d) = s.requiredSet { s.dest d with service := some i } := by
  have alone := evaluate_alone d u
  exact requiredSet_congr (alone.toSettled.flows.trans h.settled.flows) (alone.told.service.trans h.service)
    (alone.told.roles.trans h.roles)

end Awaits

end Sys2Proof.Machine
end

