-- ==== Sys2Proof/Proofs/SelectsApplied.lean ====
section
/-! SUPPORT. SELECT with outcome change and with outcome retry (R63 to R67): the two courses, part by part. -/

namespace Sys2Proof.Machine

section
variable {d : DestId} {i : Fin 64} {s : State}

/-! ## A change (R64 to R66) -/

theorem applyChange_evaluates (d : DestId) (i : Fin 64) (s : State) : s.applyChange d i = (s.toldOfChange d i).evaluate d := by
  obtain ⟨n, row⟩ := toldOfChange_row (d := d) (i := i) (s := s)
  rw [applyChange_eq, evaluateAfresh_withheld (by rw [row])]

theorem applyChange_awaits (d : DestId) (i : Fin 64) (s : State) : Awaits d i (s.changedViewer d i) s (s.toldOfChange d i) := by
  obtain ⟨n, row⟩ := toldOfChange_row (d := d) (i := i) (s := s)
  exact {
    settled := toldOfChange_settled d i s
    kind := by rw [row]; rfl
    port := by rw [row]; rfl
    roles := by rw [row]; rfl
    service := by rw [row]
    access := by rw [row]
    lastAccess := by rw [(toldOfChange_accessKept d s i).lastAccess, selected_lastAccess]
    live := by rw [row]; exact DestState.noConfusion
    idle := by rw [row]; rfl
    keyed := by rw [row]; rfl
    viewed := fun view => ⟨(toldOfChange_view view).1, toldOfChange_report view⟩
    unremembered := .inl rfl }

/-- A destination changed is the one told of the change with the state, the reasons and the timer set (R66). -/
theorem applyChange_row (d : DestId) (i : Fin 64) (s : State) : ∃ x : Dest, s.applyChange d i = (s.toldOfChange d i).setDest d x ∧
    x.service = some i ∧ x.access = some (s.accessVerdict i) ∧ x.parental = ((s.toldOfChange d i).dest d).parental ∧ x.state ≠ .vacant ∧
    x.marks = [] ∧ x.unkeyedRun = 0 ∧ x.reasons.key = false ∧ x.reasons.access = (s.accessVerdict i).isDenied ∧
    x.noticeSeq = (s.dest d).noticeSeq := by
  have awaits := applyChange_awaits d i s
  have live := (applyChange_shows d i s).2
  obtain ⟨n, row⟩ := toldOfChange_row (d := d) (i := i) (s := s)
  rw [applyChange_evaluates] at live ⊢
  generalize s.toldOfChange d i = u at *
  obtain ⟨m, k, a, evaluated, marks, run⟩ := awaits.evaluated
  rw [evaluated, setDest_dest_same] at live
  refine ⟨_, evaluated, awaits.service, awaits.access, rfl, live, marks (by rw [row]; rfl), run (by rw [row]; rfl), awaits.keyed,
    awaits.denied, ?_⟩
  rw [row]
  rfl

theorem applyChange_viewer : (s.applyChange d i).viewer d = (s.toldOfChange d i).viewer d := by
  obtain ⟨x, row, -⟩ := applyChange_row d i s
  rw [row, setDest_viewer]

theorem applyChange_attention : (s.applyChange d i).attention = (s.toldOfChange d i).attention := by
  obtain ⟨x, row, -⟩ := applyChange_row d i s
  rw [row, setDest_attention]

theorem applyChange_lastAccess : (s.applyChange d i).lastAccess d = some (s.accessVerdict i) := by
  obtain ⟨x, row, -⟩ := applyChange_row d i s
  rw [row, setDest_lastAccess, (applyChange_awaits d i s).lastAccess]

/-- No cell of the destination stays queued, and those of others keep their order (R64, R158). -/
theorem applyChange_queue : ((s.applyChange d i).port (s.dest d).port).queue =
    (s.port (s.dest d).port).queue.filter fun c => !c.isFor d := by
  obtain ⟨x, row, -⟩ := applyChange_row d i s
  have told : (s.toldOfChange d i).port (s.dest d).port = (s.selected d i).port (s.dest d).port :=
    congrArg (fun t : Table Port 4 => t.read (s.dest d).port) (toldOfChange_tells d i s).ports
  rw [row, setDest_port, told, selected_port, purgeDest_full_port]

/-- A change signals no cause but HOLD, and withdraws STALL of a STALLED destination (R64). -/
theorem applyChange_isPending {c : Cause} (h : c ≠ .hold) : (s.applyChange d i).attention.isPending c (sourceByte d) =
    if c = .stall ∧ (s.dest d).state = .stalled then false else s.attention.isPending c (sourceByte d) := by
  rw [applyChange_attention, ((toldOfChange_tells d i s).causes c h).isPending, selected_isPending]

/-- A hold is open behind a change where the rule opens one (R65, R140). -/
theorem applyChange_hold (view : (s.dest d).kind = .view) : ((s.applyChange d i).viewer d).hold =
    if (s.formedFor (s.profile (s.dest d).profile) i (s.changedViewer d i).unlock).verdict = .restricted ∧
      (s.profile (s.dest d).profile).policy = .ask ∧ (s.accessVerdict i).isDenied = false then .opened else .none := by
  rw [applyChange_viewer, (toldOfChange_view view).1, reformed_hold, ruled_hold _ _ _ rfl, changedViewer_barred]

/-- HOLD is signalled of a hold open behind a change (R140). -/
theorem applyChange_raises (view : (s.dest d).kind = .view) (opened : ((s.applyChange d i).viewer d).hold = .opened) :
    (s.applyChange d i).attention.isPending .hold (sourceByte d) = true := by
  rw [applyChange_viewer] at opened
  rw [applyChange_attention]
  exact (toldOfChange_view view).2 opened

/-- HOLD of a hold that was open is withdrawn where none is open behind the change (R65). -/
theorem applyChange_quiet (was : (s.viewer d).hold = .opened) (closed : ((s.applyChange d i).viewer d).hold = .none) :
    (s.applyChange d i).attention.isPending .hold (sourceByte d) = false := by
  have before : HoldQuiet d (s.selected d i) := fun h => absurd was (by rwa [selected_viewer] at h)
  rw [applyChange_viewer] at closed
  rw [applyChange_attention]
  exact (toldOfChange_tells d i s).quiet before (by rw [closed]; exact HoldCondition.noConfusion)

/-- The unlock of an event goes, and that of a period stays (R65, R139). -/
theorem applyChange_unlock : ((s.applyChange d i).viewer d).unlock = (s.viewer d).periodOnly.unlock := by
  rw [applyChange_viewer]
  cases kind : (s.dest d).kind with
  | view => rw [(toldOfChange_view kind).1, reformed_unlock, changedViewer_unlock]
  | record => rw [(toldOfChange_record kind).1]

theorem periodOnly_event {v : Viewer} {id : Half} (h : v.unlock = some (.event id)) : v.periodOnly.unlock = none := by
  simp [Viewer.periodOnly, h]

theorem periodOnly_period {v : Viewer} {t : Nat} (h : v.unlock = some (.period t)) : v.periodOnly.unlock = some (.period t) := by
  simp [Viewer.periodOnly, h]

/-! ## A retry (R67) -/

theorem service_shown (shown : (s.dest d).service = some i) : { s.dest d with service := some i } = s.dest d := by rw [← shown]

section
variable (waits : (s.dest d).state = .held ∨ (s.dest d).state = .withheld) (shown : (s.dest d).service = some i)
include waits shown

theorem applyRetry_awaits : Awaits d i (s.retriedViewer d i) s (s.toldOfRetry d i) := by
  have row := toldOfRetry_row (d := d) (i := i) (s := s)
  have live : (s.dest d).state ≠ .vacant := by rcases waits with h | h <;> rw [h] <;> exact DestState.noConfusion
  exact {
    settled := toldOfRetry_settled d i s
    kind := by rw [row]
    port := by rw [row]
    roles := by rw [row]
    service := by rw [row]; exact shown
    access := by rw [row]
    lastAccess := by
      rw [toldOfRetry_eq, ((settleBar_accessKept d _ _ _).trans (tellRetry_accessKept d _)).lastAccess, retried_lastAccess]
    live := by rw [row]; exact live
    idle := by rw [row]; rcases waits with h | h <;> rw [h] <;> rfl
    keyed := by rw [row]
    viewed := fun view => toldOfRetry_view view live shown
    unremembered := forgetful_unremembered _ }

/-- A destination retried is the one told of the retry with the state, the reasons and the timer set (R67). -/
theorem applyRetry_row : ∃ x : Dest, s.applyRetry d i = (s.toldOfRetry d i).setDest d x ∧ x.service = some i ∧
    x.access = some (s.accessVerdict i) ∧ x.parental = ((s.toldOfRetry d i).dest d).parental ∧ x.reasons.key = false := by
  have awaits := applyRetry_awaits waits shown
  rw [applyRetry_eq]
  generalize s.toldOfRetry d i = u at *
  obtain ⟨m, k, a, evaluated, -, -⟩ := awaits.evaluated
  exact ⟨_, evaluated, awaits.service, awaits.access, rfl, awaits.keyed⟩

theorem applyRetry_lastAccess : (s.applyRetry d i).lastAccess d = some (s.accessVerdict i) := by
  obtain ⟨x, row, -⟩ := applyRetry_row waits shown
  rw [row, setDest_lastAccess, (applyRetry_awaits waits shown).lastAccess]

/-- A retry purges nothing (R67). -/
theorem applyRetry_ports : (s.applyRetry d i).ports = s.ports := by
  obtain ⟨x, row, -⟩ := applyRetry_row waits shown
  rw [row, setDest_ports, (toldOfRetry_tells d i s).ports, retried_ports]

/-- A retry signals no cause but HOLD (R67). -/
theorem applyRetry_isPending {c : Cause} (h : c ≠ .hold) :
    (s.applyRetry d i).attention.isPending c (sourceByte d) = s.attention.isPending c (sourceByte d) := by
  obtain ⟨x, row, -⟩ := applyRetry_row waits shown
  rw [row, setDest_attention, ((toldOfRetry_tells d i s).causes c h).isPending, retried_attention]

theorem applyRetry_record (record : (s.dest d).kind = .record) : (s.applyRetry d i).viewer d = s.viewer d ∧
    ((s.applyRetry d i).dest d).parental = (s.dest d).parental := by
  obtain ⟨x, row, -, -, parental, -⟩ := applyRetry_row waits shown
  obtain ⟨viewer, report⟩ := toldOfRetry_record (i := i) record
  rw [row, setDest_viewer, setDest_dest_same, parental]
  exact ⟨viewer, report⟩

end

/-! ## The order (R63) -/

theorem orderSelectNow_change (h : (s.dest d).state = .vacant ∨ (s.dest d).service ≠ some i) : orderSelectNow d i s =
    .done (s.applyChange d i) [0, ((s.applyChange d i).dest d).state.byte,
      BitVec.ofNat 8 ((s.port (s.dest d).port).queue.countP fun c => c.isFor d)] := by
  have outcome := outcomeOf_change h
  have applied : s.applySelection d i = s.applyChange d i := by rw [State.applySelection, outcome]
  have purges : s.selectionPurges d i = (s.port (s.dest d).port).queue.countP fun c => c.isFor d := by
    rw [State.selectionPurges, outcome]
    rfl
  simp only [orderSelectNow, outcome, applied, purges]
  rfl

theorem orderSelectNow_retry (waits : (s.dest d).state = .held ∨ (s.dest d).state = .withheld) (shown : (s.dest d).service = some i) :
    orderSelectNow d i s = .done (s.applyRetry d i) [2, ((s.applyRetry d i).dest d).state.byte, 0] := by
  have outcome := outcomeOf_retry (i := i) (x := s.dest d) (by rcases waits with h | h <;> rw [h] <;> exact DestState.noConfusion)
    (by rcases waits with h | h <;> rw [h] <;> rfl) shown
  have applied : s.applySelection d i = s.applyRetry d i := by rw [State.applySelection, outcome]
  have purges : s.selectionPurges d i = 0 := by rw [State.selectionPurges, outcome]
  simp only [orderSelectNow, outcome, applied, purges]
  rfl

/-! ### The order record is no part of the outcome -/

theorem applyChange_state (d : DestId) (i : Fin 64) (s : State) :
    ((s.applyChange d i).dest d).state = s.outcomeFor d i (s.changedViewer d i) := by
  rw [applyChange_evaluates, (applyChange_awaits d i s).state]

theorem applyChange_state_during (d : DestId) (i : Fin 64) (s : State) (r : OrderRecord) :
    (((s.during r).applyChange d i).dest d).state = ((s.applyChange d i).dest d).state := by
  rw [applyChange_state, applyChange_state]
  rfl

theorem applyRetry_state_during (waits : (s.dest d).state = .held ∨ (s.dest d).state = .withheld) (shown : (s.dest d).service = some i)
    (r : OrderRecord) : (((s.during r).applyRetry d i).dest d).state = ((s.applyRetry d i).dest d).state := by
  rw [applyRetry_eq, applyRetry_eq, (applyRetry_awaits waits shown).state, (applyRetry_awaits (s := s.during r) waits shown).state]
  rfl

/-- A SELECT with outcome change, at a link at rest (R63). -/
theorem selectChange_settles (tag : Half) (rest : LinkAtRest s) (record : (s.service i).isSome = true)
    (change : (s.dest d).state = .vacant ∨ (s.dest d).service ≠ some i) : ∃ r l,
    exec (.select tag [sourceByte d, sourceByte i, 0]) s = .next { (s.during r).applyChange d i with link := l } ∧
    Replies .select [sourceByte d, sourceByte i, 0] s [0, (((s.during r).applyChange d i).dest d).state.byte,
      BitVec.ofNat 8 ((s.port (s.dest d).port).queue.countP fun c => c.isFor d)] ∧
    OthersKept d s { (s.during r).applyChange d i with link := l } := by
  let r : OrderRecord := ⟨Order.select.code, tag, [sourceByte d, sourceByte i, 0]⟩
  have run : runOrder .select [sourceByte d, sourceByte i, 0] (s.during r) = _ :=
    (orderSelect_now (s := s.during r) record).trans (orderSelectNow_change change)
  have here : runOrder .select [sourceByte d, sourceByte i, 0] s = _ := (orderSelect_now record).trans (orderSelectNow_change change)
  obtain ⟨l, next, others⟩ := exec_order_oneDest .select tag (v := s) rest rfl run (applyChange_oneDest d _ i).toOthersKept rfl
    ((applyChange_places d i _).mono (by decide)) (by simp)
  refine ⟨r, l, next, ?_, others⟩
  rw [Replies, here, applyChange_state_during]
  exact ⟨rfl, rfl⟩

/-- A SELECT with outcome retry, at a link at rest (R63). -/
theorem selectRetry_settles (tag : Half) (rest : LinkAtRest s) (record : (s.service i).isSome = true)
    (waits : (s.dest d).state = .held ∨ (s.dest d).state = .withheld) (shown : (s.dest d).service = some i) : ∃ r l,
    exec (.select tag [sourceByte d, sourceByte i, 0]) s = .next { (s.during r).applyRetry d i with link := l } ∧
    Replies .select [sourceByte d, sourceByte i, 0] s [2, (((s.during r).applyRetry d i).dest d).state.byte, 0] ∧
    OthersKept d s { (s.during r).applyRetry d i with link := l } := by
  let r : OrderRecord := ⟨Order.select.code, tag, [sourceByte d, sourceByte i, 0]⟩
  have run : runOrder .select [sourceByte d, sourceByte i, 0] (s.during r) = _ :=
    (orderSelect_now (s := s.during r) record).trans (orderSelectNow_retry waits shown)
  have here : runOrder .select [sourceByte d, sourceByte i, 0] s = _ := (orderSelect_now record).trans (orderSelectNow_retry waits shown)
  obtain ⟨l, next, others⟩ := exec_order_oneDest .select tag (v := s) rest rfl run (applyRetry_oneDest d _ i).toOthersKept rfl
    ((applyRetry_places d i _).mono (by decide)) (by simp)
  refine ⟨r, l, next, ?_, others⟩
  rw [Replies, here, applyRetry_state_during waits shown]
  exact ⟨rfl, rfl⟩

end

end Sys2Proof.Machine
end

