-- ==== Sys2Proof/Proofs/SelectOutcomes.lean ====
section
/-! SUPPORT. The state and the hold behind a change (R65, R66), and SELECT with outcome change and with outcome retry (R63 to R67). -/

namespace Sys2Proof.Machine

section
variable {d : DestId} {i : Fin 64} {s : State}

/-- The state of a VIEW destination changed (R66): a denial withholds it, else a restriction with the hold that stands, else the port and the required set
decide. -/
theorem applyChange_view_state (view : (s.dest d).kind = .view) :
    let p := s.profile (s.dest d).profile
    let f := s.formedFor p i (s.changedViewer d i).unlock
    let t := s.applyChange d i
    ((s.accessVerdict i).isDenied = false → f.verdict = .restricted →
      (t.dest d).state = if p.policy = .ask then .held else .withheld) ∧
    ((s.accessVerdict i).isDenied = false → f.verdict ≠ .restricted →
      (t.dest d).state = if s.portHalted (s.dest d).port then .withheld
        else if t.requiredSet (t.dest d) = [] then .presenting else .acquiring) := by
  intro p f t
  have awaits := applyChange_awaits d i s
  have evaluated := applyChange_evaluates d i s
  have hold := applyChange_hold (i := i) view
  refine ⟨fun allowed restricted => ?_, fun allowed free => ?_⟩
  · have state := awaits.state_restricted view allowed restricted
    rw [← evaluated] at state
    by_cases ask : p.policy = .ask
    · have opened := hold.trans (if_pos ⟨restricted, ask, allowed⟩)
      rw [if_pos ask, state, if_pos opened]
    · have closed := hold.trans (if_neg fun ⟨_, h, _⟩ => ask h)
      rw [if_neg ask, state, if_neg (by rw [closed]; exact HoldCondition.noConfusion)]
  · have state := awaits.state_free allowed fun _ => free
    rw [← awaits.required_evaluated, ← evaluated] at state
    exact state

theorem applyChange_record_state (record : (s.dest d).kind = .record) (allowed : (s.accessVerdict i).isDenied = false) :
    let t := s.applyChange d i
    (t.dest d).state = if s.portHalted (s.dest d).port then .withheld
      else if t.requiredSet (t.dest d) = [] then .presenting else .acquiring := by
  intro t
  have awaits := applyChange_awaits d i s
  have state := awaits.state_free allowed fun view => DestKind.noConfusion (record.symm.trans view)
  rw [← awaits.required_evaluated, ← applyChange_evaluates] at state
  exact state

theorem applyChange_denied (denied : (s.accessVerdict i).isDenied = true) : ((s.applyChange d i).dest d).state = .withheld := by
  rw [applyChange_evaluates]
  exact (applyChange_awaits d i s).state_denied denied

/-- The HOLD source behind a change (R65, R140). -/
theorem applyChange_holds (view : (s.dest d).kind = .view) :
    let p := s.profile (s.dest d).profile
    let f := s.formedFor p i (s.changedViewer d i).unlock
    let t := s.applyChange d i
    ((s.accessVerdict i).isDenied = false → f.verdict = .restricted → p.policy = .ask →
      (t.viewer d).hold = .opened ∧ t.attention.isPending .hold (sourceByte d) = true) ∧
    ((s.accessVerdict i).isDenied = true ∨ f.verdict ≠ .restricted ∨ p.policy = .blank →
      (t.viewer d).hold = .none ∧ ((s.viewer d).hold = .opened → t.attention.isPending .hold (sourceByte d) = false)) := by
  intro p f t
  have hold := applyChange_hold (i := i) view
  refine ⟨fun allowed restricted ask => ?_, fun none => ?_⟩
  · have opened := hold.trans (if_pos ⟨restricted, ask, allowed⟩)
    exact ⟨opened, applyChange_raises view opened⟩
  · have closed := hold.trans (if_neg fun ⟨restricted, ask, allowed⟩ => by
      rcases none with denied | free | blank
      · exact Bool.noConfusion (allowed.symm.trans denied)
      · exact free restricted
      · exact Policy.noConfusion (ask.symm.trans blank))
    exact ⟨closed, fun was => applyChange_quiet was closed⟩

end

/-- Settles O26: the two outcomes, part by part, of the part as the order found it with the order's record beside. -/
theorem selectChangeAndRetry : Obligations.SelectChangeAndRetry := by
  refine ⟨fun s tag d i rest record change => ?_, fun s tag d i rest record waits shown => ?_⟩
  · obtain ⟨r, l, next, replies, others⟩ := selectChange_settles tag rest record change
    have awaits := applyChange_awaits d i (s.during r)
    have evaluated := applyChange_evaluates d i (s.during r)
    have formed (view : (s.dest d).kind = .view) := awaits.verdict view
    have reasons (view : (s.dest d).kind = .view) := awaits.reasons view
    rw [← evaluated] at formed reasons
    have states (view : (s.dest d).kind = .view) := applyChange_view_state (s := s.during r) (i := i) view
    have holds (view : (s.dest d).kind = .view) := applyChange_holds (s := s.during r) (i := i) view
    have denied := applyChange_denied (s := s.during r) (d := d) (i := i)
    have recordState := applyChange_record_state (s := s.during r) (d := d) (i := i)
    have recorded (record : (s.dest d).kind = .record) := toldOfChange_record (s := s.during r) (i := i) record
    have unlock := applyChange_unlock (s := s.during r) (d := d) (i := i)
    have stall := applyChange_isPending (s := s.during r) (d := d) (i := i) (c := .stall) Cause.noConfusion
    have lapse := applyChange_isPending (s := s.during r) (d := d) (i := i) (c := .accessLapse) Cause.noConfusion
    have queue := applyChange_queue (s := s.during r) (d := d) (i := i)
    have last := applyChange_lastAccess (s := s.during r) (d := d) (i := i)
    have viewer := applyChange_viewer (s := s.during r) (d := d) (i := i)
    obtain ⟨x, row, service, access, parental, live, marks, run, key, reason, notice⟩ := applyChange_row d i (s.during r)
    have dest : ((s.during r).applyChange d i).dest d = x := by rw [row, setDest_dest_same]
    rw [← dest] at service access parental live marks run key reason notice
    clear dest row evaluated awaits
    generalize (s.during r).applyChange d i = t at *
    refine ⟨_, next, replies, fun view => ?_, fun record => ?_, fun stalled => stall.trans (if_pos ⟨rfl, stalled⟩),
      lapse.trans (if_neg fun ⟨h, _⟩ => Cause.noConfusion h), service, access, live, marks, run, key, notice,
      fun deny => ⟨denied deny, reason.trans deny⟩, recordState, queue, last, fun id event => ?_, fun u period => ?_, others⟩
    · obtain ⟨formed, agreed⟩ := formed view
      obtain ⟨restricted, free⟩ := states view
      obtain ⟨opened, closed⟩ := holds view
      exact ⟨formed, agreed, reasons view, denied, restricted, free, opened, closed⟩
    · obtain ⟨told, report⟩ := recorded record
      exact ⟨viewer.trans told, parental.trans report⟩
    · exact unlock.trans (periodOnly_event event)
    · exact unlock.trans (periodOnly_period period)
  · obtain ⟨r, l, next, replies, others⟩ := selectRetry_settles tag rest record waits shown
    have awaits := applyRetry_awaits (s := s.during r) waits shown
    have same : { s.dest d with service := some i } = s.dest d := service_shown shown
    have unlock := retriedViewer_unlock d i (s.during r)
    have formed (view : (s.dest d).kind = .view) := awaits.verdict view
    have reasons (view : (s.dest d).kind = .view) := awaits.reasons view
    have restricted (view : (s.dest d).kind = .view) := awaits.state_restricted view
    have free := awaits.state_free
    have denied := awaits.state_denied
    have recorded (record : (s.dest d).kind = .record) := applyRetry_record (s := s.during r) waits shown record
    have lapse := applyRetry_isPending (s := s.during r) waits shown (c := .accessLapse) Cause.noConfusion
    have ports := applyRetry_ports (s := s.during r) waits shown
    have last := applyRetry_lastAccess (s := s.during r) waits shown
    obtain ⟨x, row, service, access, -, key⟩ := applyRetry_row (s := s.during r) waits shown
    have dest : ((s.during r).applyRetry d i).dest d = x := by rw [row, setDest_dest_same]
    rw [← dest] at service access key
    clear dest row awaits
    rw [← applyRetry_eq] at formed reasons restricted free denied
    generalize (s.during r).applyRetry d i = t at *
    simp only [unlock] at reasons restricted free
    have unrestricted (record : (s.dest d).kind = .record) (allowed : (s.accessVerdict i).isDenied = false) :=
      free allowed fun view => DestKind.noConfusion (record.symm.trans view)
    refine ⟨_, next, replies, fun view => ?_, fun record => ?_, lapse, last, ports, service, access, key, denied,
      fun record allowed runs => ?_, others⟩
    · obtain ⟨formed, agreed⟩ := formed view
      exact ⟨formed, agreed, reasons view, restricted view, fun allowed unheld => same ▸ free allowed fun _ => unheld⟩
    · obtain ⟨viewer, parental⟩ := recorded record
      exact ⟨viewer, parental, fun allowed halted => (unrestricted record allowed).trans (if_pos halted)⟩
    · have state := (unrestricted record allowed).trans (if_neg fun halted => Bool.noConfusion (runs.symm.trans halted))
      exact same ▸ state

end Sys2Proof.Machine
end

