-- ==== Sys2Proof/Proofs/Keystream.lean ====
section
/-! SUPPORT. The descrambler (R85 to R90): the outcome of a programme cell, the keystream on numbers, and the payload word by word. -/

namespace Sys2Proof.Machine

/-! ## The outcome (R85) -/

section
variable (c : Cell) (slot : Option (Fin 32)) (s : State)

theorem outcome_clear (h : c.phase = 0) : s.outcome c slot = .clear := if_pos h

theorem outcome_a (h : c.phase = 1) : s.outcome c slot = s.keyedOutcome .a slot := by
  rw [State.outcome, h]
  rfl

theorem outcome_b (h : c.phase = 2) : s.outcome c slot = s.keyedOutcome .b slot := by
  rw [State.outcome, h]
  rfl

end

section
variable {s : State} {k : Fin 32} {h : PhaseName}

theorem keyedOutcome_empty (empty : ((s.keySlot k).phase h).valid = false) : s.keyedOutcome h (some k) = .unkeyed :=
  if_neg (Bool.eq_false_iff.mp empty)

theorem keyedOutcome_valid (valid : ((s.keySlot k).phase h).valid = true) :
    s.keyedOutcome h (some k) = .descrambled ((s.keySlot k).phase h).key := if_pos valid

end

/-- Settles O13, by the cell's phase, then the phase of the slot. -/
theorem programmeOutcome : Obligations.ProgrammeOutcome := by
  refine fun s c slot => ⟨outcome_clear c slot s, fun scrambled unslotted => ?_, fun k named => ?_⟩
  · subst unslotted
    rcases scrambled with a | b
    · exact outcome_a c none s a
    · exact outcome_b c none s b
  · subst named
    exact ⟨fun a empty => (outcome_a c _ s a).trans (keyedOutcome_empty empty),
      fun b empty => (outcome_b c _ s b).trans (keyedOutcome_empty empty),
      fun a valid => (outcome_a c _ s a).trans (keyedOutcome_valid valid),
      fun b valid => (outcome_b c _ s b).trans (keyedOutcome_valid valid)⟩

/-! ## The keystream on numbers (R89, R90) -/

/-- Steps 1 to 3 of R90 on a number below 2^32. -/
def generateNat (x : Nat) : Nat :=
  let x1 := x ^^^ (x * 8192 % 4294967296)
  let x2 := x1 ^^^ (x1 / 131072)
  x2 ^^^ (x2 * 32 % 4294967296)

theorem toNat_generate (x : Word) : (generate x).toNat = generateNat x.toNat := by
  simp [generate, generateNat, Nat.shiftLeft_eq, Nat.shiftRight_eq_div_pow]

theorem toNat_generate_iterate (n : Nat) (x : Word) : (generate^[n] x).toNat = generateNat^[n] x.toNat :=
  Function.Semiconj.iterate_right toNat_generate n x

theorem toNat_seed (flow : BitVec 14) (seq : BitVec 5) (kw0 : Word) : (seed flow seq kw0).toNat =
    if (flow.toNat * 65536 + seq.toNat * 256 + 90) ^^^ kw0.toNat = 0 then 1
    else (flow.toNat * 65536 + seq.toNat * 256 + 90) ^^^ kw0.toNat := by
  have small : flow.toNat * 65536 + seq.toNat * 256 + 90 < 2 ^ 32 := by omega
  have combined : (BitVec.ofNat 32 (flow.toNat * 65536 + seq.toNat * 256 + 90) ^^^ kw0).toNat =
      (flow.toNat * 65536 + seq.toNat * 256 + 90) ^^^ kw0.toNat := by
    rw [BitVec.toNat_xor, BitVec.toNat_ofNat, Nat.mod_eq_of_lt small]
  have zero : BitVec.ofNat 32 (flow.toNat * 65536 + seq.toNat * 256 + 90) ^^^ kw0 = 0 ↔
      (flow.toNat * 65536 + seq.toNat * 256 + 90) ^^^ kw0.toNat = 0 := by
    rw [← combined, BitVec.toNat_eq]
    rfl
  rw [seed, apply_ite BitVec.toNat, combined]
  exact if_congr zero rfl rfl

/-! ## The payload word by word (R90) -/

/-- Four bytes are the field of the word they make. -/
theorem bytes32_word (b0 b1 b2 b3 : Byte) : bytes32 (word [b0, b1, b2, b3] 0) = [b0, b1, b2, b3] := by
  show bytes32 ((b0 ++ b1) ++ (b2 ++ b3)) = _
  simp only [bytes32, bytes16, BitVec.extractLsb'_append_eq_left, BitVec.extractLsb'_append_eq_right]
  rfl

/-- The first word is met by the next value of the generator; the added key words take turns (R90). -/
theorem descrambleBytes_word (x k1 k2 k3 w : Word) (l : List Byte) : descrambleBytes x k1 k2 k3 (bytes32 w ++ l) =
    bytes32 (w ^^^ (generate x + k1)) ++ descrambleBytes (generate x) k2 k3 k1 l := by
  have first : word (bytes32 w ++ []) 0 = w := word_bytes32 w []
  conv_rhs => rw [← first]
  rfl

/-- The key word added to payload word `j`. -/
def addedKey (k1 k2 k3 : Word) (j : Nat) : Word := if j % 3 = 0 then k1 else if j % 3 = 1 then k2 else k3

theorem addedKey_succ (k1 k2 k3 : Word) (j : Nat) : addedKey k1 k2 k3 (j + 1) = addedKey k2 k3 k1 j := by
  unfold addedKey
  obtain h | h | h : j % 3 = 0 ∨ j % 3 = 1 ∨ j % 3 = 2 := by omega
  all_goals simp [Nat.add_mod, h]

/-- Bytes that fill a word begin with a word. -/
theorem exists_bytes32_append {l : List Byte} (h : 4 ≤ l.length) : ∃ w r, l = bytes32 w ++ r ∧ r.length + 4 = l.length := by
  match l with
  | b0 :: b1 :: b2 :: b3 :: r => exact ⟨word [b0, b1, b2, b3] 0, r, by rw [bytes32_word]; rfl, rfl⟩

/-- Word `j` is met by value `j + 1` of the generator with its added key word (R90). -/
theorem word_descrambleBytes (j : Nat) {l : List Byte} (within : 4 * j + 4 ≤ l.length) (x k1 k2 k3 : Word) :
    word (descrambleBytes x k1 k2 k3 l) (4 * j) = word l (4 * j) ^^^ (generate^[j + 1] x + addedKey k1 k2 k3 j) := by
  induction j generalizing l x k1 k2 k3 with
  | zero =>
    obtain ⟨w, r, rfl, -⟩ := exists_bytes32_append within
    rw [descrambleBytes_word]
    simp [addedKey]
  | succ j ih =>
    obtain ⟨w, r, rfl, length⟩ := exists_bytes32_append (l := l) (by omega)
    rw [descrambleBytes_word, Nat.mul_succ, word_bytes32_behind, word_bytes32_behind, ih (by omega), addedKey_succ]
    rfl

theorem descrambleBytes_length (x k1 k2 k3 : Word) (l : List Byte) : (descrambleBytes x k1 k2 k3 l).length = l.length := by
  induction x, k1, k2, k3, l using descrambleBytes.induct with
  | case1 x k1 k2 k3 b0 b1 b2 b3 rest y ih =>
    rw [descrambleBytes, List.length_append, bytes32_length, ih]
    simp only [List.length_cons]
    omega
  | case2 x k1 k2 k3 rest short => rw [descrambleBytes.eq_2 _ _ _ _ _ short]

/-- The keystream met twice leaves the bytes as they were (R90). -/
theorem descrambleBytes_twice (x k1 k2 k3 : Word) (l : List Byte) :
    descrambleBytes x k1 k2 k3 (descrambleBytes x k1 k2 k3 l) = l := by
  induction x, k1, k2, k3, l using descrambleBytes.induct with
  | case1 x k1 k2 k3 b0 b1 b2 b3 rest y ih =>
    rw [descrambleBytes, descrambleBytes_word, ih, BitVec.xor_assoc, BitVec.xor_self, BitVec.xor_zero, bytes32_word]
    rfl
  | case2 x k1 k2 k3 rest short => rw [descrambleBytes.eq_2 _ _ _ _ _ short, descrambleBytes.eq_2 _ _ _ _ _ short]

/-! ## The payload of a cell (R87, R89, R90) -/

theorem descramblePayload_rows (c : Cell) (key : Quarters) : (descramblePayload c key).rows =
    descrambleBytes (seed c.flowId c.seq key.q0) key.q1 key.q2 key.q3 c.payload.rows := by
  have length := (descrambleBytes_length (seed c.flowId c.seq key.q0) key.q1 key.q2 key.q3 c.payload.rows).trans c.payload.size
  rw [descramblePayload, payloadOf_rows length.le, length]
  simp

theorem payload_ext {p q : Payload} (h : p.rows = q.rows) : p = q := by
  cases p
  cases q
  congr

/-- The keystream is that of the header and the key, whatever the payload (R89, R90). -/
theorem descramblePayload_twice (c : Cell) (key : Quarters) :
    descramblePayload { c with payload := descramblePayload c key } key = c.payload := by
  refine payload_ext ?_
  rw [descramblePayload_rows]
  show descrambleBytes (seed c.flowId c.seq key.q0) _ _ _ (descramblePayload c key).rows = _
  rw [descramblePayload_rows, descrambleBytes_twice]

theorem descrambleCell_flowId (c : Cell) (key : Quarters) : (descrambleCell c key).flowId = c.flowId := by
  show BitVec.extractLsb' 0 6 (0#2 ++ c.phaseFlow.extractLsb' 0 6) ++ c.flowLow = c.flowId
  rw [BitVec.extractLsb'_append_eq_right]
  rfl

/-- Settles O14: the words by induction on their number, with the generator read as numbers. -/
theorem descrambling : Obligations.Descrambling := by
  refine ⟨fun c key => ?_, descramblePayload_twice,
    fun c key => ⟨descrambleCell_phase c key, descrambleCell_flowId c key, rfl, rfl, rfl, rfl, rfl, rfl, rfl⟩⟩
  intro combined turn j inside x added
  have value : (generate^[j + 1] (seed c.flowId c.seq key.q0)).toNat = x := by
    rw [toNat_generate_iterate, toNat_seed]
    rfl
  rw [descramblePayload_rows, word_descrambleBytes j (by rw [c.payload.size]; omega), BitVec.toNat_xor, BitVec.toNat_add, value]
  rfl

end Sys2Proof.Machine
end

