-- ==== Sys2Proof/Proofs/KeySlots.lean ====
section
/-! SUPPORT. The orders of the key slot table (R78 to R83): the fields of their bodies, and what a commit does to each destination (R56). -/

namespace Sys2Proof.Machine

/-! ## The fields of the orders (R171) -/

/-- The code of a phase. -/
def PhaseName.byte : PhaseName → Byte
  | .a => 1 | .b => 2

theorem phaseName_ofCode_byte (h : PhaseName) : PhaseName.ofCode h.byte.toNat = some h := by cases h <;> rfl

theorem phaseName_ofCode_none {x : Nat} (h : x ≠ 1 ∧ x ≠ 2) : PhaseName.ofCode x = none := by
  obtain ⟨one, two⟩ := h
  unfold PhaseName.ofCode
  split
  · exact absurd rfl one
  · exact absurd rfl two
  · rfl

/-! ## SET_COMMIT_MASK, CLEAR_KEY and READ_KEY_STATE (R81 to R83) -/

theorem orderSetCommitMask_eq (k : Fin 32) (m : BitVec 4) (s : State) : orderSetCommitMask [sourceByte k, BitVec.ofNat 8 m.toNat] s =
    .done (s.setKeySlot k { s.keySlot k with commitMask := m }) [BitVec.ofNat 8 m.toNat] := by
  have small : m.toNat < 16 := m.isLt
  have mask : m.toNat % 256 = m.toNat := by omega
  simp [orderSetCommitMask, mask, small, bytes8]

theorem orderSetCommitMask_range {k m : Byte} (h : 32 ≤ k.toNat ∨ 16 ≤ m.toNat) (s : State) :
    orderSetCommitMask [k, m] s = .refuse s .range := by
  unfold orderSetCommitMask
  split
  · next slot mask =>
    rcases h with h | h
    · simp [below_ge h] at slot
    · simp [below_ge h] at mask
  · rfl

theorem orderClearKey_eq (k : Fin 32) (h : PhaseName) (s : State) : orderClearKey [sourceByte k, h.byte] s =
    .done (s.setKeySlot k ((s.keySlot k).setPhase h ((s.keySlot k).phase h).clear)) [((s.keySlot k).phase h).byte] := by
  simp [orderClearKey, phaseName_ofCode_byte]

theorem orderClearKey_range {k h : Byte} (range : 32 ≤ k.toNat ∨ (h.toNat ≠ 1 ∧ h.toNat ≠ 2)) (s : State) :
    orderClearKey [k, h] s = .refuse s .range := by
  unfold orderClearKey
  split
  · next slot phase =>
    rcases range with range | range
    · simp [below_ge range] at slot
    · simp [phaseName_ofCode_none range] at phase
  · rfl

theorem orderReadKeyState_eq (k : Fin 32) (s : State) : orderReadKeyState [sourceByte k] s =
    .done s [(s.keySlot k).a.byte, (s.keySlot k).b.byte, BitVec.ofNat 8 (s.keySlot k).commitMask.toNat] := by
  simp [orderReadKeyState, bytes8]

/-- Settles O32, order by order. -/
theorem keySlotOrders : Obligations.KeySlotOrders := by
  refine fun s tag h => ⟨fun k m => ?_, fun k m range => ?_, fun k => ⟨?_, ?_⟩, fun k x range => ?_, fun k => ?_, fun k range => ?_⟩
  · exact exec_order_answered .setCommitMask tag h rfl (by simp) (orderSetCommitMask_eq k m _) rfl
  · exact exec_order_refused .setCommitMask tag h rfl (orderSetCommitMask_range range)
  · exact exec_order_answered .clearKey tag h rfl (by simp) (orderClearKey_eq k .a _) rfl
  · exact exec_order_answered .clearKey tag h rfl (by simp) (orderClearKey_eq k .b _) rfl
  · exact exec_order_refused .clearKey tag h rfl (orderClearKey_range range)
  · exact exec_order_read .readKeyState tag h rfl (by simp) (orderReadKeyState_eq k _)
  · exact exec_order_refused .readKeyState tag h rfl fun u => by simp [runOrder, orderReadKeyState, range]

/-! ## A key committed (R56) -/

/-- Destination `x` is withheld for a key that slot `k` gives an entry of its required set. -/
def State.AwaitsKey (s : State) (k : Fin 32) (x : Dest) : Prop :=
  x.state ≠ .vacant ∧ x.reasons.key = true ∧ ∃ m ∈ s.requiredSet x, m.2.keySlot = some k

/-- The turn of a destination when the controller is told of a commit to slot `k`. -/
def State.keyTurn (k : Fin 32) (d : DestId) (s : State) : State :=
  let x := s.dest d
  if x.state != .vacant && x.reasons.key && (s.requiredSet x).any (fun m => m.2.keySlot == some k) then
    (s.setDest d { x with reasons := { x.reasons with key := false } }).evaluate d
  else s

theorem keyCommitted_eq (k : Fin 32) (s : State) : s.keyCommitted k = s.eachDest (State.keyTurn k) := rfl

/-- Destination `d` without KEY among its reasons. -/
def State.unbarred (d : DestId) (s : State) : State :=
  s.setDest d { s.dest d with reasons := { (s.dest d).reasons with key := false } }

section
variable {k : Fin 32} {d : DestId} {s : State}

theorem keyTurn_cond_iff : ((s.dest d).state != .vacant && (s.dest d).reasons.key &&
    (s.requiredSet (s.dest d)).any (fun m => m.2.keySlot == some k)) = true ↔ s.AwaitsKey k (s.dest d) := by
  simp only [State.AwaitsKey, Bool.and_eq_true, bne_iff_ne, List.any_eq_true, beq_iff_eq, and_assoc]

theorem keyTurn_awaits (h : s.AwaitsKey k (s.dest d)) : s.keyTurn k d = (s.unbarred d).evaluate d := if_pos (keyTurn_cond_iff.mpr h)

theorem keyTurn_other (h : ¬ s.AwaitsKey k (s.dest d)) : s.keyTurn k d = s := if_neg (mt keyTurn_cond_iff.mp h)

theorem unbarred_dest : (s.unbarred d).dest d = { s.dest d with reasons := { (s.dest d).reasons with key := false } } :=
  setDest_dest_same s d _

theorem keyTurn_alone (k : Fin 32) (d : DestId) (s : State) : DestAlone d s (s.keyTurn k d) :=
  .ite ((setDest_alone (by constructor <;> rfl)).trans (evaluate_alone d _)) (.refl d s)

theorem keyTurn_places (k : Fin 32) (d : DestId) (s : State) : Places 1 s (s.keyTurn k d) :=
  .ite (.before (by rfl) (evaluate_places d _)) (.refl s)

/-- An evaluation forms the reason set anew, and KEY does not come back (R46, R56). -/
theorem keyTurn_key (h : s.AwaitsKey k (s.dest d)) : ((s.keyTurn k d).dest d).reasons.key = false := by
  have turn := keyTurn_awaits h
  obtain ⟨live, -⟩ := h
  rw [turn, evaluate_reasons (by rw [unbarred_dest]; exact live), unbarred_dest]
  rfl

/-- Where a destination withheld for a key does not deliver, its turn touches no port: it has no cell to purge (R47). -/
theorem keyTurn_ports (idle : (s.dest d).reasons.key = true → (s.dest d).state.delivering = false) : (s.keyTurn k d).ports = s.ports := by
  by_cases awaits : s.AwaitsKey k (s.dest d)
  · have turn := keyTurn_awaits awaits
    obtain ⟨live, key, -⟩ := awaits
    obtain ⟨_, _, _, _, evaluated, -⟩ := evaluate_idle (s := s.unbarred d) (d := d) (by rw [unbarred_dest]; exact live)
      (by rw [unbarred_dest]; exact idle key)
    rw [turn, evaluated]
    rfl
  · rw [keyTurn_other awaits]

end

/-- No destination whose reasons name KEY delivers. -/
def KeyWithholds (s : State) : Prop := ∀ d, (s.dest d).reasons.key = true → (s.dest d).state.delivering = false

theorem keyTurn_keyWithholds {s : State} (h : KeyWithholds s) (k : Fin 32) (d : DestId) : KeyWithholds (s.keyTurn k d) := by
  intro e
  by_cases awaits : s.AwaitsKey k (s.dest d)
  · by_cases same : e = d
    · subst same
      rw [keyTurn_key awaits]
      exact (Bool.noConfusion ·)
    · rw [(keyTurn_alone k d s).dests e same]
      exact h e
  · rw [keyTurn_other awaits]
    exact h e

theorem keyCommitted_ports {s : State} (h : KeyWithholds s) (k : Fin 32) : (s.keyCommitted k).ports = s.ports :=
  (eachDest_keeps (P := fun u => u.ports = s.ports ∧ KeyWithholds u)
    (fun d _ ⟨ports, withholds⟩ => ⟨(keyTurn_ports (withholds d)).trans ports, keyTurn_keyWithholds withholds k d⟩) ⟨rfl, h⟩).1

theorem keyCommitted_places (k : Fin 32) (s : State) : Places 12 s (s.keyCommitted k) := .eachDest (n := 1) (keyTurn_places k) s

/-- A commit comes to the turn of `d`, which finds the destination as the commit found it. -/
theorem keyCommitted_turn (k : Fin 32) (d : DestId) (s : State) :
    ∃ u : State, (u.dest d = s.dest d ∧ u.flows = s.flows) ∧ (s.keyCommitted k).dest d = (u.keyTurn k d).dest d := by
  rw [keyCommitted_eq]
  refine eachDest_once (P := fun u : State => u.dest d = s.dest d ∧ u.flows = s.flows)
    (Q := fun t : State => ∃ u : State, (u.dest d = s.dest d ∧ u.flows = s.flows) ∧ t.dest d = (u.keyTurn k d).dest d) d ?_ ?_ ?_ ⟨rfl, rfl⟩
  · rintro e u other ⟨dest, flows⟩
    exact ⟨((keyTurn_alone k e u).dests d other).trans dest, (keyTurn_alone k e u).flows.trans flows⟩
  · exact fun u found => ⟨u, found, rfl⟩
  · rintro e t other ⟨u, found, turned⟩
    exact ⟨u, found, ((keyTurn_alone k e t).dests d other).trans turned⟩

theorem awaitsKey_congr {s u : State} {x : Dest} (flows : u.flows = s.flows) (k : Fin 32) : u.AwaitsKey k x ↔ s.AwaitsKey k x := by
  unfold State.AwaitsKey
  rw [requiredSet_congr flows rfl rfl]

/-- KEY leaves every destination whose required set reads the slot (R56). -/
theorem keyCommitted_key {k : Fin 32} {d : DestId} {s : State} (live : (s.dest d).state ≠ .vacant)
    (reads : ∃ m ∈ s.requiredSet (s.dest d), m.2.keySlot = some k) : ((s.keyCommitted k).dest d).reasons.key = false := by
  obtain ⟨u, ⟨dest, flows⟩, turned⟩ := keyCommitted_turn k d s
  rw [turned]
  cases key : (s.dest d).reasons.key with
  | true =>
    refine keyTurn_key ?_
    rw [dest, awaitsKey_congr flows]
    exact ⟨live, key, reads⟩
  | false =>
    have unbarred : ¬ u.AwaitsKey k (u.dest d) := by
      rw [dest]
      exact fun ⟨_, barred, _⟩ => Bool.noConfusion (key.symm.trans barred)
    rw [keyTurn_other unbarred, dest, key]

theorem keyCommitted_same {k : Fin 32} {d : DestId} {s : State} (h : ¬ s.AwaitsKey k (s.dest d)) :
    (s.keyCommitted k).dest d = s.dest d := by
  obtain ⟨u, ⟨dest, flows⟩, turned⟩ := keyCommitted_turn k d s
  rw [turned, keyTurn_other, dest]
  rwa [dest, awaitsKey_congr flows]

/-! ## LOAD_KEY_QUARTER (R78, R79) -/

/-- The bytes of a LOAD_KEY_QUARTER body. -/
def quarterBody (k : Fin 32) (h : PhaseName) (q : Fin 4) (v : Word) : List Byte := [sourceByte k, h.byte, sourceByte q] ++ bytes32 v

/-- The slot with the quarter staged and the phase committed (R78, R79). -/
def State.withCommit (k : Fin 32) (h : PhaseName) (q : Fin 4) (v : Word) (s : State) : State :=
  s.setKeySlot k ((s.keySlot k).setPhase h (((s.keySlot k).phase h).stage q v).commit)

section
variable {s : State} {k : Fin 32} {q : Fin 4} (h : PhaseName) (v : Word)

theorem orderLoadKeyQuarter_eq : orderLoadKeyQuarter (quarterBody k h q v) s =
    let x := ((s.keySlot k).phase h).stage q v
    if (s.keySlot k).commitMask.getLsbD q.val then
      .done ((s.setKeySlot k ((s.keySlot k).setPhase h x.commit)).keyCommitted k) (flag true ++ [x.commit.byte])
    else .done (s.setKeySlot k ((s.keySlot k).setPhase h x)) (flag false ++ [x.byte]) := by
  have value : word (bytes32 v) 0 = v := word_bytes32 v []
  simp [orderLoadKeyQuarter, quarterBody, phaseName_ofCode_byte, value]

theorem orderLoadKeyQuarter_stages (unmasked : (s.keySlot k).commitMask.getLsbD q.val = false) :
    orderLoadKeyQuarter (quarterBody k h q v) s =
      .done (s.setKeySlot k ((s.keySlot k).setPhase h (((s.keySlot k).phase h).stage q v)))
        [0, if ((s.keySlot k).phase h).valid then 1 else 0] := by
  rw [orderLoadKeyQuarter_eq]
  exact if_neg (Bool.eq_false_iff.mp unmasked)

theorem orderLoadKeyQuarter_commits (masked : (s.keySlot k).commitMask.getLsbD q.val = true) :
    orderLoadKeyQuarter (quarterBody k h q v) s = .done ((s.withCommit k h q v).keyCommitted k) [1, 1] := by
  rw [orderLoadKeyQuarter_eq]
  exact if_pos masked

end

theorem orderLoadKeyQuarter_range {k h q : Byte} (range : 32 ≤ k.toNat ∨ (h.toNat ≠ 1 ∧ h.toNat ≠ 2) ∨ 4 ≤ q.toNat) (v : Word) (s : State) :
    orderLoadKeyQuarter ([k, h, q] ++ bytes32 v) s = .refuse s .range := by
  unfold orderLoadKeyQuarter
  split
  · next slot phase quarter =>
    rcases range with range | range | range
    · simp [below_ge range] at slot
    · simp [phaseName_ofCode_none range] at phase
    · simp [below_ge range] at quarter
  · rfl

/-! ## The order on a link at rest -/

/-- An order on a link at rest whose effect keeps the units and places at most sixty attention records: the ports and the destinations are as the effect
leaves them. -/
theorem exec_order_unitsSettled (o : Order) (tag : Half) {b : List Byte} {s v u : State} {res : Result} {body : List Byte}
    (h : LinkAtRest s) (hb : b.length = o.bodyLength) (hr : runOrder o b (s.during ⟨o.code, tag, b⟩) = ⟨u, res, body⟩)
    (hk : UnitsKept (v.during ⟨o.code, tag, b⟩) u) (hv : v.link = s.link) (hn : Places 60 (s.during ⟨o.code, tag, b⟩) u)
    (hl : body.length ≤ 178) :
    ∃ t, exec (orderCommand o tag b) s = .next t ∧ UnitsKept v t ∧ t.ports = u.ports ∧ ∀ d, t.dest d = u.dest d := by
  obtain ⟨l, next, settled⟩ := exec_order_settled o tag h hb hr hk.toSettled hv hn hl
  exact ⟨{ u with link := l }, next, ⟨settled, hk.access, hk.parental⟩, rfl, fun _ => rfl⟩

/-- A LOAD_KEY_QUARTER that commits, on a link at rest: the slot is written, and the controller has taken the announcement (R56, R79). -/
theorem exec_loadKeyQuarter_commits {s : State} (rest : LinkAtRest s) (tag : Half) {k : Fin 32} {q : Fin 4} (h : PhaseName) (v : Word)
    (masked : (s.keySlot k).commitMask.getLsbD q.val = true) :
    ∃ r t, exec (.loadKeyQuarter tag (quarterBody k h q v)) s = .next t ∧ UnitsKept (s.withCommit k h q v) t ∧
      t.ports = (((s.withCommit k h q v).during r).keyCommitted k).ports ∧
      ∀ d, t.dest d = (((s.withCommit k h q v).during r).keyCommitted k).dest d :=
  ⟨_, exec_order_unitsSettled .loadKeyQuarter tag (v := s.withCommit k h q v) (u := ((s.withCommit k h q v).during _).keyCommitted k) rest rfl
    (orderLoadKeyQuarter_commits (s := s.during _) h v masked) (keyCommitted_frame k _) rfl
    ((Places.before (by rfl) (keyCommitted_places k _)).mono (by decide)) (by decide)⟩

/-- Settles O31: by the commit mask; a commit then destination by destination. -/
theorem keyLoadAndCommit : Obligations.KeyLoadAndCommit := by
  refine fun s tag rest => ⟨fun k h q v => ?_, fun k h q v range => ?_⟩
  · intro slot x staged body
    have fields : body = quarterBody k h q v := by cases h <;> rfl
    have quarters : staged = x.staging.set q v := rfl
    rw [fields, quarters]
    refine ⟨fun unmasked => ?_, fun masked => ?_⟩
    · exact exec_order_answered .loadKeyQuarter tag rest rfl (by simp) (orderLoadKeyQuarter_stages (s := s.during _) h v unmasked) rfl
    · have answer := orderLoadKeyQuarter_commits h v masked
      obtain ⟨r, t, next, kept, ports, dests⟩ := exec_loadKeyQuarter_commits rest tag h v masked
      refine ⟨⟨congrArg Answer.result answer, congrArg Answer.body answer⟩, t, next, kept, fun withholds => ?_, fun d live reads => ?_,
        fun d unawaited => ?_⟩
      · exact ports.trans (keyCommitted_ports (s := (s.withCommit k h q v).during r) withholds k)
      · rw [dests]
        exact keyCommitted_key (s := (s.withCommit k h q v).during r) live reads
      · refine (dests d).trans (keyCommitted_same (s := (s.withCommit k h q v).during r) fun ⟨live, key, m, mem, reads⟩ => ?_)
        rcases unawaited with vacant | unbarred | unread
        · exact live vacant
        · exact Bool.noConfusion (unbarred.symm.trans key)
        · exact unread m mem reads
  · exact exec_order_refused .loadKeyQuarter tag rest rfl (orderLoadKeyQuarter_range range v)

end Sys2Proof.Machine
end

