-- ==== Sys2Proof/Proofs/EntitlementOrders.lean ====
section
/-! SUPPORT. The orders of the access unit (R94 to R97): the place of a key in the entitlement table, the verdicts that a table written brings (R103,
R104), and what GRANT_ENTITLEMENT, REVOKE_ENTITLEMENT and READ_ENTITLEMENT come to. -/

namespace Sys2Proof

/-! ## The first row that a search accepts, and the number of rows -/

section
variable {α : Type} {n : Nat} {p : α → Bool} {t : Table α n}

theorem Table.firstIdx_eq_find? : t.firstIdx p = Fin.find? fun i => p (t.read i) := by
  rw [Table.firstIdx, Table.entries_eq_map, List.find?_map, Option.map_map, Fin.find?_eq_find?_finRange]
  exact Option.map_id'

theorem Table.firstIdx_eq_some {i : Fin n} : t.firstIdx p = some i ↔ p (t.read i) = true ∧ ∀ j < i, p (t.read j) = false := by
  rw [Table.firstIdx_eq_find?, Fin.find?_eq_some_iff]

theorem Table.firstIdx_eq_none : t.firstIdx p = none ↔ ∀ i, p (t.read i) = false := by
  rw [Table.firstIdx_eq_find?, Fin.find?_eq_none_iff]

/-- A row written leaves the count of the other rows. -/
theorem Table.count_write (t : Table α n) (i : Fin n) (x : α) :
    (t.write i x).count p = t.count p - (if p (t.read i) then 1 else 0) + if p x then 1 else 0 :=
  List.countP_set _

end

end Sys2Proof

namespace Sys2Proof.Machine

/-! ## The place of a key (R94) -/

/-- Place `i` of the entitlement table holds a record with this key. -/
def State.KeyAt (s : State) (key : EntitlementKey) (i : Fin 48) : Prop := ∃ e, s.access.table.read i = some e ∧ e.key = key

section
variable {s : State} {key : EntitlementKey} {i : Fin 48}

theorem keyAt_iff : (s.access.table.read i).any (·.key == key) = true ↔ s.KeyAt key i := by
  rw [Option.any_eq_true]
  exact exists_congr fun e => and_congr_right' beq_iff_eq

theorem not_keyAt_iff : (s.access.table.read i).any (·.key == key) = false ↔ ¬ s.KeyAt key i := by
  rw [← keyAt_iff, Bool.not_eq_true]

theorem entitlementPlace_of_first (stands : s.KeyAt key i) (first : ∀ j < i, ¬ s.KeyAt key j) : s.entitlementPlace key = some i :=
  Table.firstIdx_eq_some.mpr ⟨keyAt_iff.mpr stands, fun j below => not_keyAt_iff.mpr (first j below)⟩

theorem entitlementPlace_none (absent : ∀ j, ¬ s.KeyAt key j) : s.entitlementPlace key = none :=
  Table.firstIdx_eq_none.mpr fun j => not_keyAt_iff.mpr (absent j)

theorem firstEmpty_of_first (empty : s.access.table.read i = none) (first : ∀ j < i, s.access.table.read j ≠ none) :
    s.access.table.firstIdx Option.isNone = some i :=
  Table.firstIdx_eq_some.mpr ⟨Option.isNone_iff_eq_none.mpr empty, fun j below => Option.isNone_eq_false_iff.mpr
    (Option.isSome_iff_ne_none.mpr (first j below))⟩

theorem firstEmpty_none (full : ∀ j, s.access.table.read j ≠ none) : s.access.table.firstIdx Option.isNone = none :=
  Table.firstIdx_eq_none.mpr fun j => Option.isNone_eq_false_iff.mpr (Option.isSome_iff_ne_none.mpr (full j))

end

/-! ## The number of records once a place is written -/

section
variable {t : Table (Option Entitlement) 48} {i : Fin 48}

theorem count_replaced {e : Entitlement} (x : Entitlement) (stands : t.read i = some e) :
    (t.write i (some x)).count Option.isSome = (t.rows.filter (·.isSome)).length := by
  have held : 0 < t.count Option.isSome := List.countP_pos_iff.mpr ⟨some e, stands ▸ t.read_mem i, rfl⟩
  rw [Table.count_write, stands]
  exact (Nat.sub_add_cancel held).trans List.countP_eq_length_filter

theorem count_filled (x : Entitlement) (empty : t.read i = none) :
    (t.write i (some x)).count Option.isSome = (t.rows.filter (·.isSome)).length + 1 := by
  rw [Table.count_write, empty, Table.count, List.countP_eq_length_filter]
  rfl

theorem count_emptied {e : Entitlement} (stands : t.read i = some e) :
    (t.write i none).count Option.isSome = (t.rows.filter (·.isSome)).length - 1 := by
  rw [Table.count_write, stands, Table.count, List.countP_eq_length_filter]
  rfl

end

/-! ## The verdicts formed on a table written (R103, R104) -/

/-- Every verdict formed: the access unit has handed each destination its own (R104). -/
theorem formAccessNow_handed (s : State) : AccessHanded s (s.formAccessNow fun _ => true) := by
  intro d
  refine ⟨fun vacant => ?_, fun i live shown => ?_⟩
  · refine formAccessNow_other fun v mem => ?_
    obtain ⟨_, -, live, -⟩ := mem_accessReports.mp mem
    exact live vacant
  · have stands := formAccessNow_stands (named := fun _ => true) live shown rfl
    refine ⟨⟨stands, fun agreed => ?_⟩, fun last => ?_⟩
    · rw [← stands, formAccessNow_last, agreed]
      exact (formAccessNow_bound _ live).access
    · have frame := formAccessNow_frame (fun _ => true) s
      rw [accessVerdict_congr frame.toDeliveryFrame frame.table] at last
      refine formAccessNow_other fun v mem => ?_
      obtain ⟨j, other, -, -, verdict, differs⟩ := mem_accessReports.mp mem
      obtain rfl := Option.some.inj (other.symm.trans shown)
      exact differs (verdict ▸ last)

/-- Place `i` of the entitlement table is written, and every verdict formed on it (R95, R96). -/
def State.entitlementFormed (i : Fin 48) (x : Option Entitlement) (s : State) : State :=
  (s.setEntitlement i x).formAccessNow fun _ => true

theorem entitlementFormed_count (i : Fin 48) (x : Option Entitlement) (s : State) :
    (s.entitlementFormed i x).entitlementCount = (s.access.table.write i x).count Option.isSome :=
  congrArg (Table.count Option.isSome) (formAccessNow_frame _ (s.setEntitlement i x)).table

/-- An order on a link at rest that writes a place of the entitlement table and forms every verdict (R95, R96). -/
theorem exec_entitlementFormed (o : Order) (tag : Half) {b body : List Byte} {s : State} {i : Fin 48} {x : Option Entitlement}
    (rest : LinkAtRest s) (hb : b.length = o.bodyLength) (short : body.length ≤ 178)
    (run : ∀ l, runOrder o b { s with link := l } = .done (State.entitlementFormed i x { s with link := l }) body) :
    Replies o b s body ∧ ∃ t, exec (orderCommand o tag b) s = .next t ∧ AccessHanded s t ∧ Settled (s.setEntitlement i x) t := by
  have here : runOrder o b s = .done (s.entitlementFormed i x) body := run s.link
  refine ⟨⟨congrArg Answer.result here, congrArg Answer.body here⟩, ?_⟩
  obtain ⟨r, same⟩ : ∃ r : OrderRecord, r = ⟨o.code, tag, b⟩ := ⟨_, rfl⟩
  have ran : runOrder o b (s.during r) = .done ((s.during r).entitlementFormed i x) body := run _
  have settled : Settled ((s.setEntitlement i x).during r) ((s.during r).entitlementFormed i x) := formAccessNow_frame _ _
  have places : Places 60 (s.during r) ((s.during r).entitlementFormed i x) :=
    (Places.before (by rfl) (formAccessNow_places ((s.during r).setEntitlement i x) _)).mono (by decide)
  have handed : AccessHanded ((s.during r).setEntitlement i x) ((s.during r).entitlementFormed i x) := formAccessNow_handed _
  generalize (s.during r).entitlementFormed i x = u at *
  subst same
  obtain ⟨l, next, atRest⟩ := exec_order_settled o tag rest hb ran settled rfl places short
  refine ⟨_, next, fun d => ?_, atRest⟩
  obtain ⟨kept, formed⟩ := handed d
  refine ⟨kept, fun j live shown => ?_⟩
  obtain ⟨⟨last, report⟩, same⟩ := formed j live shown
  exact ⟨⟨last, report⟩, same⟩

/-! ## The key that a body names (R95, R171) -/

/-- Where the kind or the product code is out of range, the body names no key. -/
theorem entitlementKey_none {kind : Byte} {p : Half} (range : 2 ≤ kind.toNat ∨ p = 0) (l : List Byte) :
    entitlementKey (kind :: bytes16 p ++ l) = none := by
  have priced : half (kind :: bytes16 p ++ l) 1 = p := bytes16_join p
  by_cases zero : p = 0
  · exact if_pos (priced.trans zero)
  · have kinded : 2 ≤ field8 (kind :: bytes16 p ++ l) 0 := range.resolve_right zero
    unfold entitlementKey
    rw [priced, if_neg zero]
    split
    · omega
    · omega
    · rfl

/-- The bytes of a GRANT_ENTITLEMENT body. -/
def grantBody (key : EntitlementKey) (start stop : Word) : List Byte := keyBody key ++ bytes32 start ++ bytes32 stop

section
variable {key : EntitlementKey} {start stop : Word}

theorem keyBody_length : (keyBody key).length = 5 := by cases key <;> rfl

theorem entitlementKey_keyBody (product : key.product ≠ 0) (l : List Byte) : entitlementKey (keyBody key ++ l) = some key := by
  cases key with
  | subscription p =>
    have priced : half (keyBody (.subscription p) ++ l) 1 = p := bytes16_join p
    unfold entitlementKey
    rw [priced]
    exact if_neg product
  | event p id =>
    have priced : half (keyBody (.event p id) ++ l) 1 = p := bytes16_join p
    have named : half (keyBody (.event p id) ++ l) 3 = id := bytes16_join id
    unfold entitlementKey
    rw [priced, named]
    exact if_neg product

theorem entitlementKey_grantBody (product : key.product ≠ 0) : entitlementKey (grantBody key start stop) = some key := by
  rw [grantBody, List.append_assoc]
  exact entitlementKey_keyBody product _

@[simp] theorem word_grantBody_start : word (grantBody key start stop) 5 = start := by
  cases key <;> exact word_bytes32 start (bytes32 stop)

@[simp] theorem word_grantBody_stop : word (grantBody key start stop) 9 = stop := by
  cases key <;> exact word_bytes32 stop []

theorem grantBody_length : (grantBody key start stop).length = 13 := by
  simp [grantBody, keyBody_length]

end

/-! ## GRANT_ENTITLEMENT (R95) -/

section
variable {s : State} {key : EntitlementKey} {start stop : Word} {i : Fin 48} {tag : Half}

theorem orderGrantEntitlement_keyless {b : List Byte} (keyless : entitlementKey b = none) (s : State) :
    orderGrantEntitlement b s = .refuse s .range := by
  simp [orderGrantEntitlement, keyless]

theorem orderGrantEntitlement_spanless (product : key.product ≠ 0) (span : stop.toNat ≤ start.toNat) (s : State) :
    orderGrantEntitlement (grantBody key start stop) s = .refuse s .range := by
  simp [orderGrantEntitlement, entitlementKey_grantBody product, span]

theorem orderGrantEntitlement_replaces (product : key.product ≠ 0) (span : start.toNat < stop.toNat)
    (place : s.entitlementPlace key = some i) :
    orderGrantEntitlement (grantBody key start stop) s = storeEntitlement i ⟨key, start, stop⟩ 1 s := by
  simp [orderGrantEntitlement, entitlementKey_grantBody product, span.not_ge, place]

theorem orderGrantEntitlement_fills (product : key.product ≠ 0) (span : start.toNat < stop.toNat)
    (absent : s.entitlementPlace key = none) (empty : s.access.table.firstIdx Option.isNone = some i) :
    orderGrantEntitlement (grantBody key start stop) s = storeEntitlement i ⟨key, start, stop⟩ 0 s := by
  simp [orderGrantEntitlement, entitlementKey_grantBody product, span.not_ge, absent, empty]

theorem orderGrantEntitlement_full (product : key.product ≠ 0) (span : start.toNat < stop.toNat)
    (absent : s.entitlementPlace key = none) (full : s.access.table.firstIdx Option.isNone = none) :
    orderGrantEntitlement (grantBody key start stop) s = .refuse s .tableFull := by
  simp [orderGrantEntitlement, entitlementKey_grantBody product, span.not_ge, absent, full]

/-- The record is written, and the reply counts the table as written. -/
theorem storeEntitlement_eq (i : Fin 48) (e : Entitlement) (outcome : Byte) (s : State) : storeEntitlement i e outcome s =
    .done (s.entitlementFormed i (some e))
      [sourceByte i, outcome, BitVec.ofNat 8 ((s.access.table.write i (some e)).count Option.isSome)] := by
  rw [← entitlementFormed_count]
  rfl

/-- A GRANT_ENTITLEMENT that is taken, on a link at rest. -/
theorem exec_grantEntitlement {b : List Byte} {e : Entitlement} {outcome : Byte} (rest : LinkAtRest s) (length : b.length = 13)
    (stores : ∀ l, orderGrantEntitlement b { s with link := l } = storeEntitlement i e outcome { s with link := l }) :
    Replies .grantEntitlement b s
      [sourceByte i, outcome, BitVec.ofNat 8 ((s.access.table.write i (some e)).count Option.isSome)] ∧
    ∃ t, exec (.grantEntitlement tag b) s = .next t ∧ AccessHanded s t ∧ Settled (s.setEntitlement i (some e)) t :=
  exec_entitlementFormed .grantEntitlement tag rest length (by simp) fun l => (stores l).trans (storeEntitlement_eq i e outcome _)

end

/-! ## REVOKE_ENTITLEMENT (R96) -/

section
variable {s : State} {key : EntitlementKey} {i : Fin 48}

theorem entitlementKey_keyBody_alone (product : key.product ≠ 0) : entitlementKey (keyBody key) = some key := by
  simpa using entitlementKey_keyBody product []

theorem orderRevokeEntitlement_keyless {b : List Byte} (keyless : entitlementKey b = none) (s : State) :
    orderRevokeEntitlement b s = .refuse s .range := by
  simp [orderRevokeEntitlement, keyless]

theorem orderRevokeEntitlement_absent (product : key.product ≠ 0) (absent : s.entitlementPlace key = none) :
    orderRevokeEntitlement (keyBody key) s = .refuse s .noEntry := by
  simp [orderRevokeEntitlement, entitlementKey_keyBody_alone product, absent]

theorem orderRevokeEntitlement_empties (product : key.product ≠ 0) (place : s.entitlementPlace key = some i) :
    orderRevokeEntitlement (keyBody key) s = .done (s.entitlementFormed i none)
      [sourceByte i, BitVec.ofNat 8 ((s.access.table.write i none).count Option.isSome)] := by
  rw [← entitlementFormed_count]
  simp [orderRevokeEntitlement, entitlementKey_keyBody_alone product, place, State.entitlementFormed, bytes8, sourceByte]

end

/-! ## READ_ENTITLEMENT (R97) -/

section
variable {s : State} {i : Fin 48}

/-- The reply of READ_ENTITLEMENT. -/
def State.entitlementReply (s : State) (i : Fin 48) : List Byte :=
  shown 14 Entitlement.bytes (s.access.table.read i) ++ shown 1 flag ((s.access.table.read i).bind s.entitlementValidity)

theorem Entitlement.bytes_length (e : Entitlement) : e.bytes.length = 14 := by
  have event : (shown 2 bytes16 e.key.eventId).length = 3 := shown_length bytes16_length _
  simp [Entitlement.bytes, event]

theorem entitlementReply_length : (s.entitlementReply i).length = 17 := by
  have record : (shown 14 Entitlement.bytes (s.access.table.read i)).length = 15 := shown_length Entitlement.bytes_length _
  have valid : (shown 1 flag ((s.access.table.read i).bind s.entitlementValidity)).length = 2 := shown_length (f := flag) (fun _ => rfl) _
  rw [State.entitlementReply, List.length_append, record, valid]

theorem exec_readEntitlement (tag : Half) (rest : LinkAtRest s) :
    exec (.readEntitlement tag [sourceByte i]) s = .next (s.answered 0x32 tag .done (s.entitlementReply i)) := by
  have run (u : State) : orderReadEntitlement [sourceByte i] u = .done u (u.entitlementReply i) := by
    simp [orderReadEntitlement, State.entitlementReply]
  exact exec_order_read .readEntitlement tag rest rfl (by rw [entitlementReply_length]; decide) (run _)

theorem entitlementReply_empty (empty : s.access.table.read i = none) : s.entitlementReply i = List.replicate 17 0 := by
  rw [State.entitlementReply, empty]
  rfl

theorem shown_validity (e : Entitlement) : shown 1 flag (s.entitlementValidity e) =
    if s.time.state = .unset then [0, 0]
    else [1, if e.start.toNat ≤ s.time.sec.toNat ∧ s.time.sec.toNat < e.stop.toNat then 1 else 0] := by
  unfold State.entitlementValidity
  split
  · rfl
  · simp only [shown, flag, inWindow_iff]

end

/-! ## The obligation -/

/-- Settles O33: the checks of each order in turn; a table written then has every verdict formed on it and handed. -/
theorem entitlementOrders : Obligations.EntitlementOrders := by
  refine ⟨fun s tag rest => ⟨fun key start stop product => ?_, fun kind p id span length range => ?_⟩,
    fun s tag rest => ⟨fun key product => ?_, fun kind p id range => ?_, fun i => ⟨fun empty => ?_, fun e record => ?_⟩, fun b range => ?_⟩⟩
  · intro body stands
    have length : body.length = 13 := grantBody_length
    refine ⟨fun spanless => ?_, fun span => ⟨fun i stood first => ?_, fun i absent empty first => ?_, fun absent full => ?_⟩⟩
    · exact exec_order_refused .grantEntitlement tag rest length (orderGrantEntitlement_spanless product spanless)
    · have place : s.entitlementPlace key = some i := entitlementPlace_of_first stood first
      obtain ⟨e, read, -⟩ := stood
      rw [← count_replaced ⟨key, start, stop⟩ read]
      exact exec_grantEntitlement rest length fun l => orderGrantEntitlement_replaces (s := { s with link := l }) product span place
    · rw [← count_filled ⟨key, start, stop⟩ empty]
      exact exec_grantEntitlement rest length fun l => orderGrantEntitlement_fills (s := { s with link := l }) product span
        (entitlementPlace_none absent) (firstEmpty_of_first empty first)
    · exact exec_order_answered .grantEntitlement tag rest length (Nat.zero_le _) (orderGrantEntitlement_full (s := s.during _) product span
        (entitlementPlace_none absent) (firstEmpty_none full)) rfl
  · exact exec_order_refused .grantEntitlement tag rest (by rw [List.length_append, length]; rfl)
      (orderGrantEntitlement_keyless (entitlementKey_none range (bytes16 id ++ span)))
  · intro stands
    have length : (keyBody key).length = 5 := keyBody_length
    refine ⟨fun i stood first => ?_, fun absent => ?_⟩
    · have place : s.entitlementPlace key = some i := entitlementPlace_of_first stood first
      obtain ⟨e, read, -⟩ := stood
      rw [← count_emptied read]
      exact exec_entitlementFormed .revokeEntitlement tag rest length (Nat.le_of_ble_eq_true rfl) fun l =>
        orderRevokeEntitlement_empties (s := { s with link := l }) product place
    · exact exec_order_answered .revokeEntitlement tag rest length (Nat.zero_le _)
        (orderRevokeEntitlement_absent (s := s.during _) product (entitlementPlace_none absent)) rfl
  · exact exec_order_refused .revokeEntitlement tag rest rfl (orderRevokeEntitlement_keyless (entitlementKey_none range _))
  · rw [exec_readEntitlement tag rest, entitlementReply_empty empty]
  · rw [exec_readEntitlement tag rest, State.entitlementReply, record, Option.bind_some, shown_validity]
    obtain ⟨key, start, stop⟩ := e
    cases key <;> rfl
  · exact exec_order_refused .readEntitlement tag rest rfl fun u => by simp [runOrder, orderReadEntitlement, range]

end Sys2Proof.Machine
end

