-- ==== Sys2Proof/Proofs/EventTable.lean ====
section
/-! SUPPORT. The event table (R117, R118): a candidate put in its place, the record that a full table gives up, and what one insertion comes to. -/

namespace Sys2Proof.Machine

/-! ## Records that overlap (R117) -/

theorem overlaps_iff {a b : EventRecord} :
    a.overlaps b = true ↔ a.start.toNat < b.stop.toNat ∧ b.start.toNat < a.stop.toNat := by
  simp [EventRecord.overlaps]

theorem overlaps_comm (a b : EventRecord) : a.overlaps b = b.overlaps a := Bool.and_comm _ _

/-- Where they are of one service, the two records do not overlap. -/
def EventRecord.Apart (a b : EventRecord) : Prop := a.service = b.service → a.overlaps b = false

theorem EventRecord.Apart.symm {a b : EventRecord} (h : a.Apart b) : b.Apart a := fun same => overlaps_comm a b ▸ h same.symm

/-- A table of at most 512 records, those of one service apart (R117). -/
def TableSound (l : List EventRecord) : Prop := l.length ≤ 512 ∧ l.Pairwise EventRecord.Apart

theorem eventsSound_iff {s : State} : EventsSound s ↔ TableSound s.guide.events := Iff.rfl

theorem TableSound.sublist {l m : List EventRecord} (h : TableSound m) (sub : l.Sublist m) : TableSound l :=
  ⟨sub.length_le.trans h.1, h.2.sublist sub⟩

theorem tableSound_nil : TableSound [] := ⟨Nat.zero_le _, .nil⟩

/-! ## A record put in its place -/

theorem insertEvent_perm (e : EventRecord) (l : List EventRecord) : (insertEvent e l).Perm (e :: l) := by
  induction l with
  | nil => exact .refl _
  | cons a l ih =>
    rw [insertEvent]
    split
    · exact (ih.cons a).trans (.swap e a l)
    · exact .refl _

/-- A record apart from all of a table with a free place joins it. -/
theorem TableSound.insert {e : EventRecord} {l : List EventRecord} (sound : TableSound l) (room : l.length < 512) (apart : ∀ r ∈ l, r.Apart e) :
    TableSound (insertEvent e l) := by
  have perm := insertEvent_perm e l
  refine ⟨perm.length_eq.trans_le room, (perm.pairwise_iff EventRecord.Apart.symm).mpr (List.pairwise_cons.mpr ⟨fun r mem => ?_, sound.2⟩)⟩
  exact (apart r mem).symm

/-! ## The record that is given up (R118) -/

/-- `lt` is a strict order in which two records that stand level stand alike to every other. -/
structure Ranks (lt : EventRecord → EventRecord → Bool) : Prop where
  asymm : ∀ a b, lt a b = true → lt b a = false
  chain : ∀ a b c, lt a b = false → lt b c = false → lt a c = false

section
variable {lt : EventRecord → EventRecord → Bool} {l : List EventRecord} {r : EventRecord}

theorem Ranks.irrefl (ranks : Ranks lt) (a : EventRecord) : lt a a = false := by
  by_contra before
  exact before (ranks.asymm a a (Bool.eq_true_of_not_eq_false before))

theorem firstBy_mem (h : firstBy lt l = some r) : r ∈ l := by
  induction l generalizing r with
  | nil => cases h
  | cons a l ih =>
    rw [firstBy] at h
    split at h
    · cases h
      exact List.mem_cons_self
    · next b found =>
      split at h <;> cases h
      · exact List.mem_cons_of_mem _ (ih found)
      · exact List.mem_cons_self

theorem firstBy_eq_none : firstBy lt l = none ↔ l = [] := by
  cases l with
  | nil => exact iff_of_true rfl rfl
  | cons a l =>
    rw [firstBy]
    refine iff_of_false ?_ (List.cons_ne_nil a l)
    split
    · nofun
    · split <;> nofun

/-- No record of the list comes before the one found. -/
theorem firstBy_least (ranks : Ranks lt) (h : firstBy lt l = some r) : ∀ q ∈ l, lt q r = false := by
  induction l generalizing r with
  | nil => cases h
  | cons a l ih =>
    rw [firstBy] at h
    split at h
    · next empty =>
      cases h
      rw [firstBy_eq_none.mp empty]
      exact List.forall_mem_singleton.mpr (ranks.irrefl a)
    · next b found =>
      refine List.forall_mem_cons.mpr ?_
      split at h <;> cases h
      · next before => exact ⟨ranks.asymm r a before, ih found⟩
      · next after => exact ⟨ranks.irrefl a, fun q mem => ranks.chain q b a (ih found q mem) (Bool.eq_false_iff.mpr after)⟩

/-- A list that holds a record has a first one. -/
theorem firstBy_found (ranks : Ranks lt) (some_mem : ∃ q, q ∈ l) : ∃ r ∈ l, firstBy lt l = some r ∧ ∀ q ∈ l, lt q r = false := by
  obtain ⟨q, mem⟩ := some_mem
  cases found : firstBy lt l with
  | none => exact absurd (firstBy_eq_none.mp found) (List.ne_nil_of_mem mem)
  | some r => exact ⟨r, firstBy_mem found, rfl, firstBy_least ranks found⟩

end

theorem pastBefore_iff {a b : EventRecord} : pastBefore a b = true ↔ a.stop.toNat < b.stop.toNat ∨ a.stop.toNat = b.stop.toNat ∧
    (a.service.toNat < b.service.toNat ∨ a.service.toNat = b.service.toNat ∧ a.start.toNat < b.start.toNat) := by
  simp [pastBefore, EventRecord.before, BitVec.toNat_inj]

theorem laterBefore_iff {a b : EventRecord} : laterBefore a b = true ↔
    b.start.toNat < a.start.toNat ∨ a.start.toNat = b.start.toNat ∧ b.service.toNat < a.service.toNat := by
  simp [laterBefore, BitVec.toNat_inj]

theorem pastBefore_ranks : Ranks pastBefore where
  asymm a b := by
    rw [← Bool.not_eq_true, pastBefore_iff, pastBefore_iff]
    omega
  chain a b c := by
    simp only [← Bool.not_eq_true, pastBefore_iff]
    omega

theorem laterBefore_ranks : Ranks laterBefore where
  asymm a b := by
    rw [← Bool.not_eq_true, laterBefore_iff, laterBefore_iff]
    omega
  chain a b c := by
    simp only [← Bool.not_eq_true, laterBefore_iff]
    omega

theorem isPast_iff {t : TimeUnit} {e : EventRecord} : t.isPast e = true ↔ t.state ≠ .unset ∧ e.stop.toNat ≤ t.sec.toNat := by
  simp [TimeUnit.isPast]

section
variable {t : TimeUnit} {e : EventRecord} {l : List EventRecord}

theorem evictee_mem {r : EventRecord} (h : evictee t e l = some r) : r ∈ l := by
  unfold evictee at h
  split at h
  · next found =>
    cases h
    exact (List.mem_filter.mp (firstBy_mem found)).1
  · split at h
    · next found =>
      split at h <;> cases h
      exact firstBy_mem found
    · cases h

/-- Of the past records, the one with the earliest end is given up. -/
theorem evictee_past (past : ∃ q ∈ l, t.isPast q = true) :
    ∃ r ∈ l, evictee t e l = some r ∧ t.isPast r = true ∧ ∀ q ∈ l, t.isPast q = true → pastBefore q r = false := by
  obtain ⟨q, mem, gone⟩ := past
  obtain ⟨r, among, found, least⟩ := firstBy_found (l := l.filter t.isPast) pastBefore_ranks ⟨q, List.mem_filter.mpr ⟨mem, gone⟩⟩
  obtain ⟨held, ended⟩ := List.mem_filter.mp among
  exact ⟨r, held, by rw [evictee, found], ended, fun q mem gone => least q (List.mem_filter.mpr ⟨mem, gone⟩)⟩

theorem evictee_unpast (unpast : ∀ q ∈ l, ¬ t.isPast q = true) :
    evictee t e l = (firstBy laterBefore l).filter fun r => e.start.toNat ≤ r.start.toNat := by
  have empty : l.filter t.isPast = [] := List.filter_eq_nil_iff.mpr unpast
  rw [evictee, empty]
  cases found : firstBy laterBefore l with
  | none => rfl
  | some r => simp [firstBy, Option.filter]

/-- With no past record, the one with the latest start is given up, where the candidate starts no later. -/
theorem evictee_later (unpast : ∀ q ∈ l, ¬ t.isPast q = true) (later : ∃ q ∈ l, e.start.toNat ≤ q.start.toNat) :
    ∃ r ∈ l, evictee t e l = some r ∧ ∀ q ∈ l, laterBefore q r = false := by
  obtain ⟨q, mem, start⟩ := later
  obtain ⟨r, held, found, least⟩ := firstBy_found laterBefore_ranks ⟨q, mem⟩
  have last : ¬ laterBefore q r = true := Bool.eq_false_iff.mp (least q mem)
  rw [laterBefore_iff] at last
  refine ⟨r, held, ?_, least⟩
  rw [evictee_unpast unpast, found]
  exact Option.filter_some_pos (decide_eq_true (by omega))

/-- With no past record and all starts before the candidate's, none is. -/
theorem evictee_none (unpast : ∀ q ∈ l, ¬ t.isPast q = true) (earlier : ∀ q ∈ l, q.start.toNat < e.start.toNat) : evictee t e l = none := by
  rw [evictee_unpast unpast]
  refine Option.filter_eq_none_iff.mpr fun r found => ?_
  have := earlier r (firstBy_mem found)
  simpa using this

end

/-! ## One insertion (R117, R118) -/

/-- The record is of the candidate's service and overlaps it. -/
def EventRecord.yields (e r : EventRecord) : Bool := r.service == e.service && r.overlaps e

theorem yields_iff {e r : EventRecord} :
    e.yields r = true ↔ r.service = e.service ∧ r.start.toNat < e.stop.toNat ∧ e.start.toNat < r.stop.toNat := by
  simp [EventRecord.yields, overlaps_iff]

/-- What a candidate leaves of the table. -/
def Applying.kept (w : Applying) (e : EventRecord) : List EventRecord := w.state.guide.events.filter fun r => !e.yields r

/-- The eviction is counted, and GUIDE_FULL is raised (R118). -/
def State.guideFull (s : State) : State := (s.countGuide fun c => { c with evictions := c.evictions + 1 }).raise .guideFull 255 0

/-- The services touched, once the records that overlap a candidate have left. -/
def Applying.overlapTouched (w : Applying) (e : EventRecord) : List Half :=
  if (w.kept e).length = w.state.guide.events.length then w.touched else e.service :: w.touched

section
variable {w : Applying} {e : EventRecord}

theorem insert_roomy (room : (w.kept e).length < 512) :
    w.insert e = ⟨w.state.setEvents (insertEvent e (w.kept e)), e.service :: w.overlapTouched e⟩ := if_pos room

theorem insert_full (full : 512 ≤ (w.kept e).length) : w.insert e =
    match evictee w.state.time e (w.kept e) with
    | some r => ⟨w.state.guideFull.setEvents (insertEvent e ((w.kept e).erase r)), e.service :: r.service :: w.overlapTouched e⟩
    | none => ⟨w.state.guideFull.setEvents (w.kept e), w.overlapTouched e⟩ := if_neg full.not_gt

theorem insert_evicts {r : EventRecord} (full : 512 ≤ (w.kept e).length) (given : evictee w.state.time e (w.kept e) = some r) :
    w.insert e = ⟨w.state.guideFull.setEvents (insertEvent e ((w.kept e).erase r)), e.service :: r.service :: w.overlapTouched e⟩ := by
  rw [insert_full full, given]

theorem insert_discards (full : 512 ≤ (w.kept e).length) (given : evictee w.state.time e (w.kept e) = none) :
    w.insert e = ⟨w.state.guideFull.setEvents (w.kept e), w.overlapTouched e⟩ := by
  rw [insert_full full, given]

/-- The candidate joins a table that has room once its overlaps have left; a full one gives up a record for it, or gives it up. -/
theorem insert_events (w : Applying) (e : EventRecord) :
    (∃ l, l.Sublist (w.kept e) ∧ ((w.kept e).length ≤ 512 → l.length < 512) ∧ (w.insert e).state.guide.events = insertEvent e l) ∨
      (w.insert e).state.guide.events = w.kept e := by
  rcases Nat.lt_or_ge (w.kept e).length 512 with room | full
  · exact .inl ⟨_, .refl _, fun _ => room, by rw [insert_roomy room]; rfl⟩
  · cases given : evictee w.state.time e (w.kept e) with
    | some r =>
      have held := evictee_mem given
      have fewer := List.length_erase_add_one held
      exact .inl ⟨(w.kept e).erase r, List.erase_sublist, fun few => by omega, by rw [insert_evicts full given]; rfl⟩
    | none => exact .inr (by rw [insert_discards full given]; rfl)

theorem kept_apart (w : Applying) (e : EventRecord) : ∀ r ∈ w.kept e, r.Apart e := by
  intro r mem same
  have stays : e.yields r = false := by simpa using (List.mem_filter.mp mem).2
  simpa [EventRecord.yields, same] using stays

theorem insert_sound (e : EventRecord) (sound : EventsSound w.state) : EventsSound (w.insert e).state := by
  have kept : TableSound (w.kept e) := TableSound.sublist sound List.filter_sublist
  rw [eventsSound_iff]
  rcases insert_events w e with ⟨l, sub, room, events⟩ | events
  · rw [events]
    exact (kept.sublist sub).insert (room kept.1) fun r mem => kept_apart w e r (sub.subset mem)
  · rw [events]
    exact kept

/-- What stands in the table was there, or is the candidate. -/
theorem mem_insert_events {r : EventRecord} (mem : r ∈ (w.insert e).state.guide.events) : r = e ∨ r ∈ w.state.guide.events := by
  rcases insert_events w e with ⟨l, sub, -, events⟩ | events <;> rw [events] at mem
  · exact (List.mem_cons.mp ((insertEvent_perm e l).mem_iff.mp mem)).imp_right fun mem => List.mem_of_mem_filter (sub.subset mem)
  · exact .inr (List.mem_of_mem_filter mem)

end

end Sys2Proof.Machine
end

