-- ==== Sys2Proof/Proofs/EventsKept.lean ====
section
/-! SUPPORT. The event table through every step (R117, R118): a section inserts candidates one by one, PURGE_GUIDE and a FULL reset remove records, and no
other event or order writes the table. -/

namespace Sys2Proof.Machine

/-- The effect leaves a sound event table sound. -/
def EventsUpheld (s t : State) : Prop := EventsSound s → EventsSound t

namespace EventsUpheld

variable {s t u : State}

theorem refl (s : State) : EventsUpheld s s := id

theorem trans (h : EventsUpheld s t) (k : EventsUpheld t u) : EventsUpheld s u := k ∘ h

theorem ite {c : Prop} [Decidable c] (h : EventsUpheld s t) (k : EventsUpheld s u) : EventsUpheld s (if c then t else u) := by
  split
  · exact h
  · exact k

/-- Records may leave the table. -/
theorem ofSublist (h : t.guide.events.Sublist s.guide.events) : EventsUpheld s t := fun sound => TableSound.sublist sound h

theorem ofEvents (h : t.guide.events = s.guide.events) : EventsUpheld s t := .ofSublist (h ▸ .refl _)

/-- So does an effect behind one that does not write the table. -/
theorem behind (h : EventsUpheld t u) (same : t.guide.events = s.guide.events) : EventsUpheld s u := (ofEvents same).trans h

theorem ofGuide (h : t.guide = s.guide) : EventsUpheld s t := .ofEvents (congrArg Guide.events h)

end EventsUpheld

/-! ## Sections (R110 to R118) -/

theorem foldInsert_sound (l : List EventRecord) {w : Applying} (sound : EventsSound w.state) : EventsSound (l.foldl Applying.insert w).state :=
  List.foldlRecOn (motive := fun w : Applying => EventsSound w.state) _ _ sound fun _ sound e _ => insert_sound e sound

theorem applySection_upheld (b : List Byte) (s : State) : EventsUpheld s (s.applySection b).state := by
  have left : EventsUpheld s (s.setEvents (s.guide.events.filter fun r => !(r.service == half b 2 && r.originSection == byteAt b 5))) :=
    .ofSublist List.filter_sublist
  exact fun sound => foldInsert_sound _ (left sound)

theorem takeSection_upheld (b : List Byte) (s : State) : EventsUpheld s (s.takeSection b).state := by
  have applied (i : Fin 128) (x : Option RegisterEntry) : EventsUpheld s ((s.setRegister i x).applySection b).state :=
    .behind (applySection_upheld b _) rfl
  unfold State.takeSection
  dsimp only
  repeat' split
  · exact .ofEvents rfl
  · exact applied _ _
  · exact applied _ _
  · exact .ofEvents rfl

theorem checkSection_upheld (b : List Byte) (s : State) : EventsUpheld s (s.checkSection b).state := by
  unfold State.checkSection
  dsimp only
  repeat' split
  · exact .ofEvents rfl
  · exact .ofEvents rfl
  · exact takeSection_upheld b s

theorem guideCell_upheld (k : Fin 256) (f : FeedId) (c : Cell) (s : State) : EventsUpheld s (s.guideCell k f c).state := by
  unfold State.guideCell State.beginSection State.continueSection
  dsimp only
  repeat' split
  · exact .ofEvents rfl
  · exact .behind (checkSection_upheld _ _) rfl
  · exact .ofEvents rfl
  · exact .ofEvents rfl
  · exact .refl s
  · exact .refl s
  · exact .ofEvents rfl
  · exact .ofEvents rfl
  · exact .behind (checkSection_upheld _ _) rfl

theorem finish_upheld (w : Applying) : EventsUpheld w.state w.finish := .ofEvents (finish_frame w).events

/-! ## Cells and timers -/

theorem clockCell_events (f : FeedId) (c : Cell) (s : State) : (s.clockCell f c).guide.events = s.guide.events := by
  unfold State.clockCell
  dsimp only
  repeat' split
  · rfl
  · rfl
  · exact (deliver_frame _ _).events
  · rfl
  · exact (deliver_frame _ _).events
  · exact (deliver_frame _ _).events

theorem dispose_upheld (k : Fin 256) (e : FlowEntry) (f : FeedId) (c : Cell) (s : State) : EventsUpheld s (s.dispose k e f c) := by
  unfold State.dispose
  split
  · exact .ofGuide (programmeCell_frame k _ c _).guide
  · exact .ofGuide (offerForward_frame _ _).guide
  · exact .behind ((guideCell_upheld k f c _).trans (finish_upheld _)) rfl
  · exact .ofEvents (clockCell_events f c _)
  · exact .refl s

theorem screen_upheld (f : FeedId) (c : Cell) (s : State) : EventsUpheld s (s.screen f c) := by
  unfold State.screen State.classify
  repeat' split
  · exact .ofEvents rfl
  · exact .ofEvents rfl
  · exact .ofEvents rfl
  · exact .behind (dispose_upheld _ _ f c _) rfl
  · exact .behind (dispose_upheld _ _ f c _) rfl
  · exact .ofEvents rfl
  · exact .behind (dispose_upheld _ _ f c _) rfl

theorem arrival_upheld (f : FeedId) (c : Cell) (s : State) : EventsUpheld s (s.arrival f c) := by
  have malformed : EventsUpheld s ((s.countFeed f .arrived).lockedMalformed f) := .ite (.ofEvents rfl) (.ofEvents rfl)
  have seeking : EventsUpheld s ((s.countFeed f .arrived).seekingWellFormed f c) := .ite (.ofEvents rfl) (.behind (screen_upheld f c _) rfl)
  unfold State.arrival
  split
  · exact .refl s
  · exact .ite seeking (.ofEvents rfl)
  · exact .ite seeking (.ofEvents rfl)
  · exact .ite (.behind (screen_upheld f c _) rfl) malformed

theorem tick_events (s : State) : s.tick.guide.events = s.guide.events := by
  unfold State.tick
  dsimp only
  repeat' split
  · rfl
  · exact (deliver_frame _ _).events
  · rfl

/-! ## Orders -/

theorem announceEntry_upheld (k : Fin 256) (s : State) : EventsUpheld s (s.announceEntry k) :=
  .behind (t := s.abandonEntry k) (.ofGuide (entryChanged_frame k _).guide) rfl

/-- An entitlement stored or removed, with the verdicts formed on it (R95, R96). -/
theorem setEntitlement_formAccessNow_upheld (i : Fin 48) (e : Option Entitlement) (want : Dest → Bool) (s : State) :
    EventsUpheld s ((s.setEntitlement i e).formAccessNow want) :=
  .ofGuide (formAccessNow_frame _ (s.setEntitlement i e)).guide

theorem formProfile_upheld (p : Fin 8) (x : Profile) (s : State) : EventsUpheld s ((s.setProfile p x).formProfile p) :=
  .ofGuide (formEach_frame _ (s.setProfile p x)).guide

theorem announceHalt_upheld (p : PortId) (x : Port) (h : Bool) (s : State) : EventsUpheld s ((s.setPort p x).announceHalt p h) :=
  .ofGuide (announceHalt_frame p h (s.setPort p x)).guide

section
variable (b : List Byte) (s : State)

theorem orderSetFlow_upheld : EventsUpheld s (orderSetFlow b s).state := by
  unfold orderSetFlow
  split
  · dsimp only [Answer.done]
    exact .behind (announceEntry_upheld _ _) rfl
  · exact .refl s

theorem orderClearFlow_upheld : EventsUpheld s (orderClearFlow b s).state := by
  unfold orderClearFlow
  split
  · exact .refl s
  · dsimp only [Answer.done]
    exact .behind (announceEntry_upheld _ _) rfl

theorem orderSetService_upheld : EventsUpheld s (orderSetService b s).state := by
  unfold orderSetService
  dsimp only
  repeat' split
  · exact .refl s
  · exact .refl s
  · exact .refl s
  · exact .refl s
  · exact .behind (.ofEvents (serviceChanged_frame _ _).events) rfl

theorem orderClearService_upheld : EventsUpheld s (orderClearService b s).state := by
  unfold orderClearService
  repeat' split
  · exact .refl s
  · exact .refl s
  · exact .behind (.ofEvents (serviceChanged_frame _ _).events) rfl

theorem orderSelect_upheld : EventsUpheld s (orderSelect b s).state := by
  unfold orderSelect
  repeat' split
  · exact .refl s
  · exact .refl s
  · exact .ofEvents rfl
  · exact .ofGuide (applySelection_frame _ _ s).guide
  · exact .refl s

theorem orderRelease_upheld : EventsUpheld s (orderRelease b s).state := by
  unfold orderRelease
  split
  · exact .refl s
  · exact .behind (.ofGuide (releaseDest_frame _ s).guide) rfl

theorem orderLoadKeyQuarter_upheld : EventsUpheld s (orderLoadKeyQuarter b s).state := by
  unfold orderLoadKeyQuarter
  dsimp only
  repeat' split
  · dsimp only [Answer.done]
    exact .behind (.ofGuide (keyCommitted_frame _ _).guide) rfl
  · exact .ofEvents rfl
  · exact .refl s

theorem orderGrantEntitlement_upheld : EventsUpheld s (orderGrantEntitlement b s).state := by
  unfold orderGrantEntitlement
  dsimp only
  repeat' split
  · exact .refl s
  · exact .refl s
  · exact setEntitlement_formAccessNow_upheld _ _ _ s
  · exact setEntitlement_formAccessNow_upheld _ _ _ s
  · exact .refl s

theorem orderRevokeEntitlement_upheld : EventsUpheld s (orderRevokeEntitlement b s).state := by
  unfold orderRevokeEntitlement
  repeat' split
  · exact .refl s
  · exact .refl s
  · exact setEntitlement_formAccessNow_upheld _ _ _ s

theorem orderPurgeGuide_upheld : EventsUpheld s (orderPurgeGuide b s).state := by
  have emptied : EventsUpheld s (s.emptyGuide (half b 0)) := .ofSublist List.filter_sublist
  rw [orderPurgeGuide_state]
  exact emptied.trans (.ofEvents ((recompute_frame _ _).trans (deliver_frame _ _)).events)

theorem orderSetProfile_upheld : EventsUpheld s (orderSetProfile b s).state := by
  unfold orderSetProfile
  dsimp only
  repeat' split
  · exact .refl s
  · dsimp only [Answer.done]
    exact formProfile_upheld _ _ s
  · exact .refl s

theorem orderAddAllowance_upheld : EventsUpheld s (orderAddAllowance b s).state := by
  unfold orderAddAllowance
  dsimp only
  repeat' split
  · exact .refl s
  · exact .refl s
  · dsimp only [Answer.done]
    exact formProfile_upheld _ _ s

theorem orderGrantUnlock_upheld : EventsUpheld s (orderGrantUnlock b s).state := by
  unfold orderGrantUnlock
  dsimp only
  split
  · next d u _ _ =>
    have installed := installUnlock_frame d u s
    exact .ite (.ofGuide ((installed.trans (clearMemory_frame d _)).trans (formAndReport_frame d _)).guide) (.ofGuide installed.guide)
  · exact .refl s

theorem orderResolveHold_upheld : EventsUpheld s (orderResolveHold b s).state := by
  unfold orderResolveHold
  dsimp only
  repeat' split
  · exact .refl s
  · exact .refl s
  · exact .refl s
  · exact .refl s
  · exact .ofGuide ((installUnlock_frame _ _ s).trans (formAndReport_frame _ _)).guide
  · exact .ofGuide ((endHold_frame _ _ s).trans (reportHanded_frame _ _)).guide

theorem orderPortStop_upheld : EventsUpheld s (orderPortStop b s).state := by
  unfold orderPortStop
  dsimp only
  split
  · exact .refl s
  · exact .ite (announceHalt_upheld _ _ _ s) (.ofEvents rfl)

theorem orderPortClear_upheld : EventsUpheld s (orderPortClear b s).state := by
  unfold orderPortClear
  dsimp only
  split
  · exact .refl s
  · split <;> dsimp only [Answer.done]
    · exact announceHalt_upheld _ _ _ s
    · exact .ofEvents rfl
    · exact .ofEvents rfl

theorem orderAckAttention_upheld : EventsUpheld s (orderAckAttention b s).state := by
  unfold orderAckAttention
  dsimp only
  repeat' split
  · exact .refl s
  · exact .refl s
  · exact .refl s
  · exact .ofGuide (withdraw_frame _ _ s).guide

theorem orderResetPart_upheld : EventsUpheld s (orderResetPart b s).state := by
  unfold orderResetPart
  split
  · exact fun _ => tableSound_nil
  · exact .ofEvents rfl
  · exact .refl s

theorem runOrder_upheld (o : Order) : EventsUpheld s (runOrder o b s).state := by
  cases o with
  | readTime | readChanges | readGuide | readIdentity | discardChanges | setAcquireTime => exact .refl s
  | readFeed | readFlow | readService | readDestination | readKeyState | readEntitlement | readProfile | readParental | readPort =>
    simp only [runOrder, orderReadFeed, orderReadFlow, orderReadService, orderReadDestination, orderReadKeyState, orderReadEntitlement,
      orderReadProfile, orderReadParental, orderReadPort]
    split <;> exact .refl s
  | queryEvent => exact .ofEvents (by rw [runOrder, orderQueryEvent_state])
  | queryNext => exact .ofEvents (by rw [runOrder, orderQueryNext_state])
  | feedEnable | feedDisable | feedConfigure | setTimeSource | bindDestination | setCommitMask | clearKey | portConfigure | portStart
  | setAttentionMask | snapshotTallies =>
    simp only [runOrder, orderFeedEnable, orderFeedDisable, orderFeedConfigure, orderSetTimeSource, orderBindDestination, orderSetCommitMask,
      orderClearKey, orderPortConfigure, orderPortStart, orderSetAttentionMask, orderSnapshotTallies]
    repeat' split
    all_goals exact .ofEvents rfl
  | setFlow => exact orderSetFlow_upheld b s
  | clearFlow => exact orderClearFlow_upheld b s
  | setService => exact orderSetService_upheld b s
  | clearService => exact orderClearService_upheld b s
  | select => exact orderSelect_upheld b s
  | take => exact .ofGuide (applyAll_frame s.ctl.changes s).guide
  | release => exact orderRelease_upheld b s
  | loadKeyQuarter => exact orderLoadKeyQuarter_upheld b s
  | grantEntitlement => exact orderGrantEntitlement_upheld b s
  | revokeEntitlement => exact orderRevokeEntitlement_upheld b s
  | purgeGuide => exact orderPurgeGuide_upheld b s
  | setProfile => exact orderSetProfile_upheld b s
  | addAllowance => exact orderAddAllowance_upheld b s
  | grantUnlock => exact orderGrantUnlock_upheld b s
  | resolveHold => exact orderResolveHold_upheld b s
  | portStop => exact orderPortStop_upheld b s
  | portClear => exact orderPortClear_upheld b s
  | ackAttention => exact orderAckAttention_upheld b s
  | resetPart => exact orderResetPart_upheld b s

end

/-! ## The obligation -/

/-- Settles O54: a section inserts its candidates one by one, each apart from what it leaves of its service and in a place that is free by then, and
whatever else writes the table removes records. -/
theorem eventsKept : Obligations.EventsKept := by
  refine KeptByCommands.keptByStep ?_
  exact {
    link := fun _ _ sound => sound
    pending := fun _ _ sound => sound
    sendHost := fun _ _ sound => sound
    arrival := fun f c s => arrival_upheld f c s
    feedSilence := fun _ s => EventsUpheld.ite (.ofEvents rfl) (.refl s)
    tick := fun s => EventsUpheld.ofEvents (tick_events s)
    sourceSilence := fun s => EventsUpheld.ite (.ofEvents rfl) (.refl s)
    acquisitionExpires := fun d s => EventsUpheld.ofGuide (acquisitionExpires_frame d s).guide
    holdExpires := fun d s => EventsUpheld.ofGuide (holdExpires_frame d s).guide
    drain := fun p s => EventsUpheld.ofGuide (drain_frame p s).guide
    slot := fun p b s => EventsUpheld.ofGuide (slot_frame p b s).guide
    drainWatch := fun p s => EventsUpheld.ofGuide (drainWatch_frame p s).guide
    order := fun o b s => runOrder_upheld b s o
    assertReset := fun _ sound => sound
    powerOn := fun _ _ => tableSound_nil }

end Sys2Proof.Machine
end

