-- ==== Sys2Proof/Proofs/Sections.lean ====
section
/-! SUPPORT. Sections at the guide builder (R110 to R113, R115): the slots that gather them, the two stages of the check, and the section register. -/

namespace Sys2Proof

/-! ## The lowest free row -/

section
variable {α : Type} {n : Nat} {t : Table (Option α) n}

theorem Table.firstFree_eq_some {i : Fin n} (free : t.read i = none) (first : ∀ j < i, t.read j ≠ none) : t.firstIdx Option.isNone = some i :=
  Table.firstIdx_eq_some.mpr ⟨Option.isNone_iff_eq_none.mpr free, fun j below =>
    Option.isNone_eq_false_iff.mpr (Option.isSome_iff_ne_none.mpr (first j below))⟩

theorem Table.firstFree_eq_none (full : ∀ i, t.read i ≠ none) : t.firstIdx Option.isNone = none :=
  Table.firstIdx_eq_none.mpr fun i => Option.isNone_eq_false_iff.mpr (Option.isSome_iff_ne_none.mpr (full i))

end

end Sys2Proof

namespace Sys2Proof.Machine

/-! ## Fields of a section cut to its length -/

theorem byteAt_take {n i : Nat} (h : i < n) (b : List Byte) : byteAt (b.take n) i = byteAt b i := by
  simp [byteAt, List.getD_eq_getElem?_getD, h]

theorem half_take {n i : Nat} (h : i + 1 < n) (b : List Byte) : half (b.take n) i = half b i := by
  rw [half, half, byteAt_take h, byteAt_take (Nat.lt_of_succ_lt h)]

theorem field8_take {n i : Nat} (h : i < n) (b : List Byte) : field8 (b.take n) i = field8 b i := congrArg BitVec.toNat (byteAt_take h b)

theorem field16_take {n i : Nat} (h : i + 1 < n) (b : List Byte) : field16 (b.take n) i = field16 b i :=
  congrArg BitVec.toNat (half_take h b)

theorem word_take {n i : Nat} (h : i + 3 < n) (b : List Byte) : word (b.take n) i = word b i := by
  rw [word, word, half_take h, half_take (by omega)]

/-! ## The end of an application that touched no service -/

/-- Nothing is recomputed where no service was touched (R119). -/
theorem finish_untouched (s : State) : (⟨s, []⟩ : Applying).finish = s := by
  have untouched (i : Fin 64) : s.touches [] i = false := Bool.eq_false_iff.mpr fun touched => by
    obtain ⟨v, -, mem⟩ := touches_iff.mp touched
    cases mem
  have still : s.eventChanges (s.touches []) = [] := List.eq_nil_iff_forall_not_mem.mpr fun c mem => by
    obtain ⟨named, -⟩ := mem_eventChanges.mp mem
    rw [untouched] at named
    cases named
  rw [Applying.finish, State.recompute, still]
  rfl

/-! ## The section register (R115) -/

section
variable {s : State} {b : List Byte}

/-- Register entry `i` has the key of the section. -/
def State.Registered (s : State) (b : List Byte) (i : Fin 128) : Prop :=
  ∃ r, s.guide.register.read i = some r ∧ r.service = half b 2 ∧ r.section_ = byteAt b 5

/-- The register entry that a section brings. -/
def sectionEntry (b : List Byte) : RegisterEntry := ⟨half b 2, byteAt b 5, byteAt b 4⟩

/-- The search for the section's key in the register. -/
def State.registerPlace (b : List Byte) (s : State) : Option (Fin 128) :=
  s.guide.register.firstIdx fun r => r.any fun x => x.service == half b 2 && x.section_ == byteAt b 5

theorem registered_iff {i : Fin 128} :
    ((s.guide.register.read i).any fun x => x.service == half b 2 && x.section_ == byteAt b 5) = true ↔ s.Registered b i := by
  simp [State.Registered, Option.any_eq_true]

theorem registerPlace_eq_some {i : Fin 128} (stands : s.Registered b i) (first : ∀ j < i, ¬ s.Registered b j) :
    s.registerPlace b = some i :=
  Table.firstIdx_eq_some.mpr ⟨registered_iff.mpr stands, fun j below => Bool.eq_false_iff.mpr (mt registered_iff.mp (first j below))⟩

theorem registerPlace_eq_none (absent : ∀ j, ¬ s.Registered b j) : s.registerPlace b = none :=
  Table.firstIdx_eq_none.mpr fun j => Bool.eq_false_iff.mpr (mt registered_iff.mp (absent j))

/-- The section is taken by the entry that has its key, or by the lowest empty one. -/
theorem takeSection_eq (b : List Byte) (s : State) : s.takeSection b =
    match s.registerPlace b with
    | some i =>
      if s.guide.register.read i = some (sectionEntry b) then ⟨s.countGuide fun c => { c with repeated := c.repeated + 1 }, []⟩
      else (s.setRegister i (some (sectionEntry b))).applySection b
    | none =>
      match s.guide.register.firstIdx Option.isNone with
      | some i => (s.setRegister i (some (sectionEntry b))).applySection b
      | none => ⟨(s.countGuide fun c => { c with registerFull := c.registerFull + 1 }).raise .guideFull 255 0, []⟩ := rfl

theorem takeSection_keyed {i : Fin 128} {r : RegisterEntry} (read : s.guide.register.read i = some r) (service : r.service = half b 2)
    (number : r.section_ = byteAt b 5) (first : ∀ j < i, ¬ s.Registered b j) : s.takeSection b =
      if r.version = byteAt b 4 then ⟨s.countGuide fun c => { c with repeated := c.repeated + 1 }, []⟩
      else (s.setRegister i (some (sectionEntry b))).applySection b := by
  have entry : s.guide.register.read i = some (sectionEntry b) ↔ r.version = byteAt b 4 := by
    obtain ⟨n, m, v⟩ := r
    subst service number
    simp [read, sectionEntry]
  rw [takeSection_eq, registerPlace_eq_some ⟨r, read, service, number⟩ first]
  simp only [entry]

theorem takeSection_new {i : Fin 128} (absent : ∀ j, ¬ s.Registered b j) (empty : s.guide.register.read i = none)
    (first : ∀ j < i, s.guide.register.read j ≠ none) : s.takeSection b = (s.setRegister i (some (sectionEntry b))).applySection b := by
  rw [takeSection_eq, registerPlace_eq_none absent, Table.firstFree_eq_some empty first]

theorem takeSection_full (absent : ∀ j, ¬ s.Registered b j) (full : ∀ j, s.guide.register.read j ≠ none) : s.takeSection b =
    ⟨(s.countGuide fun c => { c with registerFull := c.registerFull + 1 }).raise .guideFull 255 0, []⟩ := by
  rw [takeSection_eq, registerPlace_eq_none absent, Table.firstFree_eq_none full]

/-! ## The two stages of the check (R113) -/

theorem checkSection_crcFailed (crc : checkValue (b.take (b.length - 2)) ≠ half b (b.length - 2)) (s : State) :
    s.checkSection b = ⟨s.countGuide fun c => { c with crcFailed := c.crcFailed + 1 }, []⟩ := if_pos (bne_iff_ne.mpr crc)

/-- A section cut from a longer run of bytes is checked by its own bytes alone. -/
theorem checkSection_take_crcFailed {l : Nat} (low : 10 ≤ l) (within : l ≤ b.length) (crc : checkValue (b.take (l - 2)) ≠ half b (l - 2))
    (s : State) : s.checkSection (b.take l) = ⟨s.countGuide fun c => { c with crcFailed := c.crcFailed + 1 }, []⟩ := by
  have whole : (b.take l).length = l := List.length_take_of_le within
  refine checkSection_crcFailed ?_ s
  rwa [whole, List.take_take, half_take (by omega), Nat.min_eq_left (Nat.sub_le l 2)]

theorem checkSection_checked (crc : checkValue (b.take (b.length - 2)) = half b (b.length - 2)) (s : State) : s.checkSection b =
    if sectionUsable b then s.takeSection b else ⟨s.countGuide fun c => { c with formatFailed := c.formatFailed + 1 }, []⟩ := by
  simp only [State.checkSection, crc, bne_self_eq_false, Bool.false_eq_true, if_false]
  cases sectionUsable b <;> rfl

theorem sectionUsable_iff : sectionUsable b = true ↔ ¬ (half b 2 = 0 ∨ 31 < (byteAt b 4).toNat ∨
    (byteAt b 6).toNat < (byteAt b 5).toNat ∨ 63 < (byteAt b 7).toNat ∨ b.length ≠ 10 + 16 * (byteAt b 7).toNat) := by
  have fields : sectionUsable b = true ↔ field16 b 2 ≠ 0 ∧ field8 b 4 ≤ 31 ∧ field8 b 5 ≤ field8 b 6 ∧ field8 b 7 ≤ 63 ∧
      b.length = 10 + 16 * field8 b 7 := by simp [sectionUsable, and_assoc]
  have zero : field16 b 2 = 0 ↔ half b 2 = 0 := BitVec.toNat_inj (y := 0)
  simp only [fields, ne_eq, zero, field8, not_or, not_lt, not_not]

end

/-! ## The slots (R110 to R112) -/

theorem dispose_guide {e : FlowEntry} (h : e.kind = .guide) (k : Fin 256) (f : FeedId) (c : Cell) (s : State) :
    s.dispose k e f c = ((s.countFeed f .consumed).guideCell k f c).finish := by
  rw [State.dispose, h]

section
variable {s : State} {k : Fin 256} {f : FeedId} {c : Cell}

theorem beginSection_unusable (length : field16 c.payload.rows 0 < 10 ∨ 1024 < field16 c.payload.rows 0) : s.beginSection k f c =
    ⟨(s.abandonEntry k).countGuide fun g => { g with formatFailed := g.formatFailed + 1 }, []⟩ := if_pos length

theorem beginSection_whole (low : 10 ≤ field16 c.payload.rows 0) (high : field16 c.payload.rows 0 ≤ 184) :
    s.beginSection k f c = (s.abandonEntry k).checkSection (c.payload.rows.take (field16 c.payload.rows 0)) := by
  rw [State.beginSection, if_neg (by omega), if_pos high]

theorem beginSection_long (low : 185 ≤ field16 c.payload.rows 0) (high : field16 c.payload.rows 0 ≤ 1024) : s.beginSection k f c =
    match (s.abandonEntry k).guide.slots.firstIdx Option.isNone with
    | some i => ⟨(s.abandonEntry k).setSlot i
        (some ⟨k, f, c.flowId, half c.payload.rows 2, field16 c.payload.rows 0, c.payload.rows⟩), []⟩
    | none => ⟨(s.abandonEntry k).countGuide fun g => { g with busy := g.busy + 1 }, []⟩ :=
  (if_neg (by omega)).trans (if_neg (by omega))

/-- The open slot of an entry. -/
def State.slotOf (k : Fin 256) (s : State) : Option (Fin 4) := s.guide.slots.firstIdx fun x => x.any fun a => a.entry == k

theorem slotOf_eq_none (closed : ∀ i a, s.guide.slots.read i = some a → a.entry ≠ k) : s.slotOf k = none := by
  refine Table.firstIdx_eq_none.mpr fun i => ?_
  cases read : s.guide.slots.read i with
  | none => rfl
  | some a => simpa using closed i a read

theorem slotOf_eq_some {i : Fin 4} {a : Assembly} (read : s.guide.slots.read i = some a) (entry : a.entry = k)
    (first : ∀ j < i, ∀ x, s.guide.slots.read j = some x → x.entry ≠ k) : s.slotOf k = some i := by
  refine Table.firstIdx_eq_some.mpr ⟨by simp [read, entry], fun j below => ?_⟩
  cases other : s.guide.slots.read j with
  | none => rfl
  | some x => simpa using first j below x other

theorem continueSection_closed (closed : s.slotOf k = none) : s.continueSection k f c = ⟨s, []⟩ := by
  unfold State.slotOf at closed
  rw [State.continueSection, closed]

theorem continueSection_open {i : Fin 4} {a : Assembly} (slot : s.slotOf k = some i) (read : s.guide.slots.read i = some a) :
    s.continueSection k f c =
      if a.feed ≠ f ∨ a.flowId ≠ c.flowId then ⟨s.abandonEntry k, []⟩
      else if ((a.buffer ++ c.payload.rows).take a.length).length < a.length then
        ⟨s.setSlot i (some { a with buffer := (a.buffer ++ c.payload.rows).take a.length }), []⟩
      else (s.setSlot i none).checkSection ((a.buffer ++ c.payload.rows).take a.length) := by
  unfold State.slotOf at slot
  simp only [State.continueSection, slot, read, Bool.or_eq_true, bne_iff_ne]

section
variable {i : Fin 4} {a : Assembly} (slot : s.slotOf k = some i) (read : s.guide.slots.read i = some a) (feed : a.feed = f)
  (flow : a.flowId = c.flowId)
include slot read feed flow

/-- A payload that leaves the section incomplete joins the buffer (R112). -/
theorem continueSection_gathers (more : a.buffer.length + 184 < a.length) :
    s.continueSection k f c = ⟨s.setSlot i (some { a with buffer := a.buffer ++ c.payload.rows }), []⟩ := by
  have length : (a.buffer ++ c.payload.rows).length < a.length := by rwa [List.length_append, c.payload.size]
  rw [continueSection_open slot read, if_neg (by simp [feed, flow]), List.take_of_length_le length.le, if_pos length]

/-- A payload that completes the section frees the slot, and the section is checked (R112). -/
theorem continueSection_completes (complete : a.length ≤ a.buffer.length + 184) :
    s.continueSection k f c = (s.setSlot i none).checkSection ((a.buffer ++ c.payload.rows).take a.length) := by
  have length : a.length ≤ (a.buffer ++ c.payload.rows).length := by rwa [List.length_append, c.payload.size]
  rw [continueSection_open slot read, if_neg (by simp [feed, flow]), if_neg (by rw [List.length_take_of_le length]; exact lt_irrefl _)]

end

end

end Sys2Proof.Machine
end

