-- ==== Sys2Proof/Proofs/Applications.lean ====
section
/-! SUPPORT. The application of a section (R114, R116): its descriptors as candidates, and what inserting them leaves of the guide builder. -/

namespace Sys2Proof.Machine

/-! ## Descriptors (R114) -/

/-- Descriptor `n` of a section, with what stands behind it. -/
def descriptorAt (b : List Byte) (n : Nat) : List Byte := b.drop (8 + 16 * n)

/-- The seconds that a descriptor gives its event. -/
def durationAt (b : List Byte) (n : Nat) : Nat := field8 (descriptorAt b n) 6 * 65536 + field16 (descriptorAt b n) 7

/-- Descriptor `n` is not skipped. -/
def usableAt (b : List Byte) (n : Nat) : Bool :=
  decide (1 ≤ durationAt b n ∧ durationAt b n ≤ 86400 ∧ field8 (descriptorAt b n) 9 ≤ 15)

theorem usableAt_iff {b : List Byte} {n : Nat} :
    usableAt b n = true ↔ 1 ≤ durationAt b n ∧ durationAt b n ≤ 86400 ∧ field8 (descriptorAt b n) 9 ≤ 15 := decide_eq_true_iff

/-- The event that descriptor `n` gives. -/
def candidateAt (b : List Byte) (n : Nat) : EventRecord :=
  { service := half b 2, id := half (descriptorAt b n) 0, start := word (descriptorAt b n) 2, duration := durationAt b n,
    stop := eventStop (word (descriptorAt b n) 2) (durationAt b n), rating := byteAt (descriptorAt b n) 9, product := half (descriptorAt b n) 10,
    preview := min 600 (field16 (descriptorAt b n) 12), title := half (descriptorAt b n) 14, originSection := byteAt b 5 }

/-- The candidates of a section, in the order of their descriptors. -/
def sectionEvents (b : List Byte) : List EventRecord := ((List.range (byteAt b 7).toNat).filter (usableAt b)).map (candidateAt b)

theorem descriptors_eq (n : Nat) (b : List Byte) : descriptors n b = (List.range n).map fun i => (b.drop (16 * i)).take 16 := by
  induction n generalizing b with
  | zero => rfl
  | succ n ih =>
    rw [descriptors, ih, List.range_succ_eq_map, List.map_cons, List.map_map]
    refine congrArg _ (List.map_congr_left fun i _ => ?_)
    rw [List.drop_drop, Function.comp_apply, Nat.mul_succ, Nat.add_comm]

theorem candidate_descriptorAt (b : List Byte) (n : Nat) : candidate (half b 2) (byteAt b 5) ((descriptorAt b n).take 16) =
    if usableAt b n then some (candidateAt b n) else none := by
  have bytes {i : Nat} (h : i < 16) := byteAt_take h (descriptorAt b n)
  have bytes8 {i : Nat} (h : i < 16) := field8_take h (descriptorAt b n)
  have halves {i : Nat} (h : i + 1 < 16) := half_take h (descriptorAt b n)
  have halves16 {i : Nat} (h : i + 1 < 16) := field16_take h (descriptorAt b n)
  have words {i : Nat} (h : i + 3 < 16) := word_take h (descriptorAt b n)
  simp only [candidate, usableAt_iff, candidateAt, durationAt, bytes, bytes8, halves, halves16, words, Nat.reduceAdd, Nat.reduceLT]

/-- What the descriptors of a section read as. -/
theorem descriptors_read (b : List Byte) : (descriptors (field8 b 7) (b.drop 8)).map (candidate (half b 2) (byteAt b 5)) =
    (List.range (byteAt b 7).toNat).map fun n => if usableAt b n then some (candidateAt b n) else none := by
  rw [descriptors_eq, List.map_map]
  refine List.map_congr_left fun n _ => ?_
  rw [Function.comp_apply, List.drop_drop]
  exact candidate_descriptorAt b n

section
variable {α : Type} (p : Nat → Bool) (f : Nat → α) (l : List Nat)

theorem filterMap_usable : (l.map fun n => if p n then some (f n) else none).filterMap id = (l.filter p).map f := by
  rw [List.filterMap_map, Function.id_comp, ← List.filterMap_eq_map, List.filterMap_filter]
  rfl

theorem countP_unusable : (l.map fun n => if p n then some (f n) else none).countP Option.isNone = (l.filter fun n => !p n).length := by
  rw [List.countP_map, List.countP_eq_length_filter]
  congr 2
  funext n
  cases h : p n <;> simp [h]

end

/-- How many descriptors of a section are skipped. -/
def sectionSkips (b : List Byte) : Nat := ((List.range (byteAt b 7).toNat).filter fun n => !usableAt b n).length

theorem sectionSkips_eq (b : List Byte) : sectionSkips b = (byteAt b 7).toNat - (sectionEvents b).length := by
  have all := (List.range (byteAt b 7).toNat).length_eq_length_filter_add (usableAt b)
  rw [List.length_range] at all
  rw [sectionEvents, List.length_map, sectionSkips]
  omega

/-- Any list of the skipped descriptors, each once, is as long. -/
theorem length_eq_sectionSkips {b : List Byte} {l : List Nat} (once : l.Nodup)
    (named : ∀ n, n ∈ l ↔ n < (byteAt b 7).toNat ∧ ¬ usableAt b n = true) : l.length = sectionSkips b := by
  refine ((List.perm_ext_iff_of_nodup once (List.nodup_range.filter _)).mpr fun n => ?_).length_eq
  simp [named]

theorem mem_sectionEvents {b : List Byte} {r : EventRecord} :
    r ∈ sectionEvents b ↔ ∃ n < (byteAt b 7).toNat, usableAt b n = true ∧ r = candidateAt b n := by
  simp only [sectionEvents, List.mem_map, List.mem_filter, List.mem_range, and_assoc, eq_comm]

/-! ## Candidates inserted one after another (R116) -/

/-- Inserting writes the event table and counts evictions, and nothing else of the guide builder. -/
def InsertsOnly (s t : State) : Prop :=
  t.guide = { s.guide with events := t.guide.events, counters := { s.guide.counters with evictions := t.guide.counters.evictions } }

theorem InsertsOnly.trans {s t u : State} (h : InsertsOnly s t) (k : InsertsOnly t u) : InsertsOnly s u := by
  rw [InsertsOnly] at h k ⊢
  rw [k, h]

theorem insert_insertsOnly (w : Applying) (e : EventRecord) : InsertsOnly w.state (w.insert e).state := by
  rcases Nat.lt_or_ge (w.kept e).length 512 with room | full
  · rw [insert_roomy room]
    rfl
  · cases given : evictee w.state.time e (w.kept e) with
    | some r =>
      rw [insert_evicts full given]
      rfl
    | none =>
      rw [insert_discards full given]
      rfl

theorem foldInsert_insertsOnly (l : List EventRecord) (w : Applying) : InsertsOnly w.state (l.foldl Applying.insert w).state :=
  List.foldlRecOn (motive := fun u : Applying => InsertsOnly w.state u.state) _ _ (by rfl) fun u kept e _ =>
    InsertsOnly.trans kept (insert_insertsOnly u e)

/-- What stands in the table was there, or is one of the candidates. -/
theorem mem_foldInsert {l : List EventRecord} {w : Applying} {r : EventRecord} (mem : r ∈ (l.foldl Applying.insert w).state.guide.events) :
    r ∈ w.state.guide.events ∨ r ∈ l := by
  induction l generalizing w with
  | nil => exact .inl mem
  | cons e l ih =>
    rcases ih mem with before | named
    · rcases mem_insert_events before with rfl | before
      · exact .inr List.mem_cons_self
      · exact .inl before
    · exact .inr (List.mem_cons_of_mem e named)

/-! ## A section applied (R116) -/

/-- The records of another origin than the section's. -/
def State.otherOrigins (b : List Byte) (s : State) : List EventRecord :=
  s.guide.events.filter fun r => !(r.service == half b 2 && r.originSection == byteAt b 5)

/-- The part as the candidates of the section find it. -/
def State.sectionBegun (b : List Byte) (s : State) : State :=
  (s.setEvents (s.otherOrigins b)).countGuide fun c =>
    { c with applied := c.applied + 1, skipped := c.skipped + BitVec.ofNat 32 (sectionSkips b) }

theorem applySection_eq (b : List Byte) (s : State) : s.applySection b =
    (sectionEvents b).foldl Applying.insert ⟨s.sectionBegun b, if s.otherOrigins b = s.guide.events then [] else [half b 2]⟩ := by
  have same : (s.otherOrigins b).length = s.guide.events.length ↔ s.otherOrigins b = s.guide.events :=
    List.length_filter_eq_length_iff.trans List.filter_eq_self.symm
  have events := filterMap_usable (usableAt b) (candidateAt b) (List.range (byteAt b 7).toNat)
  have skips := countP_unusable (usableAt b) (candidateAt b) (List.range (byteAt b 7).toNat)
  rw [← descriptors_read] at events skips
  unfold State.applySection
  dsimp only
  rw [events, skips]
  simp only [← same]
  rfl

theorem applySection_insertsOnly (b : List Byte) (s : State) : InsertsOnly (s.sectionBegun b) (s.applySection b).state := by
  rw [applySection_eq]
  exact foldInsert_insertsOnly _ _

/-- What an application leaves in the table is of another origin, or comes from a descriptor. -/
theorem mem_applySection {b : List Byte} {s : State} {r : EventRecord} (mem : r ∈ (s.applySection b).state.guide.events) :
    (r ∈ s.guide.events ∧ ¬ (r.service = half b 2 ∧ r.originSection = byteAt b 5)) ∨
      ∃ n < (byteAt b 7).toNat, usableAt b n = true ∧ r = candidateAt b n := by
  rw [applySection_eq] at mem
  refine (mem_foldInsert mem).imp (fun before => ?_) mem_sectionEvents.mp
  obtain ⟨stood, other⟩ := List.mem_filter.mp before
  exact ⟨stood, not_and_or.mpr (by simpa using other)⟩

theorem sectionBegun_eq (b : List Byte) (s : State) : s.sectionBegun b = (s.setEvents (s.otherOrigins b)).countGuide fun c =>
    { c with applied := c.applied + 1, skipped := c.skipped + BitVec.ofNat 32 ((byteAt b 7).toNat - (sectionEvents b).length) } := by
  rw [State.sectionBegun, sectionSkips_eq]

end Sys2Proof.Machine
end

