-- ==== Sys2Proof/Proofs/GuideSections.lean ====
section
/-! SUPPORT. What one candidate leaves in the event table, with room and without (R117, R118), and the sections as a whole (R110 to R119). -/

namespace Sys2Proof.Machine

/-! ## A candidate inserted (R117, R118) -/

section
variable {w : Applying} {e : EventRecord}

theorem mem_kept {r : EventRecord} : r ∈ w.kept e ↔ r ∈ w.state.guide.events ∧ ¬ e.yields r = true := by
  simp [Applying.kept]

/-- In a table of at most 512 records a place is free before, or a record that leaves makes one. -/
theorem kept_roomy (few : w.state.guide.events.length ≤ 512)
    (room : w.state.guide.events.length < 512 ∨ ∃ r ∈ w.state.guide.events, e.yields r = true) : (w.kept e).length < 512 := by
  rcases room with free | ⟨r, mem, leaves⟩
  · exact (List.length_filter_le _ _).trans_lt free
  · exact (List.length_filter_lt_length_iff_exists.mpr ⟨r, mem, by simp [leaves]⟩).trans_le few

theorem kept_all (apart : ∀ r ∈ w.state.guide.events, ¬ e.yields r = true) : w.kept e = w.state.guide.events :=
  List.filter_eq_self.mpr fun r mem => by simp [apart r mem]

theorem overlapTouched_all (all : w.kept e = w.state.guide.events) : w.overlapTouched e = w.touched := if_pos (congrArg List.length all)

theorem mem_overlapTouched {n : Half} : n ∈ e.service :: w.overlapTouched e ↔ n ∈ w.touched ∨ n = e.service := by
  unfold Applying.overlapTouched
  split <;> simp [or_comm]

/-- A candidate joins a table with room, and no record leaves but those that overlap it. -/
theorem insert_with_room (room : (w.kept e).length < 512) :
    (∀ r, r ∈ (w.insert e).state.guide.events ↔ r = e ∨ r ∈ w.state.guide.events ∧ ¬ e.yields r = true) ∧
      (∀ n, n ∈ (w.insert e).touched ↔ n ∈ w.touched ∨ n = e.service) ∧
      (w.insert e).state = w.state.setEvents (w.insert e).state.guide.events := by
  rw [insert_roomy room]
  refine ⟨fun r => ?_, fun n => mem_overlapTouched, rfl⟩
  exact (insertEvent_perm e (w.kept e)).mem_iff.trans (List.mem_cons.trans (or_congr_right mem_kept))

section
variable (full : 512 ≤ w.state.guide.events.length) (all : w.kept e = w.state.guide.events)
include full all

/-- A full table counts an eviction and raises GUIDE_FULL, whichever record is given up. -/
theorem insert_into_full : (w.insert e).state = w.state.guideFull.setEvents (w.insert e).state.guide.events := by
  rw [insert_full (all ▸ full)]
  split <;> rfl

/-- The record given up leaves, and the candidate takes its place. -/
theorem insert_evicting {r : EventRecord} (given : evictee w.state.time e w.state.guide.events = some r) :
    (w.insert e).state.guide.events.Perm (e :: w.state.guide.events.erase r) ∧
      ∀ n, n ∈ (w.insert e).touched ↔ n ∈ w.touched ∨ n = e.service ∨ n = r.service := by
  rw [insert_evicts (all ▸ full) (all ▸ given), overlapTouched_all all, all]
  refine ⟨insertEvent_perm e _, fun n => ?_⟩
  simp only [List.mem_cons]
  tauto

theorem insert_discarding (given : evictee w.state.time e w.state.guide.events = none) :
    (w.insert e).state.guide.events = w.state.guide.events ∧ (w.insert e).touched = w.touched := by
  rw [insert_discards (all ▸ full) (all ▸ given), overlapTouched_all all, all]
  exact ⟨rfl, rfl⟩

end

end

theorem not_pastBefore {q r : EventRecord} (h : pastBefore q r = false) : r.stop.toNat < q.stop.toNat ∨ r.stop = q.stop ∧
    (r.service.toNat < q.service.toNat ∨ r.service = q.service ∧ r.start.toNat ≤ q.start.toNat) := by
  rw [← Bool.not_eq_true, pastBefore_iff] at h
  simp only [← BitVec.toNat_inj]
  omega

theorem not_laterBefore {q r : EventRecord} (h : laterBefore q r = false) :
    q.start.toNat < r.start.toNat ∨ q.start = r.start ∧ q.service.toNat ≤ r.service.toNat := by
  rw [← Bool.not_eq_true, laterBefore_iff] at h
  simp only [← BitVec.toNat_inj]
  omega

/-! ## Guide cells taken (R111, R112) -/

section
variable {s : State} {f : FeedId} {c : Cell} {k : Fin 256} {e : FlowEntry} {t : State}

theorem exec_guide_begins (taken : Taken s f c k e t) (kind : e.kind = .guide) (start : c.unitStart = true) :
    exec (.feedCellArrival f c) s = .next ((t.countFeed f .consumed).beginSection k f c).finish := by
  rw [taken.exec, dispose_guide kind, State.guideCell, if_pos start]

theorem exec_guide_continues (taken : Taken s f c k e t) (kind : e.kind = .guide) (start : c.unitStart = false) :
    exec (.feedCellArrival f c) s = .next ((t.countFeed f .consumed).continueSection k f c).finish := by
  rw [taken.exec, dispose_guide kind, State.guideCell, start]
  rfl

end

/-! ## The obligation -/

/-- Settles O35: the branches of a GUIDE cell, of the check and of the register in turn; an application as the insertion of its candidates one by one;
and one insertion by the room in the table and the record given up. -/
theorem guideSections : Obligations.GuideSections := by
  refine ⟨fun s f c k e t taken kind start => ?_, fun s f c k e t taken kind start => ?_, fun s b low => ?_, fun s b few length => ?_,
    fun w e sound stop => ?_⟩
  · intro b l begun count
    have run := exec_guide_begins taken kind start
    refine ⟨fun unusable => ?_, fun low high => ?_, fun low high crc => ?_, fun low high => ⟨fun i free first => ?_, fun busy => ?_⟩⟩
    · rw [run, beginSection_unusable unusable, finish_untouched]
      rfl
    · rw [run, beginSection_whole low high]
    · rw [run, beginSection_whole low high, checkSection_take_crcFailed low (high.trans_eq c.payload.size.symm) crc, finish_untouched]
      rfl
    · have place : begun.guide.slots.firstIdx Option.isNone = some i := Table.firstFree_eq_some free first
      rw [run, beginSection_long low high, place]
      exact congrArg _ (finish_untouched _)
    · have place : begun.guide.slots.firstIdx Option.isNone = none := Table.firstFree_eq_none busy
      rw [run, beginSection_long low high, place]
      exact congrArg _ (finish_untouched _)
  · intro counted
    have run := exec_guide_continues taken kind start
    refine ⟨fun closed => ?_, fun i a read entry first => ?_⟩
    · rw [run, continueSection_closed (slotOf_eq_none closed), finish_untouched]
    · have slot := slotOf_eq_some read entry first
      refine ⟨fun foreign => ?_, fun feed flow => ⟨fun more => ?_, fun complete => ?_⟩⟩
      · rw [run, continueSection_open slot read, if_pos foreign, finish_untouched]
      · rw [run, continueSection_gathers slot read feed flow more, finish_untouched]
        rfl
      · rw [run, continueSection_completes slot read feed flow complete]
        rfl
  · intro l count unusable
    refine ⟨fun crc => checkSection_crcFailed crc s, fun crc => ⟨fun bad => ?_, fun good => ?_⟩⟩
    · rw [checkSection_checked crc, if_neg fun usable => sectionUsable_iff.mp usable bad]
      rfl
    · intro holds entered
      rw [checkSection_checked crc, if_pos (sectionUsable_iff.mpr good)]
      refine ⟨fun i r read service number first => ?_, fun i absent empty first => takeSection_new absent empty first,
        fun absent full => takeSection_full absent full⟩
      have keyed := takeSection_keyed read service number first
      exact ⟨fun same => keyed.trans (if_pos same), fun newer => keyed.trans (if_neg newer)⟩
  · intro t origin at_ usable read candidates rest start
    have begun : s.sectionBegun b = start := sectionBegun_eq b s
    have only : InsertsOnly (s.sectionBegun b) t := applySection_insertsOnly b s
    refine ⟨begun ▸ applySection_eq b s, fun r mem => mem_applySection mem, ?_, fun skipped once named => ?_, ?_, ?_, ?_⟩
    · rw [only]
      rfl
    · rw [length_eq_sectionSkips once named, only]
      rfl
    all_goals
      rw [only]
      rfl
  · intro overlapping events past t evicted
    have yields (r : EventRecord) : e.yields r = true ↔ overlapping r := yields_iff
    refine ⟨insert_sound e sound, fun room => ?_, fun full apart => ?_⟩
    · simp only [← yields] at room ⊢
      exact insert_with_room (kept_roomy sound.1 room)
    · have all : w.kept e = events := kept_all fun r mem => mt (yields r).mp (apart r mem)
      have isPast (r : EventRecord) : w.state.time.isPast r = true ↔ past r := isPast_iff
      simp only [← isPast]
      refine ⟨insert_into_full full all, fun gone => ?_, fun unpast => ⟨fun later => ?_, fun earlier => ?_⟩⟩
      · obtain ⟨r, held, given, ended, least⟩ := evictee_past (e := e) gone
        exact ⟨r, held, ended, fun q mem past => not_pastBefore (least q mem past), insert_evicting full all given⟩
      · obtain ⟨r, held, given, least⟩ := evictee_later unpast later
        exact ⟨r, held, fun q mem => not_laterBefore (least q mem), insert_evicting full all given⟩
      · exact insert_discarding full all (evictee_none unpast earlier)

end Sys2Proof.Machine
end

