-- ==== Sys2Proof/Proofs/ChangesPlaced.lean ====
section
/-! SUPPORT. The current-event changes of one recomputation (R120), taken by both units: each destination is told of one index, so that sixty attention
records are the most that they place, and a report cell always has a place (R166, R167). -/

namespace Sys2Proof.Machine

/-! ## The index that a destination shows -/

/-- The service index of a destination in use. -/
def Dest.index (x : Dest) : Option (Fin 64) := if x.state = .vacant then none else x.service

theorem index_eq_some {x : Dest} {i : Fin 64} : x.index = some i ↔ x.state ≠ .vacant ∧ x.service = some i := by
  unfold Dest.index
  split <;> simp [*]

theorem Dest.Bound.index {x y : Dest} (h : x.Bound y) : y.index = x.index := by
  unfold Dest.index
  rw [h.service]
  simp only [h.vacant]

/-- No announcement moves a destination to another index. -/
theorem take_index (a : Announcement) (d : DestId) (s : State) : ((a.take s).1.dest d).index = (s.dest d).index := by
  by_cases live : (s.dest d).state = .vacant
  · cases reports : a.reports with
    | false => exact (take_unreported_bound reports d s).index
    | true =>
      cases a with
      | accessReport e v =>
        by_cases same : e = d
        · subst same
          exact congrArg (fun t : State => (t.dest e).index) (takeAccessReport_vacant live v)
        · exact (takeAccessReport_stands_other (Ne.symm same) v s).bound.index
      | _ => cases reports
  · exact (take_bound a live).index

/-- How many destinations show index `i`. -/
def State.shown (i : Fin 64) (s : State) : Nat := (List.finRange 12).countP fun d => (s.dest d).index == some i

theorem shown_congr {s t : State} (index : ∀ d, (t.dest d).index = (s.dest d).index) (i : Fin 64) : t.shown i = s.shown i := by
  simp only [State.shown, index]

/-- Each destination shows one index, or none. -/
theorem sum_shown_le (s : State) : ((List.finRange 64).map fun i => s.shown i).sum ≤ 12 := by
  have counted (l : List DestId) :
      ((List.finRange 64).map fun i => l.countP fun d => (s.dest d).index == some i).sum ≤ l.length := by
    induction l with
    | nil => simp
    | cons d l ih =>
      have one : ((List.finRange 64).map fun i => if (s.dest d).index == some i then 1 else 0).sum ≤ 1 := by
        rw [← Fin.sum_univ_def]
        cases (s.dest d).index <;> simp
      simp only [List.countP_cons, List.sum_map_add, List.length_cons]
      omega
  exact (counted (List.finRange 12)).trans_eq List.length_finRange

/-! ## The attention records of an announcement -/

/-- The announcement tells a unit of a current-event change, or the controller of the verdict that it brings. -/
def Announcement.tells : Announcement → Bool
  | .accessChange _ | .parentalChange _ | .accessReport _ _ => true
  | _ => false

/-- The attention records that such an announcement can place, with those of the reports that it brings. -/
def Announcement.records (s : State) : Announcement → Nat
  | .accessChange c => 3 * s.shown c.index
  | .parentalChange c => 2 * s.shown c.index
  | _ => 3

theorem records_congr {s t : State} (index : ∀ d, (t.dest d).index = (s.dest d).index) (a : Announcement) : a.records t = a.records s := by
  cases a <;> simp only [Announcement.records, shown_congr index]

/-- A change brings at most one report of each destination on its index. -/
theorem accessReports_shown (i : Fin 64) (s : State) : (s.accessReports fun x => x.service == some i).length ≤ s.shown i := by
  rw [State.accessReports, entries_eq, List.filterMap_map, List.length_filterMap_eq_countP, State.shown]
  refine List.countP_mono_left fun d _ reported => ?_
  rw [Function.comp_apply] at reported
  split at reported
  · next j service =>
    split at reported
    · next named =>
      simp only [Bool.and_eq_true, bne_iff_ne, beq_iff_eq] at named
      obtain ⟨⟨live, on⟩, -⟩ := named
      exact beq_iff_eq.mpr (index_eq_some.mpr ⟨live, on⟩)
    · cases reported
  · cases reported

/-- The verdicts of the destinations on an index are formed and reported: two records each at most (R137, R140). -/
theorem formEach_shown_places (i : Fin 64) (s : State) : Places (2 * s.shown i) s (s.formEach fun x => x.service == some i) := by
  have each (l : List DestId) (t : State) (index : ∀ d, (t.dest d).index = (s.dest d).index) :
      Places (2 * l.countP fun d => (s.dest d).index == some i) t
        (l.foldl (fun u d => if (u.dest d).isViewing && (u.dest d).service == some i then u.formAndReport d else u) t) := by
    induction l generalizing t with
    | nil => exact .refl t
    | cons d l ih =>
      rw [List.foldl_cons, List.countP_cons]
      by_cases named : ((t.dest d).isViewing && (t.dest d).service == some i) = true
      · rw [if_pos named]
        obtain ⟨viewing, on⟩ := Bool.and_eq_true_iff.mp named
        have shown : (s.dest d).index = some i :=
          (index d).symm.trans (index_eq_some.mpr ⟨(isViewing_iff.mp viewing).1, beq_iff_eq.mp on⟩)
        have rest := ih (t.formAndReport d) fun e => (formAndReport_bound e d t).index.trans (index e)
        refine ((formAndReport_places d t).trans rest).mono ?_
        rw [shown]
        simp
        omega
      · rw [if_neg named]
        exact (ih t index).mono (by omega)
  exact each (List.finRange 12) s fun _ => rfl

theorem parentalEventChange_shown_places (i : Fin 64) (s : State) : Places (2 * s.shown i) s (s.parentalEventChange i) := by
  have same : (s.eventForgotten i).shown i = s.shown i := shown_congr (fun d => by rw [eventForgotten_dest]) i
  exact ((eventForgotten_places s i).trans (same ▸ formEach_shown_places i (s.eventForgotten i))).mono (by omega)

/-- What one such announcement leaves, and the records that it places. -/
structure Tells (a : Announcement) (s : State) : Prop where
  settled : Settled s (a.take s).1
  tells : ∀ b ∈ (a.take s).2, b.tells = true
  places : ∃ n, Places n s (a.take s).1 ∧ n + ((a.take s).2.map (Announcement.records s)).sum ≤ a.records s

/-- An announcement that brings no other. -/
theorem Tells.quiet {a : Announcement} {s t : State} (taken : a.take s = (t, [])) (settled : Settled s t) (places : Places (a.records s) s t) :
    Tells a s := by
  refine ⟨?_, ?_, a.records s, ?_, ?_⟩ <;> rw [taken]
  · exact settled
  · exact fun _ mem => by cases mem
  · exact places
  · exact Nat.le_refl _

theorem tells_of {a : Announcement} (h : a.tells = true) (s : State) : Tells a s := by
  cases a with
  | accessChange c =>
    refine ⟨formAccess_frame _ s, fun b mem => ?_, 0, .ofLink (storeLast_link s _), ?_⟩
    · obtain ⟨r, -, rfl⟩ := List.mem_map.mp mem
      rfl
    · have reported := accessReports_shown c.index s
      have cost (l : List (DestId × AccessVerdict)) :
          ((l.map fun r => Announcement.accessReport r.1 r.2).map (Announcement.records s)).sum = 3 * l.length := by
        simp [Function.comp_def, Announcement.records, mul_comm]
      show 0 + (List.map _ (List.map _ (s.accessReports _))).sum ≤ 3 * s.shown c.index
      rw [cost]
      omega
  | parentalChange c =>
    exact .quiet (take_parentalChange c s) (parentalEventChange_frame c.index s).toSettled (parentalEventChange_shown_places c.index s)
  | accessReport d v => exact .quiet rfl (takeAccessReport_frame d v s).toSettled (takeAccessReport_places d s v)
  | _ => cases h

/-! ## The delivery of the changes -/

/-- While changes sent from `u` wait: what they leave, and room for the records that they can still place. -/
structure ChangesWait (u : State) (l : List Announcement) (t : State) : Prop where
  tells : ∀ a ∈ l, a.tells = true
  settled : SettledBut u t
  index : ∀ d, (t.dest d).index = (u.dest d).index
  places : ∃ n, Places n u t ∧ n + (l.map (Announcement.records u)).sum ≤ 60

theorem changesWait_kept (u : State) : KeptByTaking (ChangesWait u) where
  choice l t k x h := by
    obtain ⟨n, places, few⟩ := h.places
    exact ⟨h.tells, h.settled.trans (Chosen.settledBut ⟨k, x, rfl⟩), h.index, n, places.behind rfl, few⟩
  taking before a rest t _ h := by
    obtain ⟨first, own, later⟩ : (∀ b ∈ before, b.tells = true) ∧ a.tells = true ∧ ∀ b ∈ rest, b.tells = true := by
      simpa [or_imp, forall_and] using h.tells
    have told := tells_of own t
    obtain ⟨n, places, few⟩ := h.places
    obtain ⟨m, more, brought⟩ := told.places
    refine ⟨fun b mem => ?_, h.settled.trans told.settled.but, fun d => (take_index a d t).trans (h.index d), n + m, places.trans more, ?_⟩
    · simp only [List.mem_append] at mem
      rcases mem with (mem | mem) | mem
      · exact first b mem
      · exact later b mem
      · exact told.tells b mem
    · have cost : Announcement.records t = Announcement.records u := funext (records_congr h.index)
      rw [cost] at brought
      simp only [List.map_append, List.map_cons, List.sum_append, List.sum_cons] at few ⊢
      omega

/-- The changes of one recomputation can place sixty records. -/
theorem recompute_records (want : Fin 64 → Bool) (s : State) : ((s.recompute want).2.map (Announcement.records s)).sum ≤ 60 := by
  have each (l : List (Fin 64)) : ((l.flatMap fun i =>
      if want i = true ∧ s.guide.current.read i ≠ s.currentOf i ∧ s.showsIndex i = true then
        [Announcement.accessChange ⟨i, s.guide.current.read i, s.currentOf i⟩, .parentalChange ⟨i, s.guide.current.read i, s.currentOf i⟩]
      else []).map (Announcement.records s)).sum ≤ 5 * (l.map fun i => s.shown i).sum := by
    induction l with
    | nil => simp
    | cons i l ih =>
      rw [List.flatMap_cons, List.map_append, List.sum_append, List.map_cons, List.sum_cons]
      split
      · simp only [List.map_cons, List.map_nil, List.sum_cons, List.sum_nil, Announcement.records]
        omega
      · simp only [List.map_nil, List.sum_nil]
        omega
  have shown := sum_shown_le s
  rw [recompute_changes]
  exact (each _).trans (by omega)

/-- A recomputation, with its changes taken by both units. -/
def State.recomputed (want : Fin 64 → Bool) (s : State) : State := (s.recompute want).1.deliver (s.recompute want).2

theorem recomputed_wait (want : Fin 64 → Bool) (s : State) : ChangesWait (s.recompute want).1 [] (s.recomputed want) := by
  refine deliver_induct (changesWait_kept _) ⟨fun a mem => ?_, (Settled.refl _).but, fun _ => rfl, 0, .refl _, ?_⟩
  · obtain ⟨c, -, mem⟩ := List.mem_flatMap.mp mem
    simp only [List.mem_cons, List.not_mem_nil, or_false] at mem
    rcases mem with rfl | rfl <;> rfl
  · have cost : Announcement.records (s.recompute want).1 = Announcement.records s := funext (records_congr fun _ => rfl)
    rw [cost, Nat.zero_add]
    exact recompute_records want s

theorem recomputed_places (want : Fin 64 → Bool) (s : State) : Places 60 s (s.recomputed want) := by
  obtain ⟨n, places, few⟩ := (recomputed_wait want s).places
  exact .before (t := (s.recompute want).1) rfl (places.mono few)

/-- Beyond the current events and the free choices, a recomputation leaves what the forming of verdicts leaves. -/
theorem recomputed_settled (want : Fin 64 → Bool) (s : State) : Settled { s with
    guide := { s.guide with current := (s.recomputed want).guide.current }
    freeCount := (s.recomputed want).freeCount, script := (s.recomputed want).script } (s.recomputed want) := by
  have settled := (recomputed_wait want s).settled
  have current : (s.recomputed want).guide.current = (s.recompute want).1.guide.current := congrArg Guide.current settled.guide
  rw [current]
  exact settled

end Sys2Proof.Machine
end

