-- ==== Sys2Proof/Proofs/GuideQueries.lean ====
section
/-! SUPPORT. The orders of the guide builder (R122 to R125): what QUERY_EVENT and QUERY_NEXT find, what READ_GUIDE shows, and what PURGE_GUIDE leaves. -/

namespace Sys2Proof.Machine

/-! ## QUERY_EVENT and QUERY_NEXT (R123, R124) -/

/-- The body of QUERY_EVENT and QUERY_NEXT. -/
def queryBody (n : Half) (time : Word) : List Byte := bytes16 n ++ bytes32 time

theorem half_queryBody (n : Half) (time : Word) : half (queryBody n time) 0 = n := half_bytes16 n _

theorem word_queryBody (n : Half) (time : Word) : word (queryBody n time) 2 = time := word_bytes32 time []

theorem queryReply_length (e : Option EventRecord) : (queryReply e).length = 23 := shown_length (f := EventRecord.bytes) (fun _ => rfl) e

section
variable {s : State} {n : Half} {time : Word} {e : EventRecord}

/-- The record is one of service `n` whose window contains the time given. -/
def EventRecord.ShowsAt (e : EventRecord) (n : Half) (time : Word) : Prop :=
  e.service = n ∧ e.start.toNat ≤ time.toNat ∧ time.toNat < e.stop.toNat

theorem showsAt_iff : (e.service == n && inWindow e.start e.stop time) = true ↔ e.ShowsAt n time := by
  rw [Bool.and_eq_true, beq_iff_eq, inWindow_iff]
  rfl

/-- No two records of a service show at one time (R117). -/
theorem TableSound.showsAt_unique {l : List EventRecord} {r : EventRecord} (sound : TableSound l) (he : e ∈ l) (hr : r ∈ l)
    (eShows : e.ShowsAt n time) (rShows : r.ShowsAt n time) : r = e := by
  by_contra differ
  have symmetric : Std.Symm EventRecord.Apart := ⟨fun _ _ => EventRecord.Apart.symm⟩
  obtain ⟨eService, eStarted, eRuns⟩ := eShows
  obtain ⟨rService, rStarted, rRuns⟩ := rShows
  have apart := sound.2.forall hr he differ (rService.trans eService.symm)
  rw [← Bool.not_eq_true, overlaps_iff] at apart
  omega

/-- The record that QUERY_EVENT answers with. -/
def State.eventAt (s : State) (n : Half) (time : Word) : Option EventRecord :=
  s.guide.events.find? fun e => e.service == n && inWindow e.start e.stop time

theorem eventAt_eq_some (sound : EventsSound s) (held : e ∈ s.guide.events) (eShows : e.ShowsAt n time) : s.eventAt n time = some e := by
  cases found : s.eventAt n time with
  | none => exact absurd (showsAt_iff.mpr eShows) (List.find?_eq_none.mp found e held)
  | some r =>
    have matched := List.find?_some found
    have rShows : r.ShowsAt n time := showsAt_iff.mp matched
    rw [TableSound.showsAt_unique sound held (List.mem_of_find?_eq_some found) eShows rShows]

theorem eventAt_eq_none (hidden : ∀ e ∈ s.guide.events, ¬ e.ShowsAt n time) : s.eventAt n time = none :=
  List.find?_eq_none.mpr fun e held => mt showsAt_iff.mp (hidden e held)

/-- The search for the earliest start, once it holds a record. -/
theorem foldl_earlierStart (a : EventRecord) (l : List EventRecord) :
    ∃ r ∈ a :: l, l.foldl earlierStart (some a) = some r ∧ ∀ q ∈ a :: l, r.start.toNat ≤ q.start.toNat := by
  induction l generalizing a with
  | nil => exact ⟨a, List.mem_cons_self, rfl, List.forall_mem_singleton.mpr le_rfl⟩
  | cons b l ih =>
    rw [List.foldl_cons, earlierStart]
    split
    · next before =>
      obtain ⟨r, mem, found, least⟩ := ih b
      have first := least b List.mem_cons_self
      exact ⟨r, List.mem_cons_of_mem a mem, found, List.forall_mem_cons.mpr ⟨by omega, least⟩⟩
    · next behind =>
      obtain ⟨r, mem, found, least⟩ := ih a
      obtain ⟨first, rest⟩ := List.forall_mem_cons.mp least
      refine ⟨r, ?_, found, List.forall_mem_cons.mpr ⟨first, List.forall_mem_cons.mpr ⟨by omega, rest⟩⟩⟩
      exact (List.mem_cons.mp mem).elim (fun same => same ▸ List.mem_cons_self) fun mem => List.mem_cons_of_mem a (List.mem_cons_of_mem b mem)

/-- The records of service `n` that start above the time given. -/
def State.laterEvents (s : State) (n : Half) (time : Word) : List EventRecord :=
  s.guide.events.filter fun e => e.service == n && time.toNat < e.start.toNat

theorem mem_laterEvents : e ∈ s.laterEvents n time ↔ (e ∈ s.guide.events ∧ e.service = n) ∧ time.toNat < e.start.toNat := by
  simp [State.laterEvents, and_assoc]

/-- The one record that starts first above the time given is the next (R124). -/
theorem nextEvent_eq_some (held : e ∈ s.guide.events ∧ e.service = n) (later : time.toNat < e.start.toNat)
    (first : ∀ r, r ∈ s.guide.events ∧ r.service = n → time.toNat < r.start.toNat → r = e ∨ e.start.toNat < r.start.toNat) :
    s.nextEvent n time = some e := by
  have mem : e ∈ s.laterEvents n time := mem_laterEvents.mpr ⟨held, later⟩
  have search : s.nextEvent n time = (s.laterEvents n time).foldl earlierStart none := rfl
  rw [search]
  cases among : s.laterEvents n time with
  | nil => exact absurd (among ▸ mem) List.not_mem_nil
  | cons a l =>
    obtain ⟨r, found, answer, least⟩ := foldl_earlierStart a l
    rw [← among] at found least
    obtain ⟨stands, above⟩ := mem_laterEvents.mp found
    have same := (first r stands above).resolve_right (least e mem).not_gt
    exact same ▸ answer

theorem nextEvent_eq_none (none_later : ∀ e, e ∈ s.guide.events ∧ e.service = n → e.start.toNat ≤ time.toNat) : s.nextEvent n time = none := by
  have empty : s.laterEvents n time = [] := List.eq_nil_iff_forall_not_mem.mpr fun e mem => by
    obtain ⟨held, later⟩ := mem_laterEvents.mp mem
    exact (none_later e held).not_gt later
  exact congrArg (List.foldl earlierStart none) empty

theorem exec_queryEvent (tag : Half) (rest : LinkAtRest s) (number : n ≠ 0) {e : Option EventRecord} (found : s.eventAt n time = e) :
    exec (.queryEvent tag (queryBody n time)) s = .next (s.answered 0x39 tag .done (queryReply e)) := by
  subst found
  refine exec_order_read .queryEvent tag rest rfl (by rw [queryReply_length]; decide) ?_
  simp only [runOrder, orderQueryEvent, half_queryBody, word_queryBody, if_neg number]
  rfl

theorem exec_queryNext (tag : Half) (rest : LinkAtRest s) (number : n ≠ 0) {e : Option EventRecord} (found : s.nextEvent n time = e) :
    exec (.queryNext tag (queryBody n time)) s = .next (s.answered 0x3A tag .done (queryReply e)) := by
  subst found
  refine exec_order_read .queryNext tag rest rfl (by rw [queryReply_length]; decide) ?_
  simp only [runOrder, orderQueryNext, half_queryBody, word_queryBody, if_neg number]
  rfl

end

/-! ## READ_GUIDE (R125) -/

theorem slotBytes_length (a : Option Assembly) : (slotBytes a).length = 10 := by cases a <;> rfl

theorem slots_bytes (t : Table (Option Assembly) 4) : t.rows.flatMap slotBytes =
    slotBytes (t.read 0) ++ slotBytes (t.read 1) ++ slotBytes (t.read 2) ++ slotBytes (t.read 3) := by
  have rows : t.rows = [t.read 0, t.read 1, t.read 2, t.read 3] := List.ext_getElem t.size fun i h _ => by
    have below : i < 4 := t.size ▸ h
    interval_cases i <;> rfl
  simp [rows]

/-- The reply of READ_GUIDE. -/
def State.guideReply (s : State) : List Byte :=
  slotBytes (s.guide.slots.read 0) ++ slotBytes (s.guide.slots.read 1) ++ slotBytes (s.guide.slots.read 2) ++ slotBytes (s.guide.slots.read 3) ++
    [BitVec.ofNat 8 (s.guide.register.rows.filter (·.isSome)).length] ++ num16 s.guide.events.length ++
      (s.guide.counters.list.map bytes32).flatten

theorem guideReply_length (s : State) : s.guideReply.length = 79 := by
  simp [State.guideReply, slotBytes_length, GuideCounters.list]

theorem exec_readGuide {s : State} (tag : Half) (rest : LinkAtRest s) :
    exec (.readGuide tag []) s = .next (s.answered 0x3B tag .done s.guideReply) := by
  refine exec_order_read .readGuide tag rest rfl (by rw [guideReply_length]; decide) ?_
  rw [runOrder, orderReadGuide, slots_bytes, Table.count, List.countP_eq_length_filter]
  rfl

/-! ## PURGE_GUIDE (R122) -/

/-- What PURGE_GUIDE comes to at the part: the guide emptied, and the indices that lost a record recomputed. -/
def State.purged (n : Half) (s : State) : State := (s.emptyGuide n).recomputed ((s.emptyGuide n).touches (s.purgedNumbers n))

/-- The reply of PURGE_GUIDE. -/
def State.purgeReply (s : State) (n : Half) : List Byte :=
  num16 (s.guide.events.filter fun e => purgeNames n e.service).length ++
    [BitVec.ofNat 8 (s.guide.register.rows.filter fun r => r.any fun x => purgeNames n x.service).length,
     BitVec.ofNat 8 (s.guide.slots.rows.filter fun a => a.any fun x => purgeNames n x.service).length]

theorem orderPurgeGuide_eq (n : Half) (s : State) : orderPurgeGuide (bytes16 n) s = .done (s.purged n) (s.purgeReply n) := by
  have named : half (bytes16 n) 0 = n := bytes16_join n
  rw [orderPurgeGuide, named, Table.count, List.countP_eq_length_filter, Table.count, List.countP_eq_length_filter, List.length_map]
  rfl

section
variable {s : State} {n : Half}

theorem emptyGuide_register {i : Fin 128} {r : RegisterEntry} :
    (s.emptyGuide n).guide.register.read i = some r ↔ s.guide.register.read i = some r ∧ purgeNames n r.service = false := by
  have emptied : (s.emptyGuide n).guide.register.read i = (s.guide.register.read i).filter fun x => !purgeNames n x.service :=
    Table.read_map ..
  simp [emptied]

theorem emptyGuide_slots {i : Fin 4} {a : Assembly} :
    (s.emptyGuide n).guide.slots.read i = some a ↔ s.guide.slots.read i = some a ∧ purgeNames n a.service = false := by
  have emptied : (s.emptyGuide n).guide.slots.read i = (s.guide.slots.read i).filter fun x => !purgeNames n x.service := Table.read_map ..
  simp [emptied]

theorem purged_guide : (s.purged n).guide = { (s.emptyGuide n).guide with current := (s.purged n).guide.current } :=
  (recomputed_settled _ (s.emptyGuide n)).guide

/-- A PURGE_GUIDE on a link at rest: the order's own effect at the guide builder, and a link at rest again. -/
theorem exec_purgeGuide (tag : Half) (rest : LinkAtRest s) : ∃ t, exec (.purgeGuide tag (bytes16 n)) s = .next t ∧
    (∃ c, t.guide = { (s.emptyGuide n).guide with current := c }) ∧
      Settled { s with guide := t.guide, freeCount := t.freeCount, script := t.script } t := by
  obtain ⟨r, same⟩ : ∃ r : OrderRecord, r = ⟨Order.purgeGuide.code, tag, bytes16 n⟩ := ⟨_, rfl⟩
  have run : runOrder .purgeGuide (bytes16 n) (s.during r) = _ := orderPurgeGuide_eq n (s.during r)
  have guide := purged_guide (s := s.during r) (n := n)
  have settled : Settled { s.during r with
      guide := ((s.during r).purged n).guide, freeCount := ((s.during r).purged n).freeCount
      script := ((s.during r).purged n).script } ((s.during r).purged n) :=
    { recomputed_settled _ ((s.during r).emptyGuide n) with guide := rfl }
  have places : Places 60 (s.during r) ((s.during r).purged n) := .before (by rfl) (recomputed_places _ ((s.during r).emptyGuide n))
  generalize (s.during r).purged n = u at *
  subst same
  obtain ⟨l, next, atRest⟩ := exec_order_settled .purgeGuide tag (u := u)
    (v := { s with guide := u.guide, freeCount := u.freeCount, script := u.script }) rest rfl run settled rfl places (Nat.le_of_ble_eq_true rfl)
  exact ⟨_, next, ⟨_, guide⟩, atRest⟩

end

/-! ## The obligation -/

/-- Settles O36: the queries by the one record that shows, or starts next, and PURGE_GUIDE by the guide emptied, its changes taken with room for
every attention record. -/
theorem guideOrders : Obligations.GuideOrders := by
  refine ⟨fun s tag n time rest sound => ?_, fun s tag n rest => ?_⟩
  · intro record held shows body
    have found (e : EventRecord) : record e = queryReply (some e) := rfl
    have absent : List.replicate 23 (0 : Byte) = queryReply none := rfl
    refine ⟨fun zero => ?_, fun number => ⟨fun e eShows => ?_, fun hidden => ?_, fun e mem later first => ?_, fun none_later => ?_⟩, ?_⟩
    · subst zero
      have range : half body 0 = 0 := half_queryBody 0 time
      exact ⟨exec_order_refused .queryEvent tag rest rfl fun u => by simp [runOrder, orderQueryEvent, range],
        exec_order_refused .queryNext tag rest rfl fun u => by simp [runOrder, orderQueryNext, range]⟩
    · obtain ⟨⟨mem, service⟩, started, runs⟩ := eShows
      rw [found]
      exact exec_queryEvent tag rest number (eventAt_eq_some sound mem ⟨service, started, runs⟩)
    · rw [absent]
      exact exec_queryEvent tag rest number (eventAt_eq_none fun e mem ⟨service, window⟩ => hidden e ⟨⟨mem, service⟩, window⟩)
    · rw [found]
      exact exec_queryNext tag rest number (nextEvent_eq_some mem later first)
    · rw [absent]
      exact exec_queryNext tag rest number (nextEvent_eq_none none_later)
    · intro slot
      have shown (a : Option Assembly) : slot a = slotBytes a := by cases a <;> rfl
      simp only [shown]
      exact exec_readGuide tag rest
  · intro named abandoned
    refine ⟨congrArg Answer.body (orderPurgeGuide_eq n s), ?_⟩
    obtain ⟨t, run, ⟨c, guide⟩, settled⟩ := exec_purgeGuide (n := n) tag rest
    refine ⟨t, run, ?_, fun i r => ?_, fun i a => ?_, ?_, settled⟩ <;> rw [guide]
    · rfl
    · exact emptyGuide_register
    · exact emptyGuide_slots
    · have counted : abandoned = s.guide.slots.count fun a => a.any fun x => purgeNames n x.service := List.countP_eq_length_filter.symm
      rw [counted]
      rfl

end Sys2Proof.Machine
end
